-- ==== Sys2Proof/Word.lean ====
section
/-! DEFINITION. The word types of the KX9 (spec/00 R2, R4): bytes, halves, words, dwords, the lane mask of a
1,024-lane team (spec/02 R38, R39). Only the types stand here; every helper over them is in Machine/. -/
namespace Sys2Proof

/-- 8 bits (R4). -/
abbrev Byte := BitVec 8
/-- 32 bits (R4). -/
abbrev Word := BitVec 32
/-- 64 bits (R4). -/
abbrev DWord := BitVec 64
/-- One bit per lane, lane L at bit L: mask word L / 32, bit L mod 32 (R38). The 32-bit summary word of R39 is a
view of it (`Machine.maskSummary`). -/
abbrev LaneMask := BitVec 1024

end Sys2Proof
end

