-- ==== Sys2Proof/Config.lean ====
section
/-! DEFINITION. What one KX9 fixes and the spec leaves open. An `opaque` here is a FREE VALUE: it has no body a
proof could use, so a claim holds whatever it is (log 6, 16, 17, 18). The free values are applied to the counter
`State.free`, which every step advances, and to plain indices. -/
namespace Sys2Proof.Config

/-- An unpredictable 32-bit value (R9, R10), by step, kind of use and index. -/
opaque freeWord : Nat → Nat → Nat → Word
/-- An unpredictable byte: seed and offset (R10, R365). -/
opaque freeByte : Nat → Nat → Byte
/-- A choice the device does not fix: "before or after" of R123, per step and index. -/
opaque freeBit : Nat → Nat → Bool
/-- A choice among n things, where the device fixes no order (R355, R397, R412). -/
opaque freeNat : Nat → Nat → Nat
/-- The fixed hash of R335: context, source unit, destination unit; the numbers of the units are the model's (log 89). -/
opaque portHash : Nat → Nat → Nat → Nat
/-- Measurement 0 (R340): what the boot ROM, which is fixed, measures to. -/
opaque romDigest : Nat → Byte
/-- Measurement 2 (R340): what an effective repair list measures to; the spec gives no byte form of it. -/
opaque repairDigest : List (Nat × Nat × Nat) → Nat → Byte
/-- Size of the HDM decoder range that firmware programs (R333). -/
opaque hdmSize : Nat
/-- The fixed F32 functions of R142, known only within the bounds of R141. -/
opaque rcp : Word → Word
opaque rsq : Word → Word
opaque exp2 : Word → Word
opaque log2 : Word → Word
opaque tanh : Word → Word
/-- Whether the LMS signature of a staged image verifies against the fused key hash (R340): the image's key
region is summarised by a number the caller forms from its bytes. -/
opaque signatureValid : List Byte → Bool

/-- Trains of a device (R16). -/
def trains : Nat := 64
/-- Coaches of a device (R16). -/
def coaches : Nat := 512
/-- Team slots of a coach (R33). -/
def teamSlots : Nat := 16
/-- Register lines of a coach (R33). -/
def registerLines : Nat := 384
/-- Scratchpad bytes of a coach (R33). -/
def scratchpadBytes : Nat := 786432
/-- Bank units of a device (R16). -/
def bankUnits : Nat := 131072
/-- Range-lock entries per context and die (R201). -/
def rangeLocks : Nat := 256
/-- Members a partition may span (R16). -/
def maxMembers : Nat := 16384

end Sys2Proof.Config
end

