-- ==== Sys2Proof/Types.lean ====
section
/-! DEFINITION. The fixed sets of names the spec gives: element types, rounding modes, matrix formats, request
types, scopes, causes. Their codes and widths are functions in Machine/Formats.lean. -/
namespace Sys2Proof

/-- Element types of MODE.ET and MODE.CVS (R80, R126). -/
inductive ET
  | i32 | n32 | i16 | n16 | i8 | n8 | i64 | n64 | f32 | f16 | bf16 | f64 | f16x2 | bf16x2 | i8x4 | n8x4
deriving DecidableEq, Repr

/-- Rounding modes of MODE.RM (R132); codes 6 and 7 are reserved. -/
inductive RM
  | rne | rtz | rdn | rup | rna | stoch
deriving DecidableEq, Repr

/-- Matrix operand formats of MODE.ETA and MODE.ETB (R144); codes 10 to 15 are reserved. -/
inductive MFmt
  | e2m1 | e2m3 | e3m2 | e4m3 | e5m2 | bf16 | f16 | f32 | i8 | i4
deriving DecidableEq, Repr

/-- Request types of the POL field (R84). -/
inductive Pol
  | si | own | wt | nc
deriving DecidableEq, Repr

/-- Scopes (R85). -/
inductive Scope
  | drv | dev | prt | sys
deriving DecidableEq, Repr

/-- Combine of VCMP (R78). -/
inductive Comb
  | set | and | or
deriving DecidableEq, Repr

/-- Conditions of VCMP (R78). -/
inductive Cond
  | eq | ne | lt | le | gt | ge
deriving DecidableEq, Repr

/-- Conditions of SCMP (R78, R404). -/
inductive SCond
  | eq | ne | lt | le | ltn | len
deriving DecidableEq, Repr

/-- Operators of VRED and VSCAN (R78). -/
inductive RedOp
  | add | min | max | and | or | xor
deriving DecidableEq, Repr

/-- Two-source vector operations, opcodes 0x30 to 0x3C (R419). -/
inductive VOp
  | add | sub | mul | mulh | mad | min | max | and | or | xor | shl | shr | sra
deriving DecidableEq, Repr

/-- One-source vector functions of the VFN family (R422), VCVT apart. -/
inductive VFn
  | abs | neg | not | clz | popc | rcp | rsq | sqrt | exp2 | log2 | tanh
deriving DecidableEq, Repr

/-- Operators of atomics and reduce-on-write (R354, R395). -/
inductive AtOp
  | add | min | max | and | or | xor | xchg | cas
deriving DecidableEq, Repr

/-- Cause codes (R291). -/
inductive Cause
  | illegalOp | illegalReg | modeInvalid | priv | tableRange | misalign | stack | trapSw
  | pageNotPresent | pageWrite | pageMigrating | protection | synonym | ownerLost | keyEnded | integrity | poison
  | rangeLock | handle | remoteFault | remoteTimeout | gate | watchdog | bankFault | engineFault | ckptAdvise
deriving DecidableEq, Repr

/-- Fence kinds (R78). -/
inductive FenceKind
  | rel | acq | full | acqn
deriving DecidableEq, Repr

/-- Copy functions of opcode 0x7B and DIGEST (R253). -/
inductive CopyFn
  | copy | copy2 | fill | gath | gate | digest
deriving DecidableEq, Repr

/-- Collective functions of opcode 0x7D (R265). -/
inductive CollFn
  | red | gath | scat | xch
deriving DecidableEq, Repr

/-- Tag kinds of YIELDC and the waits (R264). -/
inductive TagKind
  | copy | coll | bank | mm
deriving DecidableEq, Repr

/-- Matrix shapes (R205). -/
inductive MShape
  | mm128 | mm256 | mm512 | mm1024
deriving DecidableEq, Repr

/-- Memory tiers (R170). -/
inductive Tier
  | hbm | lpddr | cxl | host
deriving DecidableEq, Repr

/-- Handler-delivered or page causes need these widths of TINFO and TADDR (R291). -/
structure TrapInfo where
  cause : Cause
  tinfo : Word
  taddr : DWord
deriving DecidableEq, Repr

/-- A register operand of a bank unit (R93). -/
inductive BReg
  | q (n : BitVec 2)
  | k (n : BitVec 3)
deriving DecidableEq, Repr

/-- The coach instructions a bank unit admits, with its register operands (R93). -/
inductive BankOp
  | alu (op : VOp) (d : BitVec 2) (a b : BReg)
  | sel (d : BitVec 2) (a b : BReg)
  | cmp (comb : Comb) (cond : Cond) (q : BitVec 2) (a b : BReg)
  | vli (d : BitVec 2) (imm : BitVec 16)
  | bra (off : BitVec 24)
  | modeLo (imm : BitVec 16)
  | modeHi
deriving DecidableEq, Repr

/-- Why a context halts: its cause and the fields of the stop header (R298, R302). `origin` is the origin kind of
R302, `unit` the origin unit. -/
structure HaltCause where
  ctx : Nat
  cause : Cause
  origin : Nat
  unit : Nat
  tinfo : Word
  taddr : DWord
deriving DecidableEq, Repr

/-- What the memory manager does to resolve a page fault (R177): 8-byte entries it writes in translator-private
memory, in all sixteen copies (R169). -/
structure PageFix where
  ptes : List (Nat × DWord)
deriving DecidableEq, Repr

/-- What one access does at its place (R186, R249). -/
inductive MemOp
  | read
  | write (v : DWord)
  | atomic (op : AtOp) (x cmp : DWord)
deriving DecidableEq, Repr

/-- A partition-window request that reaches this device from another member (R159, R307). -/
structure RemoteReq where
  id : Nat
  initiator : Nat
  ctx : Nat
  comp : Nat
  off : Nat
  width : Nat
  pol : Pol
  et : ET
  ftz : Bool
  op : MemOp
deriving DecidableEq, Repr

/-- What a collective asks for, matched across members (R266). -/
structure CollDesc where
  fn : CollFn
  len : Nat
  ty : Nat
  op : Nat
deriving DecidableEq, Repr

/-- A 64 KiB chunk of a collective on the fabric (R268). -/
structure Chunk where
  seq : Word
  coll : Nat
  desc : CollDesc
  off : Nat
  data : List Byte
deriving DecidableEq, Repr

/-- What a flit from outside the device brings, and the Ectoup port on which it arrives (spec/14 R334). -/
structure Inbound (α : Type) where
  port : Nat
  item : α
deriving DecidableEq, Repr

/-- One block move of a migration engine (R326, R327): the key slot, the page's layout, and the sealed blocks it moves
from and to; with no source the block arrives from another device with these bytes (none for a fresh block), with no
destination it goes to another device; `session`, `peer` and `port` are those of such a transfer. -/
structure Migration where
  slot : Nat
  linear : Bool
  src : Option Nat
  dst : Option Nat
  data : Option (List Byte)
  session : Nat
  peer : Nat
  port : Nat
deriving DecidableEq, Repr

/-- An arm or withdrawal of a gang switch, received from another member (R362). -/
structure SwitchArm where
  part : Nat
  sender : Nat
  withdraw : Bool
  ctx : Nat
  time : DWord
deriving DecidableEq, Repr

/-- An acknowledgement of an arm (R362): the member that sends it, and whether the incoming context is resident there. -/
structure SwitchAck where
  member : Nat
  resident : Bool
deriving DecidableEq, Repr

/-- A gate of a world descriptor (R315). -/
structure Gate where
  valid : Bool
  issuer : Nat
  dcmp : Nat
  scmp : Nat
  swin : DWord
  dwin : DWord
  slen : Nat
  dlen : Nat
deriving DecidableEq, Repr

/-- The context record (R270); `rxlen` counts 64 KiB units. -/
structure CtxRecord where
  ctxid : Nat
  asid : Nat
  root : DWord
  rimg : DWord
  pwbase : DWord
  bksave : DWord
  rxreg : DWord
  rxlen : Nat
  kslot : Nat
  nodetab : DWord
  ncount : Nat
  stoparea : DWord
  poltab : DWord
  qsave : DWord
  slotimg : List Word
deriving DecidableEq, Repr

/-- What firmware gives a partition on this device (R279, R311, R335). -/
structure PartCfg where
  owned : List Nat
  slices : List Nat
  borrowLimit : Nat
  ports : List Nat
  member : Nat
  members : Nat
  schedule : List (Nat × Nat)
  epoch : DWord
  routes : List (Nat × (Nat × List Nat))
deriving DecidableEq, Repr

/-- What system software gives firmware to create a context (R270, R313): the record, the world descriptor's
counts and gates, the partition (with what firmware gives it when it is new), its page tables as entries of translator-private memory, and the bytes it loads
into the context's pages, by VA. -/
structure CtxSpec where
  part : Nat
  cfg : Option PartCfg
  record : CtxRecord
  nc : Nat
  seqmax : Nat
  gates : List Gate
  ptes : List (Nat × DWord)
  load : List (Nat × Byte)
deriving DecidableEq, Repr

/-- Where an error is found (R309). -/
inductive ErrSite
  | block (key : Nat)
  | l2Line (asid line : Nat)
  | l1Line (coach asid line : Nat)
  | icacheLine (coach asid line : Nat)
  | regLine (tid line : Nat)
  | stateFrame (tid : Nat)
  | scratchpad (drove handle : Nat)
  | keyTable
  | scheduler (ctx : Nat)
  | port (n : Nat)
  | hostLink
deriving DecidableEq, Repr

/-- A unit that fails in service (R310). -/
inductive EngineUnit
  | dray (n : Nat)
  | tandem (die : Nat)
  | nmu (n : Nat)
  | tensor (coach : Nat)
  | bank (unit : Nat)
deriving DecidableEq, Repr

/-- The advisory sources of R291 and R297, with R349's threshold kinds. -/
inductive AdvKind
  | slice | port | lpddr | cxl | hostLink
deriving DecidableEq, Repr

end Sys2Proof
end

