-- ==== Sys2Proof/Machine/Formats.lean ====
section
/-! DEFINITION. Codes, widths and limits of the element types, matrix formats, request types, scopes and causes
(spec/03 R78-R85, spec/05 R126-R147, spec/12 R291), and the plain bit-field helpers. -/
namespace Sys2Proof.Machine

/-- Bits hi..lo of a Nat (R2, R12). -/
def field (x hi lo : Nat) : Nat := (x >>> lo) % 2 ^ (hi + 1 - lo)

/-- The n-bit value x read as two's complement. -/
def sextNat (n x : Nat) : Int := if x % 2 ^ n < 2 ^ (n - 1) then (x % 2 ^ n : Nat) else ((x % 2 ^ n : Nat) : Int) - 2 ^ n

/-- An integer reduced to its n-bit pattern. -/
def toBits (n : Nat) (x : Int) : Nat := (x % (2 ^ n : Nat)).toNat

/-- ET and CVS codes (R80): all sixteen are assigned. -/
def etOfCode (c : Nat) : ET :=
  match c with
  | 0 => .i32 | 1 => .n32 | 2 => .i16 | 3 => .n16 | 4 => .i8 | 5 => .n8 | 6 => .i64 | 7 => .n64
  | 8 => .f32 | 9 => .f16 | 10 => .bf16 | 11 => .f64 | 12 => .f16x2 | 13 => .bf16x2 | 14 => .i8x4
  | _ => .n8x4

/-- RM codes (R80): 6 and 7 are reserved. -/
def rmOfCode (c : Nat) : Option RM :=
  match c with
  | 0 => some .rne | 1 => some .rtz | 2 => some .rdn | 3 => some .rup | 4 => some .rna | 5 => some .stoch
  | _ => none

/-- ETA and ETB codes (R80): 10 to 15 are reserved. -/
def mfmtOfCode (c : Nat) : Option MFmt :=
  match c with
  | 0 => some .e2m1 | 1 => some .e2m3 | 2 => some .e3m2 | 3 => some .e4m3 | 4 => some .e5m2
  | 5 => some .bf16 | 6 => some .f16 | 7 => some .f32 | 8 => some .i8 | 9 => some .i4
  | _ => none

/-- POL as a request type (R84). -/
def polOfCode (c : Nat) : Pol := match c with | 0 => .si | 1 => .own | 2 => .wt | _ => .nc
/-- POL code (R84). -/
def polCode (p : Pol) : Nat := match p with | .si => 0 | .own => 1 | .wt => 2 | .nc => 3
/-- POL as a scope (R85). -/
def scopeOfCode (c : Nat) : Scope := match c with | 0 => .drv | 1 => .dev | 2 => .prt | _ => .sys
/-- Scope code (R85). -/
def scopeCode (p : Scope) : Nat := match p with | .drv => 0 | .dev => 1 | .prt => 2 | .sys => 3

/-- Bits of one element (R126). -/
def etBits (t : ET) : Nat :=
  match t with
  | .i32 | .n32 | .f32 => 32
  | .i16 | .n16 | .f16 | .bf16 | .f16x2 | .bf16x2 => 16
  | .i8 | .n8 | .i8x4 | .n8x4 => 8
  | .i64 | .n64 | .f64 => 64

/-- Elements of one register group (R126, R127). -/
def etElems (t : ET) : Nat := match t with | .f16x2 | .bf16x2 => 2 | .i8x4 | .n8x4 => 4 | _ => 1

/-- Memory width in bytes (R80). -/
def etMemWidth (t : ET) : Nat :=
  match t with
  | .i16 | .n16 | .f16 | .bf16 => 2
  | .i8 | .n8 => 1
  | .i64 | .n64 | .f64 => 8
  | _ => 4

/-- 64-bit types occupy an even register pair (R127). -/
def et64 (t : ET) : Bool := match t with | .i64 | .n64 | .f64 => true | _ => false

/-- Floating-point element types (R129). -/
def etFloat (t : ET) : Bool := match t with | .f32 | .f16 | .bf16 | .f64 | .f16x2 | .bf16x2 => true | _ => false

/-- Signed integer types (R126). -/
def etSigned (t : ET) : Bool := match t with | .i32 | .i16 | .i8 | .i64 | .i8x4 => true | _ => false

/-- Unpacked types (R418, VCMP and VSETP). -/
def etPacked (t : ET) : Bool := match t with | .f16x2 | .bf16x2 | .i8x4 | .n8x4 => true | _ => false

/-- The integer types of VMULH, shifts, VCLZ and VPOPC (R418). -/
def etIntOp (t : ET) : Bool := !etFloat t

/-- The types of AADD, REDADD and SPAADD (R354, R395). -/
def etAtomicAdd (t : ET) : Bool :=
  match t with | .i32 | .n32 | .i64 | .n64 | .f32 | .f64 | .f16x2 | .bf16x2 => true | _ => false

/-- The types of AMIN, AMAX, REDMIN and REDMAX (R354, R395). -/
def etAtomicMinMax (t : ET) : Bool :=
  match t with | .i32 | .n32 | .i64 | .n64 | .f32 | .f64 => true | _ => false

/-- Memory width 4 or 8: the bitwise atomics, LD4 and ST4 (R354, R379, R408). -/
def etWide (t : ET) : Bool := etMemWidth t == 4 || etMemWidth t == 8

/-- The types of the special functions but VSQRT on F64 (R141). -/
def etSpecial (t : ET) : Bool := match t with | .f32 | .f16 | .bf16 | .f16x2 | .bf16x2 => true | _ => false

/-- Cause codes (R291). -/
def causeCode (c : Cause) : Nat :=
  match c with
  | .illegalOp => 0x01 | .illegalReg => 0x02 | .modeInvalid => 0x03 | .priv => 0x04 | .tableRange => 0x05
  | .misalign => 0x06 | .stack => 0x07 | .trapSw => 0x08 | .pageNotPresent => 0x10 | .pageWrite => 0x11
  | .pageMigrating => 0x12 | .protection => 0x13 | .synonym => 0x14 | .ownerLost => 0x15 | .keyEnded => 0x16
  | .integrity => 0x17 | .poison => 0x18 | .rangeLock => 0x19 | .handle => 0x1A | .remoteFault => 0x1B
  | .remoteTimeout => 0x1C | .gate => 0x1D | .watchdog => 0x20 | .bankFault => 0x21 | .engineFault => 0x22
  | .ckptAdvise => 0x30

/-- Causes that go to the team's handler (R291). -/
def causeToHandler (c : Cause) : Bool :=
  match c with
  | .illegalOp | .illegalReg | .modeInvalid | .priv | .tableRange | .misalign | .stack | .trapSw
  | .rangeLock | .handle => true
  | _ => false

/-- Causes that park the team and replay (R177, R291). -/
def causeParks (c : Cause) : Bool := match c with | .pageNotPresent | .pageMigrating => true | _ => false

/-- Width class of a matrix format and K per instruction (R147). -/
def mfmtK (f : MFmt) : Nat :=
  match f with
  | .e2m1 | .i4 => 64
  | .e2m3 | .e3m2 | .e4m3 | .e5m2 | .i8 => 32
  | .bf16 | .f16 => 16
  | .f32 => 8

/-- Bits one element takes in memory (R145): 6-bit formats take a byte. -/
def mfmtStride (f : MFmt) : Nat := match f with | .e2m1 | .i4 => 4 | .bf16 | .f16 => 16 | .f32 => 32 | _ => 8

/-- Integer formats (R144). -/
def mfmtInt (f : MFmt) : Bool := match f with | .i8 | .i4 => true | _ => false

/-- Formats MXS may not be used with (R83). -/
def mfmtNoMxs (f : MFmt) : Bool := match f with | .bf16 | .f16 | .f32 | .i4 => true | _ => false

/-- Tile size N and gang size G of a shape (R205). -/
def shapeN (m : MShape) : Nat := match m with | .mm128 => 128 | .mm256 => 256 | .mm512 => 512 | .mm1024 => 1024
def shapeG (m : MShape) : Nat := match m with | .mm128 => 1 | .mm256 => 2 | .mm512 => 4 | .mm1024 => 8
/-- Accumulator registers per member (R205). -/
def shapeAcc (m : MShape) : Nat := match m with | .mm128 => 16 | .mm256 => 32 | .mm512 => 64 | .mm1024 => 128

/-- Tier codes (R170). -/
def tierOfCode (c : Nat) : Tier := match c with | 0 => .hbm | 1 => .lpddr | 2 => .cxl | _ => .host

end Sys2Proof.Machine
end

