-- ==== Sys2Proof/Machine/Num.lean ====
section
/-! DEFINITION. IEEE values, rounding, saturation and flushing (spec/05 R129 to R136, R140). A finite value is
(-1)^neg * m * 2^e with m a Nat, so every sum and product is exact before it is rounded once. -/
namespace Sys2Proof.Machine

/-- A floating format (R129): bits of the exponent, of the fraction, and the bias. -/
structure FFmt where
  eb : Nat
  fb : Nat
  bias : Nat
deriving DecidableEq, Repr

def fmtF32 : FFmt := ⟨8, 23, 127⟩
def fmtF16 : FFmt := ⟨5, 10, 15⟩
def fmtBF16 : FFmt := ⟨8, 7, 127⟩
def fmtF64 : FFmt := ⟨11, 52, 1023⟩

/-- The format of a floating element type (R126, R127). -/
def etFmt (t : ET) : FFmt :=
  match t with
  | .f16 | .f16x2 => fmtF16
  | .bf16 | .bf16x2 => fmtBF16
  | .f64 => fmtF64
  | _ => fmtF32

/-- A decoded value. -/
inductive FVal
  | nan
  | inf (neg : Bool)
  | fin (neg : Bool) (m : Nat) (e : Int)
deriving DecidableEq, Repr

namespace FFmt
/-- Bits of the encoding. -/
def width (f : FFmt) : Nat := 1 + f.eb + f.fb
/-- Encoding of +infinity. -/
def infBits (f : FFmt) : Nat := (2 ^ f.eb - 1) <<< f.fb
/-- Canonical quiet NaN (R130). -/
def nanBits (f : FFmt) : Nat := f.infBits + 2 ^ (f.fb - 1)
/-- Largest finite magnitude. -/
def maxBits (f : FFmt) : Nat := f.infBits - 1
/-- The sign bit. -/
def signBit (f : FFmt) (neg : Bool) : Nat := if neg then 2 ^ (f.eb + f.fb) else 0
/-- Exponent of the least significant bit of a subnormal. -/
def emin (f : FFmt) : Int := 1 - (f.bias : Int) - (f.fb : Int)
end FFmt

/-- Decode the bits of a format (R129); `ftz` reads a subnormal as zero of its sign (R133). -/
def fdecode (f : FFmt) (ftz : Bool) (bits : Nat) : FVal :=
  let neg := (bits >>> (f.eb + f.fb)) % 2 == 1
  let ex := (bits >>> f.fb) % 2 ^ f.eb
  let fr := bits % 2 ^ f.fb
  if ex == 2 ^ f.eb - 1 then (if fr == 0 then .inf neg else .nan)
  else if ex == 0 then .fin neg (if ftz then 0 else fr) f.emin
  else .fin neg (2 ^ f.fb + fr) ((ex : Int) - f.bias - f.fb)

/-- How a rounding is made: mode, SAT, FTZ and, for STOCH, the rounding word u (R133, R139). -/
structure Rnd where
  rm : RM
  sat : Bool
  ftz : Bool
  u : Nat
deriving DecidableEq, Repr

/-- Round to nearest even, no SAT, no FTZ: atomics (R354), matrix and collective results. -/
def rndRNE (ftz : Bool) : Rnd := ⟨.rne, false, ftz, 0⟩

/-- Whether the magnitude steps up to the neighbour away from zero, from the kept significand `sig`, the dropped
part `rem` out of `2^s`, and `st` for a further dropped part below one unit of `rem` (R132, R140). -/
def roundsUp (r : Rnd) (neg : Bool) (sig rem s : Nat) (st : Bool) : Bool :=
  let inexact := rem != 0 || st
  match r.rm with
  | .rne => decide (2 * rem > 2 ^ s) || (2 * rem == 2 ^ s && (st || sig % 2 == 1))
  | .rtz => false
  | .rdn => neg && inexact
  | .rup => !neg && inexact
  | .rna => decide (2 * rem ≥ 2 ^ s)
  | .stoch => inexact && decide (r.u < (rem <<< 32) / 2 ^ s)

/-- What an overflow gives under the mode (R134); STOCH by R140. -/
def overflowBits (f : FFmt) (rm : RM) (neg : Bool) : Nat :=
  match rm, neg with
  | .rtz, _ => f.maxBits
  | .rdn, false => f.maxBits
  | .rup, true => f.maxBits
  | _, _ => f.infBits

/-- Magnitude bits of m * 2^e (plus less than 2^e when `st`), rounded without SAT and FTZ; m > 0. -/
def roundMag (f : FFmt) (r : Rnd) (neg : Bool) (m : Nat) (e : Int) (st : Bool) : Nat :=
  let top : Int := (Nat.log2 m : Int) + e
  let q : Int := max (top - f.fb) f.emin
  let s := (q - e).toNat
  let sig := if q ≤ e then m <<< (e - q).toNat else m >>> s
  let rem := if q ≤ e then 0 else m % 2 ^ s
  let sig' := if roundsUp r neg sig rem s st then sig + 1 else sig
  let enc := (q - f.emin).toNat * 2 ^ f.fb + sig'
  if enc ≥ f.infBits then overflowBits f r.rm neg else enc

/-- SAT and FTZ of R133 on rounded magnitude bits. -/
def finishMag (f : FFmt) (r : Rnd) (mag : Nat) : Nat :=
  if r.ftz && decide (mag < 2 ^ f.fb) then 0
  else if r.sat && mag == f.infBits then f.maxBits
  else mag

/-- round() of R133 on a decoded exact value: the bits of the destination format. -/
def fround (f : FFmt) (r : Rnd) (x : FVal) (st : Bool) : Nat :=
  match x with
  | .nan => f.nanBits
  | .inf neg => f.signBit neg + finishMag f r f.infBits
  | .fin neg m e =>
    if m == 0 then f.signBit neg
    else f.signBit neg + finishMag f r (roundMag f r neg m e st)

/-- The sign of the zero that a sum gives (R133): the common sign, else +0, but -0 under RDN. -/
def zeroNeg (rm : RM) (allNeg anyNeg : Bool) : Bool := if allNeg then true else if anyNeg then rm == .rdn else false

/-- Signed integer m of a finite value at exponent e0 ≤ e. -/
def atExp (e0 : Int) (neg : Bool) (m : Nat) (e : Int) : Int :=
  let v : Int := ((m <<< (e - e0).toNat : Nat) : Int)
  if neg then -v else v

/-- Exact sum of two values (R133). -/
def fadd (rm : RM) (a b : FVal) : FVal :=
  match a, b with
  | .nan, _ => .nan
  | _, .nan => .nan
  | .inf s, .inf t => if s == t then .inf s else .nan
  | .inf s, _ => .inf s
  | _, .inf t => .inf t
  | .fin s m e, .fin t n g =>
    let e0 := min e g
    let v := atExp e0 s m e + atExp e0 t n g
    if v == 0 then .fin (zeroNeg rm (s && t) (s || t)) 0 e0
    else .fin (decide (v < 0)) v.natAbs e0

/-- Negation. -/
def fneg (a : FVal) : FVal :=
  match a with
  | .nan => .nan
  | .inf s => .inf (!s)
  | .fin s m e => .fin (!s) m e

/-- Magnitude. -/
def fabs (a : FVal) : FVal :=
  match a with
  | .nan => .nan
  | .inf _ => .inf false
  | .fin _ m e => .fin false m e

/-- Exact product (R133); 0 times infinity is NaN. -/
def fmul (a b : FVal) : FVal :=
  match a, b with
  | .nan, _ => .nan
  | _, .nan => .nan
  | .inf s, .inf t => .inf (s != t)
  | .inf s, .fin t n _ => if n == 0 then .nan else .inf (s != t)
  | .fin s m _, .inf t => if m == 0 then .nan else .inf (s != t)
  | .fin s m e, .fin t n g => .fin (s != t) (m * n) (e + g)

/-- Order of finite and infinite values: -1, 0 or 1 (no NaN). -/
def fcmp (a b : FVal) : Int :=
  match a, b with
  | .inf s, .inf t => if s == t then 0 else if s then -1 else 1
  | .inf s, _ => if s then -1 else 1
  | _, .inf t => if t then 1 else -1
  | .fin s m e, .fin t n g =>
    let e0 := min e g
    let d := atExp e0 s m e - atExp e0 t n g
    if d < 0 then -1 else if d == 0 then 0 else 1
  | _, _ => 0

/-- Sign of a value. -/
def fsign (a : FVal) : Bool := match a with | .nan => false | .inf s => s | .fin s _ _ => s

/-- VMIN and VMAX (R131): a NaN operand is ignored, -0 orders below +0. -/
def fminmax (isMax : Bool) (a b : FVal) : FVal :=
  match a, b with
  | .nan, y => y
  | x, .nan => x
  | x, y =>
    let c := fcmp x y
    let xLess := decide (c < 0) || (c == 0 && fsign x && !fsign y)
    if isMax then (if xLess then y else x) else (if xLess then x else y)

/-- Comparison of two values under a condition (R131). -/
def fcond (c : Cond) (a b : FVal) : Bool :=
  match a, b with
  | .nan, _ => c == .ne
  | _, .nan => c == .ne
  | x, y =>
    let d := fcmp x y
    match c with
    | .eq => d == 0 | .ne => d != 0 | .lt => decide (d < 0) | .le => decide (d ≤ 0)
    | .gt => decide (d > 0) | .ge => decide (d ≥ 0)

/-- An integer as an exact value; integer zero is +0. -/
def fofInt (x : Int) : FVal := .fin (decide (x < 0)) x.natAbs 0

/-- A finite value rounded to an integer under the mode (R137, R140). -/
def ftoInt (r : Rnd) (neg : Bool) (m : Nat) (e : Int) : Int :=
  let s := (-e).toNat
  let sig := if e ≥ 0 then m <<< e.toNat else m >>> s
  let rem := if e ≥ 0 then 0 else m % 2 ^ s
  let v : Int := ((if roundsUp r neg sig rem s false then sig + 1 else sig : Nat) : Int)
  if neg then -v else v

end Sys2Proof.Machine
end

