-- ==== Sys2Proof/Machine/Special.lean ====
section
/-! DEFINITION. Square root and the special functions of spec/05 R141, R142. VSQRT is correctly rounded. The
others are fixed functions the spec knows only within bounds: the free constant of Config is taken wherever it
lies within the bound, and a computed value elsewhere (log 16). -/
namespace Sys2Proof.Machine

/-- Integer square root of n, bit i down to 0, from the root r so far. -/
def isqrtFrom (n : Nat) : Nat → Nat → Nat
  | 0, r => if (r + 1) * (r + 1) ≤ n then r + 1 else r
  | i + 1, r =>
    let r' := r + 2 ^ (i + 1)
    isqrtFrom n i (if r' * r' ≤ n then r' else r)

/-- Integer square root. -/
def isqrt (n : Nat) : Nat := isqrtFrom n (Nat.log2 n / 2) 0

/-- sqrt(m * 2^e), m > 0, as (root, exponent, sticky), with at least 120 bits of root. -/
def sqrtParts (m : Nat) (e : Int) : Nat × Int × Bool :=
  let odd := e % 2 != 0
  let m1 := if odd then m * 2 else m
  let e1 := if odd then e - 1 else e
  let m2 := m1 <<< 240
  let r := isqrt m2
  (r, e1 / 2 - 120, r * r != m2)

/-- VSQRT (R141): -0 gives -0, a negative value NaN, +infinity itself. -/
def fsqrt (f : FFmt) (r : Rnd) (x : FVal) : Nat :=
  match x with
  | .nan => f.nanBits
  | .inf neg => if neg then f.nanBits else fround f r (.inf false) false
  | .fin neg m e =>
    if m == 0 then f.signBit neg
    else if neg then f.nanBits
    else
      let p := sqrtParts m e
      fround f r (.fin false p.1 p.2.1) p.2.2

/-- A computed magnitude m * 2^e of a result with the sign `neg`. A magnitude c is within a bound b of the exact one where
c - hi * 2^e ≤ b and lo * 2^e - c ≤ b (log 16). -/
structure Approx where
  neg : Bool
  m : Nat
  e : Int
  lo : Int
  hi : Int
deriving DecidableEq, Repr

/-- The exact magnitude rounded down to a unit 2^e that divides every candidate and bound: the test is exact. -/
def approxFloor (neg : Bool) (m : Nat) (e : Int) (exact : Bool) : Approx := ⟨neg, m, e, if exact then m else m + 1, m⟩

/-- A magnitude known to within n units: the bound is widened by them. -/
def approxNear (neg : Bool) (m : Nat) (e : Int) (n : Nat) : Approx := ⟨neg, m, e, m - n, m + n⟩

/-- Whether bits c of a format lie within so many ULPs (at the binade of y) of the exact result y, or within
2^absE when `absE` is given. -/
def withinBound (f : FFmt) (c : Nat) (y : Approx) (ulps : Nat) (absE : Option Int) : Bool :=
  match fdecode f false c with
  | .fin neg m e =>
    let top : Int := (Nat.log2 y.m : Int) + y.e
    let ulpE : Int := max (top - (f.fb : Int)) f.emin
    let e0 := min (min y.e e) (min ulpE (absE.getD ulpE)) - 1
    let v := atExp e0 (neg != y.neg) m e
    let unit : Int := 2 ^ (y.e - e0).toNat
    let near (b : Int) : Bool := decide (v - y.hi * unit ≤ b) && decide (y.lo * unit - v ≤ b)
    let b1 : Int := ulps * 2 ^ (ulpE - e0).toNat
    match absE with
    | none => near b1
    | some a => near (2 ^ (a - e0).toNat) || (near b1 && ulps != 0)
  | _ => false

/-- The free candidate where the bound admits it, else the approximation rounded RNE. -/
def pickWithin (cand : Word) (y : Approx) (ulps : Nat) (absE : Option Int) : Nat :=
  if withinBound fmtF32 cand.toNat y ulps absE then cand.toNat
  else fround fmtF32 (rndRNE false) (.fin y.neg y.m y.e) true

/-- VRCP on F32 bits (R141): at most 1 ULP. -/
def rcpF32 (x : Nat) : Nat :=
  match fdecode fmtF32 false x with
  | .nan => fmtF32.nanBits
  | .inf neg => fmtF32.signBit neg
  | .fin neg m e =>
    if m == 0 then fmtF32.signBit neg + fmtF32.infBits
    else
      let q := (1 <<< 160) / m
      let exact := q * m == 1 <<< 160
      let cand := (Config.rcp (BitVec.ofNat 32 x)).toNat
      if withinBound fmtF32 cand (approxFloor neg q (-e - 160) exact) 1 none then cand
      else fround fmtF32 (rndRNE false) (.fin neg q (-e - 160)) !exact

/-- VRSQ on F32 bits (R141): at most 2 ULP. -/
def rsqF32 (x : Nat) : Nat :=
  match fdecode fmtF32 false x with
  | .nan => fmtF32.nanBits
  | .inf neg => if neg then fmtF32.nanBits else 0
  | .fin neg m e =>
    if m == 0 then fmtF32.signBit neg + fmtF32.infBits
    else if neg then fmtF32.nanBits
    else
      let odd := e % 2 != 0
      let m1 := if odd then m * 2 else m
      let e1 := if odd then e - 1 else e
      let r := isqrt ((1 <<< 280) / m1)
      pickWithin (Config.rsq (BitVec.ofNat 32 x)) (approxFloor false r (-140 - e1 / 2) (r * r * m1 == 1 <<< 280)) 2 none

/-- 2^f for f = fb / 2^64 in [0, 1), as a fixed-point number of 128 fraction bits: the product of 2^(2^-i) over
the bits of f, where c holds 2^(2^-(64 - i)). -/
def exp2Frac (fb : Nat) : Nat → Nat → Nat → Nat
  | 0, _, acc => acc
  | i + 1, c, acc =>
    let c' := isqrt (c <<< 128)
    exp2Frac fb i c' (if fb.testBit i then (acc * c') >>> 128 else acc)

/-- 2^(n / 2^64) for an integer n, as a fraction of 128 bits and its exponent, and to within 2^66 units of any exponent that
truncates to n. -/
def exp2Fixed (n : Int) : Approx :=
  let k := n / (2 ^ 64 : Nat)
  let f := (n % (2 ^ 64 : Nat)).toNat
  approxNear false (exp2Frac f 64 (2 <<< 128) (1 <<< 128)) (k - 128) (2 ^ 66)

/-- x = ±m * 2^e scaled by 2^64 and truncated toward minus infinity. -/
def toFixed64 (neg : Bool) (m : Nat) (e : Int) : Int :=
  let v : Int := if neg then -(m : Int) else m
  if e + 64 ≥ 0 then v * ((2 ^ (e + 64).toNat : Nat) : Int) else v / ((2 ^ (-(e + 64)).toNat : Nat) : Int)

/-- VEXP2 on F32 bits (R141): at most 2 ULP, exact for an integer whose result is representable. -/
def exp2F32 (x : Nat) : Nat :=
  match fdecode fmtF32 false x with
  | .nan => fmtF32.nanBits
  | .inf neg => if neg then 0 else fmtF32.infBits
  | .fin neg m e =>
    if m == 0 then 0x3F800000
    else if decide ((Nat.log2 m : Int) + e ≥ 9) then
      if neg then pickWithin (Config.exp2 (BitVec.ofNat 32 x)) (approxFloor false 0 (-400) false) 2 none else fmtF32.infBits
    else
      let n := toFixed64 neg m e
      let y := exp2Fixed n
      let exact := fround fmtF32 (rndRNE false) (.fin false y.m y.e) (n % (2 ^ 64 : Nat) != 0)
      if n % (2 ^ 64 : Nat) == 0 && decide (e ≥ -64) && decide (-149 ≤ y.e + 128) then exact
      else if exact == fmtF32.infBits then exact
      else pickWithin (Config.exp2 (BitVec.ofNat 32 x)) y 2 none

/-- Fraction bits of log2 of y in [1, 2), y in 256-bit fixed point, by repeated squaring. -/
def log2Frac : Nat → Nat → Nat → Nat
  | 0, _, acc => acc
  | i + 1, y, acc =>
    let y2 := (y * y) >>> 256
    if y2 ≥ 2 <<< 256 then log2Frac i (y2 >>> 1) (2 * acc + 1) else log2Frac i y2 (2 * acc)

/-- VLOG2 on F32 bits (R141). -/
def log2F32 (x : Nat) : Nat :=
  match fdecode fmtF32 false x with
  | .nan => fmtF32.nanBits
  | .inf neg => if neg then fmtF32.nanBits else fmtF32.infBits
  | .fin neg m e =>
    if m == 0 then fmtF32.signBit true + fmtF32.infBits
    else if neg then fmtF32.nanBits
    else
      let k : Int := (Nat.log2 m : Int) + e
      let y := (m <<< 256) >>> Nat.log2 m
      if m == 2 ^ Nat.log2 m then fround fmtF32 (rndRNE false) (fofInt k) false
      else
        let v : Int := k * ((2 ^ 90 : Nat) : Int) + (log2Frac 90 y 0 : Int)
        let a := approxNear (decide (v < 0)) v.natAbs (-90) 4
        let inside := k == 0 || k == -1
        pickWithin (Config.log2 (BitVec.ofNat 32 x)) a (if inside then 0 else 2) (if inside then some (-22) else none)

/-- log2(e) * 2^80, truncated. -/
def log2e80 : Nat :=
  (14426950408889634073599246810018921374266459541529859341354494069 * 2 ^ 80) / 10 ^ 64

/-- Tanh of a finite nonzero |x| < 9. Below 2^-20 it is x - x^3/3 + ..., and differs from x by less than 2^-41 of it. -/
def tanhApprox (neg : Bool) (m : Nat) (e : Int) : Approx :=
  if (Nat.log2 m : Int) + e < -20 then approxNear neg (m * 2 ^ 16) (e - 16) 4
  else
    -- 2^(2|x| log2 e) = e^(2|x|), in 2^-64 units of the exponent
    let t := exp2Fixed (toFixed64 false (2 * m * log2e80) (e - 80))
    let big := t.m <<< (t.e + 200).toNat
    let one := 1 <<< 200
    approxNear neg (((big - one) <<< 64) / (big + one)) (-64) 4

/-- An F32 input that is also a value of a 16-bit format: the result, rounded to that format, is within 1 ULP of it
(R142). -/
def within16 (f : FFmt) (x c : Nat) (y : Approx) : Bool :=
  let narrow (b : Nat) : Nat := fround f (rndRNE false) (fdecode fmtF32 false b) false
  fround fmtF32 (rndRNE false) (fdecode f false (narrow x)) false != x || withinBound f (narrow c) y 1 none

/-- VTANH on F32 bits (R141, R142): at most 2 ULP or 2^-22 absolute, whichever is larger, and 1 ULP for the 16-bit types. -/
def tanhF32 (x : Nat) : Nat :=
  match fdecode fmtF32 false x with
  | .nan => fmtF32.nanBits
  | .inf neg => fmtF32.signBit neg + 0x3F800000
  | .fin neg m e =>
    if m == 0 then fmtF32.signBit neg
    else if fcmp (.fin false m e) (.fin false 9 0) ≥ 0 then fmtF32.signBit neg + 0x3F800000
    else
      let y := tanhApprox neg m e
      let cand := (Config.tanh (BitVec.ofNat 32 x)).toNat
      if withinBound fmtF32 cand y 2 (some (-22)) && within16 fmtF16 x cand y && within16 fmtBF16 x cand y then cand
      else fround fmtF32 (rndRNE false) (.fin y.neg y.m y.e) true

/-- F32 bits of a value of another floating format, exactly (R142). -/
def widenF32 (f : FFmt) (ftz : Bool) (bits : Nat) : Nat :=
  fround fmtF32 (rndRNE false) (fdecode f ftz bits) false

/-- A special function under a 16- or 32-bit type (R142): FTZ on input and result, SAT clamps an infinite
result, RM ignored; a 16-bit type takes the F32 result rounded RNE. -/
def specialFn (fn : Nat → Nat) (f : FFmt) (r : Rnd) (bits : Nat) : Nat :=
  let y := fn (widenF32 f r.ftz bits)
  fround f ⟨.rne, r.sat, r.ftz, 0⟩ (fdecode fmtF32 false y) false

end Sys2Proof.Machine
end

