-- ==== Sys2Proof/Machine/Flags.lean ====
section
/-! DEFINITION. Narrowing, comparison results and predicate values: the KX9 keeps no status flags (R130); its
conditions are predicates written by VCMP, SCMP, VSETP (R404, R421, R423). -/
namespace Sys2Proof.Machine

/-- Smallest and largest value of an integer element type (R126). -/
def etMin (t : ET) : Int := if etSigned t then -((2 ^ (etBits t - 1) : Nat) : Int) else 0
def etMax (t : ET) : Int :=
  if etSigned t then ((2 ^ (etBits t - 1) : Nat) : Int) - 1 else ((2 ^ etBits t : Nat) : Int) - 1

/-- sat(x, t) of R12. -/
def satTo (t : ET) (x : Int) : Int := if x < etMin t then etMin t else if etMax t < x then etMax t else x

/-- R135: with SAT the clamped value, else the value modulo 2^n; as the element's bits. -/
def narrow (t : ET) (sat : Bool) (x : Int) : Nat := toBits (etBits t) (if sat then satTo t x else x)

/-- The integer value of an element's bits (R126, R128). -/
def etInt (t : ET) (x : Nat) : Int :=
  if etSigned t then sextNat (etBits t) x else ((x % 2 ^ etBits t : Nat) : Int)

/-- Integer comparison under a condition. -/
def icond (c : Cond) (a b : Int) : Bool :=
  match c with
  | .eq => a == b | .ne => a != b | .lt => decide (a < b) | .le => decide (a ≤ b)
  | .gt => decide (a > b) | .ge => decide (a ≥ b)

/-- cond(a, b) of VCMP on one element (R421): FTZ applies to floating inputs. -/
def elemCond (c : Cond) (t : ET) (ftz : Bool) (a b : Nat) : Bool :=
  if etFloat t then fcond c (fdecode (etFmt t) ftz a) (fdecode (etFmt t) ftz b)
  else icond c (etInt t a) (etInt t b)

/-- VSETP's test (R423): ±0 false, NaN true, a flushed subnormal false. -/
def elemNonZero (t : ET) (ftz : Bool) (a : Nat) : Bool :=
  if etFloat t then
    match fdecode (etFmt t) ftz a with
    | .fin _ m _ => m != 0
    | _ => true
  else a % 2 ^ etBits t != 0

/-- SCMP's conditions (R404). -/
def scond (c : SCond) (a b : Word) : Bool :=
  match c with
  | .eq => a == b | .ne => a != b
  | .lt => decide (a.toInt < b.toInt) | .le => decide (a.toInt ≤ b.toInt)
  | .ltn => decide (a.toNat < b.toNat) | .len => decide (a.toNat ≤ b.toNat)

/-- Combine of VCMP with the old predicate bit (R421). -/
def combine (k : Comb) (old c : Bool) : Bool :=
  match k with | .set => c | .and => old && c | .or => old || c

end Sys2Proof.Machine
end

