-- ==== Sys2Proof/Machine/Arith.lean ====
section
/-! DEFINITION. Element arithmetic of the vector instructions (spec/05 R126 to R143, R151, R152; spec/17 R416 to
R428) and the scalar ALU (R403). A lane's register group is a 64-bit value: one register in bits 31:0, or a pair.
An element is a Nat of its type's width. -/
namespace Sys2Proof.Machine

/-- rotl of R139. -/
def rotl32 (h : Word) (n : Nat) : Word := (h <<< n) ||| (h >>> (32 - n))

/-- One round of the hash of R139. -/
def hashStep (h w : Word) : Word := rotl32 ((h ^^^ w) * 0x9E3779B1#32) 15

/-- The rounding word u of R139 from (SEED, NODEID, DROVEID, 1024 * TEAMID + L, ICOUNT, e). -/
def roundingWord (ws : List Word) : Word :=
  let h := ws.foldl hashStep 0x2C1B3C6D#32
  let h := (h ^^^ (h >>> 16)) * 0x85EBCA6B#32
  let h := (h ^^^ (h >>> 13)) * 0xC2B2AE35#32
  h ^^^ (h >>> 16)

/-- Element e of a register group (R127, R128). -/
def elem (t : ET) (e : Nat) (v : DWord) : Nat := (v.toNat >>> (etBits t * e)) % 2 ^ etBits t

/-- The group value from its elements, lowest first: packed elements side by side, an unpacked I or N result
extended to 32 bits, F16 and BF16 with zero upper bits (R128, R417). -/
def packElems (t : ET) (es : List Nat) : DWord :=
  match es with
  | [x] =>
    if et64 t then BitVec.ofNat 64 x
    else if etSigned t then BitVec.ofNat 64 (toBits 32 (sextNat (etBits t) x))
    else BitVec.ofNat 64 (x % 2 ^ etBits t)
  | _ => BitVec.ofNat 64 (es.foldr (fun x acc => acc * 2 ^ etBits t + x % 2 ^ etBits t) 0)

/-- How results are formed, from MODE and the rounding words of the lane (R83, R133, R139): `us` holds one u per
element. -/
structure NumMode where
  et : ET
  rm : RM
  sat : Bool
  ftz : Bool
  us : List Nat
deriving DecidableEq, Repr

/-- The rounding of element e. -/
def NumMode.rnd (c : NumMode) (e : Nat) : Rnd := ⟨c.rm, c.sat, c.ftz, c.us.getD e 0⟩

/-- One element of a two-source vector operation (R419). -/
def vopElem (op : VOp) (t : ET) (r : Rnd) (a b d : Nat) : Nat :=
  let n := etBits t
  let fa := fdecode (etFmt t) r.ftz a
  let fb := fdecode (etFmt t) r.ftz b
  let fd := fdecode (etFmt t) r.ftz d
  let ia := etInt t a
  let ib := etInt t b
  match op with
  | .add => if etFloat t then fround (etFmt t) r (fadd r.rm fa fb) false else narrow t r.sat (ia + ib)
  | .sub => if etFloat t then fround (etFmt t) r (fadd r.rm fa (fneg fb)) false else narrow t r.sat (ia - ib)
  | .mul => if etFloat t then fround (etFmt t) r (fmul fa fb) false else narrow t r.sat (ia * ib)
  | .mulh => toBits n (ia * ib / ((2 ^ n : Nat) : Int))
  | .mad =>
    if etFloat t then fround (etFmt t) r (fadd r.rm (fmul fa fb) fd) false
    else narrow t r.sat (ia * ib + etInt t d)
  | .min => if etFloat t then fround (etFmt t) r (fminmax false fa fb) false else (if ib < ia then b else a)
  | .max => if etFloat t then fround (etFmt t) r (fminmax true fa fb) false else (if ia < ib then b else a)
  | .and => a &&& b
  | .or => a ||| b
  | .xor => a ^^^ b
  | .shl => if b ≥ n then 0 else (a <<< b) % 2 ^ n
  | .shr => if b ≥ n then 0 else a >>> b
  | .sra => toBits n (sextNat n a / ((2 ^ (min b n) : Nat) : Int))

/-- Apply an element function to every element of the group. -/
def mapElems (t : ET) (f : Nat → Nat) : DWord := packElems t ((List.range (etElems t)).map f)

/-- A two-source vector operation on one lane (R419). -/
def vop (op : VOp) (c : NumMode) (a b d : DWord) : DWord :=
  mapElems c.et (fun e => vopElem op c.et (c.rnd e) (elem c.et e a) (elem c.et e b) (elem c.et e d))

/-- Leading zeros of an n-bit value (R422). -/
def clz (n x : Nat) : Nat := if x == 0 then n else n - 1 - Nat.log2 x

/-- One bits of the low n bits (R422). -/
def popc (n x : Nat) : Nat := (List.range n).foldl (fun acc i => if x.testBit i then acc + 1 else acc) 0

/-- One element of a VFN function (R422, R141). -/
def vfnElem (fn : VFn) (t : ET) (r : Rnd) (a : Nat) : Nat :=
  let n := etBits t
  let fa := fdecode (etFmt t) r.ftz a
  match fn with
  | .abs => if etFloat t then fround (etFmt t) r (fabs fa) false else narrow t r.sat ((etInt t a).natAbs : Int)
  | .neg => if etFloat t then fround (etFmt t) r (fneg fa) false else narrow t r.sat (-(etInt t a))
  | .not => 2 ^ n - 1 - a
  | .clz => clz n a
  | .popc => popc n a
  | .rcp => specialFn rcpF32 (etFmt t) r a
  | .rsq => specialFn rsqF32 (etFmt t) r a
  | .sqrt => fsqrt (etFmt t) r fa
  | .exp2 => specialFn exp2F32 (etFmt t) r a
  | .log2 => specialFn log2F32 (etFmt t) r a
  | .tanh => specialFn tanhF32 (etFmt t) r a

/-- A VFN function on one lane. -/
def vfn (fn : VFn) (c : NumMode) (a : DWord) : DWord :=
  mapElems c.et (fun e => vfnElem fn c.et (c.rnd e) (elem c.et e a))

/-- VCVT of one element from type `s` to type `t` (R137). -/
def cvtElem (s t : ET) (r : Rnd) (a : Nat) : Nat :=
  if etFloat s then
    let x := fdecode (etFmt s) r.ftz a
    if etFloat t then fround (etFmt t) r x false
    else
      match x with
      | .nan => 0
      | .inf neg => toBits (etBits t) (if neg then etMin t else etMax t)
      | .fin neg m e => toBits (etBits t) (satTo t (ftoInt r neg m e))
  else if etFloat t then fround (etFmt t) r (fofInt (etInt s a)) false
  else narrow t r.sat (etInt s a)

/-- VCVT on one lane. -/
def cvt (s : ET) (c : NumMode) (a : DWord) : DWord :=
  mapElems c.et (fun e => cvtElem s c.et (c.rnd e) (elem s e a))

/-- VDOT4 on one lane (R143). -/
def dot4 (t : ET) (sat : Bool) (a b d : DWord) : DWord :=
  let acc : ET := if etSigned t then .i32 else .n32
  let s := (List.range 4).foldl (fun x e => x + etInt t (elem t e a) * etInt t (elem t e b)) (etInt acc (elem acc 0 d))
  BitVec.ofNat 64 (narrow acc sat s)

/-- Exact sum of a list of values, rounded by the caller (R143, R149). -/
def fsum (rm : RM) (xs : List FVal) : FVal :=
  if xs.contains .nan || (xs.contains (.inf false) && xs.contains (.inf true)) then .nan
  else if xs.contains (.inf false) then .inf false
  else if xs.contains (.inf true) then .inf true
  else
    let e0 := xs.foldl (fun m x => match x with | .fin _ _ e => min m e | _ => m) 0
    let v := xs.foldl (fun acc x => match x with | .fin s m e => acc + atExp e0 s m e | _ => acc) (0 : Int)
    if v == 0 then .fin (zeroNeg rm (xs.all fsign) (xs.any fsign)) 0 e0
    else .fin (decide (v < 0)) v.natAbs e0

/-- VDOT2 on one lane (R143): one rounding of the exact sum to F32. -/
def dot2 (c : NumMode) (a b d : DWord) : DWord :=
  let f := etFmt c.et
  let p := fun e => fmul (fdecode f c.ftz (elem c.et e a)) (fdecode f c.ftz (elem c.et e b))
  let acc := fdecode fmtF32 c.ftz (elem .f32 0 d)
  BitVec.ofNat 64 (fround fmtF32 (c.rnd 0) (fsum c.rm [acc, p 0, p 1]) false)

/-- One node of the reduction tree on one element (R151); STOCH is taken as RNE. -/
def redElem (op : RedOp) (t : ET) (r : Rnd) (a b : Nat) : Nat :=
  let r' : Rnd := if r.rm == .stoch then ⟨.rne, r.sat, r.ftz, 0⟩ else r
  match op with
  | .add => vopElem .add t r' a b 0
  | .min => vopElem .min t r' a b 0
  | .max => vopElem .max t r' a b 0
  | .and => a &&& b
  | .or => a ||| b
  | .xor => a ^^^ b

/-- The node of the tree on two optional leaves (R151): absent is the identity. -/
def redNode (op : RedOp) (c : NumMode) (x y : Option DWord) : Option DWord :=
  match x, y with
  | none, _ => y
  | some _, none => x
  | some a, some b => some (mapElems c.et (fun e => redElem op c.et (c.rnd e) (elem c.et e a) (elem c.et e b)))

/-- One level of the tree: neighbours are joined. -/
def redLevel (op : RedOp) (c : NumMode) : List (Option DWord) → List (Option DWord)
  | x :: y :: r => redNode op c x y :: redLevel op c r
  | [x] => [x]
  | [] => []

/-- k levels of the tree over a list of leaves, the missing ones absent (R151). -/
def redTree (op : RedOp) (c : NumMode) : Nat → List (Option DWord) → Option DWord
  | 0, xs => xs.getD 0 none
  | k + 1, xs => redTree op c k (redLevel op c xs)

/-- The value when no lane contributes (R151). -/
def redEmptyElem (op : RedOp) (t : ET) : Nat :=
  match op with
  | .add => 0
  | .min => if etFloat t then (etFmt t).infBits else toBits (etBits t) (etMax t)
  | .max => if etFloat t then (etFmt t).signBit true + (etFmt t).infBits else toBits (etBits t) (etMin t)
  | .and => 2 ^ etBits t - 1
  | .or => 0
  | .xor => 0

/-- VRED's result over the leaves (R151). -/
def reduce (op : RedOp) (c : NumMode) (xs : List (Option DWord)) : DWord :=
  match redTree op c 10 xs with
  | some v => v
  | none => mapElems c.et (fun _ => redEmptyElem op c.et)

/-- New value of an atomic or reduce-on-write on its whole word (R354, R395): FTZ honoured, RM and SAT ignored,
floating results RNE. `cmp` is ACAS's compare value, `x` the operand or new value. -/
def atomicNew (op : AtOp) (t : ET) (ftz : Bool) (old x cmp : DWord) : DWord :=
  let c : NumMode := ⟨t, .rne, false, ftz, []⟩
  match op with
  | .add => vop .add c old x 0
  | .min => vop .min c old x 0
  | .max => vop .max c old x 0
  | .and => old &&& x
  | .or => old ||| x
  | .xor => old ^^^ x
  | .xchg => x
  | .cas => if old = cmp then x else old

/-- A loaded value extended to its register group (R379). -/
def extendLoad (t : ET) (m : Nat) : DWord :=
  match t with
  | .i16 => BitVec.ofNat 64 (toBits 32 (sextNat 16 m))
  | .i8 => BitVec.ofNat 64 (toBits 32 (sextNat 8 m))
  | .n16 | .f16 | .bf16 => BitVec.ofNat 64 (m % 2 ^ 16)
  | .n8 => BitVec.ofNat 64 (m % 2 ^ 8)
  | .i64 | .n64 | .f64 => BitVec.ofNat 64 m
  | _ => BitVec.ofNat 64 (m % 2 ^ 32)

end Sys2Proof.Machine
end

