-- ==== Sys2Proof/Machine/Store.lean ====
section
/-! DEFINITION. Sparse storage: a list of (key, value) pairs in one canonical form (keys strictly rising, no entry
equal to the default `d`). Memory, vector lanes, predicates and tables of units are all held this way, so equal
contents are equal data. The laws are in Sys2Proof/Laws/Store.lean. -/
namespace Sys2Proof.Store

variable {α : Type}

/-- The value at key `q`, the default where no entry names it. -/
def get (d : α) : List (Nat × α) → Nat → α
  | [], _ => d
  | (k, v) :: r, q => if k = q then v else get d r q

/-- Insert or replace at the place that keeps the keys rising. -/
def insert : List (Nat × α) → Nat → α → List (Nat × α)
  | [], q, w => [(q, w)]
  | (k, v) :: r, q, w =>
    if q < k then (q, w) :: (k, v) :: r
    else if q = k then (q, w) :: r
    else (k, v) :: insert r q w

/-- Remove every entry of key `q`. -/
def erase : List (Nat × α) → Nat → List (Nat × α)
  | [], _ => []
  | (k, v) :: r, q => if k = q then erase r q else (k, v) :: erase r q

/-- Write `w` at `q`: writing the default removes the entry. -/
def put [DecidableEq α] (d : α) (m : List (Nat × α)) (q : Nat) (w : α) : List (Nat × α) :=
  if w = d then erase m q else insert m q w

/-- The entry of key `q`, if listed. -/
def find : List (Nat × α) → Nat → Option α
  | [], _ => none
  | (k, v) :: r, q => if k = q then some v else find r q

/-- Keys strictly above `b` and strictly rising, no default value. -/
def wfFrom [DecidableEq α] (d : α) : Nat → List (Nat × α) → Bool
  | _, [] => true
  | b, (k, v) :: r => decide (b ≤ k) && decide (v ≠ d) && wfFrom d (k + 1) r

/-- The canonical form. -/
def wf [DecidableEq α] (d : α) (m : List (Nat × α)) : Bool := wfFrom d 0 m

/-- Keys strictly rising (tables of units, where absence is the default). -/
def sortedFrom : Nat → List (Nat × α) → Bool
  | _, [] => true
  | b, (k, _) :: r => decide (b ≤ k) && sortedFrom (k + 1) r

end Sys2Proof.Store
end

