-- ==== Sys2Proof/Syntax.lean ====
section
/-! DEFINITION. The abstract syntax: one constructor for each of the 312 rows of the opcode table (spec/03 R86 to R93,
spec/95). Register numbers, immediates and scopes are already separated; the bits of a word are in Decode.lean. -/
namespace Sys2Proof

/-- The instructions and the steps of the device, one constructor for each row of the opcode table. `sw` is the
switch marker S (R70). An encoded constructor has the register numbers and immediates of its word; a step without an
encoding names the unit, team, page or value it is about. -/
inductive Instr
  -- control and team instructions (R86)
  /-- R76 Does nothing; the form with the switch marker set parks the split until its long-latency writes land. -/
  | nop (sw : Bool)
  /-- R82 Sets MODE[15:0] of the issuing split to the immediate. -/
  | modeiLo (sw : Bool) (imm : BitVec 16)
  /-- R82 Sets MODE[31:16] of the issuing split to the immediate. -/
  | modeiHi (sw : Bool) (imm : BitVec 16)
  /-- R384 Copies a special register into a scalar. -/
  | mfs (sw : Bool) (d : BitVec 6) (a : BitVec 5)
  /-- R385 Writes a scalar into an RW or W1C special register. -/
  | mts (sw : Bool) (d : BitVec 5) (a : BitVec 6)
  /-- R358 Branches the whole split by a 24-bit word offset. -/
  | bra (sw : Bool) (off : BitVec 24)
  /-- R359 Divides the split by a predicate into a taken split and a fall-through split. -/
  | brpDiv (sw : Bool) (neg : Bool) (p : BitVec 3) (imm : BitVec 16)
  /-- R359 Branches the whole split when any active lane's predicate is true. -/
  | brpAny (sw : Bool) (neg : Bool) (p : BitVec 3) (imm : BitVec 16)
  /-- R359 Branches the whole split when every active lane's predicate is true. -/
  | brpAll (sw : Bool) (neg : Bool) (p : BitVec 3) (imm : BitVec 16)
  /-- R359 Branches the whole split when no active lane's predicate is true. -/
  | brpNone (sw : Bool) (neg : Bool) (p : BitVec 3) (imm : BitVec 16)
  /-- R374 Pushes a join record with the join PC, call depth and a fresh id, then tests arrival. -/
  | joinat (sw : Bool) (imm : BitVec 16)
  /-- R375 Dispatches active lanes through a jump table, creating one split per selected entry. -/
  | jtab (sw : Bool) (d : BitVec 6) (a : BitVec 8) (b : BitVec 6)
  /-- R360 Pushes the return address and branches by a 24-bit offset. -/
  | call (sw : Bool) (off : BitVec 24)
  /-- R360 Pushes the return address and branches to the PC held in a scalar. -/
  | calli (sw : Bool) (a : BitVec 6)
  /-- R400 Pops the return stack, pops join records above the new depth and moves the split. -/
  | ret (sw : Bool)
  /-- R399 Gives finished lanes new items from a coach item queue, or retires them when it is empty. -/
  | refill (sw : Bool) (d : BitVec 8) (p : BitVec 3) (q : BitVec 2)
  /-- R364 Ends the issuing split and retires its lanes. -/
  | exit (sw : Bool)
  /-- R293 Raises TRAP_SW with the immediate in TINFO. -/
  | trapi (sw : Bool) (imm : BitVec 16)
  /-- R295 Returns from the trap handler to TPC and releases the sister splits that wait to retry. -/
  | rett (sw : Bool)
  /-- R264 Moves the split to a continuation and parks it, yielding its entry, until a copy tag completes. -/
  | yieldcCopy (sw : Bool) (t : BitVec 6) (imm : BitVec 16)
  /-- R264 Moves the split to a continuation and parks it until a collective tag completes. -/
  | yieldcColl (sw : Bool) (t : BitVec 6) (imm : BitVec 16)
  /-- R264 Moves the split to a continuation and parks it until a bank tag completes. -/
  | yieldcBank (sw : Bool) (t : BitVec 6) (imm : BitVec 16)
  /-- R264 Moves the split to a continuation and parks it until a matrix batch completes. -/
  | yieldcMm (sw : Bool) (t : BitVec 6) (imm : BitVec 16)
  /-- R357 Releases at .DRV, makes one arrival at a drove barrier word and returns the prior phase. -/
  | arrive (sw : Bool) (d : BitVec 6) (a : BitVec 6)
  /-- R393 Parks the split while the barrier word's phase equals the given phase, then acquires at .DRV. -/
  | pwait (sw : Bool) (a : BitVec 6) (b : BitVec 6)
  /-- R363 Arrives at a drove barrier and waits for the next phase change, then acquires. -/
  | dbar (sw : Bool) (imm : BitVec 16)
  /-- R207 Sets the team's gang list, N and RANK after checking the ids. -/
  | gangset (sw : Bool) (a : BitVec 6)
  /-- R107 Queues a request for extended register blocks and parks the split until it is served. -/
  | xacq (sw : Bool) (blk : BitVec 3)
  /-- R108 Releases held extended register blocks once their pending writes and batches finish. -/
  | xrel (sw : Bool) (blk : BitVec 3)
  /-- R370 Writes the team's hidden state and split records as an image to memory. -/
  | hsave (sw : Bool) (base : BitVec 6) (pol : Pol)
  /-- R371 Checks an HSAVE image and installs it as the team's hidden state and split table. -/
  | hload (sw : Bool) (base : BitVec 6) (pol : Pol)
  /-- R117 Writes the team's dirty register lines, state frame and split records to its image. -/
  | rflush (sw : Bool)
  /-- R319 Asks the memory manager to bind a VA region to a fresh key slot, parking until a handle or failure code returns. -/
  | seqopen (sw : Bool) (d : BitVec 6) (a : BitVec 6) (b : BitVec 6)
  /-- R321 Checks a sequence handle and parks until no range lock overlaps its region. -/
  | seqend (sw : Bool) (a : BitVec 6)
  /-- R276 Releases at .DEV and posts an arm of a scheduler entry. -/
  | launch (sw : Bool) (a : BitVec 6)
  /-- R276 Releases at .DEV and posts a decrement of a scheduler entry. -/
  | signal (sw : Bool) (a : BitVec 6) (b : BitVec 6)
  /-- R372 Appends the guarded active lanes' values to an item queue as one run, parking until it has room. -/
  | ipush (sw : Bool) (a : BitVec 8) (q : BitVec 2) (pos : BitVec 3)
  /-- R256 Issues a SHA-256 digest command to a dray queue with a copy tag. -/
  | digest (sw : Bool) (d : BitVec 6) (a : BitVec 6)
  -- scalar instructions (R87)
  /-- R403 Adds two scalars modulo 2^32. -/
  | sadd (sw : Bool) (d : BitVec 6) (a : BitVec 6) (b : BitVec 6)
  /-- R403 Subtracts two scalars modulo 2^32. -/
  | ssub (sw : Bool) (d : BitVec 6) (a : BitVec 6) (b : BitVec 6)
  /-- R403 Multiplies two scalars modulo 2^32. -/
  | smul (sw : Bool) (d : BitVec 6) (a : BitVec 6) (b : BitVec 6)
  /-- R403 Returns the high 32 bits of the signed product of two scalars. -/
  | smulh (sw : Bool) (d : BitVec 6) (a : BitVec 6) (b : BitVec 6)
  /-- R403 Bitwise AND of two scalars. -/
  | sand (sw : Bool) (d : BitVec 6) (a : BitVec 6) (b : BitVec 6)
  /-- R403 Bitwise OR of two scalars. -/
  | sor (sw : Bool) (d : BitVec 6) (a : BitVec 6) (b : BitVec 6)
  /-- R403 Bitwise XOR of two scalars. -/
  | sxor (sw : Bool) (d : BitVec 6) (a : BitVec 6) (b : BitVec 6)
  /-- R403 Shifts a scalar left, giving zero for shifts of 32 or more. -/
  | sshl (sw : Bool) (d : BitVec 6) (a : BitVec 6) (b : BitVec 6)
  /-- R403 Shifts a scalar right logically. -/
  | sshr (sw : Bool) (d : BitVec 6) (a : BitVec 6) (b : BitVec 6)
  /-- R403 Shifts a scalar right arithmetically. -/
  | ssra (sw : Bool) (d : BitVec 6) (a : BitVec 6) (b : BitVec 6)
  /-- R403 Signed minimum of two scalars. -/
  | smin (sw : Bool) (d : BitVec 6) (a : BitVec 6) (b : BitVec 6)
  /-- R403 Signed maximum of two scalars. -/
  | smax (sw : Bool) (d : BitVec 6) (a : BitVec 6) (b : BitVec 6)
  /-- R403 Adds two 64-bit scalar pairs modulo 2^64. -/
  | saddp (sw : Bool) (d : BitVec 6) (a : BitVec 6) (b : BitVec 6)
  /-- R404 Writes scalar equality into a predicate in every active lane. -/
  | scmpEq (sw : Bool) (p : BitVec 3) (a : BitVec 6) (b : BitVec 6)
  /-- R404 Writes scalar inequality into a predicate. -/
  | scmpNe (sw : Bool) (p : BitVec 3) (a : BitVec 6) (b : BitVec 6)
  /-- R404 Writes a signed less-than test of two scalars into a predicate. -/
  | scmpLt (sw : Bool) (p : BitVec 3) (a : BitVec 6) (b : BitVec 6)
  /-- R404 Writes a signed less-or-equal test into a predicate. -/
  | scmpLe (sw : Bool) (p : BitVec 3) (a : BitVec 6) (b : BitVec 6)
  /-- R404 Writes an unsigned less-than test into a predicate. -/
  | scmpLtn (sw : Bool) (p : BitVec 3) (a : BitVec 6) (b : BitVec 6)
  /-- R404 Writes an unsigned less-or-equal test into a predicate. -/
  | scmpLen (sw : Bool) (p : BitVec 3) (a : BitVec 6) (b : BitVec 6)
  /-- R405 Adds a sign-extended immediate to a scalar. -/
  | saddi (sw : Bool) (d : BitVec 6) (imm : BitVec 16)
  /-- R405 Loads a sign-extended immediate into a scalar. -/
  | sli (sw : Bool) (d : BitVec 6) (imm : BitVec 16)
  /-- R405 Loads the immediate into the high half of a scalar. -/
  | slih (sw : Bool) (d : BitVec 6) (imm : BitVec 16)
  -- vector and predicate instructions (R88)
  /-- R419 Adds two vector registers lane by lane under MODE. -/
  | vadd (sw : Bool) (d : BitVec 8) (a : BitVec 8) (b : BitVec 8)
  /-- R419 Subtracts two vector registers lane by lane. -/
  | vsub (sw : Bool) (d : BitVec 8) (a : BitVec 8) (b : BitVec 8)
  /-- R419 Multiplies two vector registers lane by lane. -/
  | vmul (sw : Bool) (d : BitVec 8) (a : BitVec 8) (b : BitVec 8)
  /-- R419 Returns the high half of each integer lane product. -/
  | vmulh (sw : Bool) (d : BitVec 8) (a : BitVec 8) (b : BitVec 8)
  /-- R419 Fused multiply-add into the destination, rounded once. -/
  | vmad (sw : Bool) (d : BitVec 8) (a : BitVec 8) (b : BitVec 8)
  /-- R419 Lane-wise minimum. -/
  | vmin (sw : Bool) (d : BitVec 8) (a : BitVec 8) (b : BitVec 8)
  /-- R419 Lane-wise maximum. -/
  | vmax (sw : Bool) (d : BitVec 8) (a : BitVec 8) (b : BitVec 8)
  /-- R419 Lane-wise bitwise AND. -/
  | vand (sw : Bool) (d : BitVec 8) (a : BitVec 8) (b : BitVec 8)
  /-- R419 Lane-wise bitwise OR. -/
  | vor (sw : Bool) (d : BitVec 8) (a : BitVec 8) (b : BitVec 8)
  /-- R419 Lane-wise bitwise XOR. -/
  | vxor (sw : Bool) (d : BitVec 8) (a : BitVec 8) (b : BitVec 8)
  /-- R419 Lane-wise left shift. -/
  | vshl (sw : Bool) (d : BitVec 8) (a : BitVec 8) (b : BitVec 8)
  /-- R419 Lane-wise logical right shift. -/
  | vshr (sw : Bool) (d : BitVec 8) (a : BitVec 8) (b : BitVec 8)
  /-- R419 Lane-wise arithmetic right shift. -/
  | vsra (sw : Bool) (d : BitVec 8) (a : BitVec 8) (b : BitVec 8)
  /-- R420 Selects A or B in every active lane by the guard. -/
  | vsel (sw : Bool) (d : BitVec 8) (a : BitVec 8) (b : BitVec 8)
  /-- R421 Combines a lane-wise equality test into a predicate. -/
  | vcmpEq (sw : Bool) (comb : Comb) (p : BitVec 3) (a : BitVec 8) (b : BitVec 8)
  /-- R421 Combines a lane-wise inequality test into a predicate. -/
  | vcmpNe (sw : Bool) (comb : Comb) (p : BitVec 3) (a : BitVec 8) (b : BitVec 8)
  /-- R421 Combines a lane-wise less-than test into a predicate. -/
  | vcmpLt (sw : Bool) (comb : Comb) (p : BitVec 3) (a : BitVec 8) (b : BitVec 8)
  /-- R421 Combines a lane-wise less-or-equal test into a predicate. -/
  | vcmpLe (sw : Bool) (comb : Comb) (p : BitVec 3) (a : BitVec 8) (b : BitVec 8)
  /-- R421 Combines a lane-wise greater-than test into a predicate. -/
  | vcmpGt (sw : Bool) (comb : Comb) (p : BitVec 3) (a : BitVec 8) (b : BitVec 8)
  /-- R421 Combines a lane-wise greater-or-equal test into a predicate. -/
  | vcmpGe (sw : Bool) (comb : Comb) (p : BitVec 3) (a : BitVec 8) (b : BitVec 8)
  /-- R137 Converts each lane from the CVS type to the ET type. -/
  | vcvt (sw : Bool) (d : BitVec 8) (a : BitVec 8)
  /-- R422 Lane-wise absolute value. -/
  | vabs (sw : Bool) (d : BitVec 8) (a : BitVec 8)
  /-- R422 Lane-wise negation. -/
  | vneg (sw : Bool) (d : BitVec 8) (a : BitVec 8)
  /-- R422 Lane-wise bitwise NOT. -/
  | vnot (sw : Bool) (d : BitVec 8) (a : BitVec 8)
  /-- R422 Counts leading zeros of each integer element. -/
  | vclz (sw : Bool) (d : BitVec 8) (a : BitVec 8)
  /-- R422 Counts one bits of each integer element. -/
  | vpopc (sw : Bool) (d : BitVec 8) (a : BitVec 8)
  /-- R141 Long-latency lane-wise reciprocal. -/
  | vrcp (sw : Bool) (d : BitVec 8) (a : BitVec 8)
  /-- R141 Long-latency lane-wise reciprocal square root. -/
  | vrsq (sw : Bool) (d : BitVec 8) (a : BitVec 8)
  /-- R141 Long-latency correctly rounded square root. -/
  | vsqrt (sw : Bool) (d : BitVec 8) (a : BitVec 8)
  /-- R141 Long-latency lane-wise base-2 exponential. -/
  | vexp2 (sw : Bool) (d : BitVec 8) (a : BitVec 8)
  /-- R141 Long-latency lane-wise base-2 logarithm. -/
  | vlog2 (sw : Bool) (d : BitVec 8) (a : BitVec 8)
  /-- R141 Long-latency lane-wise hyperbolic tangent. -/
  | vtanh (sw : Bool) (d : BitVec 8) (a : BitVec 8)
  /-- R423 Loads a sign-extended immediate into each guarded active lane. -/
  | vli (sw : Bool) (d : BitVec 8) (imm : BitVec 16)
  /-- R423 Loads the immediate into the high half of each guarded active lane. -/
  | vlih (sw : Bool) (d : BitVec 8) (imm : BitVec 16)
  /-- R423 Broadcasts a scalar into each guarded active lane. -/
  | vbcast (sw : Bool) (d : BitVec 8) (a : BitVec 6)
  /-- R424 Copies one lane of a vector register into a scalar, long-latency. -/
  | vextr (sw : Bool) (d : BitVec 6) (a : BitVec 8) (b : BitVec 6)
  /-- R425 Gathers lanes of a register by per-lane source indices. -/
  | vperm (sw : Bool) (d : BitVec 8) (a : BitVec 8) (b : BitVec 8)
  /-- R151 Sums contributing lanes in the fixed tree into a scalar. -/
  | vredAdd (sw : Bool) (d : BitVec 6) (a : BitVec 8)
  /-- R151 Minimum of contributing lanes in the fixed tree. -/
  | vredMin (sw : Bool) (d : BitVec 6) (a : BitVec 8)
  /-- R151 Maximum of contributing lanes in the fixed tree. -/
  | vredMax (sw : Bool) (d : BitVec 6) (a : BitVec 8)
  /-- R151 Bitwise AND of contributing lanes. -/
  | vredAnd (sw : Bool) (d : BitVec 6) (a : BitVec 8)
  /-- R151 Bitwise OR of contributing lanes. -/
  | vredOr (sw : Bool) (d : BitVec 6) (a : BitVec 8)
  /-- R151 Bitwise XOR of contributing lanes. -/
  | vredXor (sw : Bool) (d : BitVec 6) (a : BitVec 8)
  /-- R152 Inclusive fixed-tree prefix sum over lanes. -/
  | vscanAdd (sw : Bool) (d : BitVec 8) (a : BitVec 8)
  /-- R152 Inclusive prefix minimum over lanes. -/
  | vscanMin (sw : Bool) (d : BitVec 8) (a : BitVec 8)
  /-- R152 Inclusive prefix maximum over lanes. -/
  | vscanMax (sw : Bool) (d : BitVec 8) (a : BitVec 8)
  /-- R152 Inclusive prefix AND over lanes. -/
  | vscanAnd (sw : Bool) (d : BitVec 8) (a : BitVec 8)
  /-- R152 Inclusive prefix OR over lanes. -/
  | vscanOr (sw : Bool) (d : BitVec 8) (a : BitVec 8)
  /-- R152 Inclusive prefix XOR over lanes. -/
  | vscanXor (sw : Bool) (d : BitVec 8) (a : BitVec 8)
  /-- R427 Collects one mask word of a predicate into a scalar. -/
  | vbal (sw : Bool) (d : BitVec 6) (p : BitVec 3) (b : BitVec 6)
  /-- R143 Accumulates a four-way packed 8-bit integer dot product. -/
  | vdot4 (sw : Bool) (d : BitVec 8) (a : BitVec 8) (b : BitVec 8)
  /-- R143 Accumulates a two-way packed 16-bit float dot product into F32, rounded once. -/
  | vdot2 (sw : Bool) (d : BitVec 8) (a : BitVec 8) (b : BitVec 8)
  /-- R423 Writes each lane's index into a vector register. -/
  | vidx (sw : Bool) (d : BitVec 8)
  /-- R423 Sets a predicate where a lane's value is non-zero. -/
  | vsetp (sw : Bool) (p : BitVec 3) (a : BitVec 8)
  /-- R392 Lane-wise AND of two predicates. -/
  | pland (sw : Bool) (d : BitVec 3) (a : BitVec 3) (b : BitVec 3)
  /-- R392 Lane-wise OR of two predicates. -/
  | plor (sw : Bool) (d : BitVec 3) (a : BitVec 3) (b : BitVec 3)
  /-- R392 Lane-wise XOR of two predicates. -/
  | plxor (sw : Bool) (d : BitVec 3) (a : BitVec 3) (b : BitVec 3)
  /-- R392 Lane-wise NOT of a predicate. -/
  | plnot (sw : Bool) (d : BitVec 3) (a : BitVec 3)
  /-- R392 Writes 1 or 0 into a vector register from a predicate. -/
  | psetv (sw : Bool) (d : BitVec 8) (p : BitVec 3)
  /-- R392 Counts guarded active lanes whose predicate is true. -/
  | pcnt (sw : Bool) (d : BitVec 6) (p : BitVec 3)
  -- memory instructions (R89)
  /-- R380 Loads one element per guarded active lane from memory, long-latency. -/
  | ld (sw : Bool) (d : BitVec 8) (base : BitVec 6) (pol : Pol) (x : Option (BitVec 8))
  /-- R408 Stores one element per guarded active lane, highest lane winning per address. -/
  | st (sw : Bool) (d : BitVec 8) (base : BitVec 6) (pol : Pol) (x : Option (BitVec 8))
  /-- R380 Loads 16 bytes per lane into four registers. -/
  | ld4 (sw : Bool) (d : BitVec 8) (base : BitVec 6) (pol : Pol) (x : Option (BitVec 8))
  /-- R408 Stores 16 bytes per lane from four registers. -/
  | st4 (sw : Bool) (d : BitVec 8) (base : BitVec 6) (pol : Pol) (x : Option (BitVec 8))
  /-- R194 Acquiring load read at the place of effect, then removal of unregistered L1 words. -/
  | lda (sw : Bool) (d : BitVec 8) (base : BitVec 6) (scope : Scope) (x : Option (BitVec 8))
  /-- R194 Releasing store performed at the word's place after the release wait. -/
  | stl (sw : Bool) (d : BitVec 8) (base : BitVec 6) (scope : Scope) (x : Option (BitVec 8))
  /-- R406 Loads one 32-bit word into a scalar, long-latency. -/
  | sld (sw : Bool) (d : BitVec 6) (base : BitVec 6) (pol : Pol) (x : BitVec 6)
  /-- R406 Stores a scalar as one 32-bit word. -/
  | sst (sw : Bool) (d : BitVec 6) (base : BitVec 6) (pol : Pol) (x : BitVec 6)
  /-- R355 Atomic add returning the old value per lane. -/
  | aadd (sw : Bool) (d : BitVec 8) (base : BitVec 6) (pol : Pol) (x : Option (BitVec 8))
  /-- R355 Atomic minimum returning the old value. -/
  | amin (sw : Bool) (d : BitVec 8) (base : BitVec 6) (pol : Pol) (x : Option (BitVec 8))
  /-- R355 Atomic maximum returning the old value. -/
  | amax (sw : Bool) (d : BitVec 8) (base : BitVec 6) (pol : Pol) (x : Option (BitVec 8))
  /-- R355 Atomic AND returning the old value. -/
  | aand (sw : Bool) (d : BitVec 8) (base : BitVec 6) (pol : Pol) (x : Option (BitVec 8))
  /-- R355 Atomic OR returning the old value. -/
  | aor (sw : Bool) (d : BitVec 8) (base : BitVec 6) (pol : Pol) (x : Option (BitVec 8))
  /-- R355 Atomic XOR returning the old value. -/
  | axor (sw : Bool) (d : BitVec 8) (base : BitVec 6) (pol : Pol) (x : Option (BitVec 8))
  /-- R355 Atomic exchange returning the old value. -/
  | axchg (sw : Bool) (d : BitVec 8) (base : BitVec 6) (pol : Pol) (x : Option (BitVec 8))
  /-- R355 Atomic compare-and-swap returning the old value. -/
  | acas (sw : Bool) (d : BitVec 8) (base : BitVec 6) (pol : Pol) (x : Option (BitVec 8))
  /-- R396 Posts per-lane add updates to memory words, returning nothing. -/
  | redadd (sw : Bool) (d : BitVec 8) (base : BitVec 6) (pol : Pol) (x : Option (BitVec 8))
  /-- R396 Posts per-lane minimum updates. -/
  | redmin (sw : Bool) (d : BitVec 8) (base : BitVec 6) (pol : Pol) (x : Option (BitVec 8))
  /-- R396 Posts per-lane maximum updates. -/
  | redmax (sw : Bool) (d : BitVec 8) (base : BitVec 6) (pol : Pol) (x : Option (BitVec 8))
  /-- R396 Posts per-lane OR updates. -/
  | redor (sw : Bool) (d : BitVec 8) (base : BitVec 6) (pol : Pol) (x : Option (BitVec 8))
  /-- R196 Parks the split until every earlier reduce-on-write of the team has taken effect at its scope. -/
  | pdrain (sw : Bool) (scope : Scope)
  /-- R190 Release fence: later writes take effect after earlier accesses within the scope. -/
  | fenceRel (sw : Bool) (scope : Scope)
  /-- R191 Acquire fence waiting for earlier reads, then removing unregistered L1 words. -/
  | fenceAcq (sw : Bool) (scope : Scope)
  /-- R191 Release then acquire, ordering earlier writes before later reads. -/
  | fenceFull (sw : Bool) (scope : Scope)
  /-- R191 Acquire fence without the L1 removal. -/
  | fenceAcqn (sw : Bool) (scope : Scope)
  /-- R195 Removes unregistered L1 words overlapping a region. -/
  | invr (sw : Bool) (d : BitVec 6) (base : BitVec 6)
  /-- R195 Writes back and deregisters words of a region registered to the coach. -/
  | wbr (sw : Bool) (d : BitVec 6) (base : BitVec 6)
  /-- R195 Registers every whole word of a region to the issuing coach. -/
  | ownr (sw : Bool) (d : BitVec 6) (base : BitVec 6)
  /-- R412 Loads from the scratchpad per lane, long-latency. -/
  | spld (sw : Bool) (d : BitVec 8) (base : BitVec 6) (x : Option (BitVec 8))
  /-- R412 Stores to the scratchpad per lane, highest lane winning per address. -/
  | spst (sw : Bool) (d : BitVec 8) (base : BitVec 6) (x : Option (BitVec 8))
  /-- R412 Indivisible scratchpad add per lane returning the old value. -/
  | spaadd (sw : Bool) (d : BitVec 8) (base : BitVec 6) (x : Option (BitVec 8))
  /-- R365 Allocates a scratchpad buffer and handle on the issuing coach, or returns 0. -/
  | halloc (sw : Bool) (d : BitVec 6) (a : BitVec 6)
  /-- R366 Passes the right of access to a scratchpad buffer to another coach of the train. -/
  | hpass (sw : Bool) (a : BitVec 6) (b : BitVec 6)
  /-- R367 Frees a scratchpad buffer and its handle. -/
  | hfree (sw : Bool) (a : BitVec 6)
  -- matrix, bank and engine instructions (R90)
  /-- R215 Enters a 128 x 128 matrix share into the coach tensor-core queue. -/
  | mm128 (sw : Bool) (d : BitVec 8) (a : BitVec 6) (b : BitVec 6)
  /-- R209 Enters a 256 x 256 gang matrix instruction into the rendezvous latch. -/
  | mm256 (sw : Bool) (d : BitVec 8) (a : BitVec 6) (b : BitVec 6)
  /-- R209 Enters a 512 x 512 gang matrix instruction into the rendezvous latch. -/
  | mm512 (sw : Bool) (d : BitVec 8) (a : BitVec 6) (b : BitVec 6)
  /-- R209 Enters a 1,024 x 1,024 gang matrix instruction into the rendezvous latch. -/
  | mm1024 (sw : Bool) (d : BitVec 8) (a : BitVec 6) (b : BitVec 6)
  /-- R218 Closes the team's open matrix instructions into a numbered batch. -/
  | mbatch (sw : Bool) (d : BitVec 6)
  /-- R219 Parks the split until a matrix batch completes, then acquires. -/
  | mwait (sw : Bool) (a : BitVec 6)
  /-- R214 Asks home slices to bring a range into L2 without pinning. -/
  | pfl2 (sw : Bool) (a : BitVec 6) (b : BitVec 6)
  /-- R226 Loads a bank microkernel image into a kernel slot of every bank unit of the partition, with a bank tag. -/
  | bkload (sw : Bool) (d : BitVec 6) (a : BitVec 6) (slot : BitVec 2)
  /-- R228 Sends one bank run per guarded active lane toward its bank unit, with a bank tag. -/
  | bkrun (sw : Bool) (d : BitVec 6) (a : BitVec 8) (b : BitVec 6)
  /-- R232 Parks the split until a bank tag completes, then acquires. -/
  | bkwait (sw : Bool) (a : BitVec 6)
  /-- R234 Reads a word of a bank unit's kept q state per lane, long-latency. -/
  | bkread (sw : Bool) (d : BitVec 8) (a : BitVec 8) (q : BitVec 2)
  /-- R256 Issues a linear copy command to a dray queue with a copy tag. -/
  | dcopy (sw : Bool) (d : BitVec 6) (a : BitVec 6)
  /-- R256 Issues a strided two-dimensional copy command. -/
  | dcopy2 (sw : Bool) (d : BitVec 6) (a : BitVec 6)
  /-- R256 Issues a fill command with a 32-bit pattern. -/
  | dfill (sw : Bool) (d : BitVec 6) (a : BitVec 6)
  /-- R256 Issues a gather command driven by an index array. -/
  | dgath (sw : Bool) (d : BitVec 6) (a : BitVec 6)
  /-- R259 Issues a copy across a declared compartment gate. -/
  | dgate (sw : Bool) (d : BitVec 6) (a : BitVec 6)
  /-- R263 Parks the split until a copy tag completes, then acquires. -/
  | dwait (sw : Bool) (a : BitVec 6)
  /-- R263 Returns whether a copy tag has completed, acquiring when it has. -/
  | dpoll (sw : Bool) (d : BitVec 6) (a : BitVec 6)
  /-- R265 Issues a reduce collective to the die's tandem. -/
  | cred (sw : Bool) (d : BitVec 6) (a : BitVec 6)
  /-- R265 Issues a gather collective. -/
  | cgath (sw : Bool) (d : BitVec 6) (a : BitVec 6)
  /-- R265 Issues a reduce-scatter collective. -/
  | cscat (sw : Bool) (d : BitVec 6) (a : BitVec 6)
  /-- R265 Issues an all-to-all exchange collective. -/
  | cxch (sw : Bool) (d : BitVec 6) (a : BitVec 6)
  /-- R263 Parks the split until a collective tag completes, then acquires. -/
  | cwait (sw : Bool) (a : BitVec 6)
  /-- R263 Returns whether a collective tag has completed. -/
  | cpoll (sw : Bool) (d : BitVec 6) (a : BitVec 6)
  -- the PRIV family (R78, R90)
  /-- R388 Atomically harvests a page: clears D, sets MIG, writes back dirty and registered data. -/
  | pgharv (sw : Bool) (d : BitVec 6) (a : BitVec 6)
  /-- R389 Ends a page migration, drops TLB entries, clears MIG and replays parked accesses. -/
  | pgset (sw : Bool) (d : BitVec 6) (a : BitVec 6)
  /-- R415 Drops a context's TLB entries for one aligned range, optionally discarding its cached lines. -/
  | tlbinvPage (sw : Bool) (d : BitVec 6) (a : BitVec 6)
  /-- R415 Drops every TLB entry of a context. -/
  | tlbinvContext (sw : Bool) (d : BitVec 6) (a : BitVec 6)
  /-- R323 Makes the lowest FREE key slot LIVE with a fresh key set bound to a context and compartment. -/
  | keyopAlloc (sw : Bool) (d : BitVec 6) (a : BitVec 6)
  /-- R323 Ends a key slot as SEQEND does from its end instant on. -/
  | keyopDestroy (sw : Bool) (d : BitVec 6) (a : BitVec 6)
  /-- R324 Installs a new key set beside the old one and starts the re-encryption sweep. -/
  | keyopRotate (sw : Bool) (d : BitVec 6) (a : BitVec 6)
  /-- R323 Returns the state of a key slot. -/
  | keyopStatus (sw : Bool) (d : BitVec 6) (a : BitVec 6)
  /-- R323 Returns an ENDED key slot whose leaves are cleared to FREE. -/
  | keyopRelease (sw : Bool) (d : BitVec 6) (a : BitVec 6)
  /-- R362 Arms a gang switch of a partition on every member for a global time. -/
  | ctxswArm (sw : Bool) (d : BitVec 6) (a : BitVec 6)
  /-- R362 Withdraws the partition's armed gang switch on every member. -/
  | ctxswCancel (sw : Bool) (d : BitVec 6) (a : BitVec 6)
  /-- R325 Starts the scrub sweep of a drained slice in all base dies. -/
  | scrub (sw : Bool) (d : BitVec 6) (a : BitVec 6)
  /-- R325 Returns whether a slice's scrub is running. -/
  | scrubPoll (sw : Bool) (d : BitVec 6) (a : BitVec 6)
  -- bank-only instructions (R93)
  /-- R236 Bank unit loads the masked words of a row at an offset into a q register, reopening rows as needed. -/
  | rowld (sw : Bool) (d : BitVec 2) (k : BitVec 3)
  /-- R236 Bank unit writes the masked words of a q register into a row and marks it written. -/
  | rowst (sw : Bool) (a : BitVec 2) (k : BitVec 3)
  /-- R154 Bank unit adds an incoming F32 row into a BFP32 accumulator row block by block. -/
  | bfpadd (sw : Bool) (d : BitVec 2) (a : BitVec 2)
  /-- R157 Bank unit performs a bit-serial multiply-accumulate of packed weights by an activation. -/
  | bsmac (sw : Bool) (d : BitVec 2) (a : BitVec 2) (k : BitVec 3)
  /-- R224 Pushes the current mask ANDed with a q register's non-zero words onto the mask stack. -/
  | mpush (sw : Bool) (a : BitVec 2)
  /-- R224 Pops the bank unit's mask stack. -/
  | mpop (sw : Bool)
  /-- R224 Replaces the top mask with its parent AND NOT itself. -/
  | mflip (sw : Bool)
  /-- R231 Ends a bank pass: precharges the open row and starts the next pass or ends the run. -/
  | bkend (sw : Bool)
  /-- R155 Bank unit converts a BFP32 row to F32 words. -/
  | bfpout (sw : Bool) (d : BitVec 2) (a : BitVec 2)
  -- the steps of the device that have no encoding (spec/95)
  /-- R235 Bank unit executes an admitted coach instruction (ALU, VSEL, VCMP, VLI, BRA, MODEI) on q and k registers under its mask. -/
  | bankSubsetInstruction (o : BankOp)
  /-- R285 An issue slot chooses a team and, within it, a split to issue next. -/
  | issueOpportunity (slot : Nat)
  /-- R56 A ready spilled split is brought back on chip in place of another entry. -/
  | splitRestore (tid : Nat) (sp : Nat)
  /-- R286 A split's count of 32 unchanged loop iterations demotes it. -/
  | spinDemotion (tid : Nat) (sp : Nat)
  /-- R287 Demotion ends 4,096 cc after it began. -/
  | demotionEnd (tid : Nat) (sp : Nat)
  /-- R281 The distributor opens the head node of the next ready queue by priority and weight. -/
  | nodeOpen (part : Nat)
  /-- R282 When slots, lines or a train free up, the distributor places the next fitting drove on the lowest fitting train. -/
  | drovePlacement (part : Nat)
  /-- R118 The clear engine finishes zeroing an allocation, letting the team first issue or its XACQ return. -/
  | lineClearDone (tid : Nat)
  /-- R107 The head acquire-queue request is granted once enough lines are available. -/
  | xacqGrant (coach : Nat)
  /-- R116 A register line's image arrives, becomes HELD and merges pending writes. -/
  | registerLineFill (tid : Nat) (line : Nat)
  /-- R123 A lane's long-latency result lands in its registers, possibly releasing a switch-marker wait. -/
  | longLatencyReturn (tid : Nat) (idx : Nat) (lane : Nat) (ext : Inbound (BitVec 128))
  /-- R47 A RETIRING team whose outstanding work has all finished frees its slot and lines. -/
  | teamRetire (tid : Nat)
  /-- R277 A node's completion waits for its writes, stores the completion word, decrements successors and interrupts the host. -/
  | nodeCompletion (ctx : Nat) (entry : Nat)
  /-- R274 An arm posted by LAUNCH reaches the scheduler, which reads, checks and arms the entry. -/
  | entryArm (ctx : Nat) (entry : Nat)
  /-- R274 A posted decrement reaches the scheduler and lowers C or adds to P. -/
  | entryDecrement (ctx : Nat) (entry : Nat) (n : Nat)
  /-- R275 A host write with ARM = 1 to the node-release window arms an entry. -/
  | nodeReleaseArm (ctx : Nat) (value : DWord)
  /-- R275 A host write with ARM = 0 to the node-release window decrements an entry. -/
  | nodeReleaseDecrement (ctx : Nat) (value : DWord)
  /-- R280 A host write at offset 0x008 of the window makes the scheduler reread the policy table. -/
  | policyReload (ctx : Nat)
  /-- R330 A host write to a BAR location without behaviour of its own is ignored or counted in BADREL. -/
  | hostRegisterWrite (bar : Nat) (off : Nat) (bytes : List Byte)
  /-- R68 A launch's watchdog count reaches its budget and halts the context. -/
  | watchdog (ctx : Nat) (entry : Nat)
  /-- R288 A drove stalled for 95,000 cc is evicted to make room for a requeued drove. -/
  | droveEviction (drove : Nat)
  /-- R305 At the switch time every unit of the outgoing context stops and the incoming context is loaded. -/
  | gangSwitch (part : Nat)
  /-- R298 A halt-delivered cause stops every coach and engine of the context and sends halt flits to members. -/
  | contextHalt (h : HaltCause)
  /-- R299 The device writes back images, writes stop records, sets STATUS and interrupts the host. -/
  | haltFinish (ctx : Nat)
  /-- R298 A halt flit from another member halts the same context with REMOTE_FAULT. -/
  | remoteHaltFlit (ctx : Nat) (mem : Inbound Nat)
  /-- R177 The memory manager resolves a page fault and replays the unfinished lanes or resumes stalled engines. -/
  | pageFaultService (ctx : Nat) (va : DWord) (fix : Option PageFix)
  /-- R175 A translation unit walks the page tables for a miss, setting AC or D and checking the reverse map. -/
  | translationWalk (ctx : Nat) (comp : Nat) (va : DWord) (write : Bool)
  /-- R186 A read, write or atomic request takes effect at its word's place of effect. -/
  | placeOfEffectAccess (k : Nat)
  /-- R197 The home slice serves an .OWN write or OWNR, recalling from another owner and registering the word. -/
  | ownRegistration (coach : Nat) (ctx : Nat) (va : DWord)
  /-- R197 A read of a registered word is forwarded to and performed in the owner's L1. -/
  | forwardedRead (coach : Nat) (ctx : Nat) (va : DWord)
  /-- R197 A write-back or deregistration of a registered word reaches the home slice and is accepted or dropped as stale. -/
  | registeredWriteback (coach : Nat) (ctx : Nat) (va : DWord) (n : BitVec 16)
  /-- R249 The NMU applies one arriving load, store, atomic or reduce-on-write to an 8-byte unit, whole. -/
  | nmuUpdate (k : Nat)
  /-- R252 A dray serves one 4 KiB chunk of a queued command, completing its tag after the last. -/
  | drayChunk (dray : Nat) (queue : Nat)
  /-- R213 A tile fetch unit reads and pins an operand line for a queued share. -/
  | tileFetchLine (coach : Nat)
  /-- R221 The tensor core completes one step of a share, completing batches when shares finish. -/
  | tensorStep (coach : Nat)
  /-- R230 A run or BKREAD lane reaches its bank unit's queue in issue order. -/
  | bankRunArrival (unit : Nat)
  /-- R226 The kernel image lands in a bank unit's slot after its earlier runs; the tag completes when all hold it. -/
  | bkloadDelivery (unit : Nat)
  /-- R242 The NMU admits a waiting run on a free bank within the activation budget. -/
  | bankRunAdmit (unit : Nat)
  /-- R243 An ordinary request enters its bank's queue at the NMU. -/
  | ordinaryRequestArrival (unit : Nat) (row : Nat) (write : Bool) (id : Nat)
  /-- R244 At a row boundary the NMU takes up to four queued requests and serves them, suspending the kernel if needed. -/
  | bankRowBoundary (unit : Nat)
  /-- R244 A bank's refresh falls due and is served. -/
  | refreshDue (unit : Nat)
  /-- R268 A tandem sends a numbered 64 KiB chunk to a peer. -/
  | collChunkSend (ctx : Nat) (peer : Nat)
  /-- R268 A tandem receives a chunk and writes, drops and acknowledges, or NACKs it by sequence number. -/
  | collChunkReceive (ctx : Nat) (peer : Nat) (c : Inbound Chunk)
  /-- R268 An acknowledgement lets the sender release a kept chunk. -/
  | collAck (ctx : Nat) (peer : Nat) (n : Inbound Word)
  /-- R268 A NACK makes the sender resend from the NACKed number. -/
  | collNack (ctx : Nat) (peer : Nat) (n : Inbound Word)
  /-- R269 5 µs after a freeze, further flits of the context are NACKed instead of stored. -/
  | rxRegionExpiry (ctx : Nat)
  /-- R307 A partition-window request from another member is translated and performed at the target. -/
  | remoteRequest (r : Inbound RemoteReq)
  /-- R307 A fault completion from a target halts the initiator's context with REMOTE_FAULT. -/
  | remoteFaultCompletion (id : Inbound Nat)
  /-- R308 A remote request unanswered for 1 ms halts the initiator's context. -/
  | remoteTimeout (id : Nat)
  /-- R297 A corrected-error count crossing its threshold sets EVENTS.CKPT in affected teams and tells the host. -/
  | ckptAdvisory (kind : AdvKind) (idx : Nat)
  /-- R309 An error is corrected and counted. -/
  | correctedError (site : ErrSite)
  /-- R309 An uncorrectable error retires, poisons, refills or halts as the unit requires. -/
  | uncorrectableError (site : ErrSite)
  /-- R310 A failing coach halts its contexts and its registered words become LOST. -/
  | coachFailure (coach : Nat)
  /-- R289 Firmware lends an idle owned train to another partition. -/
  | trainLend (train : Nat) (part : Nat)
  /-- R289 A partition reclaims a lent train, pre-empting the borrower's droves and draining its coaches. -/
  | trainReclaim (train : Nat) (force : Bool)
  /-- R289 When the drain completes, the train passes back to its owner. -/
  | reclaimDrainDone (train : Nat)
  /-- R289 At 190,000 cc a forced reclaim makes still-registered words LOST. -/
  | reclaimDeadline (train : Nat)
  /-- R319 The memory manager decides a SEQOPEN, installs a key if granted and resumes the split. -/
  | seqopenService (tid : Nat) (sp : Nat)
  /-- R321 After the range-lock wait the slot is ENDED, its lines stop hitting and its keys are erased. -/
  | seqendEndInstant (tid : Nat) (sp : Nat)
  /-- R321 Once the memory manager clears an ended region's leaves, its slot becomes FREE. -/
  | keySlotFree (slot : Nat)
  /-- R324 A re-encryption engine reseals the block at its sweep pointer under the new key. -/
  | reencryptBlock (slot : Nat) (engine : Nat)
  /-- R325 The scrub sweep writes a row with zero data and a zero tag. -/
  | scrubRow (slice : Nat)
  /-- R326 The migration engine copies and reseals one block into another slice or device. -/
  | migrationBlockMove (m : Migration)
  /-- R329 A hot reset of the host link destroys sessions, keys, contexts and caches. -/
  | hostHotReset
  /-- R329 A link-down of the host link has the effects of a hot reset. -/
  | hostLinkDown
  /-- R333 A CXL link-down makes every CXL-tier block uncorrectable. -/
  | cxlLinkDown
  /-- R335 A downed port's traffic is rehashed over the remaining ports. -/
  | ectoupPortDown (port : Nat)
  /-- R336 A time-sync flit steers the device's global time count. -/
  | timeSyncFlit (t : DWord)
  /-- R337 Ten ms without sync, or excess error, sets TSYNC_LOST and halts multi-device contexts. -/
  | tsyncLost
  /-- R337 TSYNC_LOST clears after 1 s of good sync. -/
  | tsyncRecovered
  /-- R338 At power good the boot ROM trains the link and enters ROM_WAIT. -/
  | powerUp
  /-- R330 A host write into the BAR4 staging window, taken in ROM_WAIT and ignored later. -/
  | firmwareStagingWrite (off : Nat) (bytes : List Byte)
  /-- R338 A host write of GO starts verification of the staged image. -/
  | bootGo
  /-- R340 Signature verification ends, extending measurements and entering DERIVE or FAILED. -/
  | bootVerifyDone
  /-- R341 The per-boot tree is built and certified and the device enters READY. -/
  | bootDeriveDone
  /-- R348 At 115 °C every context halts and the coach clock stops. -/
  | thermalHalt
  /-- R348 Below 95 °C the coach clock restarts. -/
  | thermalRecovery
  /-- R348 The coach clock steps by 50 MHz when the power cap or temperature allow or require. -/
  | clockStep (up : Bool)
  /-- R349 Management reads error and event counters. -/
  | mgmtReadCounters
  /-- R349 Management clears error and event counters. -/
  | mgmtClearCounters
  /-- R349 Management reads advisory thresholds. -/
  | mgmtReadThresholds
  /-- R349 Management sets advisory thresholds. -/
  | mgmtWriteThresholds (kind : AdvKind) (idx : Nat) (value : Nat)
  /-- R349 Management reads power cap, temperatures, rails and clock. -/
  | mgmtReadPower
  /-- R348 Management writes the power cap. -/
  | mgmtSetPowerCap (watts : Nat)
  /-- R349 Management reads train count, repair list, counter positions, leaves, TSYNC_LOST and port states. -/
  | mgmtReadStatus
  /-- R289 Management commands a train reclaim without FORCE. -/
  | mgmtReclaim (train : Nat)
  /-- R289 Management commands a train reclaim with FORCE. -/
  | mgmtReclaimForce (train : Nat)
  /-- R328 SPDM responder answers a version request. -/
  | spdmGetVersion
  /-- R328 SPDM responder answers a capabilities request. -/
  | spdmGetCapabilities
  /-- R328 SPDM responder answers an algorithms request. -/
  | spdmNegotiateAlgorithms
  /-- R328 SPDM responder returns certificate digests. -/
  | spdmGetDigests
  /-- R328 SPDM responder returns the certificate chain. -/
  | spdmGetCertificate
  /-- R328 SPDM responder returns signed measurements. -/
  | spdmGetMeasurements
  /-- R328 SPDM responder performs key exchange, or errors when no per-boot key is certified. -/
  | spdmKeyExchange
  /-- R328 SPDM responder completes session establishment. -/
  | spdmFinish (session : Nat)
  /-- R328 SPDM responder answers a session heartbeat. -/
  | spdmHeartbeat (session : Nat)
  /-- R328 SPDM responder updates session keys. -/
  | spdmKeyUpdate (session : Nat)
  /-- R328 SPDM responder ends a session. -/
  | spdmEndSession (session : Nat)
  /-- R328 TDISP lock message moves a partition's TDI to CONFIG_LOCKED. -/
  | tdispLock (part : Nat)
  /-- R328 TDISP report message returns the TDI report. -/
  | tdispReport (part : Nat)
  /-- R328 TDISP start message moves the TDI to RUN. -/
  | tdispStart (part : Nat)
  /-- R328 TDISP stop message takes the TDI out of RUN. -/
  | tdispStop (part : Nat)
  /-- R310 An engine (dray, tandem, NMU or other unit) fails in service and halts the contexts that occupy it. -/
  | engineFailure (e : EngineUnit)
  /-- R335 An Ectoup port comes up and its traffic is hashed over it again. -/
  | ectoupPortUp (port : Nat)
  /-- R329 The host link trains again after a hot reset or link-down. -/
  | hostLinkUp
  /-- R362 A member device receives an arm or withdrawal of a gang switch from another member and acknowledges it. -/
  | switchArmReceived (a : Inbound SwitchArm)
  /-- R362 An acknowledgement of a gang-switch arm reaches the device whose CTXSW waits for it. -/
  | switchArmAcknowledgement (part : Nat) (mem : Inbound SwitchAck)
  /-- R362 One ms after a CTXSW arm without all acknowledgements, the arm is withdrawn and s[D] := 4. -/
  | switchArmTimeout (part : Nat)
  /-- R312 Firmware gives a FREE memory slice to a partition, which makes it ASSIGNED. -/
  | sliceAssignment (slice : Nat) (part : Nat)
  /-- R326 Firmware removes a slice from its partition, which makes it DRAINING. -/
  | sliceDrainStart (slice : Nat)
  /-- R313 System software, through firmware, creates a context and its world: context record, descriptor, key slots and IDLE scheduler entries. -/
  | contextCreation (spec : CtxSpec)
  /-- R299 System software destroys a resident context, releasing its key slots, scheduler entries and resources. -/
  | contextDestruction (ctx : Nat)
deriving DecidableEq, Repr

end Sys2Proof
end

