-- ==== Sys2Proof/Machine/MemState.lean ====
section
/-! DEFINITION. State of the memory system: caches, home slices, translation, seals, range locks, posted updates
(spec/06, spec/07, spec/09 R248, spec/13 R317, R318). Memory itself is a list of bytes by key. -/
namespace Sys2Proof.Machine

/-- State of a word at its home slice (R197): U, O(coach, n), LOST, each with the transfer number n. -/
inductive WordState
  | u (n : BitVec 16)
  | o (coach : Nat) (n : BitVec 16)
  | lost (n : BitVec 16)
deriving DecidableEq, Repr

/-- A line of a home L2 slice (R161, R163): `line` is VA[56:7]; 32 words. `tile` counts the tile fetch pins. -/
structure L2Line where
  asid : Nat
  line : Nat
  slot : Nat
  w : Bool
  cmp : Nat
  dk : Bool
  dirty : Bool
  data : List Word
  st : List WordState
  tile : Nat
  stamp : Nat
deriving DecidableEq, Repr

/-- A word of an L1 line (R161, R187): absent, an unregistered copy, or registered under n. -/
inductive L1Word
  | none
  | copy (v : Word)
  | reg (v : Word) (n : BitVec 16) (dirty : Bool)
deriving DecidableEq, Repr

/-- A line of a coach's L1 (R33, R161). -/
structure L1Line where
  coach : Nat
  asid : Nat
  line : Nat
  slot : Nat
  w : Bool
  cmp : Nat
  words : List L1Word
  stamp : Nat
deriving DecidableEq, Repr

/-- A line of a coach's instruction cache (R33, R72). -/
structure ILine where
  coach : Nat
  asid : Nat
  line : Nat
  slot : Nat
  cmp : Nat
  data : List Word
  stamp : Nat
deriving DecidableEq, Repr

/-- A line of an NMU's write-back buffer (R248): `key` is the memory key of its first byte. -/
structure NmuLine where
  nmu : Nat
  key : Nat
  slot : Nat
  sealId : Nat
  data : List Word
  dirty : Bool
  stamp : Nat
deriving DecidableEq, Repr

/-- A TLB entry of a stack's translation unit (R173). -/
structure TlbEntry where
  stack : Nat
  asid : Nat
  level : Nat
  page : Nat
  pte : DWord
deriving DecidableEq, Repr

/-- Reverse-map entries (R175): translation unit, key of the first 4 KiB, how many a frame has there, and the (ASID, VA
page) they name. -/
structure RmapEntry where
  stack : Nat
  frame : Nat
  num : Nat
  asid : Nat
  page : Nat
deriving DecidableEq, Repr

/-- A translated address: the entry, its level, the stack that serves it, the memory key of the byte and the sealed
block it lies in (R166, R167, R317). -/
structure Trans where
  pte : Nat
  level : Nat
  stack : Nat
  key : Nat
  block : Nat
deriving DecidableEq, Repr

/-- A poisoned page (R309). -/
inductive Poison
  | page (asid base size : Nat)
deriving DecidableEq, Repr

/-- A range-lock entry (R201, R202): a VA or scratchpad range, source or destination, and the operation it
belongs to. -/
structure LockEntry where
  ctx : Nat
  die : Nat
  /-- none for a VA range, the drove for a scratchpad range -/
  spad : Option Nat
  lo : Nat
  len : Nat
  dst : Bool
  tid : Nat
  kind : TagKind
  tag : Word
deriving DecidableEq, Repr

/-- A posted reduce-on-write not yet performed (R196): what its lane captured at issue, and the instruction it is a
lane of (its word, PC and split, and the number of its first lane's update). `faulted` while a page fault keeps its
team parked (R398). -/
structure PostedOp where
  id : Nat
  group : Nat
  word : Word
  pc : Word
  split : Nat
  faulted : Bool
  tid : Nat
  ctx : Nat
  comp : Nat
  coach : Nat
  va : DWord
  pol : Pol
  et : ET
  ftz : Bool
  op : AtOp
  x : DWord
  lane : Nat
  remote : Bool
deriving DecidableEq, Repr

end Sys2Proof.Machine
end

