-- ==== Sys2Proof/Machine/EngineState.lean ====
section
/-! DEFINITION. State of the engines: drays, tandems, bank units and their NMUs (spec/09, spec/10). -/
namespace Sys2Proof.Machine

/-- A command of a copy queue (R251 to R257): the block as read at issue, the issuer, the tag, the offset reached
and, while a page fault stalls it, the faulting address. -/
structure CopyCmd where
  fn : CopyFn
  blk : List Word
  tid : Nat
  ctx : Nat
  comp : Nat
  drove : Nat
  coach : Nat
  tag : Word
  off : Nat
  stalled : Option DWord
  started : Bool
  /-- SHA-256 message bytes read so far by DIGEST -/
  msg : List Byte
deriving DecidableEq, Repr

/-- The sixteen queues of a dray (R251, R252) and whose turn is next. -/
structure Dray where
  queues : List (Nat × List CopyCmd)
  turn : Nat
deriving DecidableEq, Repr

/-- A collective at a tandem (R265 to R268): its number k, the buffers, and per member the bytes received of its
send buffer (by offset), and how many bytes of its receive buffer have been written (R303). -/
structure CollCmd where
  k : Nat
  desc : CollDesc
  send : DWord
  recv : DWord
  tid : Nat
  ctx : Nat
  comp : Nat
  tag : Word
  die : Nat
  stalled : Option DWord
  /-- what this member has sent to each peer: next chunk offset -/
  sent : List (Nat × Nat)
  /-- contributions received: member, bytes in order -/
  got : List (Nat × List Byte)
  wrote : Nat
deriving DecidableEq, Repr

/-- A chunk that a tandem holds for later (R269): a chunk of a collective that has not been issued here keeps its bytes; one
stored in the receive region while the context was frozen has them there, in a 64 KiB unit after the numbers (R303). -/
structure HeldChunk where
  peer : Nat
  chunk : Chunk
  unit : Option Nat
deriving DecidableEq, Repr

/-- The fabric state of a context and a peer (R268): next number to send, next expected, chunks not acknowledged. -/
structure PeerLink where
  ctx : Nat
  peer : Nat
  next : Word
  expect : Word
  kept : List Chunk
deriving DecidableEq, Repr

/-- A run queued or running at a bank unit (R228, R231). -/
structure BankRun where
  tid : Nat
  ctx : Nat
  comp : Nat
  image : Nat
  tag : Word
  va : DWord
  ctl : Word
  k : List Word
  /-- times passed over by a SERVE run, and when it was queued (R242) -/
  passed : Nat
  since : Nat
  /-- the words of its kernel when a migration has moved it to another unit (R247); empty: those of its unit's slot -/
  words : List Word
deriving DecidableEq, Repr

/-- A bank operation on its way or in a bank unit's queue (R230): a run; a BKLOAD whose image has not been read
(R226); a kernel image on its way into a unit; a BKREAD lane, named by the id of its pending write, with the grid
cycle in which it reached its bank's queue (R243). -/
inductive BankItem
  | run (r : BankRun)
  | load (tid ctx comp : Nat) (tag : Word) (slot : Nat) (va : DWord)
  | image (tid : Nat) (tag : Word) (slot : Nat) (words : List Word)
  | read (tid ctx comp id lane q at_ : Nat) (va : DWord)
deriving DecidableEq, Repr

/-- The open row of a bank (R237 to R240): its offset, its translation when it was activated, its plaintext, its seal and the
generation of its key slot as they stood then, and whether ROWST wrote it. -/
structure OpenRow where
  off : Int
  t : Trans
  buf : List Word
  sealId : Nat
  gen : BitVec 19
  written : Bool
deriving DecidableEq, Repr

/-- A running kernel (R223, R231): pass index, micro-PC, the open row, a stall, and `opening`: the offset of a row still to
be activated before the next word, at the start of a pass or when a stopped or suspended run goes on (R231, R244, R246).
`prog` is the progress of a long instruction in bank cycles (R223, R243), `advanced` says that the kernel has reached
a boundary since its last suspension (R244), and `ending` that BKEND has ended the pass and its row is being precharged. -/
structure BankExec where
  run : BankRun
  pass : Nat
  upc : Nat
  row : Option OpenRow
  stalled : Option DWord
  opening : Option Int
  prog : Nat
  advanced : Bool
  ending : Bool
deriving DecidableEq, Repr

/-- A run that was stopped by a pre-emption or a halt, or that ended with KEEP, with what its unit held, and whether a row
was open when it stopped (R234, R246). -/
structure BankSaved where
  exec : BankExec
  opened : Bool
  q : List (List Word)
  k : List Word
  mode : Word
  mstack : List (BitVec 256)
deriving DecidableEq, Repr

/-- An ordinary request waiting at a bank (R243): its row, direction, name and the grid cycle it arrived in. -/
structure OrdReq where
  id : Nat
  row : Nat
  write : Bool
  at_ : Nat
deriving DecidableEq, Repr

/-- A bank unit (R223, R225, R234, R243): row registers, parameters, MODE, mask stack, kernel slots that differ from
their context's images (keyed 4·context + slot), the running kernel, kept state, its queue, ordinary requests,
refresh. -/
structure BankUnit where
  q : List (List Word)
  k : List Word
  mode : Word
  mstack : List (BitVec 256)
  slots : List (Nat × List Word)
  exec : Option BankExec
  /-- by context: kept state, the unit as the run left it (R234) -/
  kept : List (Nat × BankSaved)
  /-- by context: a stopped run, with q, k, MODE and mask stack (R246) -/
  saved : List (Nat × BankSaved)
  queue : List BankItem
  reqs : List OrdReq
  served : List (Nat × Nat)
  refresh : Bool
  lastRefresh : Nat
  /-- grid cycle up to which the bank is busy: the kernel's next boundary (R243 to R245) -/
  busy : Nat
deriving DecidableEq, Repr

/-- The whole of a row register at zero (R223). -/
def zeroRow : List Word := List.replicate 256 0

/-- A bank unit as a context finds it (R223). -/
def BankUnit.empty : BankUnit :=
  { q := List.replicate 4 zeroRow, k := List.replicate 8 0, mode := 0, mstack := [], slots := [], exec := none,
    kept := [], saved := [], queue := [], reqs := [], served := [], refresh := false, lastRefresh := 0, busy := 0 }

end Sys2Proof.Machine
end

