-- ==== Sys2Proof/Machine/DeviceState.lean ====
section
/-! DEFINITION. State of contexts, scheduler, partitions, keys, host link, boot and management (spec/11 to
spec/14). -/
namespace Sys2Proof.Machine

/-- State of a scheduler entry (R271). -/
inductive NodeState
  | idle
  | waiting
  | ready
  | active
deriving DecidableEq, Repr

/-- A node record as read at arming (R272). -/
structure NodeRec where
  entry : DWord
  args : DWord
  droves : Nat
  w : Nat
  teams : Nat
  event : Bool
  iq : Bool
  intr : Bool
  regs : BitVec 3
  wdog : Nat
  dps : Nat
  tvec : Word
  common : Nat
  readyq : Nat
  pred : Nat
  seed : Word
  rolemap : BitVec 128
  cwva : DWord
  cwval : DWord
  succ : List Nat
deriving DecidableEq, Repr

/-- A scheduler entry (R271, R272): `recd` is the record kept since arming; placement and completion counts of the
active launch; the watchdog's count in coach cycles (R68); the compartment of the record's page (R272). -/
structure Node where
  st : NodeState
  c : Nat
  p : Nat
  recd : Option NodeRec
  placed : Nat
  retired : Nat
  wdog : Nat
  comp : Nat
  /-- the compartment of the ENTRY page at the first placement, none before it (R272) -/
  entryComp : Option Nat
  /-- coach cycle in which it became READY (R280) -/
  readyAt : Nat
  /-- its completion word is on its way to another member (R277) -/
  cwSent : Bool
deriving DecidableEq, Repr

/-- The IDLE entry of a newly created context (R271). -/
def Node.idle : Node := ⟨.idle, 0, 0, none, 0, 0, 0, 0, none, 0, false⟩

/-- A post on its way from a team to the scheduler (R276), in issue order. -/
inductive Post
  | arm (tid entry : Nat)
  | dec (tid entry n : Nat)
deriving DecidableEq, Repr

/-- A sequence (R319): its handle, region, compartment; `ended` once E has passed (R321). -/
structure Seq where
  handle : Word
  slot : Nat
  base : Nat
  units : Nat
  comp : Nat
  ended : Bool
deriving DecidableEq, Repr

/-- A context halt (R298 to R300): the primary cause, its time, and whether the records are written. -/
structure HaltRec where
  h : HaltCause
  time : DWord
  finished : Bool
  unwritten : Bool
  /-- the team that raised the primary cause (R302) -/
  team : Option Nat
  /-- 64 KiB pages with no mapping: records on them stay unwritten (R301) -/
  lost : List Nat
  /-- coach cycle of the primary cause (R300) -/
  cycle : DWord
  /-- the bank unit whose BANK_FAULT has a record (R300, R303) -/
  bank : Option Nat
deriving DecidableEq, Repr

/-- A resident context (R270, R271, R279 to R281, R313). -/
structure Context where
  spec : CtxRecord
  part : Nat
  nc : Nat
  seqmax : Nat
  slots : List Nat
  gates : List Gate
  nodes : List (Nat × Node)
  posts : List Post
  /-- policy table as last read (R280) -/
  policy : List Word
  /-- ready queues, each first in first out (R280) -/
  ready : List (Nat × List Nat)
  /-- open nodes in the order they were opened (R281) -/
  opens : List Nat
  /-- requeued droves, oldest first (R281, R288, R289) -/
  requeue : List Nat
  /-- by priority: the queue whose turn it is, and the nodes it has opened in this turn (R281) -/
  turns : List (Nat × (Nat × Nat))
  /-- a scheduler access that waits on a page fault: its entry and address (R258, R273) -/
  schedFault : Option (Nat × DWord)
  /-- the scheduler's engine record: the entry and the reason (R303) -/
  schedStop : Option (Nat × Nat)
  running : Bool
  started : Bool
  halt : Option HaltRec
  collNum : Nat
  seqs : List Seq
  images : List Nat
  qsaves : List Nat
  ownfall : Nat
  /-- collectives of length 0, by number, which move no byte (R266) -/
  empties : List (Nat × CollDesc)
  /-- chunks held (R269), and the time of the freeze while the receive region still takes flits -/
  rx : List HeldChunk
  rxOpen : Option DWord
  /-- the VAs of the records of the last pre-emption that could not be written (R301) -/
  recordsDue : List Nat
deriving DecidableEq, Repr

/-- An armed gang switch (R305, R362): the context, the time, members still to acknowledge, the split that waits,
and when it was armed. -/
structure ArmedSwitch where
  ctx : Nat
  time : Nat
  waiting : List Nat
  split : Option (Nat × Nat × BitVec 6)
  at_ : DWord
deriving DecidableEq, Repr

/-- A partition (R279, R311, R335). -/
structure Partition where
  owned : List Nat
  borrowed : List Nat
  borrowLimit : Nat
  slices : List Nat
  ports : List Nat
  member : Nat
  members : Nat
  /-- (context, length in µs) (R279) -/
  schedule : List (Nat × Nat)
  epoch : DWord
  /-- the context of a CTXSW switch runs until this global time, the next boundary of the schedule (R362) -/
  until_ : Option Nat
  /-- member index: route id and port mask (R335) -/
  routes : List (Nat × (Nat × List Nat))
  armed : Option ArmedSwitch
deriving DecidableEq, Repr

/-- A train being reclaimed (R289): the borrower, start in coach cycles, FORCE. -/
structure Reclaim where
  train : Nat
  lender : Nat
  borrower : Nat
  start : Nat
  force : Bool
deriving DecidableEq, Repr

/-- State of a key slot (R316). -/
inductive SlotState
  | free
  | live
  | rotating
  | ended
deriving DecidableEq, Repr

/-- A key slot (R316, R319, R324): key sets are named by numbers that are never used twice; the engines still
sweeping, while ROTATING. -/
structure KeySlot where
  st : SlotState
  keys : Nat
  old : Nat
  ctx : Nat
  comp : Nat
  gen : BitVec 19
  sweep : List Nat
deriving DecidableEq, Repr

/-- A FREE slot at power-up (R316, R319). -/
def KeySlot.free : KeySlot := ⟨.free, 0, 0, 0, 0, 0, []⟩

/-- State of a memory slice (R312). -/
inductive SliceState
  | free
  | assigned (part : Nat)
  | draining (part : Nat)
  | scrubbing (row : Nat)
deriving DecidableEq, Repr

/-- A TDI (R328). -/
inductive TdiState
  | unlocked
  | locked
  | run
  | error
deriving DecidableEq, Repr

/-- Boot state (R338). -/
inductive BootState
  | romWait
  | verify
  | derive_
  | ready
  | failed
deriving DecidableEq, Repr

/-- Boot registers, trees and measurements (R338 to R342). -/
structure Boot where
  powered : Bool
  st : BootState
  err : Nat
  /-- BOOTCMD (R338) -/
  cmd : Word
  counter : Nat
  leaves : Nat
  certified : Bool
  repair : List (Nat × Nat × Nat)
  fuses : List (Nat × Nat × Nat)
  measurements : List (List Byte)
  /-- bytes of the CXL port's HDM decoder range, zero until firmware programs it (R333) -/
  hdm : Nat
deriving DecidableEq, Repr

/-- An SPDM session (R328): established once FINISH has been answered. -/
structure Session where
  id : Nat
  established : Bool
  keyUpdates : Nat
deriving DecidableEq, Repr

/-- What the SPDM responder last answered (R328, R342). -/
inductive SpdmReply
  | none
  | version
  | capabilities
  | algorithms
  | digests
  | certificate
  | measurements (ms : List (List Byte)) (leaf : Nat)
  | keyExchange (session leaf : Nat)
  | finished (session : Nat)
  | heartbeat (session : Nat)
  | keyUpdate (session : Nat)
  | ended (session : Nat)
  | unspecified
  | unexpected
deriving DecidableEq, Repr

/-- The host's side: links, sessions, TDIs, interrupts (R328 to R331). -/
structure HostSide where
  linkUp : Bool
  spdmVersion : Bool
  spdmCaps : Bool
  spdmAlgs : Bool
  sessions : List Session
  reply : SpdmReply
  /-- IDE streams: a TDI's number for its selective one, 16 for the link stream; and the session that set its keys -/
  ide : List (Nat × Nat)
  tdi : List (Nat × TdiState)
  tdiReport : Option (Nat × List Nat)
  /-- MSI-X vectors raised, oldest first (R331) -/
  interrupts : List Nat
deriving DecidableEq, Repr

/-- Management counters, thresholds and state (R349). -/
structure Mgmt where
  /-- corrected errors by unit: kind and index -/
  corrected : List (Nat × Nat)
  thresholds : List (Nat × Nat)
  badrel : Nat
  portdrop : Nat
  stalewb : Nat
  ownfall : Nat
  /-- faults of inbound requests: context, VA, initiator and cause (R307); late replies, which have no cause (R308) -/
  log : List (Nat × DWord × Nat × Option Cause)
  /-- advisories still to be posted: kind and index (R297) -/
  crossed : List (Nat × Nat)
  mailbox : List Nat
deriving DecidableEq, Repr

/-- Clocks and power (R5, R336, R337, R348). -/
structure Clocks where
  cycle : DWord
  gtime : DWord
  frac : Nat
  mhz : Nat
  powerCap : Nat
  stopped : Bool
  tsyncLost : Bool
  lastSync : DWord
  goodSince : DWord
  /-- correction of the global time still to be made, in the unit of `frac` (R336) -/
  slew : Int
deriving DecidableEq, Repr

/-- What the device has sent on the fabric and not had answered (R298, R268, R307, R308). -/
inductive Flit
  | halt (ctx member : Nat)
  | chunk (ctx peer : Nat) (c : Chunk)
  | ack (ctx peer : Nat) (seq : Word)
  | nack (ctx peer : Nat) (seq : Word)
  | request (member : Nat) (r : RemoteReq)
  | reply (id member : Nat) (v : BitVec 128)
  | fault (id member : Nat) (va : DWord) (cause : Cause)
  | arm (part member : Nat) (time : DWord) (ctx : Nat)
  | withdraw (part member : Nat)
  | armAck (part member : Nat) (resident : Bool)
  | block (src : Nat) (data : Option (List Byte))
deriving DecidableEq, Repr

/-- A remote request of this device (R308): who waits, where it went, when it was sent; `dead` after a timeout or a
fault completion, when a late reply is discarded. -/
structure RemoteOut where
  id : Nat
  ctx : Nat
  tid : Nat
  member : Nat
  va : DWord
  sent : DWord
  dead : Bool
deriving DecidableEq, Repr

end Sys2Proof.Machine
end

