-- ==== Sys2Proof/Machine/TeamState.lean ====
section
/-! DEFINITION. State of the coaches: splits, teams, droves, register lines, tensor-core shares (spec/02, spec/04,
spec/08, spec/11 R284 to R288, spec/12 R290 to R296). Plain data only. -/
namespace Sys2Proof.Machine

/-- A join record (R58). -/
structure JoinRec where
  pc : Word
  depth : Nat
  id : Nat
deriving DecidableEq, Repr

/-- What a PARKED split, or one held at issue, waits for (R53, R121 to R125). A wait marked *held* belongs to an
instruction that has had no effect yet: the PC is still that of the instruction, which is tried again when the wait is
met (the second kind of R370, and the holds of R124 and R190). Every other wait follows the instruction: the PC has
moved on. -/
inductive Wait
  /-- the long-latency writes of the split (R122) -/
  | switch
  /-- held: long-latency writes to these registers (R124, R108): vector registers as 0..255, scalars as 256 + n -/
  | regs (rs : List Nat)
  /-- the grant and the clearing of its XACQ (R107, R118) -/
  | xacq
  /-- the next phase change of a barrier word (R181, R363, R393) -/
  | barrier (off : Nat)
  /-- held: room for `n` items in a queue of a coach position (R51) -/
  | room (pos q n : Nat)
  /-- a tag or batch (R263, R232, R219); `yielded` splits spill first (R56) -/
  | tag (kind : TagKind) (n : Word) (yielded : Bool)
  /-- held: the end of the handler of a sister split (R63) -/
  | handler
  /-- reduce-on-write operations of the team posted before number `upto`, on this device or everywhere (R196) -/
  | posted (upto : Nat) (everywhere : Bool)
  /-- held: earlier reads landed and, for a wide scope, remote writes acknowledged (R190, R191) -/
  | release (remote : Bool)
  /-- an LDA: its lanes landed, then the removal (R191) -/
  | acquire
  /-- held: a place in queue `unit` of an engine of this kind, and range-lock entries on a die (R201, R256, R265) -/
  | engine (kind : TagKind) (unit die locks : Nat)
  /-- the instruction stands in the rendezvous latch: it has issued, and the rendezvous moves the split on (R209) -/
  | latch
  /-- held: room in the tensor-core queue (R209) -/
  | tensor
  /-- held: the end of a SEQEND of this handle by another split (R321) -/
  | ending (h : Word)
  /-- held: an outstanding engine operation of the team (R371) -/
  | tags
  /-- held: no matrix instruction of the team in the latch (R207) -/
  | latchEmpty
  /-- the memory manager's answer to SEQOPEN: destination, base, units (R319) -/
  | seqopen (d : BitVec 6) (base n : Nat)
  /-- the answer to a team that was not running, for s[D] when it goes on (R402) -/
  | answer (d : Nat) (v : Word)
  /-- the end instant of SEQEND (R321) -/
  | seqend (h : Word)
  /-- held: the landing of every long-latency return of the team (R117, R370, R371) -/
  | drain
  /-- firmware's answer to a PRIV function, to be written to s[d] (R362) -/
  | firmware (d : BitVec 6)
  /-- held: every matrix batch of the team complete (R371) -/
  | batches
  /-- held: the matrix batches with accumulators in these blocks complete (R108) -/
  | blocks (blk : BitVec 3)
  /-- held: copy commands that name a handle complete (R260) -/
  | handleFree (h : Nat)
  /-- held: a team's own posted updates to a line (R398) -/
  | line
  /-- held: the FILLING lines of these vector registers; it parks the team (R53, R116) -/
  | fill (rs : List Nat)
deriving DecidableEq, Repr

/-- Where a split stands, apart from its waits (R53): a PARKED split is a RUN or HANDLER split with a wait. -/
inductive Phase
  | run
  | joinWait
  | handler
deriving DecidableEq, Repr

/-- A value an instruction wrote, for the spin detector (R286): known, or still to land as register `k` of a lane of the
pending write `id`. -/
inductive WrittenVal
  | val (v : Nat)
  | await (id lane k : Nat)
deriving DecidableEq, Repr

/-- What one instruction wrote, for the spin detector (R286): its address and the values at its destinations. -/
structure WriteRec where
  pc : Word
  vals : List WrittenVal
deriving DecidableEq, Repr

/-- The spin detector of a split (R286): the watched loop, the count, this iteration's and the last one's writes. While no
loop is watched, `cur` holds the writes of the last instructions, of which the first iteration is made. -/
structure Spin where
  target : Word
  branch : Word
  count : Nat
  cur : List WriteRec
  prev : Option (List WriteRec)
  /-- the iteration before `prev`, while values of `prev` are still to land and the two cannot be compared -/
  late : Option (List WriteRec)
  /-- a demotion in this loop ended by its timer and no iteration has changed since (R288, log 74) -/
  lapsed : Bool
  /-- a taken branch has named the loop; before that `cur` holds the last writes of the split (R286) -/
  watching : Bool
deriving DecidableEq, Repr

/-- A demotion (R287): the coach cycle at which it began and the range of its loop. -/
structure Demotion where
  since : Nat
  lo : Word
  hi : Word
deriving DecidableEq, Repr

/-- A split of a team (R53, R112). `uid` is its identity; its age rank is its place in the team's list. -/
structure Split where
  uid : Nat
  pc : Word
  mask : LaneMask
  mode : Word
  phase : Phase
  waits : List Wait
  /-- return stack, newest first (R56) -/
  ret : List Word
  /-- join stack, newest first (R58) -/
  joins : List JoinRec
  gtimeLatch : Option Word
  cycleLatch : Option Word
  icount : Word
  entryDepth : Nat
  /-- on-chip entry 0 to 7, none while spilled (R56, R112) -/
  entry : Option Nat
  /-- issues of the team in which the split was eligible and not chosen (R284) -/
  passed : Nat
  /-- issue number of the team at which it became due (R284) -/
  dueAt : Nat
  /-- coach cycle at which it parked (R56) -/
  parkedAt : Nat
  /-- issue number at which it got its on-chip entry, and whether it has issued there (R56) -/
  entryAt : Nat
  issuedHere : Bool
  /-- issue number at which it was first ready while spilled (R56) -/
  readySince : Option Nat
  /-- its demotion (R286, R287) -/
  demoted : Option Demotion
  /-- coach cycle of its last issue (R284) -/
  lastIssue : Nat
  spin : Option Spin
deriving DecidableEq, Repr

/-- Registers that a long-latency write lands in (R121, R123). -/
inductive Dest
  /-- `n` consecutive vector registers from `r`, one value of 32 bits each -/
  | vec (r n : Nat)
  /-- `n` consecutive scalars from `r`, lane 0 only -/
  | scal (r n : Nat)
  /-- no register: a word that the instruction itself needs from another member (JTAB, HLOAD), by its VA -/
  | word (va : Nat)
  /-- no register: a remote store whose acknowledgement is awaited (R189) -/
  | ack
deriving DecidableEq, Repr

/-- A long-latency write in flight: the splits that wait for it as their own and, per lane, the values to land, lowest
register first (R121, R123). The one that started it is first; splits divided from it later count it too (log 75), and
`records` are the join records that an owner has left, whose merged split takes it over (R61, R122). `remote` values
come with the event (R159). -/
structure Pending where
  owners : List Nat
  records : List Nat
  dest : Dest
  lanes : List (Nat × List Word)
  remote : Option Nat
  bk : Bool
deriving DecidableEq, Repr

/-- The replay record (R111, R177). -/
structure Replay where
  word : Word
  pc : Word
  split : Nat
  lanes : LaneMask
deriving DecidableEq, Repr

/-- State of a register line (R113). -/
inductive LineState
  | filling
  | held
  | evictable
deriving DecidableEq, Repr

/-- A register line of a team (R109, R113): image line number, the coach that holds it, the state, dirty or clean,
and the time it was last held. A line with no entry is FREE or has been written back. -/
structure RegLine where
  line : Nat
  coach : Nat
  st : LineState
  dirty : Bool
  stamp : Nat
deriving DecidableEq, Repr

/-- Where the state frame of a team stands (R114): in use by a placed team; EVICTABLE on a coach after a pre-emption, dirty
or written back; or only in the image. -/
inductive FrameState
  | inUse
  | evictable (coach : Nat) (dirty : Bool) (stamp : Nat)
  | image
deriving DecidableEq, Repr

/-- A batch of matrix instructions (R218): its number and its shares not yet finished. -/
structure Batch where
  num : Word
  left : Nat
deriving DecidableEq, Repr

/-- An operation of a team that owns a tag (R232, R262): copy, collective or bank; `done` once it has ended. -/
structure TagOp where
  kind : TagKind
  tag : Word
  done : Bool
  /-- destination ranges (first byte, length) the observation cleans from L1 (R198, R233) -/
  dst : List (Nat × Nat)
  /-- scratchpad handles the block of a copy command names (R260) -/
  handles : List Nat
deriving DecidableEq, Repr

/-- A matrix instruction as captured at issue (R91, R209, R303). -/
structure MMInstr where
  shape : MShape
  word : Word
  d : Nat
  a : DWord
  b : DWord
  tsa : Word
  tsb : Word
  tsca : Word
  tscb : Word
  modeHi : Nat
  gang : List Nat
  rank : Nat
deriving DecidableEq, Repr

/-- A matrix instruction in the rendezvous latch (R209): what it captured, its split, and the batch it was closed
with, 0 while open (R218). -/
structure LatchEntry where
  mm : MMInstr
  split : Nat
  batch : Word
deriving DecidableEq, Repr

/-- Accumulators of a matrix instruction that has issued and whose batch has not been observed (R220): the batch, 0
while open, the first register and how many. -/
structure AccUse where
  batch : Word
  reg : Nat
  num : Nat
deriving DecidableEq, Repr

/-- A team (R45, R46, R103, R111). -/
structure Team where
  ctx : Nat
  /-- system mode: a team of a system coach (R26, R77) -/
  sys : Bool
  image : Nat
  drove : Nat
  coach : Nat
  slot : Nat
  comp : Nat
  /-- read-only specials (R23, R42, R95) -/
  role : Nat
  w : Nat
  teamId : Nat
  droveId : Nat
  stage : Nat
  droves : Nat
  teams : Nat
  node : Nat
  asid : Nat
  member : Nat
  ptrain : Nat
  codeHi : Word
  /-- blocks that the role and .regs allow (R44) -/
  allowed : BitVec 3
  /-- vector lanes keyed 1024·r + L, predicates by number, scalars by number -/
  vregs : List (Nat × Word)
  preds : List (Nat × LaneMask)
  scalars : List (Nat × Word)
  tvec : Word
  tpc : Word
  tcause : Word
  tinfo : Word
  taddr : DWord
  gang : List Nat
  gangRank : Nat
  tsa : Word
  tsb : Word
  tsca : Word
  tscb : Word
  events : Word
  evmask : Word
  advisory : Word
  seed : Word
  xblk : BitVec 3
  pend : BitVec 3
  nextRec : Nat
  batchCtr : Word
  bankCtr : Word
  copyCtr : Word
  collCtr : Word
  /-- oldest first (R112) -/
  splits : List Split
  nextUid : Nat
  replay : Option Replay
  pending : List Pending
  /-- parked by a page fault or a FILLING line (R54, R116) -/
  parked : Bool
  /-- lines still to be cleared before the first issue or the return from XACQ (R118) -/
  clearing : Bool
  started : Bool
  retiring : Bool
  lines : List RegLine
  /-- open batch and closed batches not complete (R218) -/
  openMM : Nat
  batches : List Batch
  tags : List TagOp
  /-- rendezvous latch (R209) -/
  latch : Option LatchEntry
  /-- accumulators in flight (R220) -/
  accs : List AccUse
  /-- the split whose RFLUSH or HSAVE stops every other split (R117, R370) -/
  flushing : Option Nat
  /-- the page fault that parked the team: lane and address (R176, R177) -/
  fault : Option (Nat × DWord)
  /-- issues of the team (R284) and its age count (R285) -/
  issues : Nat
  age : Nat
  /-- cause this team raised, for its stop record (R302) -/
  cause : Option (TrapInfo × Nat)
  /-- running context and loaded frame (R114); false while pre-empted or requeued -/
  running : Bool
  /-- its state frame on the coach (R114) -/
  frame : FrameState
  /-- lines of HOST-tier or CXL-tier pages written, for .SYS (R189, R277) -/
  sysLines : List (Nat × Nat)
  /-- words of other members that have landed for an instruction held on them (R159), by VA -/
  remoteWords : List (Nat × Word)
deriving DecidableEq, Repr

/-- A scratchpad region or buffer (R179): where its bytes are, who may access it; `seed` names its unwritten bytes
(R365). -/
structure Handle where
  coach : Nat
  base : Nat
  size : Nat
  holder : Nat
  seed : Nat
  bytes : List (Nat × Byte)
deriving DecidableEq, Repr

/-- A drove (R45, R48, R49, R50): `train` is none while it is requeued. `k` is its queue-save index. -/
structure Drove where
  ctx : Nat
  node : Nat
  idx : Nat
  part : Nat
  train : Option Nat
  alive : Nat
  /-- teams, as team ids, by team index -/
  teams : List Nat
  iq : Bool
  k : Nat
  /-- item queues keyed 4·position + queue: head index and items (R49, R50) -/
  queues : List (Nat × (Nat × List Word))
  handles : List (Nat × Handle)
  /-- stalled since this coach cycle (R288) -/
  stalled : Option Nat
  started : Bool
  /-- its queue image could not be written yet (R50) -/
  unsaved : Bool
deriving DecidableEq, Repr

/-- A share in a tensor-core queue (R206, R221, R303): the team, the instruction, the batch number it closes with
(0 while its batch is open), steps done, operand lines fetched so far, the lines pinned (R213), the lines already
consumed with their words (none for a word that was LOST), and a stall. -/
structure Share where
  tid : Nat
  mm : MMInstr
  batch : Word
  steps : Nat
  fetched : Nat
  pins : List Nat
  eaten : List (Nat × List (Option Word))
  stalled : Option DWord
deriving DecidableEq, Repr

/-- A coach (R33, R107, R118, R206): its acquire queue (team, lines, split), the teams whose allocations its clear engine
is to clear, in arrival order, its tensor queue and failure. -/
structure Coach where
  acquire : List (Nat × Nat × Nat)
  clears : List Nat
  tensor : List Share
  failed : Bool
deriving DecidableEq, Repr

/-- A coach with nothing in it. -/
def Coach.empty : Coach := ⟨[], [], [], false⟩

end Sys2Proof.Machine
end

