-- ==== Sys2Proof/Machine/State.lean ====
section
/-! DEFINITION. The state of a KX9 device, its reset value, and the reasons a step can stop. Every piece of state the
spec names is here or in the structures of TeamState, MemState, EngineState and DeviceState; INVENTORY.md lists each
with its rule. Tables are lists of (key, value) pairs with the keys rising; a key that is not listed has the
default that the accessors of Ops.lean give. -/
namespace Sys2Proof.Machine

/-- Who performs the next step (log 1): no one chosen yet, a split of a team that has been given an issue
opportunity, or a bank unit whose kernel executes a word. -/
inductive Cur
  | idle
  | split (tid uid : Nat)
  | bank (unit : Nat)
deriving DecidableEq, Repr

/-- Why the machine stops with a fault. -/
inductive Fault
  /-- Raised by `exec` for a coach instruction when no split has been given an issue opportunity, or the named one
  does not exist: there is no issuing split, so the spec gives the instruction no meaning. `step` never reaches it:
  it fetches only for a split that exists. Safe. -/
  | noIssuingSplit
  /-- Raised by `exec` for a bank instruction when no bank unit with a running kernel has been chosen. `step` never
  reaches it. Safe. -/
  | noBank
deriving DecidableEq, Repr

/-- Why an instruction has no meaning in a state. -/
inductive Refusal
  /-- An arm of `exec` that is not modelled; no meaning answers with it. Safe. -/
  | notModelled (mnemonic : String)
deriving DecidableEq, Repr

/-- The state of the device. -/
structure State where
  -- the model's own
  agenda : List Instr
  cur : Cur
  free : Nat
  turn : Nat
  nextId : Nat
  -- clocks
  clk : Clocks
  -- memory system
  mem : List (Nat × Byte)
  seals : List (Nat × Nat)
  poison : List Poison
  l2 : List L2Line
  l1 : List L1Line
  icache : List ILine
  nmuBuf : List NmuLine
  tlb : List TlbEntry
  rmap : List RmapEntry
  posted : List PostedOp
  locks : List LockEntry
  -- coaches
  teams : List (Nat × Team)
  droves : List (Nat × Drove)
  coaches : List (Nat × Coach)
  -- engines
  drays : List (Nat × Dray)
  colls : List CollCmd
  links : List PeerLink
  banks : List (Nat × BankUnit)
  bankFlight : List BankItem
  -- contexts, partitions, keys, slices
  ctxs : List (Nat × Context)
  parts : List (Nat × Partition)
  absentTrains : List Nat
  reclaims : List Reclaim
  keys : List (Nat × KeySlot)
  nextKeySet : Nat
  /-- pages that the migration engines move: context and VA (R326) -/
  moving : List (Nat × Nat)
  /-- pages taken off a frame that has failed, not mapped again yet: context, VA, level, the leaf they had (R309) -/
  retired : List (Nat × Nat × Nat × Nat)
  slices : List (Nat × SliceState)
  /-- kernel slots that read zero in every unit of a slice, a scrub having cleared them: slice, 4·context + slot (R325) -/
  blankSlots : List (Nat × Nat)
  -- host, fabric, boot, management
  boot : Boot
  host : HostSide
  mgmt : Mgmt
  portsDown : List Nat
  cxlDown : Bool
  outbox : List (Nat × Flit)
  remote : List RemoteOut
  inbound : List RemoteReq
deriving DecidableEq, Repr

/-- Clocks at power-up: the coach clock at its nominal 1.9 GHz (R5, R348); counts from zero (log 5). -/
def Clocks.reset : Clocks :=
  { cycle := 0, gtime := 0, frac := 0, mhz := 1900, powerCap := 2800, stopped := false, tsyncLost := false,
    lastSync := 0, goodSince := 0, slew := 0 }

/-- Boot state before power is good (R338): BOOTSTS and BOOTCMD zero, no counter position burnt (log 5). -/
def Boot.reset : Boot :=
  { powered := false, st := .romWait, err := 0, cmd := 0, counter := 0, leaves := 0, certified := false,
    repair := [], fuses := [], measurements := [], hdm := 0 }

/-- The host's side before anything has been set up (R328, log 5). -/
def HostSide.reset : HostSide :=
  { linkUp := true, spdmVersion := false, spdmCaps := false, spdmAlgs := false, sessions := [], reply := .none,
    ide := [], tdi := [], tdiReport := none, interrupts := [] }

/-- Management counters at zero (log 5). -/
def Mgmt.reset : Mgmt :=
  { corrected := [], thresholds := [], badrel := 0, portdrop := 0, stalewb := 0, ownfall := 0, log := [], crossed := [],
    mailbox := [] }

/-- The device at power-up, before POWER_UP (R338): no context, no team, no line, every key slot FREE. -/
def State.reset : State :=
  { agenda := [], cur := .idle, free := 0, turn := 0, nextId := 0,
    clk := Clocks.reset,
    mem := [], seals := [], poison := [], l2 := [], l1 := [], icache := [], nmuBuf := [], tlb := [], rmap := [],
    posted := [], locks := [],
    teams := [], droves := [], coaches := [],
    drays := [], colls := [], links := [], banks := [], bankFlight := [],
    ctxs := [], parts := [], absentTrains := [], reclaims := [], keys := [], nextKeySet := 1, moving := [], retired := [], slices := [], blankSlots := [],
    boot := Boot.reset, host := HostSide.reset, mgmt := Mgmt.reset, portsDown := [], cxlDown := false,
    outbox := [], remote := [], inbound := [] }

end Sys2Proof.Machine
end

