-- ==== Sys2Proof/Machine/Ops.lean ====
section
/-! DEFINITION. The named operations on the state that every meaning is built from: registers (spec/04 R103), splits
and their merging (spec/02 R53 to R61), taking a trap and returning from it (spec/12 R294, R295), the context halt
(R298), and the clock (spec/02 R40). -/
namespace Sys2Proof.Machine

-- ## tables

/-- The team of an id. -/
def State.team (s : State) (tid : Nat) : Option Team := Store.find s.teams tid
/-- Replace a team. -/
def State.setTeam (s : State) (tid : Nat) (t : Team) : State := { s with teams := Store.insert s.teams tid t }
/-- Change a team if it exists. -/
def State.modTeam (s : State) (tid : Nat) (f : Team → Team) : State :=
  match s.team tid with
  | some t => s.setTeam tid (f t)
  | none => s
/-- A coach; one that is not listed has nothing in it. -/
def State.coach (s : State) (c : Nat) : Coach := (Store.find s.coaches c).getD Coach.empty
/-- Change a coach. -/
def State.modCoach (s : State) (c : Nat) (f : Coach → Coach) : State :=
  { s with coaches := Store.insert s.coaches c (f (s.coach c)) }
/-- A context. -/
def State.ctx (s : State) (c : Nat) : Option Context := Store.find s.ctxs c
/-- Change a context if it is resident. -/
def State.modCtx (s : State) (c : Nat) (f : Context → Context) : State :=
  match s.ctx c with
  | some x => { s with ctxs := Store.insert s.ctxs c (f x) }
  | none => s
/-- A drove. -/
def State.drove (s : State) (d : Nat) : Option Drove := Store.find s.droves d
/-- Change a drove if it exists. -/
def State.modDrove (s : State) (d : Nat) (f : Drove → Drove) : State :=
  match s.drove d with
  | some x => { s with droves := Store.insert s.droves d (f x) }
  | none => s
/-- The compute die of a coach; system coach n is on die n / 2 (R22, R24). -/
def dieOf (coach : Nat) : Nat :=
  if coach < Config.coaches then coach / 128 else (coach - Config.coaches) / 2
/-- The dray of a coach: one for two trains (R24). A system coach has none of its own; its commands go to the first dray
of its die (log 76). -/
def drayOf (coach : Nat) : Nat := if coach < Config.coaches then coach / 16 else 8 * dieOf coach
/-- The compute die of an Ectoup port (R22). -/
def portDie (port : Nat) : Nat :=
  if port < 5 then 0 else if port < 10 then 1 else if port < 14 then 2 else 3
/-- A partition. -/
def State.part (s : State) (p : Nat) : Option Partition := Store.find s.parts p
/-- Change a partition if it exists. -/
def State.modPart (s : State) (p : Nat) (f : Partition → Partition) : State :=
  match s.part p with
  | some x => { s with parts := Store.insert s.parts p (f x) }
  | none => s
/-- A key slot; one never allocated is FREE with generation 0 (R319). -/
def State.key (s : State) (k : Nat) : KeySlot := (Store.find s.keys k).getD KeySlot.free
/-- Replace a key slot. -/
def State.setKey (s : State) (k : Nat) (v : KeySlot) : State := { s with keys := Store.insert s.keys k v }
/-- A bank unit; one that is not listed is as R223 starts it. -/
def State.bank (s : State) (u : Nat) : BankUnit := (Store.find s.banks u).getD BankUnit.empty
/-- Replace a bank unit. -/
def State.setBank (s : State) (u : Nat) (b : BankUnit) : State := { s with banks := Store.insert s.banks u b }
/-- Draw a number that names a new thing (a drove, a posted update, a remote request). -/
def State.fresh (s : State) : Nat × State := (s.nextId, { s with nextId := s.nextId + 1 })
/-- The port on which a flit of a context leaves for a member (R335): one of the entry's mask that are up, by the fixed
hash; none when none is up. -/
def State.portTo (s : State) (part member ctx src dst : Nat) : Option Nat :=
  let mask := (((s.part part).bind (fun p => Store.find p.routes member)).map (·.2)).getD []
  let up := mask.filter (fun n => !s.portsDown.contains n)
  up[Config.portHash ctx src dst % up.length]?
/-- Numbers of the units that R335 hashes, the coaches' own apart; the spec gives none, they are the model's (log 89). -/
def drayUnit (d : Nat) : Nat := 1024 + d
def tandemUnit (die : Nat) : Nat := 2048 + die
def sliceUnit (n : Nat) : Nat := 4096 + n
def schedUnit : Nat := 8192
def haltUnit : Nat := 8193
def switchUnit : Nat := 8194
/-- Put a flit on the fabric, with the port it leaves on (R334, R335). With no port up it is not sent. -/
def State.send (s : State) (part member ctx src dst : Nat) (f : Flit) : State :=
  match s.portTo part member ctx src dst with
  | some n => { s with outbox := s.outbox ++ [(n, f)] }
  | none => s
/-- Partition number of a context. -/
def State.partOf (s : State) (ctx : Nat) : Nat := ((s.ctx ctx).map (fun c => c.part)).getD 16
/-- The partition owns the port that a flit came in on (R334). -/
def State.ownsPort (s : State) (part port : Nat) : Bool := ((s.part part).map (fun p => p.ports.contains port)).getD false
/-- A flit on a port that its partition does not own is dropped and counted (R334). -/
def State.dropFlit (s : State) : State := { s with mgmt := { s.mgmt with portdrop := s.mgmt.portdrop + 1 } }
/-- Raise an MSI-X vector (R331). -/
def State.interrupt (s : State) (v : Nat) : State :=
  { s with host := { s.host with interrupts := s.host.interrupts ++ [v] } }

/-- The coach clock advances by n cycles while 10,000·d units of time pass; the global time takes at most d units, 100 ppm, of
its correction with them (R5, R336). A nanosecond is 10,000·MHz units of `frac`. -/
def State.elapse (s : State) (n d : Nat) : State :=
  let c := max (-(d : Int)) (min s.clk.slew (d : Int))
  let f := ((s.clk.frac + 10000 * d : Nat) + c).toNat
  let unit := 10000 * s.clk.mhz
  { s with clk := { s.clk with cycle := s.clk.cycle + BitVec.ofNat 64 n, slew := s.clk.slew - c,
                               gtime := s.clk.gtime + BitVec.ofNat 64 (f / unit), frac := f % unit } }

/-- Advance the coach clock by n cycles, and the global time by n cycles at the present clock (R5, R348). -/
def State.tick (s : State) (n : Nat) : State := s.elapse n (1000 * n)

-- ## registers

/-- s[r]: s0 reads zero (R103). -/
def Team.s (t : Team) (r : Nat) : Word := if r = 0 then 0 else Store.get 0 t.scalars r
/-- s[r] := v: a write to s0 is discarded (R103). -/
def Team.setS (t : Team) (r : Nat) (v : Word) : Team :=
  if r = 0 then t else { t with scalars := Store.put 0 t.scalars r v }
/-- v[r][L], without pending writes. -/
def Team.v (t : Team) (r L : Nat) : Word := Store.get 0 t.vregs (1024 * r + L)
/-- v[r][L] := x. -/
def Team.setV (t : Team) (r L : Nat) (x : Word) : Team := { t with vregs := Store.put 0 t.vregs (1024 * r + L) x }
/-- p[n]: p0 reads true in every lane (R103). -/
def Team.p (t : Team) (n : Nat) : LaneMask := if n = 0 then BitVec.allOnes 1024 else Store.get 0 t.preds n
/-- p[n] := m: a write to p0 is discarded (R103). -/
def Team.setP (t : Team) (n : Nat) (m : LaneMask) : Team :=
  if n = 0 then t else { t with preds := Store.put 0 t.preds n m }
/-- Change p[n] in the lanes of a mask only. -/
def Team.mergeP (t : Team) (n : Nat) (lanes m : LaneMask) : Team :=
  t.setP n ((t.p n &&& ~~~lanes) ||| (m &&& lanes))

/-- The value a pending write brings to register r in lane L: its place in the group. -/
def pendingValue (p : Pending) (r L : Nat) : Option Word :=
  match p.dest with
  | .vec b n => if b ≤ r ∧ r < b + n then (Store.find p.lanes L).bind (fun vs => vs[r - b]?) else none
  | .scal b n => if 256 + b ≤ r ∧ r < 256 + b + n then (Store.find p.lanes 0).bind (fun vs => vs[r - 256 - b]?) else none
  | .word _ | .ack => none

/-- Whether a pending write will write register r in lane L (its value may still be on another device). -/
def pendingHits (p : Pending) (r L : Nat) : Bool :=
  match p.dest with
  | .vec b n => decide (b ≤ r) && decide (r < b + n) && (Store.find p.lanes L).isSome
  | .scal b n => decide (256 + b ≤ r) && decide (r < 256 + b + n) && (Store.find p.lanes 0).isSome
  | .word _ | .ack => false

/-- R123: a read of a register with a pending write gets, in each lane, the value before the write or the value
after it, the same for all registers of one group. A value that another device still holds is free (log 6). -/
def readPending (free : Nat) (r L : Nat) (old : Word) : Nat → List Pending → Word
  | _, [] => old
  | i, p :: ps =>
    if pendingHits p r L then
      if Config.freeBit free (1024 * i + L) then
        match p.remote, pendingValue p r L with
        | none, some v => readPending free r L v (i + 1) ps
        | _, _ => readPending free r L (Config.freeWord free r L) (i + 1) ps
      else readPending free r L old (i + 1) ps
    else readPending free r L old (i + 1) ps

/-- Accumulators that a matrix instruction uses (R205, R220). -/
def MMInstr.accUse (mm : MMInstr) (batch : Word) : AccUse := ⟨batch, mm.d, shapeAcc mm.shape⟩

/-- The accumulators of the team's matrix instructions in flight: in the queue or done, or still in the latch (R220). -/
def Team.accUses (t : Team) : List AccUse := t.accs ++ (t.latch.map (fun l => l.mm.accUse l.batch)).toList

/-- The register is an accumulator of a matrix instruction in flight (R220). -/
def Team.inFlight (t : Team) (r : Nat) : Bool := t.accUses.any (fun a => decide (a.reg ≤ r) && decide (r < a.reg + a.num))

/-- s[r] as an instruction reads it (R123). -/
def State.rs (s : State) (t : Team) (r : Nat) : Word :=
  if r = 0 then 0 else readPending s.free (256 + r) 0 (t.s r) 0 t.pending
/-- spair(r) (R12): low half in s[r]. -/
def State.rpair (s : State) (t : Team) (r : Nat) : DWord := s.rs t (r + 1) ++ s.rs t r
/-- v[r][L] as an instruction reads it (R123); an accumulator in flight reads as a free value (R9, R220, log 6). -/
def State.rv (s : State) (t : Team) (r L : Nat) : Word :=
  if t.inFlight r then Config.freeWord s.free (1024 + r) L else readPending s.free r L (t.v r L) 0 t.pending
/-- The register group of an element type: v[r][L], or vpair(r, L) (R12, R127). -/
def State.rgroup (s : State) (t : Team) (et : ET) (r L : Nat) : DWord :=
  if et64 et then s.rv t (r + 1) L ++ s.rv t r L else (s.rv t r L).setWidth 64
/-- Write a register group. -/
def Team.setGroup (t : Team) (et : ET) (r L : Nat) (x : DWord) : Team :=
  let t := t.setV r L (x.setWidth 32)
  if et64 et then t.setV (r + 1) L ((x >>> 32).setWidth 32) else t
/-- Write a scalar, or a pair for a 64-bit type. -/
def Team.setSGroup (t : Team) (et : ET) (r : Nat) (x : DWord) : Team :=
  let t := t.setS r (x.setWidth 32)
  if et64 et then t.setS (r + 1) ((x >>> 32).setWidth 32) else t
/-- spair(r) := x. -/
def Team.setPair (t : Team) (r : Nat) (x : DWord) : Team :=
  (t.setS r (x.setWidth 32)).setS (r + 1) ((x >>> 32).setWidth 32)

-- ## MODE and lanes

/-- Fields of MODE (R79). -/
def modeEt (m : Word) : ET := etOfCode (field m.toNat 3 0)
def modeRm (m : Word) : Option RM := rmOfCode (field m.toNat 6 4)
def modeSat (m : Word) : Bool := m.getLsbD 7
def modeGp (m : Word) : Nat := field m.toNat 10 8
def modeGn (m : Word) : Bool := m.getLsbD 11
def modeFtz (m : Word) : Bool := m.getLsbD 12
def modeCvs (m : Word) : ET := etOfCode (field m.toNat 19 16)
def modeEta (m : Word) : Option MFmt := mfmtOfCode (field m.toNat 23 20)
def modeEtb (m : Word) : Option MFmt := mfmtOfCode (field m.toNat 27 24)
def modeMxs (m : Word) : Bool := m.getLsbD 28
/-- MODE[15:13] and MODE[31:29] (R83). -/
def modeReserved (m : Word) : Bool := field m.toNat 15 13 != 0 || field m.toNat 31 29 != 0

/-- guard(L) for every lane (R12, R65). -/
def guardMask (t : Team) (m : Word) : LaneMask := if modeGn m then ~~~(t.p (modeGp m)) else t.p (modeGp m)

/-- Lanes of a mask below n, ascending. -/
def lanesOf (n : Nat) (m : LaneMask) : List Nat := (List.range n).filter m.getLsbD

/-- A mask from a lane predicate, for lanes below n. -/
def maskOf (n : Nat) (f : Nat → Bool) : LaneMask :=
  (List.range n).foldl (fun m L => if f L then m ||| (1#1024 <<< L) else m) 0

/-- Mask word j (R38). -/
def maskWord (m : LaneMask) (j : Nat) : Word := (m >>> (32 * j)).setWidth 32

/-- The summary word (R39): bit j is set exactly when mask word j is not zero. -/
def maskSummary (m : LaneMask) : Word :=
  (List.range 32).foldl (fun a j => if maskWord m j = 0 then a else a ||| (1#32 <<< j)) 0

/-- Issue passes of a vector instruction (R40). -/
def passes (m : LaneMask) : Nat := ((List.range 32).filter (fun j => maskWord m j != 0)).length

-- ## splits

/-- A split with all of its lanes, at a code address, as a team starts with (R46, R79). -/
def Split.fresh (uid : Nat) (pc : Word) (mask : LaneMask) : Split :=
  { uid := uid, pc := pc, mask := mask, mode := 0, phase := .run, waits := [], ret := [], joins := [],
    gtimeLatch := none, cycleLatch := none, icount := 0, entryDepth := 0, entry := some 0, passed := 0, dueAt := 0,
    parkedAt := 0, entryAt := 0, issuedHere := false, readySince := none, demoted := none, lastIssue := 0, spin := none }

/-- The split of a uid. -/
def Team.split (t : Team) (uid : Nat) : Option Split := t.splits.find? (fun x => x.uid == uid)
/-- Change one split. -/
def Team.modSplit (t : Team) (uid : Nat) (f : Split → Split) : Team :=
  { t with splits := t.splits.map (fun x => if x.uid == uid then f x else x) }
/-- Remove a split. -/
def Team.dropSplit (t : Team) (uid : Nat) : Team := { t with splits := t.splits.filter (fun x => x.uid != uid) }
/-- Some split of the team is in HANDLER (R63). -/
def Team.inHandler (t : Team) : Bool := t.splits.any (fun x => x.phase == .handler)
/-- CDEPTH (R56). -/
def Split.cdepth (x : Split) : Nat := x.ret.length
/-- JDEPTH (R42). -/
def Split.jdepth (x : Split) : Nat := x.joins.length
/-- The split waits on this record, its top one (R59). -/
def Split.waitsOn (x : Split) (id : Nat) : Bool :=
  x.phase == .joinWait && (match x.joins with | r :: _ => r.id == id | [] => false)
/-- The split has an on-chip entry (R56). -/
def Split.onChip (x : Split) : Bool := x.entry.isSome
/-- The split is a member of this record (R58). -/
def Split.memberOf (x : Split) (id : Nat) : Bool := x.joins.any (fun r => r.id == id)

/-- Some value of an iteration is still to land. -/
def awaits (rs : List WriteRec) : Bool :=
  rs.any (fun r => r.vals.any (fun v => match v with | .await _ _ _ => true | .val _ => false))

/-- An iteration is compared with the one before (R286). -/
def spinCompare (sp : Spin) (before after : Option (List WriteRec)) : Spin :=
  if before.isSome && before == after then { sp with count := sp.count + 1 } else { sp with count := 0, lapsed := false }

/-- The comparison that waited for values to land, once they have (R286). -/
def spinSettle (sp : Spin) : Spin :=
  match sp.late with
  | none => sp
  | some l => if awaits l || (sp.prev.map awaits).getD false then sp else { spinCompare sp (some l) sp.prev with late := none }

/-- An iteration ends at the taken branch (R286). The comparison waits while values of the iteration are still to land; one
that still waits from the iteration before is of an instruction that this iteration left out, and has changed. -/
def spinIterate (sp : Spin) : Spin :=
  let sp := if sp.late.isSome then { sp with count := 0, lapsed := false } else sp
  if awaits sp.cur && sp.prev.isSome then { sp with late := sp.prev, prev := some sp.cur, cur := [] }
  else { spinCompare sp sp.prev (some sp.cur) with late := none, prev := some sp.cur, cur := [] }

/-- A value has landed: what the detector awaited is known. -/
def spinLand (id lane : Nat) (vs : List Word) (sp : Spin) : Spin :=
  let known (v : WrittenVal) : WrittenVal :=
    match v with
    | .await i L k => if i == id && L == lane then .val (vs.getD k 0).toNat else v
    | .val _ => v
  let fill (rs : List WriteRec) : List WriteRec := rs.map (fun r => { r with vals := r.vals.map known })
  spinSettle { sp with cur := fill sp.cur, prev := sp.prev.map fill, late := sp.late.map fill }

/-- The spin count returns to 0 (R286); a demotion goes on (R287). -/
def spinRestart (x : Option Spin) : Option Spin :=
  x.map (fun w => { w with count := 0, cur := [], prev := none, late := none, lapsed := false })

/-- The last run of a loop's code from its target to the branch at its end, when the recorded writes hold one (R286). -/
def lastIteration (target branch : Word) (rs : List WriteRec) : Option (List WriteRec) :=
  let tail := (rs.reverse.takeWhile (fun r => decide (target ≤ r.pc) && decide (r.pc < branch))).reverse
  let body := match tail.reverse.findIdx? (fun r => r.pc == target) with
    | some k => tail.drop (tail.length - 1 - k)
    | none => []
  if target == branch then some [⟨branch, []⟩] else if body.isEmpty then none else some (⟨branch, []⟩ :: body)

/-- The watch of a loop begins at its first taken branch (R286): the code that led there is its first iteration, when it ran
from the target on. -/
def spinWatch (x : Option Spin) (target branch : Word) : Spin :=
  let before := match x with | some w => if w.watching then [] else w.cur | none => []
  ⟨target, branch, 0, [], lastIteration target branch before, none, false, true⟩

/-- A demotion ends (R287): a split whose count stands at 7 or more becomes due now (R284). -/
def undemote (issues : Nat) (x : Split) : Split :=
  { x with demoted := none, dueAt := if x.demoted.isSome && decide (7 ≤ x.passed) then issues else x.dueAt }

/-- The pending write belongs to the split (R122). -/
def Pending.ownedBy (p : Pending) (uid : Nat) : Bool := p.owners.contains uid

/-- R122: a split divided from another counts its earlier pending writes as its own too (log 75). -/
def sharePending (t : Team) (parent child : Nat) : Team :=
  { t with pending := t.pending.map (fun p => if p.ownedBy parent then { p with owners := p.owners ++ [child] } else p) }

/-- A split has left some join records: its pending writes go to the split they merge into (R61, R122). -/
def leavePending (t : Team) (uid : Nat) (ids : List Nat) : Team :=
  { t with pending := t.pending.map (fun p => if p.ownedBy uid then { p with records := p.records ++ ids } else p) }

/-- The merged split takes over the pending writes of every member, those that have exited too (R61, R122). -/
def takePending (t : Team) (id uid : Nat) (gone : List Nat) : Team :=
  { t with pending := t.pending.map (fun p =>
      if p.records.contains id || p.owners.any gone.contains then
        { p with owners := (p.owners.filter (fun u => !gone.contains u && u != uid)) ++ [uid],
                 records := p.records.filter (· != id) }
      else p) }

/-- R61: the waiting members of record `id` become one split, in the place of the oldest; it takes over their pending
writes (R122). -/
def mergeSplits (t : Team) (id : Nat) (ms : List Split) : Team :=
  match ms with
  | [] => t
  | o :: rest =>
    let m : Split := { o with
      mask := ms.foldl (fun a x => a ||| x.mask) 0
      phase := .run
      joins := o.joins.drop 1
      icount := BitVec.ofNat 32 (ms.foldl (fun a x => max a x.icount.toNat) 0)
      waits := (ms.flatMap (·.waits)).eraseDups
      spin := spinRestart o.spin }
    let gone := rest.map (·.uid)
    takePending { t with
      splits := (t.splits.filter (fun x => !gone.contains x.uid)).map (fun x => if x.uid == o.uid then m else x) }
      id o.uid gone

/-- The arrival test of R59 for a split that is running, and the merge of its record when every member waits; a
merged split is tested again against its new top record. -/
def arrive : Nat → Team → Nat → Team
  | 0, t, _ => t
  | n + 1, t, uid =>
    match t.split uid with
    | none => t
    | some x =>
      match x.joins with
      | [] => t
      | r :: _ =>
        if x.phase == .run && x.pc == r.pc && x.cdepth == r.depth then
          let t := t.modSplit uid (fun y => { y with phase := .joinWait })
          let ms := t.splits.filter (·.memberOf r.id)
          if ms.all (·.waitsOn r.id) then
            match ms with
            | o :: _ => arrive n (mergeSplits t r.id ms) o.uid
            | [] => t
          else t
        else t

/-- A record that has lost a member (R60, R61): it merges when all that are left wait on it. -/
def settleRecord (t : Team) (id : Nat) : Team :=
  let ms := t.splits.filter (·.memberOf id)
  if ms.all (·.waitsOn id) then
    match ms with
    | o :: _ => arrive 17 (mergeSplits t id ms) o.uid
    | [] => { t with pending := t.pending.map (fun p => { p with records := p.records.filter (· != id) }) }
  else t

/-- PC[31:0] := pc for a split, with the arrival test (R59). -/
def Team.moveTo (t : Team) (uid : Nat) (pc : Word) : Team :=
  arrive 17 (t.modSplit uid (fun x => { x with pc := pc })) uid

/-- A split leaves the team (EXIT, REFILL): its records lose a member (R61); the team retires when no split is left
(R47). Sisters parked under R63 find the handler gone and retry (R295). -/
def exitSplit (t : Team) (uid : Nat) : Team :=
  match t.split uid with
  | none => t
  | some x =>
    let t := leavePending (t.dropSplit uid) uid (x.joins.map (·.id))
    let t := x.joins.foldl (fun a r => settleRecord a r.id) t
    { t with retiring := t.splits.isEmpty }

/-- The split that is spilled when a ninth entry is needed, in the order of R56; of several in JOIN_WAIT, which R56 does not
order, the one of lowest age rank (log 92). `new` is the newly created one, `parked` tells which splits are PARKED. -/
def spillChoice (parked : Split → Bool) (xs : List Split) (new : Nat) : Nat :=
  let on := xs.filter (fun x => x.onChip && x.uid != new)
  let oldestOf := fun (ys : List Split) =>
    ys.foldl (fun (b : Option Split) y => match b with | none => some y | some z => if y.parkedAt < z.parkedAt then some y else b) none
  let isYield := fun (x : Split) => x.waits.any (fun w => match w with | .tag _ _ true => true | _ => false)
  match on.find? (fun x => x.phase == .joinWait) with
  | some x => x.uid
  | none =>
    match oldestOf (on.filter (fun x => parked x && isYield x)) with
    | some x => x.uid
    | none =>
      match oldestOf (on.filter parked) with
      | some x => x.uid
      | none => new

/-- The lowest on-chip entry that no split holds (R112). -/
def freeEntry (xs : List Split) : Option Nat :=
  (List.range 8).find? (fun n => !xs.any (fun x => x.entry == some n))

/-- A split comes on chip in an entry (R56). -/
def Split.placed (x : Split) (entry : Option Nat) (issues : Nat) : Split :=
  { x with entry := entry, entryAt := issues, issuedHere := false, passed := 0, readySince := none }

/-- A split gives up its entry; its count returns to 0 (R56, R284). -/
def Split.spilled (x : Split) : Split := { x with entry := none, passed := 0, readySince := none }

/-- Add a split as the youngest of its team (R55, R64), with an on-chip entry when one can be had (R56). -/
def addSplit (parked : Split → Bool) (t : Team) (x : Split) : Team :=
  let uid := t.nextUid
  let room := freeEntry t.splits
  let victim := spillChoice parked t.splits uid
  let out := t.splits.find? (fun y => y.uid == victim)
  let entry := match room with
    | some n => some n
    | none => out.bind (·.entry)
  let rest := if room.isSome then t.splits
    else t.splits.map (fun y => if y.uid == victim then y.spilled else y)
  { t with splits := rest ++ [{ x.placed entry t.issues with uid := uid }], nextUid := uid + 1 }

-- ## halts

/-- Device partition of a context. -/
def State.ctxPart (s : State) (c : Nat) : Option Partition := (s.ctx c).bind (fun x => s.part x.part)

/-- Of two causes that reach the halt unit in the same cycle: team before engine, then ascending unit number (R300). -/
def causeBefore (a b : HaltCause) : Bool :=
  if a.origin == 0 then b.origin != 0 || decide (a.unit < b.unit) else b.origin != 0 && decide (a.unit < b.unit)

/-- A cause that arises once the context has halted: it is primary only when it came in the same cycle and goes before; the
first BANK_FAULT is recorded (R300). -/
def laterCause (cycle : DWord) (r : HaltRec) (h : HaltCause) : HaltRec :=
  if r.finished then r
  else { r with
    h := if r.cycle == cycle && causeBefore h r.h then h else r.h
    bank := if h.cause == .bankFault then r.bank.or (some h.unit) else r.bank }

/-- R298, R300: the first cause halts the context: no team of it issues again, its engines stop, and a halt flit
goes to every other member. The receive region opens (R269). -/
def haltContext (s : State) (h : HaltCause) : State :=
  match s.ctx h.ctx with
  | none => s
  | some c =>
    match c.halt with
    | some r => s.modCtx h.ctx (fun c => { c with halt := some (laterCause s.clk.cycle r h) })
    | none =>
      let s := s.modCtx h.ctx (fun c =>
        { c with halt := some ⟨h, s.clk.gtime, false, false, none, [], s.clk.cycle, if h.cause == .bankFault then some h.unit else none⟩
                 running := false
                 rxOpen := if c.running then some s.clk.gtime else c.rxOpen })
      let s := { s with teams := s.teams.map (fun (e : Nat × Team) =>
        if e.2.ctx == h.ctx && !e.2.sys then (e.1, { e.2 with running := false }) else e) }
      match s.part c.part with
      | none => s
      | some p =>
        ((List.range p.members).filter (· != p.member)).foldl (fun a m => a.send c.part m h.ctx haltUnit haltUnit (.halt h.ctx m)) s

/-- A halt-delivered cause of a team (R291, R302): origin kind 0, the coach as unit; the team keeps its cause. -/
def haltTeam (s : State) (tid uid : Nat) (k : TrapInfo) : State :=
  match s.team tid with
  | none => s
  | some t =>
    let s := s.modTeam tid (fun t => if t.cause.isSome then t else { t with cause := some (k, uid) })
    let h : HaltCause := ⟨t.ctx, k.cause, 0, t.coach, k.tinfo, k.taddr⟩
    let primary (s : State) : Option HaltCause := ((s.ctx t.ctx).bind (·.halt)).map (·.h)
    let s' := haltContext s h
    if primary s != primary s' then s'.modCtx t.ctx (fun c => { c with halt := c.halt.map (fun r => { r with team := some tid }) }) else s'

-- ## taking a trap and returning from it

/-- An instruction that ends in a cause: an RFLUSH or HSAVE no longer stops the other splits, and nothing of what it has read
or replayed is left (R14, R177, R371). -/
def Team.endFlush (t : Team) (uid : Nat) : Team :=
  { t with
    flushing := t.flushing.filter (· != uid)
    replay := t.replay.filter (fun r => r.split != uid)
    remoteWords := [] }

/-- The team that has taken a cause, and its split in the handler (R294): TCAUSE, TINFO, TADDR and TPC are saved, the split
enters HANDLER and continues at TVEC. A TRAPI that is taken has issued, and counts (R138). -/
def trapped (t : Team) (x : Split) (uid : Nat) (k : TrapInfo) : Team :=
  ({ t.endFlush uid with tcause := BitVec.ofNat 32 (causeCode k.cause), tinfo := k.tinfo, taddr := k.taddr,
                         tpc := x.pc } : Team).modSplit uid (fun y =>
    { undemote t.issues y with phase := .handler, entryDepth := y.cdepth, pc := t.tvec, waits := [], spin := none,
                               icount := if k.cause == .trapSw then y.icount + 1 else y.icount })

/-- R294: taking a handler-delivered cause. A split in HANDLER, or a team without a handler, halts the context;
while a sister split runs the handler the split parks before the instruction with no effect (R63); else the cause is
saved and the handler entered. No mask, stack, MODE or register changes. -/
def enterHandler (s : State) (tid uid : Nat) (k : TrapInfo) : State :=
  match s.team tid with
  | none => s
  | some t =>
    match t.split uid with
    | none => s
    | some x =>
      if x.phase == .handler || t.tvec == 0 then haltTeam s tid uid k
      else if t.inHandler then
        s.setTeam tid ((t.endFlush uid).modSplit uid (fun y => { y with waits := [.handler], parkedAt := s.clk.cycle.toNat }))
      else s.setTeam tid (trapped t x uid k)

/-- A cause of one instruction (R291): to the handler, or a halt. The causes that park and replay are taken where
the access is made (R177). -/
def takeCause (s : State) (tid uid : Nat) (k : TrapInfo) : State :=
  if causeToHandler k.cause then enterHandler s tid uid k else haltTeam s tid uid k

/-- R295: RETT of a split in HANDLER at the depth of its entry. The split runs on at TPC, or after the TRAPI; the
splits parked under R63 become ready: their wait is over, and it stays listed until they retry, because no event is
taken before that (R292). -/
def leaveHandler (t : Team) (uid : Nat) : Team :=
  let pc := if t.tcause == BitVec.ofNat 32 (causeCode .trapSw) then t.tpc + 4 else t.tpc
  let t := t.modSplit uid (fun y => { y with phase := .run, entryDepth := 0 })
  t.moveTo uid pc

-- ## issuing

/-- What an instruction did. -/
inductive Res
  /-- its effect, and the split goes on at the next word -/
  | next (s : State)
  /-- its effect, and PC[31:0] := pc -/
  | goto (s : State) (pc : Word)
  /-- its effect, the next word, and then these waits -/
  | park (s : State) (ws : List Wait)
  /-- its effect sets the PC of every split it concerns -/
  | done (s : State)
  /-- a cause: nothing has taken effect -/
  | trap (c : Cause) (tinfo : Word) (taddr : DWord)
  /-- held at issue: nothing has taken effect, and it is tried again when the wait is met -/
  | hold (w : Wait)
  /-- the team parks on a page fault; `s` holds the replay record and what the finished lanes did (R177) -/
  | fault (s : State)
  /-- the model has no meaning here -/
  | refuse (r : Refusal)

/-- The splits' waits that are not met stay. `pendingOf` says whether the split still has long-latency writes. -/
def pendingOf (t : Team) (uid : Nat) : Bool := t.pending.any (fun p => p.ownedBy uid && (p.dest != .ack))

/-- The issuing split advances: ICOUNT (R138), the switch marker's wait (R122), new waits, the PC with the arrival
test (R59). -/
def advance (s : State) (tid uid : Nat) (sw : Bool) (pc : Word) (ws : List Wait) : State :=
  s.modTeam tid (fun t =>
    let ws := if sw && pendingOf t uid then .switch :: ws else ws
    let t := t.modSplit uid (fun x =>
      { x with icount := x.icount + 1, waits := ws, parkedAt := if ws.isEmpty then x.parkedAt else s.clk.cycle.toNat })
    t.moveTo uid pc)

/-- What follows an instruction's `Res` (R14, R40, R122, R138, R294). -/
def finish (s : State) (tid uid : Nat) (pc : Word) (sw : Bool) (cost : Nat) (r : Res) :
    Host.Outcome State Fault Refusal :=
  match r with
  | .next s' => .next (advance (s'.tick cost) tid uid sw (pc + 4) [])
  | .goto s' pc' => .next (advance (s'.tick cost) tid uid sw pc' [])
  | .park s' ws => .next (advance (s'.tick cost) tid uid sw (pc + 4) ws)
  | .done s' => .next (s'.tick cost)
  | .trap c i a => .next (takeCause (s.tick cost) tid uid ⟨c, i, a⟩)
  | .hold w => .next (s.modTeam tid (fun t => t.modSplit uid (fun x => { x with waits := [w], parkedAt := s.clk.cycle.toNat })))
  | .fault s' => .next (s'.tick cost)
  | .refuse e => .refused e

end Sys2Proof.Machine
end

