-- ==== Sys2Proof/Machine/Memory.lean ====
section
/-! DEFINITION. The memory system as one access sees it: page tables and translation (spec/06 R169 to R176), seals
and poison (spec/13 R316 to R318, spec/12 R309), NMUs with their write-back buffers (spec/09 R248, R249), home L2 slices
and registration (spec/07 R186, R197), the L1 of a coach (R187, R381, R409), instruction fetch (spec/03 R72). -/
namespace Sys2Proof.Machine

-- ## bytes

/-- n bytes from a memory key, little-endian. -/
def readBytes (m : List (Nat × Byte)) (key : Nat) : Nat → Nat
  | 0 => 0
  | n + 1 => (Store.get 0 m key).toNat + 256 * readBytes m (key + 1) n
/-- Write n bytes of v at a memory key, little-endian. -/
def writeBytes (m : List (Nat × Byte)) (key : Nat) : Nat → Nat → List (Nat × Byte)
  | 0, _ => m
  | n + 1, v => writeBytes (Store.put 0 m key (BitVec.ofNat 8 v)) (key + 1) n (v / 256)
/-- n words from a key. -/
def readWords (m : List (Nat × Byte)) (key n : Nat) : List Word :=
  (List.range n).map (fun i => BitVec.ofNat 32 (readBytes m (key + 4 * i) 4))
/-- Write words at a key. -/
def writeWords (m : List (Nat × Byte)) (key : Nat) : List Word → List (Nat × Byte)
  | [] => m
  | w :: ws => writeWords (writeBytes m key 4 w.toNat) (key + 4) ws
/-- Remove every byte of [lo, hi): the bytes read zero (R318). -/
def clearBytes (m : List (Nat × Byte)) (lo hi : Nat) : List (Nat × Byte) :=
  m.filter (fun e => e.1 < lo || hi ≤ e.1)

-- ## page-table entries (R170)

def pteMig (e : Nat) : Bool := e.testBit 63
def pteD (e : Nat) : Bool := e.testBit 62
def pteAc (e : Nat) : Bool := e.testBit 61
def pteCmp (e : Nat) : Nat := field e 60 57
def pteKsel (e : Nat) : Nat := field e 56 45
def pteTier (e : Nat) : Tier := tierOfCode (field e 44 43)
def pteTierCode (e : Nat) : Nat := field e 44 43
def pteLinear (e : Nat) : Bool := e.testBit 42
def pteUncached (e : Nat) : Bool := e.testBit 41
def pteLeaf (e : Nat) : Bool := e.testBit 40
def pteFrame (e : Nat) : Nat := field e 39 4
def pteW (e : Nat) : Bool := e.testBit 1
def pteP (e : Nat) : Bool := e.testBit 0

/-- Set or clear one bit of an entry. -/
def setBitTo (e : Nat) (i : Nat) (b : Bool) : Nat := if e.testBit i = b then e else e ^^^ 2 ^ i

/-- Bytes a leaf at this level maps (R169). -/
def pageSize (level : Nat) : Nat := match level with | 0 => 2 ^ 16 | 1 => 2 ^ 21 | _ => 2 ^ 30

/-- Index of a level (R169). -/
def levelIndex (level va : Nat) : Nat :=
  match level with
  | 0 => field va 20 16 | 1 => field va 29 21 | 2 => field va 38 30 | 3 => field va 47 39 | _ => field va 55 48

/-- Memory keys (log 3): translator-private memory of a stack, a stack's HBM, a tier, the staging window. -/
def privKey (stack addr : Nat) : Nat := (4 + stack) <<< 48 ||| addr
def hbmKey (stack a : Nat) : Nat := stack <<< 36 ||| a
def tierKey (code addr : Nat) : Nat := code <<< 48 ||| addr
def stagingKey (off : Nat) : Nat := 21 <<< 48 ||| off

/-- What a walk finds (R169, R171); a malformed entry where a leaf should be, with its MIG (R176). -/
inductive Walk
  | absent
  | malformed (mig : Bool)
  | leaf (level entryKey pte : Nat)
deriving DecidableEq, Repr

/-- Walk down from a level (R169). Of a non-leaf entry only P, FRAME and the reserved bits 3:2 count (R170, R171): what a
walk does with its other fields, which must be zero, is the model's choice (log 77). -/
def walkAt (m : List (Nat × Byte)) (stack va : Nat) : Nat → Nat → Walk
  | level, addr =>
    let k := privKey stack (addr + 8 * levelIndex level va)
    let e := readBytes m k 8
    if !pteP e then .absent
    else if pteLeaf e then (if level ≥ 3 then .malformed (pteMig e) else .leaf level k e)
    else match level with
      | 0 => .malformed (pteMig e)
      | l + 1 => if field e 3 2 != 0 then .malformed false else walkAt m stack va l (pteFrame e * 4096)

/-- Walk a context's tables in one stack's copy; the system's own context has none (log 13). -/
def walkTable (s : State) (ctx stack va : Nat) : Walk :=
  match s.ctx ctx with
  | none => .absent
  | some c => if 16 ≤ ctx then .absent else walkAt s.mem stack va 4 c.spec.root.toNat

/-- H of R167 for an address and an ASID. -/
def hashH (va asid : Nat) : Nat :=
  (List.range 10).foldl (fun h i => h ^^^ field va (19 + 4 * i) (16 + 4 * i)) (asid % 16)
/-- The stack whose unit translates an address: the striped stack (R167, R171). -/
def stripedStack (va asid : Nat) : Nat := field va 15 12 ^^^ hashH va asid

/-- The sealed block of a stack-local address (R317): {a[35:15], c} in the stack. -/
def hbmBlock (stack a : Nat) (linear : Bool) : Nat :=
  stack * 2 ^ 26 + (field a 35 15 * 32 + (if linear then field a 14 10 else field a 11 7))
/-- The sealed block of a tier address (R317). -/
def tierBlock (code addr : Nat) : Nat := code * 2 ^ 40 + addr / 1024

-- ## page tables as a whole (R169)

/-- Entries of a table, and the bits of VA below its index. -/
def tableSize (level : Nat) : Nat := match level with | 0 => 32 | 4 => 256 | _ => 512
def tableSpan (level : Nat) : Nat := match level with | 0 => 2 ^ 16 | 1 => 2 ^ 21 | 2 => 2 ^ 30 | 3 => 2 ^ 39 | _ => 2 ^ 48

/-- The listed entries of one table: index and entry. -/
def tableEntries (m : List (Nat × Byte)) (stack base n : Nat) : List (Nat × Nat) :=
  let lo := privKey stack base
  ((m.filter (fun e => decide (lo ≤ e.1) && decide (e.1 < lo + 8 * n))).map (fun e => (e.1 - lo) / 8)).eraseDups.map
    (fun i => (i, readBytes m (lo + 8 * i) 8))

/-- Present leaves under a table: VA, level and entry. -/
def tableLeaves (m : List (Nat × Byte)) (stack : Nat) : Nat → Nat → Nat → List (Nat × Nat × Nat)
  | 0, base, va =>
    (tableEntries m stack base (tableSize 0)).filterMap (fun e =>
      if pteP e.2 && pteLeaf e.2 then some (va + e.1 * tableSpan 0, 0, e.2) else none)
  | l + 1, base, va =>
    (tableEntries m stack base (tableSize (l + 1))).flatMap (fun e =>
      let a := va + e.1 * tableSpan (l + 1)
      if !pteP e.2 then []
      else if pteLeaf e.2 then (if l + 1 ≥ 3 then [] else [(a, l + 1, e.2)])
      else tableLeaves m stack l (pteFrame e.2 * 4096) a)

/-- Present leaves of a context. -/
def ctxLeaves (s : State) (ctx : Nat) : List (Nat × Nat × Nat) :=
  match s.ctx ctx with | some c => tableLeaves s.mem 0 4 c.spec.root.toNat 0 | none => []

/-- Placement of an address under a leaf (R166, R167, R171). -/
def placement (va asid level pte : Nat) : Trans :=
  let o := va % pageSize level
  let base := pteFrame pte * 4096
  match pteTier pte with
  | .hbm =>
    if pteLinear pte then
      let n := o / 1024
      let st := n % 16
      let a := base + n / 16 * 1024 + o % 1024
      ⟨pte, level, st, hbmKey st a, hbmBlock st a true⟩
    else
      let g := o / 4096
      let st := stripedStack va asid
      let a := base + g / 16 * 4096 + o % 4096
      ⟨pte, level, st, hbmKey st a, hbmBlock st a false⟩
  | _ =>
    let a := base + o
    ⟨pte, level, stripedStack va asid, tierKey (pteTierCode pte) a, tierBlock (pteTierCode pte) a⟩

/-- R171: the malformed leaves. An HBM leaf whose frame lies beyond the 36 bits of a stack-local address names no slice of
the partition (log 77). -/
def leafMalformed (slices : List Nat) (level pte : Nat) : Bool :=
  let base := pteFrame pte * 4096
  field pte 3 2 != 0 || pteCmp pte == 15 ||
  (match pteTier pte with
   | .hbm => base % (pageSize level / 16) != 0 || pteKsel pte == 0 || !slices.contains (base >>> 32)
   | .host => pteLinear pte || pteKsel pte != 0
   | _ => pteLinear pte || pteKsel pte == 0 || base % pageSize level != 0)

/-- R316: a key slot that may not serve the leaf: FREE, or bound elsewhere. -/
def keyForbidden (s : State) (ctx pte : Nat) : Bool :=
  pteTier pte != .host &&
  (let k := s.key (pteKsel pte)
   k.st == .free || k.ctx != ctx || k.comp != pteCmp pte)

/-- The frame of a leaf in a unit's reverse map (R175): the key of its first 4 KiB there, and how many there are. -/
def rmapFrame (t : Trans) : Nat :=
  pteTierCode t.pte * 2 ^ 48 + (if pteTier t.pte == .hbm then hbmKey t.stack (pteFrame t.pte * 4096) / 4096 else pteFrame t.pte)
def rmapCount (t : Trans) : Nat := (if pteTier t.pte == .hbm then pageSize t.level / 16 else pageSize t.level) / 4096

/-- The first reverse-map entry of a unit that shares a 4 KiB with a leaf's frame. -/
def rmapFind (s : State) (st : Nat) (t : Trans) : Option RmapEntry :=
  s.rmap.find? (fun r => r.stack == st && decide (r.frame < rmapFrame t + rmapCount t) && decide (rmapFrame t < r.frame + r.num))

/-- TLB capacity by level (R173). -/
def tlbSize (level : Nat) : Nat := match level with | 0 => 16384 | 1 => 4096 | _ => 512

/-- ASID of a context. -/
def State.asid (s : State) (ctx : Nat) : Nat := ((s.ctx ctx).map (fun c => c.spec.asid)).getD 0

/-- A TLB entry that covers the address in a stack (R173). -/
def tlbHit (s : State) (stack asid va : Nat) : Option TlbEntry :=
  s.tlb.find? (fun e => e.stack == stack && e.asid == asid && e.page == va / pageSize e.level)

/-- Insert a TLB entry; the oldest of a full TLB leaves (log 19). -/
def tlbInsert (s : State) (e : TlbEntry) : State :=
  let same := s.tlb.filter (fun x => x.stack == e.stack && x.level == e.level)
  let kept := if same.length < tlbSize e.level then s.tlb
    else match same with | o :: _ => s.tlb.filter (· != o) | [] => s.tlb
  { s with tlb := kept ++ [e] }

/-- Change bits of a leaf entry in one stack's copy, and in the TLB entries of that page there. -/
def updateLeaf (s : State) (stack asid va level entryKey : Nat) (f : Nat → Nat) : State :=
  let e := readBytes s.mem entryKey 8
  { s with
    mem := writeBytes s.mem entryKey 8 (f e)
    tlb := s.tlb.map (fun t =>
      if t.stack == stack && t.asid == asid && t.level == level && t.page == va / pageSize level then
        { t with pte := BitVec.ofNat 64 (f t.pte.toNat) } else t) }

/-- Which stack's unit translates: the striped stack, or the stack of the row for a bank-linear page (R167). Whose copy
of the tables tells the layout is the model's choice: the striped stack's (log 77). -/
def walkStack (s : State) (ctx va : Nat) : Nat :=
  let st := stripedStack va (s.asid ctx)
  match walkTable s ctx st va with
  | .leaf _ _ pte => if pteLinear pte && pteTier pte == .hbm then field va 13 10 else st
  | _ => st

/-- What a successful translation changes: a walk records the frame in the unit's reverse map, sets AC and enters the TLB; a
write to a clean page sets D (R172, R173, R175). -/
def translated (s : State) (ctx va : Nat) (write : Bool) (st level pte : Nat) (walked : Option Nat) (t : Trans) : State :=
  let asid := s.asid ctx
  let page := va / pageSize level * pageSize level
  let s := if walked.isSome && !pteUncached pte && (rmapFind s st t).isNone then
      { s with rmap := s.rmap ++ [⟨st, rmapFrame t, rmapCount t, asid, page⟩] } else s
  let s := match walked with
    | some k =>
      tlbInsert (updateLeaf s st asid va level k (fun e => setBitTo e 61 true))
        ⟨st, asid, level, va / pageSize level, BitVec.ofNat 64 (setBitTo pte 61 true)⟩
    | none => s
  if write && !pteD pte then
    (match walkTable s ctx st va with
     | .leaf l k _ => updateLeaf s st asid va l k (fun e => setBitTo e 62 true)
     | _ => s)
  else s

/-- Translation with the checks of R176 step 6, in order. A walk sets AC and records the reverse map (R172,
R175); a write sets D. -/
def translate (s : State) (ctx comp va : Nat) (write : Bool) : Except Cause (State × Trans) :=
  let asid := s.asid ctx
  let st := walkStack s ctx va
  let slices := ((s.ctxPart ctx).map (fun p => p.slices)).getD []
  let go (level pte : Nat) (walked : Option Nat) : Except Cause (State × Trans) :=
    let t := placement va asid level pte
    if write && pteMig pte then .error .pageMigrating
    else if leafMalformed slices level pte || keyForbidden s ctx pte || pteCmp pte != comp then .error .protection
    else if write && !pteW pte then .error .pageWrite
    else
      let page := va / pageSize level * pageSize level
      if walked.isSome && !pteUncached pte && (rmapFind s st t).any (fun r => r.asid != asid || r.page != page) then
        .error .synonym
      else
        .ok (translated s ctx va write st level pte walked t, t)
  match tlbHit s st asid va with
  | some e => go e.level e.pte.toNat none
  | none =>
    match walkTable s ctx st va with
    | .absent => .error .pageNotPresent
    | .malformed mig => .error (if write && mig then .pageMigrating else .protection)
    | .leaf level k pte => go level pte (some k)

/-- The leaf of an address without any check or effect. -/
def rawTrans (s : State) (ctx va : Nat) : Option Trans :=
  match walkTable s ctx (walkStack s ctx va) va with
  | .leaf level _ pte => some (placement va (s.asid ctx) level pte)
  | _ => none

-- ## seals and poison (R317, R318, R309)

/-- The page is poisoned. -/
def poisoned (s : State) (asid va : Nat) : Bool :=
  s.poison.any (fun p =>
    match p with
    | .page a base size => a == asid && decide (base ≤ va) && decide (va < base + size))

/-- The page of a CXL leaf lies in the HDM decoder range (R333). -/
def inHdm (s : State) (level pte : Nat) : Bool := decide (pteFrame pte * 4096 + pageSize level ≤ s.boot.hdm)

/-- Step 7 of R176 for data at the base die: the key, the tag, poison; a CXL block is uncorrectable while the link of
that tier is down, and outside the decoder's range, where no memory answers (R333, log 86). -/
def checkSeal (s : State) (asid va : Nat) (t : Trans) : Except Cause Unit :=
  if pteTier t.pte == .host then (if poisoned s asid va then .error .poison else .ok ())
  else if pteTier t.pte == .cxl && (s.cxlDown || !inHdm s t.level t.pte) then .error .poison
  else
    let k := s.key (pteKsel t.pte)
    let tag := Store.get 0 s.seals t.block
    match k.st with
    | .ended => .error .keyEnded
    | .free => .error .protection
    | .live | .rotating =>
      if tag != 0 && tag != k.keys && !(k.st == .rotating && tag == k.old) then .error .integrity
      else if poisoned s asid va then .error .poison
      else .ok ()

/-- The unit whose engine sweeps a block (R324): its stack, or the one that serves the tier block's translations. A tier
block that no page maps is served by none; the model counts it with unit 0, and it is never accessed. -/
def sweepUnit (s : State) (ctx block : Nat) : Nat :=
  if block < 2 ^ 30 then block / 2 ^ 26
  else
    let addr := block % 2 ^ 40 * 1024
    match (ctxLeaves s ctx).find? (fun l => pteTierCode l.2.2 == block / 2 ^ 40 && decide (pteFrame l.2.2 * 4096 ≤ addr) &&
        decide (addr < pteFrame l.2.2 * 4096 + pageSize l.2.1)) with
    | some l => stripedStack (l.1 + (addr - pteFrame l.2.2 * 4096)) (s.asid ctx)
    | none => 0

/-- The slice or tier of a block: an engine has one sweep pointer for each (R324). -/
def sweepRegion (block : Nat) : Nat := if block < 2 ^ 30 then block % 2 ^ 26 / 2 ^ 22 else 16 + block / 2 ^ 40

/-- The sweep pointer of the engine, slice and tier of a block: the lowest block there still under the old keys. -/
def sweepPointer (s : State) (slot block : Nat) : Option Nat :=
  let k := s.key slot
  if k.st != .rotating then none
  else (s.seals.find? (fun e => e.2 == k.old && sweepRegion e.1 == sweepRegion block &&
    sweepUnit s k.ctx e.1 == sweepUnit s k.ctx block)).map (·.1)

/-- The key set that a write seals a block under (R324): the old one above the sweep pointer, for a fresh block too, the
new one below it; a write of the block at the pointer waits until the pointer has passed (log 20). -/
def sealSet (s : State) (slot block : Nat) : Nat :=
  let k := s.key slot
  match sweepPointer s slot block with
  | some p => if p < block && Store.get 0 s.seals block != k.keys then k.old else k.keys
  | none => k.keys

/-- Seal the block of a write (R317, R324). -/
def sealBlock (s : State) (t : Trans) : State :=
  if pteTier t.pte == .host then s
  else { s with seals := Store.put 0 s.seals t.block (sealSet s (pteKsel t.pte) t.block) }

/-- An access to the block under the sweep pointer waits until the pointer has passed it (R324): the block is then under
the new keys. -/
def sweepPast (s : State) (slot block : Nat) : State :=
  if sweepPointer s slot block == some block then { s with seals := Store.put 0 s.seals block (s.key slot).keys } else s

-- ## the NMU (R248, R249)

/-- The NMU that serves a translated address (R22, R248). A line of a capacity tier or of the host has no pseudo-channel; that
NMU 0 of the translating stack buffers it is the model's choice (log 91). -/
def nmuOf (t : Trans) : Nat :=
  match pteTier t.pte with | .hbm => 16 * t.stack + field t.key 35 32 | _ => 16 * t.stack

/-- Bank unit of a stack-local address (R22, R166). -/
def bankOf (stack a : Nat) (linear : Bool) : Nat :=
  8192 * stack + 16 * (32 * field a 35 32 + (if linear then field a 14 10 else field a 11 7)) + field a 18 15

/-- A kernel's open row that an ordinary write reaches is written (R240). -/
def OpenRow.touched (r : OpenRow) (key : Nat) (write : Bool) : OpenRow :=
  if write && r.t.key / 1024 == key / 1024 then { r with written := true } else r

/-- An ordinary request enters its bank's queue (R243, R248, R250): an L2 miss or write-back, a fill or a write-back of the
NMU's buffer. Its effect on memory is made at once; the request is kept for its order and its timing (log 14). -/
def noteRequest (s : State) (key : Nat) (linear write : Bool) : State :=
  if key ≥ 2 ^ 40 then s
  else
    let u := bankOf (key / 2 ^ 36) (key % 2 ^ 36) linear
    let b := s.bank u
    s.setBank u { b with
      reqs := b.reqs ++ [⟨s.free, key % 2 ^ 36 / 2 ^ 19 % 2 ^ 13, write, s.clk.gtime.toNat / 2⟩]
      exec := b.exec.map (fun e => { e with row := e.row.map (fun r => r.touched key write) }) }

/-- Words of a 128-byte line at its base die: buffered, or in DRAM. -/
def baseRead (s : State) (t : Trans) : List Word :=
  let k := t.key / 128 * 128
  match s.nmuBuf.find? (fun l => l.key == k) with
  | some l => l.data
  | none => readWords s.mem k 32

/-- Write words back to DRAM from a buffered line. -/
def nmuWriteBack (s : State) (l : NmuLine) : State :=
  if l.dirty then
    let s := noteRequest s l.key (l.sealId % 2 ^ 26 % 32 == l.key / 1024 % 32) true
    { s with mem := writeWords s.mem l.key l.data }
  else s

/-- The buffered line of a memory key goes to its tier and is clean (R189). -/
def nmuClean (s : State) (key : Nat) : State :=
  let k := key / 128 * 128
  let s := (s.nmuBuf.filter (fun l => l.key == k)).foldl nmuWriteBack s
  { s with nmuBuf := s.nmuBuf.map (fun l => if l.key == k then { l with dirty := false } else l) }

/-- The block's stored tag is that of the slot's keys, or the block is fresh: a write of part of it may merge (R317,
R318). -/
def tagMatches (s : State) (t : Trans) : Bool :=
  pteTier t.pte == .host ||
  (let k := s.key (pteKsel t.pte)
   let tag := Store.get 0 s.seals t.block
   tag == 0 || tag == k.keys || (k.st == .rotating && tag == k.old))

/-- Write a whole line at its base die: into the NMU's buffer where that holds it, else into DRAM. -/
def baseWrite (s : State) (t : Trans) (ws : List Word) : State :=
  let k := t.key / 128 * 128
  let s := sealBlock s t
  if s.nmuBuf.any (fun l => l.key == k) then
    { s with nmuBuf := s.nmuBuf.map (fun l => if l.key == k then { l with data := ws, dirty := true } else l) }
  else
    let s := noteRequest s t.key (pteLinear t.pte) true
    { s with mem := writeWords s.mem k ws }

/-- Bring a line into the write-back buffer of its NMU; the least recently used of 64 leaves (R248). -/
def nmuFill (s : State) (t : Trans) : State :=
  let k := t.key / 128 * 128
  let n := nmuOf t
  if s.nmuBuf.any (fun l => l.key == k) then
    { s with nmuBuf := s.nmuBuf.map (fun l => if l.key == k then { l with stamp := s.free } else l) }
  else
    let mine := s.nmuBuf.filter (fun l => l.nmu == n)
    let s : State := if mine.length < 64 then s
      else match mine.foldl (fun (b : Option NmuLine) l =>
          match b with | none => some l | some y => if l.stamp < y.stamp then some l else b) none with
        | some v => { nmuWriteBack s v with nmuBuf := s.nmuBuf.filter (fun l => l.key != v.key) }
        | none => s
    let s := noteRequest s t.key (pteLinear t.pte) false
    { s with nmuBuf := s.nmuBuf ++ [⟨n, k, pteKsel t.pte, t.block, readWords s.mem k 32, false, s.free⟩] }

/-- The contents of one or two words after an operation, and what the operation returns: `old` holds the words,
`off` the first byte's offset in them, `w` the width (R355, R379, R408). -/
def applyOp (op : MemOp) (et : ET) (ftz : Bool) (w off : Nat) (old : DWord) : DWord × DWord :=
  let m := 2 ^ (8 * w)
  let cur := old.toNat >>> (8 * off) % m
  match op with
  | .read => (old, BitVec.ofNat 64 cur)
  | .write v =>
    (BitVec.ofNat 64 (old.toNat - cur <<< (8 * off) + (v.toNat % m) <<< (8 * off)), 0)
  | .atomic o x c => (atomicNew o et ftz old x c, old)

/-- Whether an operation may write (R188, R203). -/
def opWrites (op : MemOp) : Bool := match op with | .read => false | _ => true

/-- Index of the first word of an access in its line, and how many words it touches. -/
def wordIndex (va : Nat) : Nat := va / 4 % 32
def wordCount (w : Nat) : Nat := if w == 8 then 2 else 1

/-- Words i.. of a line as one number. -/
def joinWords (ws : List Word) (i n : Nat) : DWord :=
  if n == 2 then ws.getD (i + 1) 0 ++ ws.getD i 0 else (ws.getD i 0).setWidth 64
/-- Word k of a joined number. -/
def splitWord (x : DWord) (k : Nat) : Word := (x >>> (32 * k)).setWidth 32
/-- Put a joined number back into a line. -/
def storeWords (ws : List Word) (i n : Nat) (x : DWord) : List Word :=
  let ws := ws.set i (splitWord x 0)
  if n == 2 then ws.set (i + 1) (splitWord x 1) else ws

/-- One operation in the NMU (R249); it reaches the bank as a fill of the write-back buffer (R248, R430). -/
def nmuOp (s : State) (asid va : Nat) (t : Trans) (w : Nat) (op : MemOp) (et : ET) (ftz : Bool) :
    Except Cause (State × DWord) :=
  match checkSeal s asid va t with
  | .error c => .error c
  | .ok _ =>
    let s := nmuFill s t
    let i := wordIndex va
    let n := wordCount w
    let (new, res) := applyOp op et ftz w (va % 4) (joinWords (baseRead s t) i n)
    if opWrites op then .ok (baseWrite s t (storeWords (baseRead s t) i n new), res) else .ok (s, res)

-- ## home slices and L1

/-- The home slice of a line (R162). -/
def homeSlice (va asid : Nat) : Nat :=
  field va 14 7 ^^^ field va 22 15 ^^^ field va 30 23 ^^^ field va 38 31 ^^^ field va 46 39 ^^^ field va 54 47 ^^^
    field va 56 55 ^^^ asid % 256 ^^^ asid / 256 % 256
/-- The set of a line in its slice, with the slice (R163). -/
def l2Set (line asid : Nat) : Nat :=
  let va := line * 128
  homeSlice va asid * 1024 + ((field va 24 15 ^^^ field va 34 25 ^^^ asid % 1024) % 1024)
/-- The set of a line in an L1 (R163). -/
def l1Set (line asid : Nat) : Nat := line % 256 ^^^ asid % 256

def l2Find (s : State) (asid line : Nat) : Option L2Line := s.l2.find? (fun l => l.asid == asid && l.line == line)
def modL2 (s : State) (asid line : Nat) (f : L2Line → L2Line) : State :=
  { s with l2 := s.l2.map (fun l => if l.asid == asid && l.line == line then f l else l) }
def dropL2 (s : State) (asid line : Nat) : State :=
  { s with l2 := s.l2.filter (fun l => !(l.asid == asid && l.line == line)) }
def l1Find (s : State) (coach asid line : Nat) : Option L1Line :=
  s.l1.find? (fun l => l.coach == coach && l.asid == asid && l.line == line)
def l1Word (s : State) (coach asid line i : Nat) : L1Word :=
  ((l1Find s coach asid line).map (fun l => l.words.getD i .none)).getD .none
/-- Change one word of an L1 line; a line left with no word is gone. -/
def setL1Word (s : State) (coach asid line i : Nat) (w : L1Word) : State :=
  let ls := s.l1.map (fun l =>
    if l.coach == coach && l.asid == asid && l.line == line then { l with words := l.words.set i w } else l)
  { s with l1 := ls.filter (fun l => !(l.coach == coach && l.asid == asid && l.line == line) || l.words.any (· != .none)) }

/-- A word is pinned by its registration or its loss (R163). -/
def wordPinned (w : WordState) : Bool := match w with | .u _ => false | _ => true
/-- A line is pinned by registration. -/
def regPinned (l : L2Line) : Bool := l.st.any wordPinned
/-- Transfer number of a word. -/
def wordNum (w : WordState) : BitVec 16 := match w with | .u n => n | .o _ n => n | .lost n => n

/-- A write-back that does not match is dropped and counted (R197). -/
def staleWriteback (s : State) : State := { s with mgmt := { s.mgmt with stalewb := s.mgmt.stalewb + 1 } }

/-- R197: a write-back or deregistration of a word by coach d carrying n: accepted, or dropped and counted. -/
def acceptWriteback (s : State) (asid line i d : Nat) (n : BitVec 16) (v : Option Word) : State :=
  match l2Find s asid line with
  | none => staleWriteback s
  | some l =>
    if l.st.getD i (.u 0) == .o d n then
      modL2 s asid line (fun l => { l with
        st := l.st.set i (.u n)
        data := match v with | some x => l.data.set i x | none => l.data
        dirty := l.dirty || v.isSome })
    else staleWriteback s

/-- What a registered L1 word sends to its home (R197): its value when dirty. -/
def wordBack (w : L1Word) : Option (BitVec 16 × Option Word) :=
  match w with | .reg v n d => some (n, if d then some v else none) | _ => none

/-- Words of an L1 line that leave it: registered ones are written back or deregistered (R197). -/
def releaseL1Words (s : State) (l : L1Line) : State :=
  (List.range 32).foldl (fun s i =>
    match wordBack (l.words.getD i .none) with
    | some (n, v) => acceptWriteback s l.asid l.line i l.coach n v
    | none => s) s

/-- Evict an L1 line. -/
def evictL1 (s : State) (l : L1Line) : State :=
  let s := releaseL1Words s l
  { s with l1 := s.l1.filter (fun x => !(x.coach == l.coach && x.asid == l.asid && x.line == l.line)) }

/-- Make room in an 8-way L1 set and put a line there; the least recently used line leaves (R33, R163). -/
def l1Put (s : State) (n : L1Line) : State :=
  let s : State := { s with l1 := s.l1.filter (fun x => !(x.coach == n.coach && x.asid == n.asid && x.line == n.line)) }
  let same := s.l1.filter (fun x => x.coach == n.coach && l1Set x.line x.asid == l1Set n.line n.asid)
  let s : State := if same.length < 8 then s
    else match same.foldl (fun (b : Option L1Line) l =>
        match b with | none => some l | some y => if l.stamp < y.stamp then some l else b) none with
      | some v => evictL1 s v
      | none => s
  { s with l1 := s.l1 ++ [n] }

/-- R197: recall a registered word to its home slice. -/
def recallWord (s : State) (asid line i : Nat) : State :=
  match l2Find s asid line with
  | none => s
  | some l =>
    match l.st.getD i (.u 0) with
    | .o d n =>
      let v := match l1Word s d asid line i with | .reg v _ true => some v | _ => none
      setL1Word (acceptWriteback s asid line i d n v) d asid line i .none
    | _ => s

/-- Recall every registered word of a line. -/
def recallLine (s : State) (asid line : Nat) : State :=
  (List.range 32).foldl (fun s i => recallWord s asid line i) s

/-- The context of an ASID. -/
def ctxOfAsid (s : State) (asid : Nat) : Nat :=
  match s.ctxs.find? (fun c => c.2.spec.asid == asid) with | some c => c.1 | none => 16

/-- A leaf's entry with its key slot replaced: a line is sealed under the slot in its tag, which for hardware traffic is
the compartment's (R110, R161, R314). -/
def withKsel (pte slot : Nat) : Nat := pte - field pte 56 45 * 2 ^ 45 + slot * 2 ^ 45

/-- Write a dirty L2 line back to its base die; a line whose key is gone is lost with it (R321), and one that would merge
into a block under other keys halts its context with INTEGRITY (R317). -/
def l2WriteBack (s : State) (l : L2Line) : State :=
  if !l.dirty then s
  else match rawTrans s (ctxOfAsid s l.asid) (l.line * 128) with
    | some t0 =>
      let t := { t0 with pte := withKsel t0.pte l.slot }
      let k := s.key (pteKsel t.pte)
      let s := if !(pteTier t.pte == .host || k.st == .live || k.st == .rotating) then s
        else if tagMatches s t then baseWrite s t l.data
        else haltContext s ⟨ctxOfAsid s l.asid, .integrity, 6, 0, 0, BitVec.ofNat 64 (l.line * 128)⟩
      modL2 s l.asid l.line (fun l => { l with dirty := false })
    | none => modL2 s l.asid l.line (fun l => { l with dirty := false })

/-- A line of a HOST-tier or CXL-tier page goes to its tier (R189). -/
def lineToTier (s : State) (asid line : Nat) : State :=
  let s := recallLine s asid line
  let s := match l2Find s asid line with | some l => l2WriteBack s l | none => s
  match rawTrans s (ctxOfAsid s asid) (line * 128) with
  | some t => nmuClean s t.key
  | none => s

/-- Write a line back and drop it, its registered words first (R165, R199); a line with a LOST word stays. -/
def flushLine (s : State) (asid line : Nat) : State :=
  let s := recallLine s asid line
  match l2Find s asid line with
  | none => s
  | some l =>
    let s := l2WriteBack s l
    if regPinned l then s else dropL2 s asid line

/-- Put a filled line into its set; the least recently used unpinned line leaves (R163). -/
def l2Put (s : State) (n : L2Line) : State :=
  let same := s.l2.filter (fun x => l2Set x.line x.asid == l2Set n.line n.asid)
  let s : State := if same.length < 12 then s
    else match (same.filter (fun l => !regPinned l && l.tile == 0)).foldl (fun (b : Option L2Line) l =>
        match b with | none => some l | some y => if l.stamp < y.stamp then some l else b) none with
      | some v => dropL2 (l2WriteBack s v) v.asid v.line
      | none => s
  { s with l2 := s.l2 ++ [n] }

/-- A held line that the hardware has sealed under the key of another compartment than its page's: a read of it fails its tag
check (R314). -/
def foreignSeal (s : State) (l : L2Line) : Bool := l.slot != 0 && (s.key l.slot).comp != l.cmp

/-- The request reaches the home slice: the line after steps 5 to 7 of R176, or, for a SHARED_UNCACHED page, the
translated address (R161, R165, R172). A line that enters L2 has every word in U (R197), with the transfer number 0, which is
the model's choice (log 102). -/
def homeLine (s : State) (ctx comp va : Nat) (write : Bool) : Except Cause (State × Option Trans) :=
  let asid := s.asid ctx
  let line := va / 128
  match l2Find s asid line with
  | some l =>
    if l.cmp != comp then .error .protection
    else if write && !l.w then .error .pageWrite
    else if foreignSeal s l then .error .integrity
    else
      let s := modL2 s asid line (fun l => { l with stamp := s.free })
      if write && !l.dk then
        match translate s ctx comp va true with
        | .error c => .error c
        | .ok (s, _) =>
          if poisoned s asid va then .error .poison
          else .ok (modL2 s asid line (fun l => { l with dk := true }), none)
      else if poisoned s asid va then .error .poison
      else .ok (s, none)
  | none =>
    match translate s ctx comp va write with
    | .error c => .error c
    | .ok (s, t) =>
      if pteUncached t.pte then .ok (s, some t)
      else
        match checkSeal s asid va t with
        | .error c => .error c
        | .ok _ =>
          let s := noteRequest s t.key (pteLinear t.pte) false
          .ok (l2Put s ⟨asid, line, pteKsel t.pte, pteW t.pte, pteCmp t.pte, pteD t.pte || write, false, baseRead s t,
            List.replicate 32 (.u 0), 0, s.free⟩, none)

/-- The value of a word at its place of effect (R186, R197). -/
def placeWord (s : State) (asid line i : Nat) : Except Cause Word :=
  match l2Find s asid line with
  | none => .ok 0
  | some l =>
    match l.st.getD i (.u 0) with
    | .u _ => .ok (l.data.getD i 0)
    | .o d _ => match l1Word s d asid line i with | .reg v _ _ => .ok v | _ => .ok (l.data.getD i 0)
    | .lost _ => .error .ownerLost

/-- The words i.. of an access at their places. -/
def placeWords (s : State) (asid line i n : Nat) : Except Cause DWord :=
  match placeWord s asid line i with
  | .error c => .error c
  | .ok lo =>
    if n == 2 then
      match placeWord s asid line (i + 1) with
      | .error c => .error c
      | .ok hi => .ok (hi ++ lo)
    else .ok (lo.setWidth 64)

/-- Write a word at the home slice, after any recall (R197). -/
def writeHome (s : State) (asid line i : Nat) (v : Word) : State :=
  modL2 (recallWord s asid line i) asid line (fun l => { l with data := l.data.set i v, dirty := true })

/-- A present unregistered copy takes a value seen or written at the place (R187). -/
def refreshCopy (s : State) (coach asid line i : Nat) (v : Word) : State :=
  match l1Word s coach asid line i with
  | .copy _ => setL1Word s coach asid line i (.copy v)
  | _ => s
/-- Remove an unregistered copy (R396, R408). -/
def dropCopy (s : State) (coach asid line i : Nat) : State :=
  match l1Word s coach asid line i with
  | .copy _ => setL1Word s coach asid line i .none
  | _ => s
/-- Do so for every word of an access. -/
def overWords (i n : Nat) (f : State → Nat → Nat → State) (s : State) : State :=
  (List.range n).foldl (fun s k => f s (i + k) k) s

/-- Fill the coach's L1 with copies of the line, words registered to the coach apart (R381). -/
def fillL1 (s : State) (coach asid line : Nat) : State :=
  match l2Find s asid line with
  | none => s
  | some l =>
    let words := (List.range 32).map (fun i =>
      match l1Word s coach asid line i with
      | .reg v n d => L1Word.reg v n d
      | _ => match placeWord s asid line i with | .ok v => .copy v | .error _ => .none)
    l1Put s ⟨coach, asid, line, l.slot, l.w, l.cmp, words, s.free⟩

/-- Whether the line's set can pin another line (R163, R164). -/
def canPin (s : State) (asid line : Nat) : Bool :=
  match l2Find s asid line with
  | none => false
  | some l =>
    regPinned l ||
      decide ((s.l2.filter (fun x => l2Set x.line x.asid == l2Set line asid && regPinned x)).length < 8)

/-- R164: count a word that stays unregistered. -/
def countOwnfall (s : State) (ctx : Nat) : State :=
  let s := s.modCtx ctx (fun c => { c with ownfall := c.ownfall + 1 })
  { s with mgmt := { s.mgmt with ownfall := s.mgmt.ownfall + 1 } }

/-- R197: register a word to a coach; it stays as it is when it is registered there already or its set cannot
pin. -/
def registerWord (s : State) (ctx coach asid line i : Nat) : State :=
  match l2Find s asid line with
  | none => s
  | some l =>
    match l.st.getD i (.u 0) with
    | .lost _ => s
    | st =>
      if (match st with | .o d _ => d == coach | _ => false) then s
      else if !canPin s asid line then countOwnfall s ctx
      else
        let s := recallWord s asid line i
        let n := wordNum st + 1
        let v := match placeWord s asid line i with | .ok v => v | .error _ => 0
        let s := modL2 s asid line (fun l => { l with st := l.st.set i (.o coach n) })
        let s := match l1Find s coach asid line with
          | some _ => s
          | none => l1Put s ⟨coach, asid, line, l.slot, l.w, l.cmp, List.replicate 32 .none, s.free⟩
        { s with l1 := s.l1.map (fun x => if x.coach == coach && x.asid == asid && x.line == line then
            { x with words := x.words.set i (.reg v n false), stamp := s.free } else x) }

/-- Write a word where it is: in the coach's L1 when it is registered there, else at the home slice, a present copy
taking the value (R409). -/
def writeOwn (s : State) (coach asid line i : Nat) (v : Word) : State :=
  match l1Word s coach asid line i with
  | .reg _ n _ => setL1Word s coach asid line i (.reg v n true)
  | _ => refreshCopy (writeHome s asid line i v) coach asid line i v

/-- The words of an access are all held in the coach's L1, under a test. -/
def l1All (s : State) (coach asid line i n : Nat) (f : L1Word → Bool) : Bool :=
  (List.range n).all (fun k => f (l1Word s coach asid line (i + k)))
def isReg (w : L1Word) : Bool := match w with | .reg _ _ _ => true | _ => false
def isPresent (w : L1Word) : Bool := match w with | .none => false | _ => true
/-- The value an L1 word holds. -/
def l1Value (w : L1Word) : Word := match w with | .none => 0 | .copy v => v | .reg v _ _ => v

/-- Who makes an access: the context and compartment, and the coach whose L1 it goes through (an engine names a coach
that does not exist). -/
structure Agent where
  ctx : Nat
  comp : Nat
  coach : Nat
deriving DecidableEq, Repr

/-- No coach: engines have no L1. -/
def noCoach : Nat := 1024

/-- Words of an access in the coach's L1, as one number. -/
def l1Join (s : State) (coach asid line i n : Nat) : DWord :=
  let lo := l1Value (l1Word s coach asid line i)
  if n == 2 then l1Value (l1Word s coach asid line (i + 1)) ++ lo else lo.setWidth 64

/-- Step 5 of R176 for an L1 hit. -/
def checkL1 (s : State) (ag : Agent) (asid line va : Nat) (write : Bool) : Except Cause Unit :=
  match l1Find s ag.coach asid line with
  | none => .ok ()
  | some l =>
    if l.cmp != ag.comp then .error .protection
    else if write && !l.w then .error .pageWrite
    else if poisoned s asid va then .error .poison
    else .ok ()

/-- An operation whose words are in the coach's L1: a read of copies, anything on registered words. -/
def l1Op (s : State) (ag : Agent) (asid va w : Nat) (op : MemOp) (et : ET) (ftz : Bool) :
    Except Cause (State × DWord) :=
  let line := va / 128
  let i := wordIndex va
  let n := wordCount w
  match checkL1 s ag asid line va (opWrites op) with
  | .error c => .error c
  | .ok _ =>
    let (new, res) := applyOp op et ftz w (va % 4) (l1Join s ag.coach asid line i n)
    let s : State := { s with l1 := s.l1.map (fun l =>
      if l.coach == ag.coach && l.asid == asid && l.line == line then { l with stamp := s.free } else l) }
    if opWrites op then
      .ok (overWords i n (fun s j k => writeOwn s ag.coach asid line j (splitWord new k)) s, res)
    else .ok (s, res)

/-- An operation at the home slice, a read forwarded to the owner (R197); present copies of the issuing coach follow
(R187). -/
def homeOp (s : State) (ag : Agent) (asid va w : Nat) (op : MemOp) (et : ET) (ftz : Bool) :
    Except Cause (State × DWord) :=
  let line := va / 128
  let i := wordIndex va
  let n := wordCount w
  match placeWords s asid line i n with
  | .error c => .error c
  | .ok old =>
    let (new, res) := applyOp op et ftz w (va % 4) old
    let s := if opWrites op then overWords i n (fun s j k => writeHome s asid line j (splitWord new k)) s else s
    .ok (overWords i n (fun s j k => refreshCopy s ag.coach asid line j (splitWord new k)) s, res)

/-- An .NC request on any page, and every request on a SHARED_UNCACHED page (R165). -/
def ncOp (s : State) (ag : Agent) (asid va w : Nat) (op : MemOp) (et : ET) (ftz : Bool) :
    Except Cause (State × DWord) :=
  let line := va / 128
  let i := wordIndex va
  let n := wordCount w
  let hit : Except Cause Unit :=
    match l2Find s asid line with
    | none => .ok ()
    | some l =>
      if l.cmp != ag.comp then .error .protection
      else if opWrites op && !l.w then .error .pageWrite
      else .ok ()
  match hit with
  | .error c => .error c
  | .ok _ =>
    match translate s ag.ctx ag.comp va (opWrites op) with
    | .error c => .error c
    | .ok (s, t) =>
      match checkSeal s asid va t with
      | .error c => .error c
      | .ok _ =>
        match placeWords s asid line i n with
        | .error c => .error c
        | .ok _ =>
          match nmuOp (flushLine s asid line) asid va t w op et ftz with
          | .error c => .error c
          | .ok (s, r) =>
            let now := joinWords (baseRead s t) i n
            let s := modL2 s asid line (fun l => { l with data := storeWords l.data i n now })
            .ok (overWords i n (fun s j k =>
              if opWrites op then dropCopy s ag.coach asid line j
              else refreshCopy s ag.coach asid line j (splitWord now k)) s, r)

-- ## windows that belong to the hardware (R50, R110)

/-- Base of a team's image window (R109). -/
def imageBase (s : State) (t : Team) : Nat :=
  ((s.ctx t.ctx).map (fun c => c.spec.rimg.toNat)).getD 0 + t.image * 2 ^ 21

/-- The team is placed: its drove holds a train. -/
def teamPlaced (s : State) (t : Team) : Bool := !t.sys && ((s.drove t.drove).bind (·.train)).isSome

/-- The address lies in the image window of a placed team of the context (R110). -/
def inImageWindow (s : State) (ctx va : Nat) : Bool :=
  s.teams.any (fun e => e.2.ctx == ctx && teamPlaced s e.2 && decide (imageBase s e.2 ≤ va) &&
    decide (va < imageBase s e.2 + 2 ^ 21))

/-- The address lies in the queue image of a live drove of the context (R50). -/
def inQueueImage (s : State) (ctx va : Nat) : Bool :=
  let base := ((s.ctx ctx).map (fun c => c.spec.qsave.toNat)).getD 0
  s.droves.any (fun e => e.2.ctx == ctx && e.2.iq && decide (base + 2 ^ 20 * e.2.k ≤ va) &&
    decide (va < base + 2 ^ 20 * (e.2.k + 1)))

/-- The address lies in the stop area of a context that runs (R301). -/
def inStopArea (s : State) (ctx va : Nat) : Bool :=
  match s.ctx ctx with
  | some c => c.running && decide (c.spec.stoparea.toNat ≤ va) && decide (va < c.spec.stoparea.toNat + 0x400000)
  | none => false

/-- An unpredictable value of an access (R9, log 6). -/
def freePair (s : State) (va k : Nat) : DWord := Config.freeWord s.free 5120 (2 * va + k) ++ Config.freeWord s.free 5121 (2 * va + k)

/-- The operation writes a window that belongs to the hardware, a program error (R50, R110, R301). -/
def writesWindow (s : State) (ctx va : Nat) (op : MemOp) : Bool :=
  opWrites op && (inImageWindow s ctx va || inQueueImage s ctx va || inStopArea s ctx va)

/-- The bytes that such an operation touches become unpredictable (R9). -/
def spoilOp (s : State) (ctx va : Nat) (op : MemOp) : MemOp :=
  if writesWindow s ctx va op then .write (freePair s va 0) else op

/-- A read of an image window, and what such an operation returns, is an unpredictable value (R9, R110). -/
def spoilRead (s : State) (ctx va : Nat) (op : MemOp) (x : DWord) : DWord :=
  if inImageWindow s ctx va || writesWindow s ctx va op then freePair s va 1 else x

/-- One access of a team or an engine to its own space on this device, performed where R84, R165, R356, R381, R397
and R409 say. -/
def performAt (s : State) (ag : Agent) (va : Nat) (w : Nat) (pol : Pol) (op : MemOp) (et : ET) (ftz : Bool) :
    Except Cause (State × DWord) :=
  let asid := s.asid ag.ctx
  let line := va / 128
  let i := wordIndex va
  let n := wordCount w
  let uncachedOr (write : Bool) (f : State → Except Cause (State × DWord)) : Except Cause (State × DWord) :=
    match homeLine s ag.ctx ag.comp va write with
    | .error c => .error c
    | .ok (s, some t) => nmuOp s asid va t w op et ftz
    | .ok (s, none) => f s
  match pol, op with
  | .nc, _ => ncOp s ag asid va w op et ftz
  | .si, .read =>
    if l1All s ag.coach asid line i n isPresent then l1Op s ag asid va w op et ftz
    else uncachedOr false (fun s =>
      match placeWords s asid line i n with
      | .error c => .error c
      | .ok _ => l1Op (fillL1 s ag.coach asid line) ag asid va w op et ftz)
  | .si, .write _ =>
    if l1All s ag.coach asid line i n isReg then l1Op s ag asid va w op et ftz
    else uncachedOr true (fun s =>
      match placeWords s asid line i n with
      | .error c => .error c
      | .ok old =>
        let (new, res) := applyOp op et ftz w (va % 4) old
        .ok (overWords i n (fun s j k => writeOwn s ag.coach asid line j (splitWord new k)) s, res))
  | .own, .read =>
    if l1All s ag.coach asid line i n isReg then l1Op s ag asid va w op et ftz
    else uncachedOr false (fun s =>
      if ((l2Find s asid line).map (fun l => l.w)).getD false then
        match homeLine s ag.ctx ag.comp va true with
        | .error c => .error c
        | .ok (s, _) =>
          match placeWords s asid line i n with
          | .error c => .error c
          | .ok _ =>
            let s := overWords i n (fun s j _ => registerWord s ag.ctx ag.coach asid line j) s
            homeOp s ag asid va w op et ftz
      else homeOp s ag asid va w op et ftz)
  | .own, _ =>
    if l1All s ag.coach asid line i n isReg then l1Op s ag asid va w op et ftz
    else uncachedOr true (fun s =>
      match placeWords s asid line i n with
      | .error c => .error c
      | .ok _ =>
        let s := overWords i n (fun s j _ => registerWord s ag.ctx ag.coach asid line j) s
        match placeWords s asid line i n with
        | .error c => .error c
        | .ok old =>
          let (new, res) := applyOp op et ftz w (va % 4) old
          .ok (overWords i n (fun s j k => writeOwn s ag.coach asid line j (splitWord new k)) s, res))
  | .wt, .read => uncachedOr false (fun s => homeOp s ag asid va w op et ftz)
  | _, _ => uncachedOr true (fun s => homeOp s ag asid va w op et ftz)

/-- One access, windows that belong to the hardware included. -/
def perform (s : State) (ag : Agent) (va : Nat) (w : Nat) (pol : Pol) (op : MemOp) (et : ET) (ftz : Bool) :
    Except Cause (State × DWord) :=
  match performAt s ag va w pol (spoilOp s ag.ctx va op) et ftz with
  | .error c => .error c
  | .ok (s', x) => .ok (s', spoilRead s ag.ctx va op x)

-- ## partition window (R158, R159)

/-- Canonical form and partition index (R158, R159, step 2 of R176). -/
def canonical (va : DWord) : Bool := field va.toNat 63 57 == 0
/-- VA[56] (R158). -/
def inWindow (va : DWord) : Bool := va.getLsbD 56
/-- The target's index in the member list. -/
def windowIndex (va : DWord) : Nat := field va.toNat 55 42

/-- Send a request of a unit to another member, and time it (R159, R308, R335). -/
def State.request (s : State) (src id ctx comp tid index : Nat) (va : DWord) (w : Nat) (pol : Pol) (op : MemOp) (et : ET)
    (ftz : Bool) : State :=
  let own := ((s.ctxPart ctx).map (fun p => p.member)).getD 0
  let s := s.send (s.partOf ctx) index ctx src (sliceUnit (homeSlice (field va.toNat 41 0) (s.asid ctx))) (.request index ⟨id, own, ctx, comp, field va.toNat 41 0, w, pol, et, ftz, op⟩)
  { s with remote := s.remote ++ [⟨id, ctx, tid, index, va, s.clk.gtime, false⟩] }

/-- Where an access goes. -/
inductive Route
  /-- this device, at this VA with this request type; `window`: through the partition window, where copies in the issuing
  coach's L1 follow as R187 says -/
  | here (va : Nat) (pol : Pol) (window : Bool)
  /-- another member -/
  | away (index : Nat)
  /-- step 2 of R176 -/
  | bad

/-- R158, R159. -/
def route (s : State) (ctx : Nat) (va : DWord) (pol : Pol) : Route :=
  if !canonical va then .bad
  else if inWindow va then
    match s.ctxPart ctx, s.ctx ctx with
    | some p, some c =>
      if windowIndex va ≥ p.members then .bad
      else if windowIndex va == p.member then
        .here (c.spec.pwbase.toNat + field va.toNat 41 0) (match pol with | .nc => .nc | _ => .wt) true
      else .away (windowIndex va)
    | _, _ => .bad
  else .here va.toNat pol false

/-- The address as its context's own space has it: an own-index window address is a local one (R158). -/
def localVa (s : State) (ctx : Nat) (va : DWord) : Nat :=
  match route s ctx va .wt with | .here a _ _ => a | _ => va.toNat

-- ## instruction fetch (R72, R161, R165)

/-- The words of a line at their places. -/
def lineWords (s : State) (asid line : Nat) : Except Cause (List Word) :=
  (List.range 32).foldr (fun i acc =>
    match acc, placeWord s asid line i with
    | .ok ws, .ok w => .ok (w :: ws)
    | .error c, _ => .error c
    | _, .error c => .error c) (.ok [])

/-- Set of an instruction-cache line (log 15). -/
def iSet (line : Nat) : Nat := line % 128

/-- Put a line into the instruction cache: 4 ways, least recently filled leaves (R33). -/
def iPut (s : State) (n : ILine) : State :=
  let same := s.icache.filter (fun l => l.coach == n.coach && iSet l.line == iSet n.line)
  let keep := if same.length < 4 then s.icache
    else match same with | o :: _ => s.icache.filter (· != o) | [] => s.icache
  { s with icache := keep ++ [n] }

/-- Fetch the word at a code address through the coach's instruction cache (R72). -/
def fetchWord (s : State) (ag : Agent) (va : DWord) : Except Cause (State × Word) :=
  let asid := s.asid ag.ctx
  let line := va.toNat / 128
  let i := wordIndex va.toNat
  match s.icache.find? (fun l => l.coach == ag.coach && l.asid == asid && l.line == line) with
  | some l => if l.cmp != ag.comp then .error .protection else .ok (s, l.data.getD i 0)
  | none =>
    if !canonical va || inWindow va then .error .protection
    else
      match homeLine s ag.ctx ag.comp va.toNat false with
      | .error c => .error c
      | .ok (_, some _) => .error .protection
      | .ok (s, none) =>
        match lineWords s asid line, l2Find s asid line with
        | .error c, _ => .error c
        | .ok ws, some l => .ok (iPut s ⟨ag.coach, asid, line, l.slot, l.cmp, ws, s.free⟩, ws.getD i 0)
        | .ok ws, none => .ok (s, ws.getD i 0)

-- ## L1 removal (R189, R191, R195, R198)

/-- Remove unregistered words of an ASID from a coach's L1, in lines that a test selects. -/
def removeCopies (s : State) (coach asid : Nat) (sel : Nat → Bool) : State :=
  let ls := s.l1.map (fun l =>
    if l.coach == coach && l.asid == asid && sel l.line then
      { l with words := l.words.map (fun w => if isReg w then w else .none) }
    else l)
  { s with l1 := ls.filter (fun l => l.words.any (· != .none)) }

/-- The acquire's removal: every unregistered word of the ASID (R189). -/
def acquireRemoval (s : State) (coach asid : Nat) : State := removeCopies s coach asid (fun _ => true)

/-- A line overlaps [lo, lo + len). -/
def lineOverlaps (line lo len : Nat) : Bool := decide (line * 128 < lo + len) && decide (lo < line * 128 + 128) && len != 0

/-- Removal for the destination ranges of an observed operation (R198). -/
def removeRanges (s : State) (coach asid : Nat) (rs : List (Nat × Nat)) : State :=
  if rs.isEmpty then s
  else
    let hit (a : Nat) : Bool := rs.any (fun r => decide (a < r.1 + r.2) && decide (r.1 < a + 4))
    let ls := s.l1.map (fun l =>
      if l.coach == coach && l.asid == asid then
        { l with words := (List.range 32).map (fun i =>
            let w := l.words.getD i .none
            if !isReg w && hit (l.line * 128 + 4 * i) then .none else w) }
      else l)
    { s with l1 := ls.filter (fun l => l.words.any (· != .none)) }

/-- Write back and drop every line and registered word of a range: before bank runs and BKLOAD (R199). -/
def flushRange (s : State) (asid lo len : Nat) : State :=
  ((s.l2.filter (fun l => l.asid == asid && lineOverlaps l.line lo len)).map (·.line)).foldl
    (fun s line => flushLine s asid line) s

end Sys2Proof.Machine
end

