-- ==== Sys2Proof/WellFormed.lean ====
section
/-! DEFINITION. Well-formed instructions: the static rules of spec/03 R75, R77 (tier 3), R84, R86, R89, R90, R93 that
the types of the fields do not already say. An ill-formed term either has no word of its own or is an instruction
that the machine answers with ILLEGAL_REG. -/
namespace Sys2Proof

/-- An even register number: a pair (R75). -/
def evenReg {n : Nat} (r : BitVec n) : Bool := r.toNat % 2 == 0

/-- A multiple of k. -/
def multOf {n : Nat} (k : Nat) (r : BitVec n) : Bool := r.toNat % k == 0

/-- A command block starts at s8, s16, .., s56 (R86, "sblk"). -/
def sblkOk (a : BitVec 6) : Bool := multOf 8 a && a != 0

/-- X = 0xFF is the form without an index, so no index register is v255 (R89, R101). -/
def xOk (x : Option (BitVec 8)) : Bool := x != some 0xFF#8

/-- The accumulator field of a matrix instruction (R205). -/
def mmOk (m : MShape) (d : BitVec 8) : Bool :=
  match m with
  | .mm128 => multOf 16 d
  | .mm256 => d == 32
  | .mm512 => d == 64
  | .mm1024 => d == 128

/-- MODEI values a bank unit admits (R93): the low half. -/
def bankModeLoOk (i : BitVec 16) : Bool :=
  let et := (i.extractLsb' 0 4).toNat
  (et == 0 || et == 1 || et == 8) && decide ((i.extractLsb' 4 3).toNat < 4) && i.extractLsb' 8 4 == 0 &&
    i.extractLsb' 13 3 == 0

/-- The bank-unit subset (R93): no VMULH, and the MODE values of R93. -/
def bankOpOk (o : BankOp) : Bool :=
  match o with
  | .alu op _ _ _ => op != .mulh
  | .modeLo i => bankModeLoOk i
  | _ => true

/-- Well-formedness of an instruction. The steps without an encoding have no static rule. -/
def wellFormed (i : Instr) : Bool :=
  match i with
  | .jtab _ _ _ b => evenReg b
  | .gangset _ a => evenReg a
  | .xacq _ blk | .xrel _ blk => blk != 0
  | .hsave _ base _ | .hload _ base _ => evenReg base
  | .seqopen _ _ a _ => evenReg a
  | .saddp _ d a b => evenReg d && evenReg a && evenReg b
  | .ld _ _ base _ x | .st _ _ base _ x => evenReg base && xOk x
  | .ld4 _ d base _ x | .st4 _ d base _ x => multOf 4 d && evenReg base && xOk x
  | .lda _ _ base _ x | .stl _ _ base _ x => evenReg base && xOk x
  | .sld _ _ base _ _ | .sst _ _ base _ _ => evenReg base
  | .aadd _ _ base _ x | .amin _ _ base _ x | .amax _ _ base _ x | .aand _ _ base _ x | .aor _ _ base _ x
  | .axor _ _ base _ x | .axchg _ _ base _ x => evenReg base && xOk x
  | .acas _ d base _ x => evenReg d && evenReg base && xOk x
  | .redadd _ _ base pol x | .redmin _ _ base pol x | .redmax _ _ base pol x | .redor _ _ base pol x =>
    evenReg base && xOk x && pol != .own
  | .invr _ _ base | .wbr _ _ base | .ownr _ _ base => evenReg base
  | .spld _ _ base x | .spst _ _ base x | .spaadd _ _ base x => evenReg base && xOk x
  | .mm128 _ d a b => mmOk .mm128 d && evenReg a && evenReg b
  | .mm256 _ d a b => mmOk .mm256 d && evenReg a && evenReg b
  | .mm512 _ d a b => mmOk .mm512 d && evenReg a && evenReg b
  | .mm1024 _ d a b => mmOk .mm1024 d && evenReg a && evenReg b
  | .pfl2 _ a _ => evenReg a
  | .bkload _ _ a _ => evenReg a
  | .bkrun _ _ a b => evenReg a && decide (b.toNat ≤ 55)
  | .bkread _ _ a _ => evenReg a
  | .digest _ _ a | .dcopy _ _ a | .dcopy2 _ _ a | .dfill _ _ a | .dgath _ _ a | .dgate _ _ a => sblkOk a
  | .cred _ _ a | .cgath _ _ a | .cscat _ _ a | .cxch _ _ a => sblkOk a
  | .bankSubsetInstruction o => bankOpOk o
  | _ => true

end Sys2Proof
end

