-- ==== Sys2Proof/Decode.lean ====
section
/-! DEFINITION. The instruction word (spec/03 R70 to R78, R85 to R94): splitting it into fields, the decoder of
the coaches and of the bank units, the encoder, and the host's `decodeTableWord`. The decoder rejects by name; on
a coach every rejection is ILLEGAL_OP (R92), in a bank unit BANK_FAULT (R94). The checks that need the register
kinds or the state (R77 tiers 2 to 6) belong to the meanings. -/
namespace Sys2Proof

/-- The fields common to every format (R70, R73). -/
structure Fields where
  s : Bool
  op : BitVec 7
  d : BitVec 8
  a : BitVec 8
  b : BitVec 8
deriving DecidableEq, Repr

/-- Why a word is no instruction. -/
inductive Reject
  /-- fewer than four bytes -/
  | truncated
  /-- 0x1F, 0x25, 0x2F, 0x4F, 0x6F (R92) -/
  | reservedOpcode
  /-- an unassigned function code (R78) -/
  | reservedFunction
  /-- a must-be-zero or fixed field holds something else (R75, R76, R89) -/
  | fieldNotFixed
  /-- XACQ or XREL of no block (R86) -/
  | emptyBlockSet
  /-- FENCE whose two scopes differ (R85) -/
  | scopeMismatch
  /-- a reduce-on-write with .OWN (R84) -/
  | redOwn
  /-- a bank unit does not admit the opcode (R94) -/
  | notAdmitted
  /-- a register field outside 0x00 to 0x03 and 0x80 to 0x87, or a k where a q is required (R94) -/
  | bankRegister
  /-- a MODEI value outside R93 (R94) -/
  | bankMode
deriving DecidableEq, Repr

/-- A decoder's answer. -/
abbrev Decoded := Except Reject Instr

/-- Split a word (R70). -/
def fieldsOf (w : Word) : Fields :=
  ⟨w.getLsbD 31, w.extractLsb' 24 7, w.extractLsb' 16 8, w.extractLsb' 8 8, w.extractLsb' 0 8⟩

/-- Join the fields into a word (R70). -/
def wordOf (f : Fields) : Word := BitVec.ofBool f.s ++ f.op ++ f.d ++ f.a ++ f.b

/-- Bits 5:0 of a scalar field (R75). -/
def lo6 (x : BitVec 8) : BitVec 6 := x.extractLsb' 0 6
/-- Bits 7:6, which some families use (R75, R78). -/
def hi2 (x : BitVec 8) : BitVec 2 := x.extractLsb' 6 2
/-- Bits 4:0, a special number. -/
def lo5 (x : BitVec 8) : BitVec 5 := x.extractLsb' 0 5
/-- Bits 2:0, a predicate. -/
def lo3 (x : BitVec 8) : BitVec 3 := x.extractLsb' 0 3
/-- Bits 1:0. -/
def lo2 (x : BitVec 8) : BitVec 2 := x.extractLsb' 0 2
/-- BASE of the M format (R73). -/
def fBase (f : Fields) : BitVec 6 := f.a.extractLsb' 2 6
/-- POL of the M format (R73). -/
def fPol (f : Fields) : BitVec 2 := f.a.extractLsb' 0 2
/-- IMM of the K format (R73). -/
def fImm (f : Fields) : BitVec 16 := f.a ++ f.b
/-- OFF of the J format (R73). -/
def fOff (f : Fields) : BitVec 24 := f.d ++ f.a ++ f.b
/-- X of the M format: 0xFF is no index (R89). -/
def fX (f : Fields) : Option (BitVec 8) := if f.b = 0xFF#8 then none else some f.b

/-- A request type of two bits (R84). -/
def polOf (x : BitVec 2) : Pol := Machine.polOfCode x.toNat
/-- A scope of two bits (R85). -/
def scopeOf (x : BitVec 2) : Scope := Machine.scopeOfCode x.toNat

/-- The word is `i` if the named fields hold what they must. -/
def need (c : Bool) (r : Reject) (i : Decoded) : Decoded := if c then i else .error r
/-- The common case of R75. -/
def fixed (c : Bool) (i : Instr) : Decoded := need c .fieldNotFixed (.ok i)

/-- Opcodes 0x00 to 0x1F (R86). -/
def decodeControl (f : Fields) : Decoded :=
  let z := f.d == 0 && f.a == 0 && f.b == 0
  match f.op.toNat with
  | 0x00 => fixed z (.nop f.s)
  | 0x01 =>
    if f.d = 0 then .ok (.modeiLo f.s (fImm f))
    else if f.d = 1 then .ok (.modeiHi f.s (fImm f))
    else .error .fieldNotFixed
  | 0x02 => fixed (hi2 f.d == 0 && f.a.extractLsb' 5 3 == 0 && f.b == 0) (.mfs f.s (lo6 f.d) (lo5 f.a))
  | 0x03 => fixed (f.d.extractLsb' 5 3 == 0 && hi2 f.a == 0 && f.b == 0) (.mts f.s (lo5 f.d) (lo6 f.a))
  | 0x04 => .ok (.bra f.s (fOff f))
  | 0x05 =>
    need (hi2 f.d == 0) .fieldNotFixed
      (let neg := f.d.getLsbD 3
       match (f.d.extractLsb' 4 2).toNat with
       | 0 => .ok (.brpDiv f.s neg (lo3 f.d) (fImm f))
       | 1 => .ok (.brpAny f.s neg (lo3 f.d) (fImm f))
       | 2 => .ok (.brpAll f.s neg (lo3 f.d) (fImm f))
       | _ => .ok (.brpNone f.s neg (lo3 f.d) (fImm f)))
  | 0x06 => fixed (f.d == 0) (.joinat f.s (fImm f))
  | 0x07 => fixed (hi2 f.d == 0 && hi2 f.b == 0) (.jtab f.s (lo6 f.d) f.a (lo6 f.b))
  | 0x08 => .ok (.call f.s (fOff f))
  | 0x09 => fixed (f.d == 0 && hi2 f.a == 0 && f.b == 0) (.calli f.s (lo6 f.a))
  | 0x0A => fixed z (.ret f.s)
  | 0x0B => fixed (f.a.extractLsb' 3 5 == 0 && f.b.extractLsb' 2 6 == 0) (.refill f.s f.d (lo3 f.a) (lo2 f.b))
  | 0x0C => fixed z (.exit f.s)
  | 0x0D => fixed (f.d == 0) (.trapi f.s (fImm f))
  | 0x0E => fixed z (.rett f.s)
  | 0x0F =>
    match (hi2 f.d).toNat with
    | 0 => .ok (.yieldcCopy f.s (lo6 f.d) (fImm f))
    | 1 => .ok (.yieldcColl f.s (lo6 f.d) (fImm f))
    | 2 => .ok (.yieldcBank f.s (lo6 f.d) (fImm f))
    | _ => .ok (.yieldcMm f.s (lo6 f.d) (fImm f))
  | 0x10 => fixed (hi2 f.d == 0 && hi2 f.a == 0 && f.b == 0) (.arrive f.s (lo6 f.d) (lo6 f.a))
  | 0x11 => fixed (f.d == 0 && hi2 f.a == 0 && hi2 f.b == 0) (.pwait f.s (lo6 f.a) (lo6 f.b))
  | 0x12 => fixed (f.d == 0) (.dbar f.s (fImm f))
  | 0x13 => fixed (f.d == 0 && hi2 f.a == 0 && f.b == 0) (.gangset f.s (lo6 f.a))
  | 0x14 =>
    need (f.d == 0 && f.a == 0 && f.b.extractLsb' 3 5 == 0) .fieldNotFixed
      (need (lo3 f.b != 0) .emptyBlockSet (.ok (.xacq f.s (lo3 f.b))))
  | 0x15 =>
    need (f.d == 0 && f.a == 0 && f.b.extractLsb' 3 5 == 0) .fieldNotFixed
      (need (lo3 f.b != 0) .emptyBlockSet (.ok (.xrel f.s (lo3 f.b))))
  | 0x16 => fixed (f.d == 0 && f.b == 0xFF) (.hsave f.s (fBase f) (polOf (fPol f)))
  | 0x17 => fixed (f.d == 0 && f.b == 0xFF) (.hload f.s (fBase f) (polOf (fPol f)))
  | 0x18 => fixed z (.rflush f.s)
  | 0x19 => fixed (hi2 f.d == 0 && hi2 f.a == 0 && hi2 f.b == 0) (.seqopen f.s (lo6 f.d) (lo6 f.a) (lo6 f.b))
  | 0x1A => fixed (f.d == 0 && hi2 f.a == 0 && f.b == 0) (.seqend f.s (lo6 f.a))
  | 0x1B => fixed (f.d == 0 && hi2 f.a == 0 && f.b == 0) (.launch f.s (lo6 f.a))
  | 0x1C => fixed (f.d == 0 && hi2 f.a == 0 && hi2 f.b == 0) (.signal f.s (lo6 f.a) (lo6 f.b))
  | 0x1D => fixed (f.d == 0 && f.b.extractLsb' 5 3 == 0) (.ipush f.s f.a (lo2 f.b) (f.b.extractLsb' 2 3))
  | 0x1E => fixed (hi2 f.d == 0 && hi2 f.a == 0 && f.b == 0) (.digest f.s (lo6 f.d) (lo6 f.a))
  | _ => .error .reservedOpcode

/-- The scalar ALU's function F and register fields (R78). -/
def decodeScalarAlu (f : Fields) : Decoded :=
  let d := lo6 f.d
  let a := lo6 f.a
  let b := lo6 f.b
  match (hi2 f.d ++ hi2 f.a ++ hi2 f.b).toNat with
  | 0 => .ok (.sadd f.s d a b)
  | 1 => .ok (.ssub f.s d a b)
  | 2 => .ok (.smul f.s d a b)
  | 3 => .ok (.smulh f.s d a b)
  | 4 => .ok (.sand f.s d a b)
  | 5 => .ok (.sor f.s d a b)
  | 6 => .ok (.sxor f.s d a b)
  | 7 => .ok (.sshl f.s d a b)
  | 8 => .ok (.sshr f.s d a b)
  | 9 => .ok (.ssra f.s d a b)
  | 10 => .ok (.smin f.s d a b)
  | 11 => .ok (.smax f.s d a b)
  | 12 => .ok (.saddp f.s d a b)
  | _ => .error .reservedFunction

/-- SCMP (R78, R87). -/
def decodeScmp (f : Fields) : Decoded :=
  need (f.d.extractLsb' 3 3 == 0 && hi2 f.a == 0) .fieldNotFixed
    (let p := lo3 f.d
     let a := lo6 f.a
     let b := lo6 f.b
     match (hi2 f.d ++ hi2 f.b).toNat with
     | 0 => .ok (.scmpEq f.s p a b)
     | 1 => .ok (.scmpNe f.s p a b)
     | 2 => .ok (.scmpLt f.s p a b)
     | 3 => .ok (.scmpLe f.s p a b)
     | 4 => .ok (.scmpLtn f.s p a b)
     | 5 => .ok (.scmpLen f.s p a b)
     | _ => .error .reservedFunction)

/-- Opcodes 0x26 to 0x2E: the bank-only instructions (R93). -/
def decodeBankOnly (f : Fields) : Decoded :=
  let qd := f.d.extractLsb' 2 6 == 0
  let qa := f.a.extractLsb' 2 6 == 0
  let kb := f.b.extractLsb' 3 5 == 0x10
  let z := f.d == 0 && f.a == 0 && f.b == 0
  match f.op.toNat with
  | 0x26 => need (qd && f.a.extractLsb' 3 5 == 0x10) .bankRegister
              (fixed (f.b == 0) (.rowld f.s (lo2 f.d) (lo3 f.a)))
  | 0x27 => need (qa && kb) .bankRegister (fixed (f.d == 0) (.rowst f.s (lo2 f.a) (lo3 f.b)))
  | 0x28 => need (qd && qa) .bankRegister (fixed (f.b == 0) (.bfpadd f.s (lo2 f.d) (lo2 f.a)))
  | 0x29 => need (qd && qa && kb) .bankRegister (.ok (.bsmac f.s (lo2 f.d) (lo2 f.a) (lo3 f.b)))
  | 0x2A => need qa .bankRegister (fixed (f.d == 0 && f.b == 0) (.mpush f.s (lo2 f.a)))
  | 0x2B => fixed z (.mpop f.s)
  | 0x2C => fixed z (.mflip f.s)
  | 0x2D => fixed z (.bkend f.s)
  | 0x2E => need (qd && qa) .bankRegister (fixed (f.b == 0) (.bfpout f.s (lo2 f.d) (lo2 f.a)))
  | _ => .error .reservedOpcode

/-- Opcodes 0x20 to 0x2F (R87, R92). -/
def decodeScalar (f : Fields) : Decoded :=
  match f.op.toNat with
  | 0x20 => decodeScalarAlu f
  | 0x21 => decodeScmp f
  | 0x22 => fixed (hi2 f.d == 0) (.saddi f.s (lo6 f.d) (fImm f))
  | 0x23 => fixed (hi2 f.d == 0) (.sli f.s (lo6 f.d) (fImm f))
  | 0x24 => fixed (hi2 f.d == 0) (.slih f.s (lo6 f.d) (fImm f))
  | 0x25 => .error .reservedOpcode
  | _ => decodeBankOnly f

/-- VCMP's combine (R78). -/
def combOf (x : BitVec 2) : Option Comb :=
  match x.toNat with | 0 => some .set | 1 => some .and | 2 => some .or | _ => none

/-- VCMP (R78, R88). -/
def decodeVcmp (f : Fields) : Decoded :=
  match combOf (hi2 f.d) with
  | none => .error .reservedFunction
  | some c =>
    match (f.d.extractLsb' 3 3).toNat with
    | 0 => .ok (.vcmpEq f.s c (lo3 f.d) f.a f.b)
    | 1 => .ok (.vcmpNe f.s c (lo3 f.d) f.a f.b)
    | 2 => .ok (.vcmpLt f.s c (lo3 f.d) f.a f.b)
    | 3 => .ok (.vcmpLe f.s c (lo3 f.d) f.a f.b)
    | 4 => .ok (.vcmpGt f.s c (lo3 f.d) f.a f.b)
    | 5 => .ok (.vcmpGe f.s c (lo3 f.d) f.a f.b)
    | _ => .error .reservedFunction

/-- The VFN family (R78). -/
def decodeVfn (f : Fields) : Decoded :=
  match f.b.toNat with
  | 0 => .ok (.vcvt f.s f.d f.a)
  | 1 => .ok (.vabs f.s f.d f.a)
  | 2 => .ok (.vneg f.s f.d f.a)
  | 3 => .ok (.vnot f.s f.d f.a)
  | 4 => .ok (.vclz f.s f.d f.a)
  | 5 => .ok (.vpopc f.s f.d f.a)
  | 6 => .ok (.vrcp f.s f.d f.a)
  | 7 => .ok (.vrsq f.s f.d f.a)
  | 8 => .ok (.vsqrt f.s f.d f.a)
  | 9 => .ok (.vexp2 f.s f.d f.a)
  | 10 => .ok (.vlog2 f.s f.d f.a)
  | 11 => .ok (.vtanh f.s f.d f.a)
  | _ => .error .reservedFunction

/-- VRED (R78). -/
def decodeVred (f : Fields) : Decoded :=
  need (hi2 f.d == 0) .fieldNotFixed
    (match f.b.toNat with
     | 0 => .ok (.vredAdd f.s (lo6 f.d) f.a)
     | 1 => .ok (.vredMin f.s (lo6 f.d) f.a)
     | 2 => .ok (.vredMax f.s (lo6 f.d) f.a)
     | 3 => .ok (.vredAnd f.s (lo6 f.d) f.a)
     | 4 => .ok (.vredOr f.s (lo6 f.d) f.a)
     | 5 => .ok (.vredXor f.s (lo6 f.d) f.a)
     | _ => .error .reservedFunction)

/-- VSCAN (R78). -/
def decodeVscan (f : Fields) : Decoded :=
  match f.b.toNat with
  | 0 => .ok (.vscanAdd f.s f.d f.a)
  | 1 => .ok (.vscanMin f.s f.d f.a)
  | 2 => .ok (.vscanMax f.s f.d f.a)
  | 3 => .ok (.vscanAnd f.s f.d f.a)
  | 4 => .ok (.vscanOr f.s f.d f.a)
  | 5 => .ok (.vscanXor f.s f.d f.a)
  | _ => .error .reservedFunction

/-- Predicate logic (R78, R88). -/
def decodePlogic (f : Fields) : Decoded :=
  need (hi2 f.d == 0 && f.a.extractLsb' 3 5 == 0 && f.b.extractLsb' 3 5 == 0) .fieldNotFixed
    (match (f.d.extractLsb' 3 3).toNat with
     | 0 => .ok (.pland f.s (lo3 f.d) (lo3 f.a) (lo3 f.b))
     | 1 => .ok (.plor f.s (lo3 f.d) (lo3 f.a) (lo3 f.b))
     | 2 => .ok (.plxor f.s (lo3 f.d) (lo3 f.a) (lo3 f.b))
     | 3 => fixed (lo3 f.b == 0) (.plnot f.s (lo3 f.d) (lo3 f.a))
     | _ => .error .reservedFunction)

/-- Opcodes 0x30 to 0x4F (R88). -/
def decodeVector (f : Fields) : Decoded :=
  match f.op.toNat with
  | 0x30 => .ok (.vadd f.s f.d f.a f.b)
  | 0x31 => .ok (.vsub f.s f.d f.a f.b)
  | 0x32 => .ok (.vmul f.s f.d f.a f.b)
  | 0x33 => .ok (.vmulh f.s f.d f.a f.b)
  | 0x34 => .ok (.vmad f.s f.d f.a f.b)
  | 0x35 => .ok (.vmin f.s f.d f.a f.b)
  | 0x36 => .ok (.vmax f.s f.d f.a f.b)
  | 0x37 => .ok (.vand f.s f.d f.a f.b)
  | 0x38 => .ok (.vor f.s f.d f.a f.b)
  | 0x39 => .ok (.vxor f.s f.d f.a f.b)
  | 0x3A => .ok (.vshl f.s f.d f.a f.b)
  | 0x3B => .ok (.vshr f.s f.d f.a f.b)
  | 0x3C => .ok (.vsra f.s f.d f.a f.b)
  | 0x3D => .ok (.vsel f.s f.d f.a f.b)
  | 0x3E => decodeVcmp f
  | 0x3F => decodeVfn f
  | 0x40 => .ok (.vli f.s f.d (fImm f))
  | 0x41 => .ok (.vlih f.s f.d (fImm f))
  | 0x42 => fixed (hi2 f.a == 0 && f.b == 0) (.vbcast f.s f.d (lo6 f.a))
  | 0x43 => fixed (hi2 f.d == 0 && hi2 f.b == 0) (.vextr f.s (lo6 f.d) f.a (lo6 f.b))
  | 0x44 => .ok (.vperm f.s f.d f.a f.b)
  | 0x45 => decodeVred f
  | 0x46 => decodeVscan f
  | 0x47 => fixed (hi2 f.d == 0 && f.a.extractLsb' 3 5 == 0 && hi2 f.b == 0) (.vbal f.s (lo6 f.d) (lo3 f.a) (lo6 f.b))
  | 0x48 => .ok (.vdot4 f.s f.d f.a f.b)
  | 0x49 => .ok (.vdot2 f.s f.d f.a f.b)
  | 0x4A => fixed (f.a == 0 && f.b == 0) (.vidx f.s f.d)
  | 0x4B => fixed (f.d.extractLsb' 3 5 == 0 && f.b == 0) (.vsetp f.s (lo3 f.d) f.a)
  | 0x4C => decodePlogic f
  | 0x4D => fixed (f.a.extractLsb' 3 5 == 0 && f.b == 0) (.psetv f.s f.d (lo3 f.a))
  | 0x4E => fixed (hi2 f.d == 0 && f.a.extractLsb' 3 5 == 0 && f.b == 0) (.pcnt f.s (lo6 f.d) (lo3 f.a))
  | _ => .error .reservedOpcode

/-- FENCE (R78, R85). -/
def decodeFence (f : Fields) : Decoded :=
  need (f.d.extractLsb' 4 4 == 0 && fBase f == 0 && f.b == 0) .fieldNotFixed
    (need (f.d.extractLsb' 2 2 == fPol f) .scopeMismatch
      (let sc := scopeOf (fPol f)
       match (lo2 f.d).toNat with
       | 0 => .ok (.fenceRel f.s sc)
       | 1 => .ok (.fenceAcq f.s sc)
       | 2 => .ok (.fenceFull f.s sc)
       | _ => .ok (.fenceAcqn f.s sc)))

/-- Opcodes 0x50 to 0x6F (R89). -/
def decodeMemory (f : Fields) : Decoded :=
  let base := fBase f
  let pol := polOf (fPol f)
  let sc := scopeOf (fPol f)
  let x := fX f
  let own := pol != .own
  match f.op.toNat with
  | 0x50 => .ok (.ld f.s f.d base pol x)
  | 0x51 => .ok (.st f.s f.d base pol x)
  | 0x52 => .ok (.ld4 f.s f.d base pol x)
  | 0x53 => .ok (.st4 f.s f.d base pol x)
  | 0x54 => .ok (.lda f.s f.d base sc x)
  | 0x55 => .ok (.stl f.s f.d base sc x)
  | 0x56 => fixed (hi2 f.d == 0 && hi2 f.b == 0) (.sld f.s (lo6 f.d) base pol (lo6 f.b))
  | 0x57 => fixed (hi2 f.d == 0 && hi2 f.b == 0) (.sst f.s (lo6 f.d) base pol (lo6 f.b))
  | 0x58 => .ok (.aadd f.s f.d base pol x)
  | 0x59 => .ok (.amin f.s f.d base pol x)
  | 0x5A => .ok (.amax f.s f.d base pol x)
  | 0x5B => .ok (.aand f.s f.d base pol x)
  | 0x5C => .ok (.aor f.s f.d base pol x)
  | 0x5D => .ok (.axor f.s f.d base pol x)
  | 0x5E => .ok (.axchg f.s f.d base pol x)
  | 0x5F => .ok (.acas f.s f.d base pol x)
  | 0x60 => need own .redOwn (.ok (.redadd f.s f.d base pol x))
  | 0x61 => need own .redOwn (.ok (.redmin f.s f.d base pol x))
  | 0x62 => need own .redOwn (.ok (.redmax f.s f.d base pol x))
  | 0x63 => need own .redOwn (.ok (.redor f.s f.d base pol x))
  | 0x64 => fixed (f.d == 0 && fBase f == 0 && f.b == 0) (.pdrain f.s sc)
  | 0x65 => decodeFence f
  | 0x66 => fixed (hi2 f.d == 0 && fPol f == 0 && f.b == 0xFF) (.invr f.s (lo6 f.d) base)
  | 0x67 => fixed (hi2 f.d == 0 && fPol f == 0 && f.b == 0xFF) (.wbr f.s (lo6 f.d) base)
  | 0x68 => fixed (hi2 f.d == 0 && fPol f == 0 && f.b == 0xFF) (.ownr f.s (lo6 f.d) base)
  | 0x69 => fixed (fPol f == 0) (.spld f.s f.d base x)
  | 0x6A => fixed (fPol f == 0) (.spst f.s f.d base x)
  | 0x6B => fixed (fPol f == 0) (.spaadd f.s f.d base x)
  | 0x6C => fixed (hi2 f.d == 0 && hi2 f.a == 0 && f.b == 0) (.halloc f.s (lo6 f.d) (lo6 f.a))
  | 0x6D => fixed (f.d == 0 && hi2 f.a == 0 && hi2 f.b == 0) (.hpass f.s (lo6 f.a) (lo6 f.b))
  | 0x6E => fixed (f.d == 0 && hi2 f.a == 0 && f.b == 0) (.hfree f.s (lo6 f.a))
  | _ => .error .reservedOpcode

/-- The PRIV family (R78). TLBINV, KEYOP, CTXSW and SCRUB read their operation from a register, so the word names
the first row of each (log 10). -/
def decodePriv (f : Fields) : Decoded :=
  need (hi2 f.d == 0 && hi2 f.a == 0) .fieldNotFixed
    (let d := lo6 f.d
     let a := lo6 f.a
     match f.b.toNat with
     | 0 => .ok (.pgharv f.s d a)
     | 1 => .ok (.pgset f.s d a)
     | 2 => .ok (.tlbinvPage f.s d a)
     | 3 => .ok (.keyopAlloc f.s d a)
     | 4 => .ok (.ctxswArm f.s d a)
     | 5 => .ok (.scrub f.s d a)
     | _ => .error .reservedFunction)

/-- The copy family (R78). -/
def decodeCopy (f : Fields) : Decoded :=
  need (hi2 f.d == 0 && hi2 f.a == 0) .fieldNotFixed
    (match f.b.toNat with
     | 0 => .ok (.dcopy f.s (lo6 f.d) (lo6 f.a))
     | 1 => .ok (.dcopy2 f.s (lo6 f.d) (lo6 f.a))
     | 2 => .ok (.dfill f.s (lo6 f.d) (lo6 f.a))
     | 3 => .ok (.dgath f.s (lo6 f.d) (lo6 f.a))
     | 4 => .ok (.dgate f.s (lo6 f.d) (lo6 f.a))
     | _ => .error .reservedFunction)

/-- The collective family (R78). -/
def decodeColl (f : Fields) : Decoded :=
  need (hi2 f.d == 0 && hi2 f.a == 0) .fieldNotFixed
    (match f.b.toNat with
     | 0 => .ok (.cred f.s (lo6 f.d) (lo6 f.a))
     | 1 => .ok (.cgath f.s (lo6 f.d) (lo6 f.a))
     | 2 => .ok (.cscat f.s (lo6 f.d) (lo6 f.a))
     | 3 => .ok (.cxch f.s (lo6 f.d) (lo6 f.a))
     | _ => .error .reservedFunction)

/-- Opcodes 0x70 to 0x7F (R90). -/
def decodeEngine (f : Fields) : Decoded :=
  let sab := hi2 f.a == 0 && hi2 f.b == 0
  match f.op.toNat with
  | 0x70 => fixed sab (.mm128 f.s f.d (lo6 f.a) (lo6 f.b))
  | 0x71 => fixed sab (.mm256 f.s f.d (lo6 f.a) (lo6 f.b))
  | 0x72 => fixed sab (.mm512 f.s f.d (lo6 f.a) (lo6 f.b))
  | 0x73 => fixed sab (.mm1024 f.s f.d (lo6 f.a) (lo6 f.b))
  | 0x74 => fixed (hi2 f.d == 0 && f.a == 0 && f.b == 0) (.mbatch f.s (lo6 f.d))
  | 0x75 => fixed (f.d == 0 && hi2 f.a == 0 && f.b == 0) (.mwait f.s (lo6 f.a))
  | 0x76 => fixed (f.d == 0 && sab) (.pfl2 f.s (lo6 f.a) (lo6 f.b))
  | 0x77 => fixed (hi2 f.d == 0 && hi2 f.a == 0 && f.b.extractLsb' 2 6 == 0) (.bkload f.s (lo6 f.d) (lo6 f.a) (lo2 f.b))
  | 0x78 => fixed (hi2 f.d == 0 && hi2 f.b == 0) (.bkrun f.s (lo6 f.d) f.a (lo6 f.b))
  | 0x79 => fixed (f.d == 0 && hi2 f.a == 0 && f.b == 0) (.bkwait f.s (lo6 f.a))
  | 0x7A => fixed (f.b.extractLsb' 2 6 == 0) (.bkread f.s f.d f.a (lo2 f.b))
  | 0x7B => decodeCopy f
  | 0x7C =>
    need (hi2 f.a == 0) .fieldNotFixed
      (match f.b.toNat with
       | 0 => fixed (f.d == 0) (.dwait f.s (lo6 f.a))
       | 1 => fixed (hi2 f.d == 0) (.dpoll f.s (lo6 f.d) (lo6 f.a))
       | _ => .error .reservedFunction)
  | 0x7D => decodeColl f
  | 0x7E =>
    need (hi2 f.a == 0) .fieldNotFixed
      (match f.b.toNat with
       | 0 => fixed (f.d == 0) (.cwait f.s (lo6 f.a))
       | 1 => fixed (hi2 f.d == 0) (.cpoll f.s (lo6 f.d) (lo6 f.a))
       | _ => .error .reservedFunction)
  | _ => decodePriv f

/-- The instruction in the fields of a word, whichever unit it belongs to (R86 to R93). -/
def decodeFields (f : Fields) : Decoded :=
  if f.op.toNat < 0x20 then decodeControl f
  else if f.op.toNat < 0x30 then decodeScalar f
  else if f.op.toNat < 0x50 then decodeVector f
  else if f.op.toNat < 0x70 then decodeMemory f
  else decodeEngine f

/-- The instruction of a word. -/
def decodeWord (w : Word) : Decoded := decodeFields (fieldsOf w)

/-- Four bytes, little-endian (R70). -/
def wordOfBytes (b0 b1 b2 b3 : Byte) : Word := b3 ++ b2 ++ b1 ++ b0

/-- Decode the first instruction of a list of bytes; the rest of the list is given back. -/
def decodeBytes (bs : List Byte) : Except Reject (Instr × List Byte) :=
  match bs with
  | b0 :: b1 :: b2 :: b3 :: r => match decodeWord (wordOfBytes b0 b1 b2 b3) with | .ok i => .ok (i, r) | .error e => .error e
  | _ => .error .truncated

/-- A q or k register field of a bank unit (R93). -/
def bankReg (x : BitVec 8) : Option BReg :=
  if x.extractLsb' 2 6 = 0 then some (.q (lo2 x)) else if x.extractLsb' 3 5 = 0x10 then some (.k (lo3 x)) else none

/-- D q; A, B q or k (R93). -/
def bankDAB (f : Fields) (mk : BitVec 2 → BReg → BReg → BankOp) : Decoded :=
  match bankReg f.d, bankReg f.a, bankReg f.b with
  | some (.q d), some a, some b => .ok (.bankSubsetInstruction (mk d a b))
  | _, _, _ => .error .bankRegister

/-- The conditions of VCMP (R78). -/
def condOf (n : Nat) : Option Cond :=
  match n with
  | 0 => some .eq | 1 => some .ne | 2 => some .lt | 3 => some .le | 4 => some .gt | 5 => some .ge | _ => none

/-- VCMP in a bank unit (R93, R94). -/
def decodeBankVcmp (f : Fields) : Decoded :=
  match combOf (hi2 f.d), condOf (f.d.extractLsb' 3 3).toNat with
  | some c, some k =>
    need (f.d.getLsbD 2 == false) .bankRegister
      (match bankReg f.a, bankReg f.b with
       | some a, some b => .ok (.bankSubsetInstruction (.cmp c k (lo2 f.d) a b))
       | _, _ => .error .bankRegister)
  | _, _ => .error .reservedFunction

/-- The instruction a bank unit reads in the fields of a word (R93, R94). -/
def decodeBankFields (f : Fields) : Decoded :=
  match f.op.toNat with
  | 0x01 =>
    if f.d = 0 then need (bankModeLoOk (fImm f)) .bankMode (.ok (.bankSubsetInstruction (.modeLo (fImm f))))
    else if f.d = 1 then need (fImm f == 0) .bankMode (.ok (.bankSubsetInstruction .modeHi))
    else .error .fieldNotFixed
  | 0x04 => .ok (.bankSubsetInstruction (.bra (fOff f)))
  | 0x26 | 0x27 | 0x28 | 0x29 | 0x2A | 0x2B | 0x2C | 0x2D | 0x2E => decodeBankOnly f
  | 0x30 => bankDAB f (.alu .add)
  | 0x31 => bankDAB f (.alu .sub)
  | 0x32 => bankDAB f (.alu .mul)
  | 0x34 => bankDAB f (.alu .mad)
  | 0x35 => bankDAB f (.alu .min)
  | 0x36 => bankDAB f (.alu .max)
  | 0x37 => bankDAB f (.alu .and)
  | 0x38 => bankDAB f (.alu .or)
  | 0x39 => bankDAB f (.alu .xor)
  | 0x3A => bankDAB f (.alu .shl)
  | 0x3B => bankDAB f (.alu .shr)
  | 0x3C => bankDAB f (.alu .sra)
  | 0x3D => bankDAB f .sel
  | 0x3E => decodeBankVcmp f
  | 0x40 => need (f.d.extractLsb' 2 6 == 0) .bankRegister (.ok (.bankSubsetInstruction (.vli (lo2 f.d) (fImm f))))
  | _ => .error .notAdmitted

/-- The instruction a bank unit reads in a word. -/
def decodeBank (w : Word) : Decoded := decodeBankFields (fieldsOf w)

/-- A scalar field with its upper two bits zero. -/
def s8 (x : BitVec 6) : BitVec 8 := 0#2 ++ x
/-- A scalar field with function bits above it. -/
def fs8 (fn : BitVec 2) (x : BitVec 6) : BitVec 8 := fn ++ x
/-- A predicate or block-set field. -/
def p8 (x : BitVec 3) : BitVec 8 := 0#5 ++ x
/-- A q register or queue field. -/
def q8 (x : BitVec 2) : BitVec 8 := 0#6 ++ x
/-- A k register field (R93). -/
def k8 (x : BitVec 3) : BitVec 8 := 0x10#5 ++ x
/-- The codes of POL. -/
def polBits (p : Pol) : BitVec 2 := BitVec.ofNat 2 (Machine.polCode p)
def scopeBits (p : Scope) : BitVec 2 := BitVec.ofNat 2 (Machine.scopeCode p)
/-- BASE and POL of the M format. -/
def m8 (base : BitVec 6) (pol : BitVec 2) : BitVec 8 := base ++ pol
/-- X of the M format. -/
def x8 (x : Option (BitVec 8)) : BitVec 8 := x.getD 0xFF#8
/-- VCMP's combine code. -/
def combBits (c : Comb) : BitVec 2 := match c with | .set => 0 | .and => 1 | .or => 2
/-- A bank register field. -/
def breg8 (r : BReg) : BitVec 8 := match r with | .q n => q8 n | .k n => k8 n
def immHi (i : BitVec 16) : BitVec 8 := i.extractLsb' 8 8
def immLo (i : BitVec 16) : BitVec 8 := i.extractLsb' 0 8
def offHi (i : BitVec 24) : BitVec 8 := i.extractLsb' 16 8
def offMid (i : BitVec 24) : BitVec 8 := i.extractLsb' 8 8
def offLo (i : BitVec 24) : BitVec 8 := i.extractLsb' 0 8

/-- Z format. -/
def encZ (s : Bool) (op : BitVec 7) : Fields := ⟨s, op, 0, 0, 0⟩
/-- K format. -/
def encK (s : Bool) (op : BitVec 7) (d : BitVec 8) (i : BitVec 16) : Fields := ⟨s, op, d, immHi i, immLo i⟩
/-- J format. -/
def encJ (s : Bool) (op : BitVec 7) (o : BitVec 24) : Fields := ⟨s, op, offHi o, offMid o, offLo o⟩
/-- M format. -/
def encM (s : Bool) (op : BitVec 7) (d : BitVec 8) (base : BitVec 6) (pol : BitVec 2) (x : BitVec 8) : Fields :=
  ⟨s, op, d, m8 base pol, x⟩
/-- BRP's D field (R86). -/
def brpD (kind : BitVec 2) (neg : Bool) (p : BitVec 3) : BitVec 8 := 0#2 ++ kind ++ BitVec.ofBool neg ++ p
/-- VCMP's D field (R78). -/
def vcmpD (c : Comb) (cond : BitVec 3) (p : BitVec 3) : BitVec 8 := combBits c ++ cond ++ p
/-- Predicate logic's D field (R78). -/
def plD (fn : BitVec 3) (p : BitVec 3) : BitVec 8 := 0#2 ++ fn ++ p
/-- SCMP's D field (R78). -/
def scmpD (c : BitVec 2) (p : BitVec 3) : BitVec 8 := c ++ 0#3 ++ p
/-- FENCE's fields (R85). -/
def encFence (s : Bool) (kind : BitVec 2) (sc : Scope) : Fields :=
  ⟨s, 0x65, 0#4 ++ scopeBits sc ++ kind, m8 0 (scopeBits sc), 0⟩

/-- The codes of the conditions (R78). -/
def condCode (k : Cond) : BitVec 3 :=
  match k with | .eq => 0 | .ne => 1 | .lt => 2 | .le => 3 | .gt => 4 | .ge => 5

/-- Opcodes of the two-source operations (R88). -/
def vopCode (o : VOp) : BitVec 7 :=
  match o with
  | .add => 0x30 | .sub => 0x31 | .mul => 0x32 | .mulh => 0x33 | .mad => 0x34 | .min => 0x35 | .max => 0x36
  | .and => 0x37 | .or => 0x38 | .xor => 0x39 | .shl => 0x3A | .shr => 0x3B | .sra => 0x3C

/-- Words of the bank-unit subset (R93). -/
def encBankOp (o : BankOp) : Fields :=
  match o with
  | .alu op d a b => ⟨false, vopCode op, q8 d, breg8 a, breg8 b⟩
  | .sel d a b => ⟨false, 0x3D, q8 d, breg8 a, breg8 b⟩
  | .cmp c k q a b => ⟨false, 0x3E, vcmpD c (condCode k) (0#1 ++ q), breg8 a, breg8 b⟩
  | .vli d i => encK false 0x40 (q8 d) i
  | .bra o => encJ false 0x04 o
  | .modeLo i => encK false 0x01 0 i
  | .modeHi => encK false 0x01 1 0

/-- The fields of an instruction, from the same tables (R73 to R93); an event has none. -/
def encodeFields (i : Instr) : Option Fields :=
  match i with
  | .nop sw => some (encZ sw 0x00)
  | .modeiLo sw imm => some (encK sw 0x01 0 imm)
  | .modeiHi sw imm => some (encK sw 0x01 1 imm)
  | .mfs sw d a => some ⟨sw, 0x02, s8 d, 0#3 ++ a, 0⟩
  | .mts sw d a => some ⟨sw, 0x03, 0#3 ++ d, s8 a, 0⟩
  | .bra sw off => some (encJ sw 0x04 off)
  | .brpDiv sw neg p imm => some (encK sw 0x05 (brpD 0#2 neg p) imm)
  | .brpAny sw neg p imm => some (encK sw 0x05 (brpD 1#2 neg p) imm)
  | .brpAll sw neg p imm => some (encK sw 0x05 (brpD 2#2 neg p) imm)
  | .brpNone sw neg p imm => some (encK sw 0x05 (brpD 3#2 neg p) imm)
  | .joinat sw imm => some (encK sw 0x06 0 imm)
  | .jtab sw d a b => some ⟨sw, 0x07, s8 d, a, s8 b⟩
  | .call sw off => some (encJ sw 0x08 off)
  | .calli sw a => some ⟨sw, 0x09, 0, s8 a, 0⟩
  | .ret sw => some (encZ sw 0x0A)
  | .refill sw d p q => some ⟨sw, 0x0B, d, p8 p, q8 q⟩
  | .exit sw => some (encZ sw 0x0C)
  | .trapi sw imm => some (encK sw 0x0D 0 imm)
  | .rett sw => some (encZ sw 0x0E)
  | .yieldcCopy sw t imm => some (encK sw 0x0F (fs8 0#2 t) imm)
  | .yieldcColl sw t imm => some (encK sw 0x0F (fs8 1#2 t) imm)
  | .yieldcBank sw t imm => some (encK sw 0x0F (fs8 2#2 t) imm)
  | .yieldcMm sw t imm => some (encK sw 0x0F (fs8 3#2 t) imm)
  | .arrive sw d a => some ⟨sw, 0x10, s8 d, s8 a, 0⟩
  | .pwait sw a b => some ⟨sw, 0x11, 0, s8 a, s8 b⟩
  | .dbar sw imm => some (encK sw 0x12 0 imm)
  | .gangset sw a => some ⟨sw, 0x13, 0, s8 a, 0⟩
  | .xacq sw blk => some ⟨sw, 0x14, 0, 0, p8 blk⟩
  | .xrel sw blk => some ⟨sw, 0x15, 0, 0, p8 blk⟩
  | .hsave sw base pol => some (encM sw 0x16 0 base (polBits pol) 0xFF)
  | .hload sw base pol => some (encM sw 0x17 0 base (polBits pol) 0xFF)
  | .rflush sw => some (encZ sw 0x18)
  | .seqopen sw d a b => some ⟨sw, 0x19, s8 d, s8 a, s8 b⟩
  | .seqend sw a => some ⟨sw, 0x1A, 0, s8 a, 0⟩
  | .launch sw a => some ⟨sw, 0x1B, 0, s8 a, 0⟩
  | .signal sw a b => some ⟨sw, 0x1C, 0, s8 a, s8 b⟩
  | .ipush sw a q pos => some ⟨sw, 0x1D, 0, a, 0#3 ++ pos ++ q⟩
  | .digest sw d a => some ⟨sw, 0x1E, s8 d, s8 a, 0⟩
  | .sadd sw d a b => some ⟨sw, 0x20, fs8 0#2 d, fs8 0#2 a, fs8 0#2 b⟩
  | .ssub sw d a b => some ⟨sw, 0x20, fs8 0#2 d, fs8 0#2 a, fs8 1#2 b⟩
  | .smul sw d a b => some ⟨sw, 0x20, fs8 0#2 d, fs8 0#2 a, fs8 2#2 b⟩
  | .smulh sw d a b => some ⟨sw, 0x20, fs8 0#2 d, fs8 0#2 a, fs8 3#2 b⟩
  | .sand sw d a b => some ⟨sw, 0x20, fs8 0#2 d, fs8 1#2 a, fs8 0#2 b⟩
  | .sor sw d a b => some ⟨sw, 0x20, fs8 0#2 d, fs8 1#2 a, fs8 1#2 b⟩
  | .sxor sw d a b => some ⟨sw, 0x20, fs8 0#2 d, fs8 1#2 a, fs8 2#2 b⟩
  | .sshl sw d a b => some ⟨sw, 0x20, fs8 0#2 d, fs8 1#2 a, fs8 3#2 b⟩
  | .sshr sw d a b => some ⟨sw, 0x20, fs8 0#2 d, fs8 2#2 a, fs8 0#2 b⟩
  | .ssra sw d a b => some ⟨sw, 0x20, fs8 0#2 d, fs8 2#2 a, fs8 1#2 b⟩
  | .smin sw d a b => some ⟨sw, 0x20, fs8 0#2 d, fs8 2#2 a, fs8 2#2 b⟩
  | .smax sw d a b => some ⟨sw, 0x20, fs8 0#2 d, fs8 2#2 a, fs8 3#2 b⟩
  | .saddp sw d a b => some ⟨sw, 0x20, fs8 0#2 d, fs8 3#2 a, fs8 0#2 b⟩
  | .scmpEq sw p a b => some ⟨sw, 0x21, scmpD 0#2 p, s8 a, fs8 0#2 b⟩
  | .scmpNe sw p a b => some ⟨sw, 0x21, scmpD 0#2 p, s8 a, fs8 1#2 b⟩
  | .scmpLt sw p a b => some ⟨sw, 0x21, scmpD 0#2 p, s8 a, fs8 2#2 b⟩
  | .scmpLe sw p a b => some ⟨sw, 0x21, scmpD 0#2 p, s8 a, fs8 3#2 b⟩
  | .scmpLtn sw p a b => some ⟨sw, 0x21, scmpD 1#2 p, s8 a, fs8 0#2 b⟩
  | .scmpLen sw p a b => some ⟨sw, 0x21, scmpD 1#2 p, s8 a, fs8 1#2 b⟩
  | .saddi sw d imm => some (encK sw 0x22 (s8 d) imm)
  | .sli sw d imm => some (encK sw 0x23 (s8 d) imm)
  | .slih sw d imm => some (encK sw 0x24 (s8 d) imm)
  | .vadd sw d a b => some ⟨sw, 0x30, d, a, b⟩
  | .vsub sw d a b => some ⟨sw, 0x31, d, a, b⟩
  | .vmul sw d a b => some ⟨sw, 0x32, d, a, b⟩
  | .vmulh sw d a b => some ⟨sw, 0x33, d, a, b⟩
  | .vmad sw d a b => some ⟨sw, 0x34, d, a, b⟩
  | .vmin sw d a b => some ⟨sw, 0x35, d, a, b⟩
  | .vmax sw d a b => some ⟨sw, 0x36, d, a, b⟩
  | .vand sw d a b => some ⟨sw, 0x37, d, a, b⟩
  | .vor sw d a b => some ⟨sw, 0x38, d, a, b⟩
  | .vxor sw d a b => some ⟨sw, 0x39, d, a, b⟩
  | .vshl sw d a b => some ⟨sw, 0x3A, d, a, b⟩
  | .vshr sw d a b => some ⟨sw, 0x3B, d, a, b⟩
  | .vsra sw d a b => some ⟨sw, 0x3C, d, a, b⟩
  | .vsel sw d a b => some ⟨sw, 0x3D, d, a, b⟩
  | .vcmpEq sw comb p a b => some ⟨sw, 0x3E, vcmpD comb 0 p, a, b⟩
  | .vcmpNe sw comb p a b => some ⟨sw, 0x3E, vcmpD comb 1 p, a, b⟩
  | .vcmpLt sw comb p a b => some ⟨sw, 0x3E, vcmpD comb 2 p, a, b⟩
  | .vcmpLe sw comb p a b => some ⟨sw, 0x3E, vcmpD comb 3 p, a, b⟩
  | .vcmpGt sw comb p a b => some ⟨sw, 0x3E, vcmpD comb 4 p, a, b⟩
  | .vcmpGe sw comb p a b => some ⟨sw, 0x3E, vcmpD comb 5 p, a, b⟩
  | .vcvt sw d a => some ⟨sw, 0x3F, d, a, 0⟩
  | .vabs sw d a => some ⟨sw, 0x3F, d, a, 1⟩
  | .vneg sw d a => some ⟨sw, 0x3F, d, a, 2⟩
  | .vnot sw d a => some ⟨sw, 0x3F, d, a, 3⟩
  | .vclz sw d a => some ⟨sw, 0x3F, d, a, 4⟩
  | .vpopc sw d a => some ⟨sw, 0x3F, d, a, 5⟩
  | .vrcp sw d a => some ⟨sw, 0x3F, d, a, 6⟩
  | .vrsq sw d a => some ⟨sw, 0x3F, d, a, 7⟩
  | .vsqrt sw d a => some ⟨sw, 0x3F, d, a, 8⟩
  | .vexp2 sw d a => some ⟨sw, 0x3F, d, a, 9⟩
  | .vlog2 sw d a => some ⟨sw, 0x3F, d, a, 10⟩
  | .vtanh sw d a => some ⟨sw, 0x3F, d, a, 11⟩
  | .vli sw d imm => some (encK sw 0x40 d imm)
  | .vlih sw d imm => some (encK sw 0x41 d imm)
  | .vbcast sw d a => some ⟨sw, 0x42, d, s8 a, 0⟩
  | .vextr sw d a b => some ⟨sw, 0x43, s8 d, a, s8 b⟩
  | .vperm sw d a b => some ⟨sw, 0x44, d, a, b⟩
  | .vredAdd sw d a => some ⟨sw, 0x45, s8 d, a, 0⟩
  | .vredMin sw d a => some ⟨sw, 0x45, s8 d, a, 1⟩
  | .vredMax sw d a => some ⟨sw, 0x45, s8 d, a, 2⟩
  | .vredAnd sw d a => some ⟨sw, 0x45, s8 d, a, 3⟩
  | .vredOr sw d a => some ⟨sw, 0x45, s8 d, a, 4⟩
  | .vredXor sw d a => some ⟨sw, 0x45, s8 d, a, 5⟩
  | .vscanAdd sw d a => some ⟨sw, 0x46, d, a, 0⟩
  | .vscanMin sw d a => some ⟨sw, 0x46, d, a, 1⟩
  | .vscanMax sw d a => some ⟨sw, 0x46, d, a, 2⟩
  | .vscanAnd sw d a => some ⟨sw, 0x46, d, a, 3⟩
  | .vscanOr sw d a => some ⟨sw, 0x46, d, a, 4⟩
  | .vscanXor sw d a => some ⟨sw, 0x46, d, a, 5⟩
  | .vbal sw d p b => some ⟨sw, 0x47, s8 d, p8 p, s8 b⟩
  | .vdot4 sw d a b => some ⟨sw, 0x48, d, a, b⟩
  | .vdot2 sw d a b => some ⟨sw, 0x49, d, a, b⟩
  | .vidx sw d => some ⟨sw, 0x4A, d, 0, 0⟩
  | .vsetp sw p a => some ⟨sw, 0x4B, p8 p, a, 0⟩
  | .pland sw d a b => some ⟨sw, 0x4C, plD 0 d, p8 a, p8 b⟩
  | .plor sw d a b => some ⟨sw, 0x4C, plD 1 d, p8 a, p8 b⟩
  | .plxor sw d a b => some ⟨sw, 0x4C, plD 2 d, p8 a, p8 b⟩
  | .plnot sw d a => some ⟨sw, 0x4C, plD 3 d, p8 a, 0⟩
  | .psetv sw d p => some ⟨sw, 0x4D, d, p8 p, 0⟩
  | .pcnt sw d p => some ⟨sw, 0x4E, s8 d, p8 p, 0⟩
  | .ld sw d base pol x => some (encM sw 0x50 d base (polBits pol) (x8 x))
  | .st sw d base pol x => some (encM sw 0x51 d base (polBits pol) (x8 x))
  | .ld4 sw d base pol x => some (encM sw 0x52 d base (polBits pol) (x8 x))
  | .st4 sw d base pol x => some (encM sw 0x53 d base (polBits pol) (x8 x))
  | .lda sw d base scope x => some (encM sw 0x54 d base (scopeBits scope) (x8 x))
  | .stl sw d base scope x => some (encM sw 0x55 d base (scopeBits scope) (x8 x))
  | .sld sw d base pol x => some (encM sw 0x56 (s8 d) base (polBits pol) (s8 x))
  | .sst sw d base pol x => some (encM sw 0x57 (s8 d) base (polBits pol) (s8 x))
  | .aadd sw d base pol x => some (encM sw 0x58 d base (polBits pol) (x8 x))
  | .amin sw d base pol x => some (encM sw 0x59 d base (polBits pol) (x8 x))
  | .amax sw d base pol x => some (encM sw 0x5A d base (polBits pol) (x8 x))
  | .aand sw d base pol x => some (encM sw 0x5B d base (polBits pol) (x8 x))
  | .aor sw d base pol x => some (encM sw 0x5C d base (polBits pol) (x8 x))
  | .axor sw d base pol x => some (encM sw 0x5D d base (polBits pol) (x8 x))
  | .axchg sw d base pol x => some (encM sw 0x5E d base (polBits pol) (x8 x))
  | .acas sw d base pol x => some (encM sw 0x5F d base (polBits pol) (x8 x))
  | .redadd sw d base pol x => some (encM sw 0x60 d base (polBits pol) (x8 x))
  | .redmin sw d base pol x => some (encM sw 0x61 d base (polBits pol) (x8 x))
  | .redmax sw d base pol x => some (encM sw 0x62 d base (polBits pol) (x8 x))
  | .redor sw d base pol x => some (encM sw 0x63 d base (polBits pol) (x8 x))
  | .pdrain sw scope => some (encM sw 0x64 0 0 (scopeBits scope) 0)
  | .fenceRel sw scope => some (encFence sw 0#2 scope)
  | .fenceAcq sw scope => some (encFence sw 1#2 scope)
  | .fenceFull sw scope => some (encFence sw 2#2 scope)
  | .fenceAcqn sw scope => some (encFence sw 3#2 scope)
  | .invr sw d base => some (encM sw 0x66 (s8 d) base 0 0xFF)
  | .wbr sw d base => some (encM sw 0x67 (s8 d) base 0 0xFF)
  | .ownr sw d base => some (encM sw 0x68 (s8 d) base 0 0xFF)
  | .spld sw d base x => some (encM sw 0x69 d base 0 (x8 x))
  | .spst sw d base x => some (encM sw 0x6A d base 0 (x8 x))
  | .spaadd sw d base x => some (encM sw 0x6B d base 0 (x8 x))
  | .halloc sw d a => some ⟨sw, 0x6C, s8 d, s8 a, 0⟩
  | .hpass sw a b => some ⟨sw, 0x6D, 0, s8 a, s8 b⟩
  | .hfree sw a => some ⟨sw, 0x6E, 0, s8 a, 0⟩
  | .mm128 sw d a b => some ⟨sw, 0x70, d, s8 a, s8 b⟩
  | .mm256 sw d a b => some ⟨sw, 0x71, d, s8 a, s8 b⟩
  | .mm512 sw d a b => some ⟨sw, 0x72, d, s8 a, s8 b⟩
  | .mm1024 sw d a b => some ⟨sw, 0x73, d, s8 a, s8 b⟩
  | .mbatch sw d => some ⟨sw, 0x74, s8 d, 0, 0⟩
  | .mwait sw a => some ⟨sw, 0x75, 0, s8 a, 0⟩
  | .pfl2 sw a b => some ⟨sw, 0x76, 0, s8 a, s8 b⟩
  | .bkload sw d a slot => some ⟨sw, 0x77, s8 d, s8 a, q8 slot⟩
  | .bkrun sw d a b => some ⟨sw, 0x78, s8 d, a, s8 b⟩
  | .bkwait sw a => some ⟨sw, 0x79, 0, s8 a, 0⟩
  | .bkread sw d a q => some ⟨sw, 0x7A, d, a, q8 q⟩
  | .dcopy sw d a => some ⟨sw, 0x7B, s8 d, s8 a, 0⟩
  | .dcopy2 sw d a => some ⟨sw, 0x7B, s8 d, s8 a, 1⟩
  | .dfill sw d a => some ⟨sw, 0x7B, s8 d, s8 a, 2⟩
  | .dgath sw d a => some ⟨sw, 0x7B, s8 d, s8 a, 3⟩
  | .dgate sw d a => some ⟨sw, 0x7B, s8 d, s8 a, 4⟩
  | .dwait sw a => some ⟨sw, 0x7C, 0, s8 a, 0⟩
  | .dpoll sw d a => some ⟨sw, 0x7C, s8 d, s8 a, 1⟩
  | .cred sw d a => some ⟨sw, 0x7D, s8 d, s8 a, 0⟩
  | .cgath sw d a => some ⟨sw, 0x7D, s8 d, s8 a, 1⟩
  | .cscat sw d a => some ⟨sw, 0x7D, s8 d, s8 a, 2⟩
  | .cxch sw d a => some ⟨sw, 0x7D, s8 d, s8 a, 3⟩
  | .cwait sw a => some ⟨sw, 0x7E, 0, s8 a, 0⟩
  | .cpoll sw d a => some ⟨sw, 0x7E, s8 d, s8 a, 1⟩
  | .pgharv sw d a => some ⟨sw, 0x7F, s8 d, s8 a, 0⟩
  | .pgset sw d a => some ⟨sw, 0x7F, s8 d, s8 a, 1⟩
  | .tlbinvPage sw d a => some ⟨sw, 0x7F, s8 d, s8 a, 2⟩
  | .tlbinvContext sw d a => some ⟨sw, 0x7F, s8 d, s8 a, 2⟩
  | .keyopAlloc sw d a => some ⟨sw, 0x7F, s8 d, s8 a, 3⟩
  | .keyopDestroy sw d a => some ⟨sw, 0x7F, s8 d, s8 a, 3⟩
  | .keyopRotate sw d a => some ⟨sw, 0x7F, s8 d, s8 a, 3⟩
  | .keyopStatus sw d a => some ⟨sw, 0x7F, s8 d, s8 a, 3⟩
  | .keyopRelease sw d a => some ⟨sw, 0x7F, s8 d, s8 a, 3⟩
  | .ctxswArm sw d a => some ⟨sw, 0x7F, s8 d, s8 a, 4⟩
  | .ctxswCancel sw d a => some ⟨sw, 0x7F, s8 d, s8 a, 4⟩
  | .scrub sw d a => some ⟨sw, 0x7F, s8 d, s8 a, 5⟩
  | .scrubPoll sw d a => some ⟨sw, 0x7F, s8 d, s8 a, 5⟩
  | .rowld sw d k => some ⟨sw, 0x26, q8 d, k8 k, 0⟩
  | .rowst sw a k => some ⟨sw, 0x27, 0, q8 a, k8 k⟩
  | .bfpadd sw d a => some ⟨sw, 0x28, q8 d, q8 a, 0⟩
  | .bsmac sw d a k => some ⟨sw, 0x29, q8 d, q8 a, k8 k⟩
  | .mpush sw a => some ⟨sw, 0x2A, 0, q8 a, 0⟩
  | .mpop sw => some (encZ sw 0x2B)
  | .mflip sw => some (encZ sw 0x2C)
  | .bkend sw => some (encZ sw 0x2D)
  | .bfpout sw d a => some ⟨sw, 0x2E, q8 d, q8 a, 0⟩
  | .bankSubsetInstruction o => some (encBankOp o)
  | .issueOpportunity _ => none
  | .splitRestore _ _ => none
  | .spinDemotion _ _ => none
  | .demotionEnd _ _ => none
  | .nodeOpen _ => none
  | .drovePlacement _ => none
  | .lineClearDone _ => none
  | .xacqGrant _ => none
  | .registerLineFill _ _ => none
  | .longLatencyReturn _ _ _ _ => none
  | .teamRetire _ => none
  | .nodeCompletion _ _ => none
  | .entryArm _ _ => none
  | .entryDecrement _ _ _ => none
  | .nodeReleaseArm _ _ => none
  | .nodeReleaseDecrement _ _ => none
  | .policyReload _ => none
  | .hostRegisterWrite _ _ _ => none
  | .watchdog _ _ => none
  | .droveEviction _ => none
  | .gangSwitch _ => none
  | .contextHalt _ => none
  | .haltFinish _ => none
  | .remoteHaltFlit _ _ => none
  | .pageFaultService _ _ _ => none
  | .translationWalk _ _ _ _ => none
  | .placeOfEffectAccess _ => none
  | .ownRegistration _ _ _ => none
  | .forwardedRead _ _ _ => none
  | .registeredWriteback _ _ _ _ => none
  | .nmuUpdate _ => none
  | .drayChunk _ _ => none
  | .tileFetchLine _ => none
  | .tensorStep _ => none
  | .bankRunArrival _ => none
  | .bkloadDelivery _ => none
  | .bankRunAdmit _ => none
  | .ordinaryRequestArrival _ _ _ _ => none
  | .bankRowBoundary _ => none
  | .refreshDue _ => none
  | .collChunkSend _ _ => none
  | .collChunkReceive _ _ _ => none
  | .collAck _ _ _ => none
  | .collNack _ _ _ => none
  | .rxRegionExpiry _ => none
  | .remoteRequest _ => none
  | .remoteFaultCompletion _ => none
  | .remoteTimeout _ => none
  | .ckptAdvisory _ _ => none
  | .correctedError _ => none
  | .uncorrectableError _ => none
  | .coachFailure _ => none
  | .trainLend _ _ => none
  | .trainReclaim _ _ => none
  | .reclaimDrainDone _ => none
  | .reclaimDeadline _ => none
  | .seqopenService _ _ => none
  | .seqendEndInstant _ _ => none
  | .keySlotFree _ => none
  | .reencryptBlock _ _ => none
  | .scrubRow _ => none
  | .migrationBlockMove _ => none
  | .hostHotReset => none
  | .hostLinkDown => none
  | .cxlLinkDown => none
  | .ectoupPortDown _ => none
  | .timeSyncFlit _ => none
  | .tsyncLost => none
  | .tsyncRecovered => none
  | .powerUp => none
  | .firmwareStagingWrite _ _ => none
  | .bootGo => none
  | .bootVerifyDone => none
  | .bootDeriveDone => none
  | .thermalHalt => none
  | .thermalRecovery => none
  | .clockStep _ => none
  | .mgmtReadCounters => none
  | .mgmtClearCounters => none
  | .mgmtReadThresholds => none
  | .mgmtWriteThresholds _ _ _ => none
  | .mgmtReadPower => none
  | .mgmtSetPowerCap _ => none
  | .mgmtReadStatus => none
  | .mgmtReclaim _ => none
  | .mgmtReclaimForce _ => none
  | .spdmGetVersion => none
  | .spdmGetCapabilities => none
  | .spdmNegotiateAlgorithms => none
  | .spdmGetDigests => none
  | .spdmGetCertificate => none
  | .spdmGetMeasurements => none
  | .spdmKeyExchange => none
  | .spdmFinish _ => none
  | .spdmHeartbeat _ => none
  | .spdmKeyUpdate _ => none
  | .spdmEndSession _ => none
  | .tdispLock _ => none
  | .tdispReport _ => none
  | .tdispStart _ => none
  | .tdispStop _ => none
  | .engineFailure _ => none
  | .ectoupPortUp _ => none
  | .hostLinkUp => none
  | .switchArmReceived _ => none
  | .switchArmAcknowledgement _ _ => none
  | .switchArmTimeout _ => none
  | .sliceAssignment _ _ => none
  | .sliceDrainStart _ => none
  | .contextCreation _ => none
  | .contextDestruction _ => none

/-- The word of an instruction. -/
def encode (i : Instr) : Option Word := (encodeFields i).map wordOf

/-- The bytes of a word in memory (R70). -/
def bytesOf (w : Word) : List Byte := [w.extractLsb' 0 8, w.extractLsb' 8 8, w.extractLsb' 16 8, w.extractLsb' 24 8]

/-- What the decoder reads from a table word: every instruction is one 32-bit word (R70). -/
def decodeTableWord (nbits w : Nat) : Option Instr :=
  match decodeBytes (bytesOf (BitVec.ofNat 32 (w % 2 ^ nbits))) with
  | .ok (i, _) => some i
  | .error _ => none

end Sys2Proof
end

