-- ==== Sys2Proof/Machine/Operands.lean ====
section
/-! DEFINITION. Operand forms and the issue of one instruction on a coach: the register and MODE fields an
instruction uses, the checks of spec/03 R77 tiers 2 to 4 and R83, the hold of spec/04 R124, register lines that are
FILLING (R116), per-lane addresses (R89), and what follows the instruction (R40, R122, R138, R286). -/
namespace Sys2Proof.Machine

/-- The MODE fields an instruction uses and the types it accepts (R83, R418 and the entries). -/
inductive ModeUse
  /-- none -/
  | off
  /-- GP and GN -/
  | guard
  /-- ET, RM, SAT, FTZ, GP, GN; the types listed in `ok` -/
  | num (ok : ET → Bool)
  /-- ET and CVS, RM, SAT, FTZ, GP, GN (R137) -/
  | cvt
  /-- ET, GP, GN, and FTZ for the atomics -/
  | mem (ok : ET → Bool)
  /-- ETA, ETB, MXS -/
  | mat

/-- What an instruction uses: vector registers read and written, scalars, predicates and specials written, MODE
fields, and whether its register fields are legal (R75). -/
structure Uses where
  vr : List Nat := []
  vw : List Nat := []
  sw : List Nat := []
  pw : List Nat := []
  spec : List Nat := []
  mode : ModeUse := .off
  regOk : Bool := true
  /-- lanes whose registers are written at once, among the active ones; none: those that pass the guard (R65) -/
  wrote : Option LaneMask := none

/-- R147's pairing rule: formats of one width class; without MXS, integers with integers only. -/
def mfmtPair (mxs : Bool) (a b : MFmt) : Bool := mfmtK a == mfmtK b && (mxs || mfmtInt a == mfmtInt b)

/-- R83: MODE is usable. -/
def modeOk (u : ModeUse) (m : Word) : Bool :=
  match u with
  | .off => true
  | .guard => !modeReserved m
  | .num ok => !modeReserved m && (modeRm m).isSome && ok (modeEt m)
  | .cvt => !modeReserved m && (modeRm m).isSome && etElems (modeEt m) == etElems (modeCvs m)
  | .mem ok => !modeReserved m && ok (modeEt m)
  | .mat =>
    !modeReserved m &&
    (match modeEta m, modeEtb m with
     | some a, some b => mfmtPair (modeMxs m) a b && !(modeMxs m && (mfmtNoMxs a || mfmtNoMxs b))
     | _, _ => false)

/-- Mask words of a team, m = W / 32 (R105). -/
def Team.m (t : Team) : Nat := t.w / 32

/-- The extended blocks a team holds cover this register (R105). -/
def Team.holds (t : Team) (r : Nat) : Bool :=
  if r < 32 then true
  else if r < 64 then t.xblk.getLsbD 0
  else if r < 128 then t.xblk.getLsbD 1
  else t.xblk.getLsbD 2

/-- Image lines of a vector register (R109). -/
def Team.linesOfReg (t : Team) (r : Nat) : List Nat :=
  let lo := r * t.m / 32
  let hi := (r * t.m + t.m - 1) / 32
  (List.range (hi + 1 - lo)).map (· + lo)

/-- Some line of the register is FILLING (R116). -/
def Team.filling (t : Team) (r : Nat) : Bool :=
  (t.linesOfReg r).any (fun j => t.lines.any (fun l => l.line == j && l.st == .filling))

/-- A group of `n` registers from r. -/
def regGroup (r n : Nat) : List Nat := (List.range n).map (r + ·)

/-- The registers of one operand of an element type (R127). -/
def etRegs (t : ET) (r : Nat) : List Nat := if et64 t then [r, r + 1] else [r]

/-- Legal operand number for a type: even when it is 64-bit (R75). -/
def etEven (t : ET) (r : Nat) : Bool := !et64 t || r % 2 == 0

/-- R124: some register this instruction writes has a pending write: in a lane of the issuing split, or a scalar of
any split. -/
def writeHeld (t : Team) (x : Split) (u : Uses) : Bool :=
  t.pending.any (fun p =>
    match p.dest with
    | .vec b n => u.vw.any (fun r => decide (b ≤ r) && decide (r < b + n)) && p.lanes.any (fun l => x.mask.getLsbD l.1)
    | .scal b n => (regGroup b n).any u.sw.contains && !p.lanes.isEmpty
    | .word _ | .ack => false)

/-- The issue of an instruction: its team, its split, the word and its address. -/
structure Issue where
  tid : Nat
  uid : Nat
  t : Team
  x : Split
  word : Word

/-- The full PC (R71). -/
def Issue.fullPc (c : Issue) : DWord := c.t.codeHi ++ c.x.pc
/-- MODE of the issuing split. -/
def Issue.mode (c : Issue) : Word := c.x.mode
/-- ET of the issuing split. -/
def Issue.et (c : Issue) : ET := modeEt c.x.mode
/-- Active lanes that pass the guard (R65). -/
def Issue.guarded (c : Issue) : LaneMask := c.x.mask &&& guardMask c.t c.x.mode
/-- The same as a list, ascending. -/
def Issue.lanes (c : Issue) : List Nat := lanesOf c.t.w c.guarded
/-- Active lanes, ascending. -/
def Issue.active (c : Issue) : List Nat := lanesOf c.t.w c.x.mask

/-- A cause whose TINFO is the instruction word and whose TADDR is the PC (R291). -/
def Issue.trapWord (c : Issue) (k : Cause) : Res := .trap k c.word c.fullPc
/-- A cause with its own TINFO, at the PC. -/
def Issue.trapInfo (c : Issue) (k : Cause) (i : Word) : Res := .trap k i c.fullPc

/-- Replace the issuing team. -/
def Issue.put (c : Issue) (s : State) (t : Team) : State := s.setTeam c.tid t

/-- Checks of tiers 3 and 4 (R77): ILLEGAL_REG for illegal fields and blocks not held (R75), MODE_INVALID (R83). -/
def staticTrap (c : Issue) (u : Uses) : Option Res :=
  if !u.regOk || !(u.vr ++ u.vw).all c.t.holds then some (c.trapWord .illegalReg)
  else if !modeOk u.mode c.x.mode then some (c.trapInfo .modeInvalid c.x.mode)
  else none

/-- Registers a waiting instruction names: vectors by number, scalars as 256 + n. -/
def Uses.regs (u : Uses) : List Nat := u.vw ++ u.sw.map (256 + ·)

/-- The last value that reaches a register lane: that of the newest pending write, which another device or a bank may still
hold, else the register's. -/
def settledValue (t : Team) (r L : Nat) : WrittenVal :=
  let b (d : Dest) : Nat := match d with | .vec b _ => b | .scal b _ => 256 + b | .word _ | .ack => 0
  t.pending.foldl (fun a p =>
      if pendingHits p r L then
        match p.remote, pendingValue p r L with
        | some id, _ => .await id L (r - b p.dest)
        | none, some v => .val v.toNat
        | none, none => a
      else a)
    (.val (if r < 256 then (t.v r L).toNat else (t.s (r - 256)).toNat))

/-- The value of a special that an instruction writes (R95, R286). -/
def specialWritten (t : Team) (x : Split) (n : Nat) : Nat :=
  match n with
  | 0x00 => x.mode.toNat
  | 0x0B => t.tvec.toNat
  | 0x0C => t.tpc.toNat
  | 0x11 => t.gang.foldl (fun a g => 8192 * a + g + 1) 0
  | 0x12 => t.tsa.toNat
  | 0x13 => t.tsb.toNat
  | 0x14 => t.tsca.toNat
  | 0x15 => t.tscb.toNat
  | 0x16 => t.events.toNat
  | 0x17 => t.evmask.toNat
  | 0x18 => t.seed.toNat
  | _ => t.xblk.toNat

/-- The mode says that the guard limits what is written (R65). -/
def ModeUse.guards : ModeUse → Bool
  | .off | .mat => false
  | .guard | .num _ | .cvt | .mem _ => true

/-- The active lanes that an instruction writes, at once or when its values land (R65, R286). -/
def Uses.written (u : Uses) (t : Team) (x : Split) : LaneMask :=
  let byMode := if u.mode.guards then guardMask t x.mode else BitVec.allOnes 1024
  x.mask &&& (match u.wrote with | some m => if m == 0 then byMode else m | none => byMode)

/-- What the instruction wrote in the lanes `m`, for the spin detector (R286). -/
def writtenValues (t : Team) (x : Split) (m : LaneMask) (u : Uses) : List WrittenVal :=
  u.vw.flatMap (fun r => (lanesOf t.w m).map (settledValue t r)) ++
  u.sw.map (fun r => settledValue t (256 + r) 0) ++
  u.pw.map (fun n => .val (t.p n &&& m).toNat) ++
  u.spec.map (fun n => .val (specialWritten t x n))

/-- The PC lies in the range of a loop. -/
def inLoop (pc lo hi : Word) : Bool := decide (lo ≤ pc) && decide (pc ≤ hi)

/-- A demotion ends when the PC has left the demoted loop (R287). -/
def leaveDemotion (t : Team) (y : Split) : Split :=
  match y.demoted with
  | some d => if inLoop y.pc d.lo d.hi then y else { undemote t.issues y with spin := spinRestart y.spin }
  | none => y

/-- Log the writes of an instruction at `pc`: in the watched loop, whose watch ends when the PC has left it, else as one of the
last 15, the most that a loop has before its branch (R286). -/
def noteWrites (pc : Word) (m : LaneMask) (u : Uses) (t : Team) (y : Split) : Split :=
  let r : WriteRec := ⟨pc, writtenValues t y m u⟩
  match y.spin with
  | none => { y with spin := some ⟨0, 0, 0, [r], none, none, false, false⟩ }
  | some sp =>
    if !sp.watching then { y with spin := some { sp with cur := (sp.cur ++ [r]).drop (sp.cur.length - 14) } }
    else if inLoop y.pc sp.target sp.branch then { y with spin := some { sp with cur := sp.cur ++ [r] } }
    else { y with spin := none }

/-- What the spin detector does after an instruction that wrote the lanes `m` (R286, R287). -/
def spinLog (s : State) (tid uid : Nat) (pc : Word) (m : LaneMask) (u : Uses) : State :=
  s.modTeam tid (fun t => t.modSplit uid (fun y => noteWrites pc m u t (leaveDemotion t y)))

/-- The lanes whose registers the instruction writes at once. -/
def Uses.lanes (u : Uses) (t : Team) (x : Split) : LaneMask := x.mask &&& (u.wrote.getD (guardMask t x.mode))

/-- R116, R121: a result for a line that is FILLING merges when the line arrives; until then it is a pending long-latency
write, in every lane written. -/
def deferFilling (old new : Team) (x : Split) (u : Uses) : Team :=
  (u.vw.filter old.filling).foldl (fun t r =>
    let ls := (lanesOf t.w x.mask).filter (fun L => (u.lanes old x).getLsbD L || new.v r L != old.v r L)
    if ls.isEmpty then t
    else
      let t := ls.foldl (fun a L => a.setV r L (old.v r L)) t
      { t with pending := t.pending ++ [⟨[x.uid], [], .vec r 1, ls.map (fun L => (L, [new.v r L])), none, false⟩] }) new

/-- The instruction reads or writes an accumulator in flight and is no matrix instruction: a program error (R220). -/
def touchesInFlight (c : Issue) (u : Uses) : Bool :=
  (match u.mode with | .mat => false | _ => true) && (u.vr ++ u.vw).any c.t.inFlight

/-- R9: every register that the use touches as a destination holds a free value (log 6). -/
def spoil (c : Issue) (u : Uses) (s : State) : State :=
  s.modTeam c.tid (fun t =>
    let ls := lanesOf t.w (c.x.mask &&& (u.wrote.getD 0 ||| guardMask c.t c.x.mode))
    let free (p : Pending) : Pending :=
      { p with lanes := p.lanes.map (fun l => (l.1, l.2.zipIdx.map (fun v => Config.freeWord s.free (4096 + v.2) l.1))) }
    let t := u.vw.foldl (fun t r => ls.foldl (fun t L => t.setV r L (Config.freeWord s.free (2048 + r) L)) t) t
    let t := u.sw.foldl (fun t r => t.setS r (Config.freeWord s.free 3072 r)) t
    let t := u.pw.foldl (fun t n =>
      t.mergeP n c.x.mask (maskOf t.w (fun L => Config.freeBit s.free (2 ^ 20 * (n + 1) + L)))) t
    { t with pending := t.pending.take c.t.pending.length ++ (t.pending.drop c.t.pending.length).map free })

/-- The instruction's effect on the state, with R116 applied to what it wrote. -/
def resMap (f : State → State) (r : Res) : Res :=
  match r with
  | .next s => .next (f s)
  | .goto s pc => .goto (f s) pc
  | .park s ws => .park (f s) ws
  | .done s => .done (f s)
  | .fault s => .fault (f s)
  | r => r

/-- R9 and R220, then R116, on a result. -/
def deferRes (c : Issue) (u : Uses) (r : Res) : Res :=
  let r := if touchesInFlight c u then resMap (spoil c u) r else r
  if u.vw.any c.t.filling then
    resMap (fun s => s.modTeam c.tid (fun t => deferFilling c.t t c.x u)) r
  else r

/-- The answer of an instruction after its static checks: held for a pending write (R124), parked for a FILLING
line (R116), or its own effect. -/
def checked (c : Issue) (u : Uses) (s : State) (body : Issue → Res) : Res :=
  match staticTrap c u with
  | some r => r
  | none =>
    if writeHeld c.t c.x u then .hold (.regs u.regs)
    else if u.vr.any c.t.filling then
      .fault (s.modTeam c.tid (fun t => { t.modSplit c.uid (fun x =>
        { x with waits := [.fill (u.vr.filter c.t.filling)], parkedAt := s.clk.cycle.toNat }) with parked := true }))
    else deferRes c u (body c)

/-- The image lines of written registers are dirty (R113). -/
def markDirty (t : Team) (rs : List Nat) : Team :=
  if rs.isEmpty then t
  else
    let js := rs.flatMap t.linesOfReg
    { t with lines := t.lines.map (fun l => if js.contains l.line then { l with dirty := true } else l) }

/-- What follows an instruction that took effect: the spin detector's note and the dirty lines; one that only parked
on a page fault may have written lanes; one that was held or trapped has done nothing. -/
def afterIssue (c : Issue) (u : Uses) (r : Res) (s : State) : State :=
  match r with
  | .next _ | .goto _ _ | .park _ _ | .done _ =>
    (spinLog s c.tid c.uid c.x.pc (u.written c.t c.x) u).modTeam c.tid (fun t => markDirty t u.vw)
  | .fault _ => s.modTeam c.tid (fun t => markDirty t u.vw)
  | .trap _ _ _ | .hold _ | .refuse _ => s

/-- Issue an instruction of the split that has been chosen (R14, R77): `priv` marks the PRIV family (tier 2), `cost`
its issue cycles (R40). -/
def issueAs (priv : Bool) (i : Instr) (sw : Bool) (u : Issue → Uses) (cost : Issue → Nat) (s : State)
    (body : Issue → Res) : Host.Outcome State Fault Refusal :=
  match s.cur with
  | .split tid uid =>
    match s.team tid with
    | none => .fault .noIssuingSplit
    | some t =>
      match t.split uid with
      | none => .fault .noIssuingSplit
      | some x =>
        let c : Issue := ⟨tid, uid, t, x, (encode i).getD 0⟩
        let r := if priv && !t.sys then c.trapWord .priv else checked c (u c) s body
        match finish s tid uid x.pc sw (cost c) r with
        | .next s' => .next (afterIssue c (u c) r s')
        | o => o
  | _ => .fault .noIssuingSplit

/-- One issue cycle (R40). -/
def oneCycle (_ : Issue) : Nat := 1
/-- One cycle for each non-empty mask word (R40). -/
def passCost (c : Issue) : Nat := passes c.x.mask

/-- A scalar, control, engine or wait instruction: one cycle, no vector register (R40, R83). -/
def issueCtl (i : Instr) (sw : Bool) (sws : List Nat) (s : State) (body : Issue → Res) :
    Host.Outcome State Fault Refusal :=
  issueAs false i sw (fun _ => { sw := sws, regOk := wellFormed i }) oneCycle s body

/-- A vector instruction (R40). -/
def issueVec (i : Instr) (sw : Bool) (u : ET → Uses) (s : State) (body : Issue → Res) :
    Host.Outcome State Fault Refusal :=
  issueAs false i sw (fun c => u c.et) passCost s body

-- ## addresses

/-- A lane's index value, zero without an index register (R89). -/
def laneIndex (s : State) (t : Team) (x : Option (BitVec 8)) (L : Nat) : Word :=
  match x with | some r => s.rv t r.toNat L | none => 0

/-- spair(BASE) + zext(v[X][L]) (R89). -/
def laneAddr (s : State) (t : Team) (base : BitVec 6) (x : Option (BitVec 8)) (L : Nat) : DWord :=
  s.rpair t base.toNat + (laneIndex s t x L).setWidth 64

/-- s[BASE] + v[X][L] modulo 2^32: a scratchpad address (R89, R179). -/
def spadAddr (s : State) (t : Team) (base : BitVec 6) (x : Option (BitVec 8)) (L : Nat) : Word :=
  s.rs t base.toNat + laneIndex s t x L

/-- spair(BASE) + zext(s[X]) (R89). -/
def scalarAddr (s : State) (t : Team) (base x : BitVec 6) : DWord :=
  s.rpair t base.toNat + (s.rs t x.toNat).setWidth 64

/-- J- and K-format targets (R74). -/
def targetJ (pc : Word) (off : BitVec 24) : Word := pc + (off.signExtend 32 <<< 2)
def targetK (pc : Word) (imm : BitVec 16) : Word := pc + (imm.signExtend 32 <<< 2)

/-- How lane L of this instruction rounds (R83, R139): one rounding word per element under STOCH. -/
def Issue.num (c : Issue) (L : Nat) : NumMode :=
  let rm := (modeRm c.mode).getD .rne
  let us := if rm == .stoch then
      (List.range (etElems c.et)).map (fun e =>
        (roundingWord [c.t.seed, BitVec.ofNat 32 c.t.node, BitVec.ofNat 32 c.t.droveId,
          BitVec.ofNat 32 (1024 * c.t.teamId + L), c.x.icount, BitVec.ofNat 32 e]).toNat)
    else []
  ⟨c.et, rm, modeSat c.mode, modeFtz c.mode, us⟩

end Sys2Proof.Machine
end

