-- ==== Sys2Proof/Machine/Lanes.lean ====
section
/-! DEFINITION. Per-lane memory access: the checks of spec/06 R176 steps 1 to 4, the lanes served one after another with
page faults and replay (R177), partition-window requests (R159), what lands and when (spec/04 R121, R123), and the
scratchpad with its handles and barrier words (R179 to R181). -/
namespace Sys2Proof.Machine

-- ## range locks (R203)

/-- Two ranges share a byte. -/
def overlaps (a n b m : Nat) : Bool := decide (a < b + m) && decide (b < a + n) && n != 0 && m != 0

/-- A team access to [va, va + w) meets the table: a read a destination range, a write any range (R203). -/
def lockHit (s : State) (ctx va w : Nat) (write : Bool) : Bool :=
  s.locks.any (fun l => l.ctx == ctx && l.spad.isNone && (write || l.dst) && overlaps va w l.lo l.len)

/-- The same against scratchpad entries of the drove. -/
def spadLockHit (s : State) (ctx drove sa w : Nat) (write : Bool) : Bool :=
  s.locks.any (fun l => l.ctx == ctx && l.spad == some drove && (write || l.dst) && overlaps sa w l.lo l.len)

-- ## releases

/-- R188, R190: every earlier read in the split's program order has landed, and for a wide scope every remote write is acknowledged. The
split's writes on this device take effect as they issue (log 8). -/
def released (t : Team) (uid : Nat) (remote : Bool) : Bool :=
  t.pending.all (fun p => !p.ownedBy uid || (p.dest == .ack && !remote))

-- ## lanes

/-- The replay record names this instruction of this split (R177). -/
def Issue.replaying (c : Issue) : Bool :=
  match c.t.replay with | some r => r.split == c.uid && r.pc == c.x.pc | none => false

/-- The lanes of a memory instruction: those of the replay record, or the guarded active ones (R177). -/
def Issue.memLanes (c : Issue) : List Nat :=
  match c.t.replay with
  | some r => if r.split == c.uid && r.pc == c.x.pc then lanesOf c.t.w r.lanes else c.lanes
  | none => c.lanes

/-- The issuing agent. -/
def Issue.agent (c : Issue) : Agent := ⟨c.t.ctx, c.t.comp, c.t.coach⟩

/-- A per-lane cause (R176). -/
def laneTrap (k : Cause) (L : Nat) (va : DWord) : Res := .trap k (BitVec.ofNat 32 (L % 1024)) va

/-- Step 2 of R176 fails. -/
def routeBad (s : State) (ctx : Nat) (va : DWord) : Bool :=
  match route s ctx va .wt with | .bad => true | _ => false

/-- Steps 1, 2 and 4 of R176 over every lane, in that order; the lowest failing lane is reported. `locked` is the test of step
4. -/
def checkLanesBy (s : State) (c : Issue) (w : Nat) (locked : DWord → Bool) (ls : List (Nat × DWord)) : Option Res :=
  if c.replaying then none
  else
    match ls.find? (fun l => l.2.toNat % w != 0) with
    | some l => some (laneTrap .misalign l.1 l.2)
    | none =>
      match ls.find? (fun l => routeBad s c.t.ctx l.2) with
      | some l => some (laneTrap .protection l.1 l.2)
      | none =>
        match ls.find? (fun l => locked l.2) with
        | some l => some (laneTrap .rangeLock l.1 l.2)
        | none => none

/-- The checks of accesses of w bytes. -/
def checkLanes (s : State) (c : Issue) (w : Nat) (write : Bool) (ls : List (Nat × DWord)) : Option Res :=
  checkLanesBy s c w (fun va => lockHit s c.t.ctx va.toNat w write) ls

/-- The checks of a load (R382): with .OWN it counts as a write of every word that it reads. -/
def checkLoad (s : State) (c : Issue) (w : Nat) (own : Bool) (ls : List (Nat × DWord)) : Option Res :=
  if own then checkLanesBy s c w (fun va => lockHit s c.t.ctx (va.toNat / 4 * 4) (max w 4) true) ls
  else checkLanes s c w false ls

/-- A later access of a team to a line waits for the team's own posted updates of that line, by whatever address (R158,
R398). -/
def postedLine (s : State) (tid : Nat) (ls : List (Nat × DWord)) : Bool :=
  s.posted.any (fun p => p.tid == tid &&
    ls.any (fun l => localVa s p.ctx l.2 / 128 == localVa s p.ctx p.va / 128))

/-- Registers of a destination. -/
def landLane (t : Team) (d : Dest) (L : Nat) (vals : List Word) : Team :=
  match d with
  | .vec r n => (List.range n).foldl (fun t k => t.setV (r + k) L (vals.getD k 0)) t
  | .scal r n => (List.range n).foldl (fun t k => t.setS (r + k) (vals.getD k 0)) t
  | .word va => { t with remoteWords := Store.insert t.remoteWords va (vals.getD 0 0) }
  | .ack => t

/-- What the served lanes of one instruction came to. -/
structure Served where
  s : State
  /-- values to land, by lane -/
  vals : List (Nat × List Word)
  /-- the lane that met a cause, and the lanes not served (it among them) -/
  stop : Option (Cause × Nat × DWord)
  left : List Nat

/-- Serve the lanes one after another (R177); the first that meets a cause of steps 5 to 7 stops the rest. -/
def serve (f : State → Nat → DWord → Except Cause (State × Option (List Word))) :
    State → List (Nat × List Word) → List (Nat × DWord) → Served
  | s, vs, [] => ⟨s, vs, none, []⟩
  | s, vs, (L, va) :: r =>
    match f s L va with
    | .ok (s, some v) => serve f s (vs ++ [(L, v)]) r
    | .ok (s, none) => serve f s vs r
    | .error c => ⟨s, vs, some (c, L, va), L :: r.map (·.1)⟩

/-- Add a long-latency write in flight (R121). -/
def addPending (s : State) (c : Issue) (d : Dest) (vals : List (Nat × List Word)) : State :=
  if vals.isEmpty then s
  else s.modTeam c.tid (fun t => { t with pending := t.pending ++ [⟨[c.uid], [], d, vals, none, false⟩] })

/-- A halting cause of a lane: the lanes before it keep their effects (R177, R298). -/
def laneHalt (s : State) (c : Issue) (k : Cause) (L : Nat) (va : DWord) : State :=
  haltTeam s c.tid c.uid ⟨k, BitVec.ofNat 32 (L % 1024), va⟩

/-- R177: the team parks with the word, its PC and the unfinished lanes; what was served has landed. -/
def parkReplay (s : State) (c : Issue) (d : Dest) (sv : Served) : State :=
  s.modTeam c.tid (fun t =>
    let t := sv.vals.foldl (fun t v => landLane t d v.1 v.2) t
    { t with parked := true, fault := sv.stop.map (·.2), replay := some ⟨c.word, c.x.pc, c.uid, sv.left.foldl (fun m L => m ||| (1#1024 <<< L)) 0⟩ })

/-- What follows the served lanes: landing values, a replay, or a halt. -/
def concludeLanes (c : Issue) (d : Dest) (ws : List Wait) (sv : Served) : Res :=
  match sv.stop with
  | some (k, L, va) =>
    if causeParks k then .fault (parkReplay sv.s c d sv) else .fault (laneHalt sv.s c k L va)
  | none =>
    let s := sv.s.modTeam c.tid (fun t => { t with replay := none })
    let s := addPending s c d sv.vals
    if ws.isEmpty then .next s else .park s ws

/-- Send one request to another member and await its answer, for some lanes (R159, R308, R380). -/
def sendRemote (s : State) (c : Issue) (index : Nat) (va : DWord) (w : Nat) (pol : Pol) (op : MemOp) (et : ET) (d : Dest)
    (ls : List Nat) : State :=
  let (id, s) := s.fresh
  let s := s.request c.t.coach id c.t.ctx c.t.comp c.tid index va w pol op et (modeFtz c.mode)
  s.modTeam c.tid (fun t => { t with pending := t.pending ++ [⟨[c.uid], [], d, ls.map (fun L => (L, [])), some id, false⟩] })

/-- The lines of HOST-tier and CXL-tier pages a team writes, for .SYS (R189). -/
def noteSysLine (s : State) (tid ctx va : Nat) : State :=
  match rawTrans s ctx va with
  | some t =>
    if pteTier t.pte == .host || pteTier t.pte == .cxl then
      s.modTeam tid (fun t => if t.sysLines.contains (s.asid ctx, va / 128) then t
        else { t with sysLines := t.sysLines ++ [(s.asid ctx, va / 128)] })
    else s
  | none => s

/-- An .OWN access of a system coach is performed as .WT (R26). -/
def Issue.pol (c : Issue) (p : Pol) : Pol := if c.t.sys && p == .own then .wt else p

/-- One operation of some lanes at its place; `none` when another member holds it. -/
def laneOp (s : State) (c : Issue) (ls : List Nat) (va : DWord) (w : Nat) (pol : Pol) (op : MemOp) (et : ET) (d : Dest) :
    Except Cause (State × Option DWord) :=
  match route s c.t.ctx va pol with
  | .bad => .error .protection
  | .away i => .ok (sendRemote s c i va w pol op et d ls, none)
  | .here a p _ =>
    match perform s c.agent a w (c.pol p) op et (modeFtz c.mode) with
    | .error k => .error k
    | .ok (s, r) => .ok (if opWrites op then noteSysLine s c.tid c.t.ctx a else s, some r)

/-- The words a value fills, lowest register first. -/
def valueWords (n : Nat) (x : DWord) : List Word := if n == 2 then [splitWord x 0, splitWord x 1] else [splitWord x 0]

/-- Registers a type takes. -/
def etRegCount (t : ET) : Nat := if et64 t then 2 else 1

/-- One read of LD and LDA (R379, R380), for the lanes that `mates` gives with a lane. -/
def loadLane (c : Issue) (pol : Pol) (et : ET) (d : Dest) (mates : Nat → List Nat) (s : State) (L : Nat) (va : DWord) :
    Except Cause (State × Option (List Word)) :=
  match laneOp s c (mates L) va (etMemWidth et) pol .read et d with
  | .error k => .error k
  | .ok (s, some m) => .ok (s, some (valueWords (etRegCount et) (extendLoad et m.toNat)))
  | .ok (s, none) => .ok (s, none)

/-- Four words of one lane of LD4, each aligned word on its own (R185, R380). -/
def load4Words (c : Issue) (ag : Agent) (pol : Pol) (a : Nat) : Nat → State → Except Cause (State × List Word)
  | 0, s => .ok (s, [])
  | n + 1, s =>
    match perform s ag (a + 4 * (3 - n)) 4 pol .read .n32 false with
    | .error k => .error k
    | .ok (s, m) =>
      match load4Words c ag pol a n s with
      | .error k => .error k
      | .ok (s, ws) => .ok (s, splitWord m 0 :: ws)

/-- One read of LD4. -/
def load4Lane (c : Issue) (pol : Pol) (d : Dest) (mates : Nat → List Nat) (s : State) (L : Nat) (va : DWord) :
    Except Cause (State × Option (List Word)) :=
  match route s c.t.ctx va pol with
  | .bad => .error .protection
  | .away i => .ok (sendRemote s c i va 16 pol .read .n32 d (mates L), none)
  | .here a p _ =>
    match load4Words c c.agent (c.pol p) a 4 s with
    | .error k => .error k
    | .ok (s, ws) => .ok (s, some ws)

/-- One lane of a store of w bytes (R408). -/
def storeLane (c : Issue) (pol : Pol) (w : Nat) (data : Nat → DWord) (s : State) (L : Nat) (va : DWord) :
    Except Cause (State × Option (List Word)) :=
  match laneOp s c [L] va w pol (.write (data L)) .n64 .ack with
  | .error k => .error k
  | .ok (s, _) => .ok (s, none)

/-- One lane of ST4: four aligned words, each on its own (R185, R408). -/
def store4Lane (c : Issue) (pol : Pol) (data : Nat → Nat → Word) (s : State) (L : Nat) (va : DWord) :
    Except Cause (State × Option (List Word)) :=
  (List.range 4).foldl (fun acc k =>
    match acc with
    | .error e => .error e
    | .ok (s, _) => storeLane c pol 4 (fun _ => (data L k).setWidth 64) s L (va + BitVec.ofNat 64 (4 * k))) (.ok (s, none))

/-- One lane of a returning atomic (R355). -/
def atomicLane (c : Issue) (pol : Pol) (op : AtOp) (x cmp : Nat → DWord) (d : Dest) (s : State) (L : Nat) (va : DWord) :
    Except Cause (State × Option (List Word)) :=
  match laneOp s c [L] va (etMemWidth c.et) pol (.atomic op (x L) (cmp L)) c.et d with
  | .error k => .error k
  | .ok (s, some m) => .ok (s, some (valueWords (etRegCount c.et) m))
  | .ok (s, none) => .ok (s, none)

/-- Keep, for each address, the highest lane that names it (R178). -/
def keepHighest {α : Type} [BEq α] : List (Nat × α) → List (Nat × α)
  | [] => []
  | l :: r => if r.any (fun x => x.2 == l.2) then keepHighest r else l :: keepHighest r

/-- Insert a lane by its free key. -/
def insertKey (k : Nat) (l : Nat × DWord) : List (Nat × (Nat × DWord)) → List (Nat × (Nat × DWord))
  | [] => [(k, l)]
  | x :: r => if k < x.1 then (k, l) :: x :: r else x :: insertKey k l r

/-- An order of the lanes that the device does not fix (R355, R412, log 18). -/
def freeOrder (free : Nat) (ls : List (Nat × DWord)) : List (Nat × DWord) :=
  (ls.foldl (fun acc l => insertKey (Config.freeNat free l.1) l acc) []).map (·.2)

/-- The addresses of the lanes (R89). -/
def Issue.addrs (c : Issue) (s : State) (base : BitVec 6) (x : Option (BitVec 8)) : List (Nat × DWord) :=
  c.memLanes.map (fun L => (L, laneAddr s c.t base x L))

/-- The common shape of the per-lane instructions: steps 1 to 4, the line hold of R398, the lanes, their landing. -/
def laneInstr (s : State) (c : Issue) (w : Nat) (write : Bool) (ls : List (Nat × DWord)) (d : Dest)
    (ws : List Wait) (order : List (Nat × DWord) → List (Nat × DWord))
    (f : State → Nat → DWord → Except Cause (State × Option (List Word))) : Res :=
  match checkLanes s c w write ls with
  | some r => r
  | none =>
    if postedLine s c.tid ls then .hold .line
    else concludeLanes c d ws (serve f s [] (order ls))

/-- The lanes with an address that no earlier one names. -/
def keepFirst {α : Type} [BEq α] : List (Nat × α) → List (Nat × α)
  | [] => []
  | l :: r => l :: (keepFirst r).filter (fun x => x.2 != l.2)

/-- The lanes that name the address of a lane (R380). -/
def matesOf (ls : List (Nat × DWord)) (L : Nat) : List Nat :=
  match ls.find? (fun l => l.1 == L) with
  | some x => (ls.filter (fun l => l.2 == x.2)).map (·.1)
  | none => [L]

/-- What one read for each address gives the lanes that name it; those whose read is not served are left (R380). -/
def spreadReads (ls : List (Nat × DWord)) (sv : Served) : Served :=
  { sv with
    vals := sv.vals.flatMap (fun v => (matesOf ls v.1).map (fun L => (L, v.2)))
    left := sv.left.flatMap (matesOf ls) }

/-- The shape of LD and LD4 (R380, R382): lanes that name one address are served by one read. -/
def loadInstr (s : State) (c : Issue) (w : Nat) (own : Bool) (ls : List (Nat × DWord)) (d : Dest)
    (f : (Nat → List Nat) → State → Nat → DWord → Except Cause (State × Option (List Word))) : Res :=
  match checkLoad s c w own ls with
  | some r => r
  | none =>
    if postedLine s c.tid ls then .hold .line
    else concludeLanes c d [] (spreadReads ls (serve (f (matesOf ls)) s [] (keepFirst ls)))

-- ## scratchpad (R179 to R181)

/-- Handle and offset of a scratchpad address. -/
def spadHandle (sa : Word) : Nat := field sa.toNat 31 19
def spadOffset (sa : Word) : Nat := field sa.toNat 18 0

/-- The region or buffer of a scratchpad address if this coach may access it there (R179, R180). -/
def spadRegion (s : State) (drove coach : Nat) (sa : Word) : Option Handle :=
  match s.drove drove with
  | none => none
  | some d =>
    match Store.find d.handles (spadHandle sa) with
    | none => none
    | some h =>
      if (spadHandle sa == 0 || h.holder == coach) && decide (spadOffset sa < h.size) then some h else none

/-- A byte of a region: unwritten bytes are free values (R365, log 6). -/
def Handle.byte (h : Handle) (off : Nat) : Byte := (Store.find h.bytes off).getD (Config.freeByte h.seed off)
/-- n bytes, little-endian. -/
def Handle.read (h : Handle) (off : Nat) : Nat → Nat
  | 0 => 0
  | n + 1 => (h.byte off).toNat + 256 * h.read (off + 1) n
/-- Write n bytes. -/
def Handle.write (h : Handle) (off : Nat) : Nat → Nat → Handle
  | 0, _ => h
  | n + 1, v => Handle.write { h with bytes := Store.insert h.bytes off (BitVec.ofNat 8 v) } (off + 1) n (v / 256)

/-- A phase change of a barrier word ends the waits of every split of the drove on it; the acquire at .DRV follows
(R181, R363, R393). The drove's stall is broken (R288). -/
def wakeBarrier (s : State) (drove off : Nat) : State :=
  { s.modDrove drove (fun d => { d with stalled := none }) with teams := s.teams.map (fun (e : Nat × Team) =>
      if e.2.drove == drove then
        (e.1, { e.2 with splits := e.2.splits.map (fun x =>
          { x with waits := x.waits.map (fun w => if w == .barrier off then .acquire else w) }) })
      else e) }

/-- Write to a region; a change of PHASE in handle 0 is a phase change of the word (R181). -/
def spadWrite (s : State) (drove : Nat) (sa : Word) (w : Nat) (v : Nat) : State :=
  match s.drove drove with
  | none => s
  | some d =>
    match Store.find d.handles (spadHandle sa) with
    | none => s
    | some h =>
      let off := spadOffset sa
      let h' := h.write off w v
      let s := s.modDrove drove (fun d => { d with handles := Store.insert d.handles (spadHandle sa) h' })
      let word := off / 8 * 8
      if spadHandle sa == 0 && (h.read word 8).testBit 63 != (h'.read word 8).testBit 63 then wakeBarrier s drove word
      else s

/-- One arrival on a barrier word, and the phase before it (R181). At REMAIN = 0 the word becomes unpredictable. -/
def arrivalOn (s : State) (drove off : Nat) : State × Bool :=
  match s.drove drove with
  | none => (s, false)
  | some d =>
    match Store.find d.handles 0 with
    | none => (s, false)
    | some h =>
      let x := h.read off 8
      let ph := x.testBit 63
      let remain := field x 31 0
      let reload := field x 62 32
      let sa := BitVec.ofNat 32 off
      if remain == 0 then
        (spadWrite s drove sa 8 ((Config.freeWord s.free 1 off ++ Config.freeWord s.free 2 off).toNat), ph)
      else if remain == 1 then
        (spadWrite s drove sa 8 ((if ph then 0 else 2 ^ 63) + reload * 2 ^ 32 + reload), ph)
      else (spadWrite s drove sa 8 (x - 1), ph)

/-- The size of handle 0. -/
def commonSize (s : State) (drove : Nat) : Nat :=
  match s.drove drove with
  | none => 0
  | some d => match Store.find d.handles 0 with | some h => h.size | none => 0

/-- The phase of a barrier word. -/
def phaseOf (s : State) (drove off : Nat) : Bool :=
  match s.drove drove with
  | none => false
  | some d => match Store.find d.handles 0 with | some h => (h.read off 8).testBit 63 | none => false

/-- Steps 1, 3 and 4 of R176 for scratchpad lanes (R412). -/
def checkSpad (s : State) (c : Issue) (w : Nat) (write : Bool) (ls : List (Nat × Word)) : Option Res :=
  match ls.find? (fun l => l.2.toNat % w != 0) with
  | some l => some (laneTrap .misalign l.1 (l.2.setWidth 64))
  | none =>
    match ls.find? (fun l => (spadRegion s c.t.drove c.t.coach l.2).isNone) with
    | some l => some (laneTrap .handle l.1 (l.2.setWidth 64))
    | none =>
      match ls.find? (fun l => spadLockHit s c.t.ctx c.t.drove l.2.toNat w write) with
      | some l => some (laneTrap .rangeLock l.1 (l.2.setWidth 64))
      | none => none

/-- The words one lane touches, as bank words of its region. -/
def spadWords (w : Nat) (sa : Word) : List (Nat × Nat) :=
  let h := spadHandle sa
  let k := spadOffset sa / 4
  if w == 8 then [(h, k), (h, k + 1)] else [(h, k)]

/-- The scratchpad bank of a word: the coach whose scratchpad holds it, and the bank there (R35). -/
def spadBank (s : State) (drove : Nat) (x : Nat × Nat) : Nat × Nat :=
  match (s.drove drove).bind (fun d => Store.find d.handles x.1) with
  | some h => (h.coach, (h.base / 4 + x.2) % 384)
  | none => (0, x.2 % 384)

/-- The bank cycles of one pass (R35): distinct words of a bank, every lane of an SPAADD counted. -/
def spadPassCost (s : State) (drove : Nat) (each : Bool) (w : Nat) (sas : List Word) : Nat :=
  let ws := sas.flatMap (spadWords w)
  let ws := (if each then ws else ws.eraseDups).map (spadBank s drove)
  max 1 (ws.eraseDups.foldl (fun m b => max m ((ws.filter (· == b)).length)) 0)

/-- Cycles of a scratchpad instruction: the passes of the non-empty mask words (R35, R40). -/
def spadCost (s : State) (drove : Nat) (each : Bool) (w : Nat) (mask : LaneMask) (ls : List (Nat × Word)) : Nat :=
  (List.range 32).foldl (fun n j =>
    if maskWord mask j = 0 then n
    else n + spadPassCost s drove each w ((ls.filter (fun l => l.1 / 32 == j)).map (·.2))) 0

end Sys2Proof.Machine
end

