-- ==== Sys2Proof/Machine/Waits.lean ====
section
/-! DEFINITION. Tags, batches and waits: the window of spec/08 R219 and the completion of tags (spec/09 R232, spec/10
R262), the queues an engine instruction waits for (spec/10 R251, R256; spec/08 R206), when a parked split is ready again
(spec/02 R53), and the acquire that an observation makes (spec/07 R198). -/
namespace Sys2Proof.Machine

/-- Steps backwards from the latest value t of a counter to n, in the sequence 1 .. 0xFFFFFFFF, 1 (R219). -/
def backSteps (t n : Word) : Nat :=
  if n.toNat ≤ t.toNat then t.toNat - n.toNat else t.toNat + (2 ^ 32 - 1) - n.toNat

/-- The value a counter takes next (R218, R232). -/
def nextTag (t : Word) : Word := if t == 0xFFFFFFFF then 1 else t + 1

/-- A wait or poll value that is not illegal (R219, R263). -/
def tagLegal (t n : Word) : Bool := n == 0 || (t != 0 && decide (backSteps t n < 2 ^ 31))

/-- The counter of a kind. -/
def Team.counter (t : Team) (k : TagKind) : Word :=
  match k with | .copy => t.copyCtr | .coll => t.collCtr | .bank => t.bankCtr | .mm => t.batchCtr

/-- An outstanding operation with this tag or an earlier one blocks the completion of n. -/
def tagBlocks (t n tag : Word) : Bool := decide (backSteps t n ≤ backSteps t tag)

/-- Tag or batch n is complete (R218, R232, R262). -/
def tagComplete (t : Team) (k : TagKind) (n : Word) : Bool :=
  n == 0 ||
  (match k with
   | .mm => t.batches.all (fun b => b.left == 0 || !tagBlocks t.batchCtr n b.num)
   | _ => t.tags.all (fun o => o.kind != k || o.done || !tagBlocks (t.counter k) n o.tag))

/-- The batch of an accumulator's instruction, open while 0, is complete (R218, R220). -/
def accDone (t : Team) (a : AccUse) : Bool :=
  if a.batch == 0 then t.openMM == 0 && t.batches.all (fun b => b.left == 0) else tagComplete t .mm a.batch

/-- Vector registers of a block set (R104). -/
def blockRegs (blk : BitVec 3) : List Nat :=
  (if blk.getLsbD 0 then regGroup 32 32 else []) ++ (if blk.getLsbD 1 then regGroup 64 64 else []) ++
    (if blk.getLsbD 2 then regGroup 128 128 else [])

/-- A batch with accumulators in the blocks is not complete, the open one included (R108, R220). -/
def matrixBusy (t : Team) (blk : BitVec 3) : Bool :=
  t.accUses.any (fun a => !accDone t a && (regGroup a.reg a.num).any (blockRegs blk).contains)

/-- An incomplete copy command of the drove names a handle (R260). -/
def copyNamesHandle (s : State) (drove h : Nat) : Bool :=
  s.teams.any (fun e => e.2.drove == drove && e.2.tags.any (fun o =>
    o.kind == .copy && o.handles.contains h && !tagComplete e.2 .copy o.tag))

/-- Destination ranges of the operations whose completion an observation of n observes (R198, R262). -/
def observedRanges (t : Team) (k : TagKind) (n : Word) : List (Nat × Nat) :=
  if n == 0 then []
  else (t.tags.filter (fun o => o.kind == k && o.done && tagBlocks (t.counter k) n o.tag)).flatMap (·.dst)

/-- The observation of batch n ends the flight of its accumulators and of the earlier batches' (R220). -/
def landBatch (t : Team) (n : Word) : Team :=
  { t with accs := t.accs.filter (fun a => a.batch == 0 || !tagBlocks t.batchCtr n a.batch) }

/-- The acquire of an observed completion (R198): at .DEV for a batch (R219), whose accumulators are then settled (R220). -/
def observe (s : State) (tid : Nat) (k : TagKind) (n : Word) : State :=
  match s.team tid with
  | none => s
  | some t =>
    let s := removeRanges s t.coach t.asid
      ((observedRanges t k n).map (fun r => (localVa s t.ctx (BitVec.ofNat 64 r.1), r.2)))
    if k == .mm && n != 0 then s.modTeam tid (fun t => landBatch t n) else s

/-- A queue of the drove has room for n items (R51). -/
def roomFor (s : State) (drove pos q n : Nat) : Bool :=
  match s.drove drove with
  | none => false
  | some d => decide ((((Store.find d.queues (4 * pos + q)).map (fun e => e.2.length)).getD 0) + n ≤ 4096)

/-- No long-latency write of these registers is pending: vectors in the lanes of the mask, scalars (256 + n) of any
split (R124). -/
def regsLanded (t : Team) (mask : LaneMask) (rs : List Nat) : Bool :=
  t.pending.all (fun p =>
    match p.dest with
    | .vec b n => !(rs.any (fun r => decide (b ≤ r) && decide (r < b + n)) && p.lanes.any (fun l => mask.getLsbD l.1))
    | .scal b n => !((regGroup (256 + b) n).any rs.contains && !p.lanes.isEmpty)
    | .word _ | .ack => true)

-- ## queues of the engines

/-- A dray; one that is not listed has empty queues (R251). -/
def State.dray (s : State) (d : Nat) : Dray := (Store.find s.drays d).getD ⟨[], 0⟩
def Dray.queue (d : Dray) (q : Nat) : List CopyCmd := (Store.find d.queues q).getD []
def State.setQueue (s : State) (d q : Nat) (xs : List CopyCmd) : State :=
  { s with drays := Store.insert s.drays d { s.dray d with queues := Store.insert (s.dray d).queues q xs } }

/-- Range-lock entries of a context on a die (R201). -/
def lockRoom (s : State) (ctx die n : Nat) : Bool :=
  decide ((s.locks.filter (fun l => l.ctx == ctx && l.die == die)).length + n ≤ 256)

/-- Room in queue q of a dray: 64 commands of a context (R252). -/
def copyRoom (s : State) (ctx dray q : Nat) : Bool :=
  decide ((((s.dray dray).queue q).filter (fun x => x.ctx == ctx)).length < 64)

/-- Room in the tandem of a die: 16 collectives of a context (R265). -/
def collRoom (s : State) (ctx die : Nat) : Bool :=
  decide ((s.colls.filter (fun x => x.ctx == ctx && x.die == die)).length < 16)

/-- Room for an operation of an engine: in its queue and in the range-lock table of the die. A bank operation waits for
the table alone (R201, R228, R256, R265). -/
def engineRoom (s : State) (ctx : Nat) (k : TagKind) (unit die locks : Nat) : Bool :=
  lockRoom s ctx die locks &&
  (match k with
   | .copy => copyRoom s ctx (unit / 16) (unit % 16)
   | .coll => collRoom s ctx die
   | .bank | .mm => true)

/-- Room in a tensor core's queue of 8 (R206). -/
def tensorRoom (s : State) (coach : Nat) : Bool :=
  decide (((s.coach coach).tensor.filter (fun h => ((s.team h.tid).map (fun t => t.running)).getD false)).length < 8)

-- ## waits

/-- A wait of the first kind of R370, for which HSAVE holds. -/
def Wait.first (w : Wait) : Bool :=
  match w with
  | .switch | .acquire | .barrier _ | .tag _ _ _ | .posted _ _ | .handleFree _ | .seqopen _ _ _ | .seqend _ | .firmware _
  | .answer _ _ | .fill _ =>
    true
  | .regs _ | .xacq | .room _ _ _ | .handler | .release _ | .engine _ _ _ _ | .latch | .tensor | .ending _ | .tags
  | .latchEmpty | .drain | .batches | .blocks _ | .line => false

/-- A wait that parks the split; the others hold an instruction at issue (R53, R124, R190). -/
def Wait.parks (w : Wait) : Bool :=
  match w with
  | .regs _ | .release _ | .drain | .batches | .blocks _ | .tags | .latchEmpty | .line => false
  | _ => true

/-- A wait is over; of `.drain`, only that the returns of the team have landed. -/
def waitDone (s : State) (tid : Nat) (t : Team) (x : Split) (w : Wait) : Bool :=
  match w with
  | .switch | .acquire => !pendingOf t x.uid
  | .regs rs => regsLanded t x.mask rs
  | .xacq => t.pend == 0 && !t.clearing
  | .barrier _ | .seqopen _ _ _ | .seqend _ | .firmware _ | .answer _ _ => false
  | .room pos q n => roomFor s t.drove pos q n
  | .tag k n _ => tagComplete t k n
  | .handler => !t.inHandler
  | .posted upto ev => s.posted.all (fun p => p.tid != tid || upto ≤ p.id || (p.remote && !ev))
  | .release r => released t x.uid r
  | .engine k unit die n => engineRoom s t.ctx k unit die n
  | .latch => false
  | .tensor => tensorRoom s t.coach
  | .ending h => !s.teams.any (fun e => e.2.splits.any (fun y => y.waits.contains (.seqend h)))
  | .tags => t.tags.all (·.done)
  | .latchEmpty => t.latch.isNone
  | .drain => t.pending.isEmpty
  | .batches => t.latch.isNone && t.openMM == 0 && t.batches.all (fun b => b.left == 0)
  | .blocks blk => !matrixBusy t blk
  | .handleFree h => !copyNamesHandle s t.drove h
  | .line => s.posted.all (fun p => p.tid != tid)
  | .fill rs => !rs.any t.filling

/-- The wait of an HPASS or HFREE (R260): its instruction has its effect when it ends, during an HSAVE too (R370). -/
def Wait.finishes (w : Wait) : Bool := match w with | .handleFree _ => true | _ => false

/-- No other split of the team is parked on a wait of the first kind (R370). -/
def sistersSettled (s : State) (tid : Nat) (t : Team) (uid : Nat) : Bool :=
  t.splits.all (fun y => y.uid == uid || y.waits.all (fun w => !w.first || (waitDone s tid t y w && !w.finishes)))

/-- A wait is over (R53). -/
def waitMet (s : State) (tid : Nat) (t : Team) (x : Split) (w : Wait) : Bool :=
  waitDone s tid t x w && (w != .drain || sistersSettled s tid t x.uid)

/-- Every wait of a split is over. -/
def waitsOver (s : State) (tid : Nat) (t : Team) (x : Split) : Bool := x.waits.all (waitMet s tid t x)

/-- The split is PARKED (R53): a wait that parks is not over yet. -/
def splitParked (s : State) (tid : Nat) (t : Team) (x : Split) : Bool :=
  x.phase != .joinWait && x.waits.any (fun w => w.parks && !waitMet s tid t x w)

/-- What the end of a wait does: the acquire of an observed tag (R198, R264), the removal of LDA (R191). -/
def wakeEffect (s : State) (tid : Nat) (w : Wait) : State :=
  match w, s.team tid with
  | .tag k n _, _ => observe s tid k n
  | .acquire, some t => acquireRemoval s t.coach t.asid
  | _, _ => s

/-- A split whose waits are over runs again (R53). -/
def wake (s : State) (tid : Nat) (x : Split) : State :=
  let s := x.waits.foldl (fun s w => wakeEffect s tid w) s
  s.modTeam tid (fun t => t.modSplit x.uid (fun y => { y with waits := [] }))

end Sys2Proof.Machine
end

