-- ==== Sys2Proof/Machine/MemInstr.lean ====
section
/-! DEFINITION. The memory instructions (spec/03 R89; spec/07 R193 to R196; entries R353 to R356, R378 to R382, R394 to
R398, R406 to R413): loads, stores, atomics, reduce-on-write, fences, region instructions, scratchpad accesses and
handles. -/
namespace Sys2Proof.Machine

-- ## register fields

/-- Register fields of a vector memory form with `n` registers at D under a type: an even index and data register
for 64-bit types (R75). -/
def memRegs (c : Issue) (i : Instr) (d : BitVec 8) (x : Option (BitVec 8)) : Bool :=
  wellFormed i && etEven c.et d.toNat && (match x with | some r => etEven c.et r.toNat | none => true)

/-- The index register read, if any. -/
def xRegs (x : Option (BitVec 8)) : List Nat := match x with | some r => [r.toNat] | none => []

/-- Loads: D is written when the values land. -/
def loadUses (i : Instr) (d : BitVec 8) (x : Option (BitVec 8)) (c : Issue) : Uses :=
  { vr := xRegs x, vw := etRegs c.et d.toNat, mode := .mem (fun _ => true), regOk := memRegs c i d x,
    wrote := some 0 }
/-- Stores: D is read. -/
def storeUses (i : Instr) (d : BitVec 8) (x : Option (BitVec 8)) (c : Issue) : Uses :=
  { vr := xRegs x ++ etRegs c.et d.toNat, mode := .mem (fun _ => true), regOk := memRegs c i d x }
/-- LD4 and ST4: four registers, the index register even for a 64-bit type. -/
def load4Uses (i : Instr) (d : BitVec 8) (x : Option (BitVec 8)) (c : Issue) : Uses :=
  { vr := xRegs x, vw := regGroup d.toNat 4, mode := .mem etWide, regOk := memRegs c i d x, wrote := some 0 }
def store4Uses (i : Instr) (d : BitVec 8) (x : Option (BitVec 8)) (c : Issue) : Uses :=
  { vr := xRegs x ++ regGroup d.toNat 4, mode := .mem etWide, regOk := memRegs c i d x }
/-- Atomics: D is read and written (R353). -/
def atomicUses (ok : ET → Bool) (i : Instr) (d : BitVec 8) (x : Option (BitVec 8)) (c : Issue) : Uses :=
  { vr := xRegs x ++ etRegs c.et d.toNat, vw := etRegs c.et d.toNat, mode := .mem ok, regOk := memRegs c i d x,
    wrote := some 0 }
/-- ACAS: the compare value at D and the new value after it (R353). -/
def acasUses (i : Instr) (d : BitVec 8) (x : Option (BitVec 8)) (c : Issue) : Uses :=
  { vr := xRegs x ++ regGroup d.toNat (2 * etRegCount c.et), vw := etRegs c.et d.toNat, mode := .mem etWide,
    regOk := memRegs c i d x && (!et64 c.et || multOf 4 d), wrote := some 0 }
/-- Reduce-on-write: D is read (R394). -/
def redUses (ok : ET → Bool) (i : Instr) (d : BitVec 8) (x : Option (BitVec 8)) (c : Issue) : Uses :=
  { vr := xRegs x ++ etRegs c.et d.toNat, mode := .mem ok, regOk := memRegs c i d x }

-- ## loads and stores

/-- LD (R378 to R382): LD.OWN counts as a write of its words for the range locks. -/
def execLd (sw : Bool) (d : BitVec 8) (base : BitVec 6) (pol : Pol) (x : Option (BitVec 8)) (s : State) :
    Host.Outcome State Fault Refusal :=
  let i := Instr.ld sw d base pol x
  issueAs false i sw (loadUses i d x) passCost s (fun c =>
    let dest := Dest.vec d.toNat (etRegCount c.et)
    loadInstr s c (etMemWidth c.et) (pol == .own) (c.addrs s base x) dest (loadLane c pol c.et dest))

/-- LD4 (R378 to R382). -/
def execLd4 (sw : Bool) (d : BitVec 8) (base : BitVec 6) (pol : Pol) (x : Option (BitVec 8)) (s : State) :
    Host.Outcome State Fault Refusal :=
  let i := Instr.ld4 sw d base pol x
  issueAs false i sw (load4Uses i d x) passCost s (fun c =>
    let dest := Dest.vec d.toNat 4
    loadInstr s c 16 (pol == .own) (c.addrs s base x) dest (load4Lane c pol dest))

/-- ST (R407 to R410). -/
def execSt (sw : Bool) (d : BitVec 8) (base : BitVec 6) (pol : Pol) (x : Option (BitVec 8)) (s : State) :
    Host.Outcome State Fault Refusal :=
  let i := Instr.st sw d base pol x
  issueAs false i sw (storeUses i d x) passCost s (fun c =>
    laneInstr s c (etMemWidth c.et) true (c.addrs s base x) .ack [] keepHighest
      (storeLane c pol (etMemWidth c.et) (fun L => s.rgroup c.t c.et d.toNat L)))

/-- ST4 (R407 to R410). -/
def execSt4 (sw : Bool) (d : BitVec 8) (base : BitVec 6) (pol : Pol) (x : Option (BitVec 8)) (s : State) :
    Host.Outcome State Fault Refusal :=
  let i := Instr.st4 sw d base pol x
  issueAs false i sw (store4Uses i d x) passCost s (fun c =>
    laneInstr s c 16 true (c.addrs s base x) .ack [] keepHighest
      (store4Lane c pol (fun L k => s.rv c.t (d.toNat + k) L)))

/-- SLD (R406): one word, reported as lane 0. -/
def execSld (sw : Bool) (d : BitVec 6) (base : BitVec 6) (pol : Pol) (x : BitVec 6) (s : State) :
    Host.Outcome State Fault Refusal :=
  let i := Instr.sld sw d base pol x
  issueCtl i sw [d.toNat] s (fun c =>
    loadInstr s c 4 (pol == .own) [(0, scalarAddr s c.t base x)] (.scal d.toNat 1)
      (loadLane c pol .n32 (.scal d.toNat 1)))

/-- SST (R406). -/
def execSst (sw : Bool) (d : BitVec 6) (base : BitVec 6) (pol : Pol) (x : BitVec 6) (s : State) :
    Host.Outcome State Fault Refusal :=
  let i := Instr.sst sw d base pol x
  issueCtl i sw [] s (fun c =>
    laneInstr s c 4 true [(0, scalarAddr s c.t base x)] .ack [] id
      (storeLane c pol 4 (fun _ => (s.rs c.t d.toNat).setWidth 64)))

-- ## releases and acquires

/-- The scope reaches other members (R189). -/
def scopeRemote (p : Scope) : Bool := match p with | .prt | .sys => true | _ => false

/-- R189: at .SYS the lines of HOST-tier and CXL-tier pages that were written go back to their tier: those of the whole team,
those of the split among them (log 97). -/
def releaseSys (s : State) (tid : Nat) (p : Scope) : State :=
  match p, s.team tid with
  | .sys, some t =>
    let s := t.sysLines.foldl (fun s a => lineToTier s a.1 a.2) s
    s.modTeam tid (fun t => { t with sysLines := [] })
  | _, _ => s

/-- LDA (R191, R194): read at the place, then the removal; the split parks until both are done. -/
def execLda (sw : Bool) (d : BitVec 8) (base : BitVec 6) (scope : Scope) (x : Option (BitVec 8)) (s : State) :
    Host.Outcome State Fault Refusal :=
  let i := Instr.lda sw d base scope x
  issueAs false i sw (loadUses i d x) passCost s (fun c =>
    let dest := Dest.vec d.toNat (etRegCount c.et)
    laneInstr s c (etMemWidth c.et) false (c.addrs s base x) dest [.acquire] id (loadLane c .wt c.et dest (fun L => [L])))

/-- STL (R190, R194): the release wait, then the store at the word's place. -/
def execStl (sw : Bool) (d : BitVec 8) (base : BitVec 6) (scope : Scope) (x : Option (BitVec 8)) (s : State) :
    Host.Outcome State Fault Refusal :=
  let i := Instr.stl sw d base scope x
  issueAs false i sw (storeUses i d x) passCost s (fun c =>
    match checkLanes s c (etMemWidth c.et) true (c.addrs s base x) with
    | some r => r
    | none =>
      if !released c.t c.uid (scopeRemote scope) then .hold (.release (scopeRemote scope))
      else
        laneInstr (releaseSys s c.tid scope) c (etMemWidth c.et) true (c.addrs s base x) .ack [] keepHighest
          (storeLane c .wt (etMemWidth c.et) (fun L => s.rgroup c.t c.et d.toNat L)))

/-- FENCE.REL (R190). -/
def execFenceRel (sw : Bool) (scope : Scope) (s : State) : Host.Outcome State Fault Refusal :=
  issueCtl (.fenceRel sw scope) sw [] s (fun c =>
    if !released c.t c.uid (scopeRemote scope) then .hold (.release (scopeRemote scope))
    else .next (releaseSys s c.tid scope))

/-- FENCE.ACQ (R191): earlier reads landed, then the removal. -/
def execFenceAcq (sw : Bool) (scope : Scope) (s : State) : Host.Outcome State Fault Refusal :=
  issueCtl (.fenceAcq sw scope) sw [] s (fun c =>
    if !released c.t c.uid false then .hold (.release false)
    else .next (acquireRemoval s c.t.coach c.t.asid))

/-- FENCE.FULL (R191): the release, then the acquire. -/
def execFenceFull (sw : Bool) (scope : Scope) (s : State) : Host.Outcome State Fault Refusal :=
  issueCtl (.fenceFull sw scope) sw [] s (fun c =>
    if !released c.t c.uid (scopeRemote scope) then .hold (.release (scopeRemote scope))
    else .next (acquireRemoval (releaseSys s c.tid scope) c.t.coach c.t.asid))

/-- FENCE.ACQN (R191): FENCE.ACQ without the removal. -/
def execFenceAcqn (sw : Bool) (scope : Scope) (s : State) : Host.Outcome State Fault Refusal :=
  issueCtl (.fenceAcqn sw scope) sw [] s (fun c =>
    if !released c.t c.uid false then .hold (.release false) else .next s)

/-- PDRAIN (R196): parks until the team's earlier updates have taken effect at its scope. -/
def execPdrain (sw : Bool) (scope : Scope) (s : State) : Host.Outcome State Fault Refusal :=
  issueCtl (.pdrain sw scope) sw [] s (fun _ => .park s [.posted s.nextId (scopeRemote scope)])

-- ## atomics

/-- A returning atomic (R353 to R356); the lanes follow a free order. -/
def atomicInstr (i : Instr) (sw : Bool) (op : AtOp) (ok : ET → Bool) (d : BitVec 8) (base : BitVec 6) (pol : Pol)
    (x : Option (BitVec 8)) (s : State) : Host.Outcome State Fault Refusal :=
  issueAs false i sw (atomicUses ok i d x) passCost s (fun c =>
    let dest := Dest.vec d.toNat (etRegCount c.et)
    laneInstr s c (etMemWidth c.et) true (c.addrs s base x) dest [] (freeOrder s.free)
      (atomicLane c pol op (fun L => s.rgroup c.t c.et d.toNat L) (fun _ => 0) dest))

/-- AADD (R354, R355). -/
def execAadd (sw : Bool) (d : BitVec 8) (base : BitVec 6) (pol : Pol) (x : Option (BitVec 8)) (s : State) :
    Host.Outcome State Fault Refusal :=
  atomicInstr (.aadd sw d base pol x) sw .add etAtomicAdd d base pol x s

/-- AMIN (R354, R355). -/
def execAmin (sw : Bool) (d : BitVec 8) (base : BitVec 6) (pol : Pol) (x : Option (BitVec 8)) (s : State) :
    Host.Outcome State Fault Refusal :=
  atomicInstr (.amin sw d base pol x) sw .min etAtomicMinMax d base pol x s

/-- AMAX (R354, R355). -/
def execAmax (sw : Bool) (d : BitVec 8) (base : BitVec 6) (pol : Pol) (x : Option (BitVec 8)) (s : State) :
    Host.Outcome State Fault Refusal :=
  atomicInstr (.amax sw d base pol x) sw .max etAtomicMinMax d base pol x s

/-- AAND (R354, R355). -/
def execAand (sw : Bool) (d : BitVec 8) (base : BitVec 6) (pol : Pol) (x : Option (BitVec 8)) (s : State) :
    Host.Outcome State Fault Refusal :=
  atomicInstr (.aand sw d base pol x) sw .and etWide d base pol x s

/-- AOR (R354, R355). -/
def execAor (sw : Bool) (d : BitVec 8) (base : BitVec 6) (pol : Pol) (x : Option (BitVec 8)) (s : State) :
    Host.Outcome State Fault Refusal :=
  atomicInstr (.aor sw d base pol x) sw .or etWide d base pol x s

/-- AXOR (R354, R355). -/
def execAxor (sw : Bool) (d : BitVec 8) (base : BitVec 6) (pol : Pol) (x : Option (BitVec 8)) (s : State) :
    Host.Outcome State Fault Refusal :=
  atomicInstr (.axor sw d base pol x) sw .xor etWide d base pol x s

/-- AXCHG (R354, R355). -/
def execAxchg (sw : Bool) (d : BitVec 8) (base : BitVec 6) (pol : Pol) (x : Option (BitVec 8)) (s : State) :
    Host.Outcome State Fault Refusal :=
  atomicInstr (.axchg sw d base pol x) sw .xchg etWide d base pol x s

/-- ACAS (R353 to R355): the new value is written where the compare value is found. -/
def execAcas (sw : Bool) (d : BitVec 8) (base : BitVec 6) (pol : Pol) (x : Option (BitVec 8)) (s : State) :
    Host.Outcome State Fault Refusal :=
  let i := Instr.acas sw d base pol x
  issueAs false i sw (acasUses i d x) passCost s (fun c =>
    let n := etRegCount c.et
    let dest := Dest.vec d.toNat n
    laneInstr s c (etMemWidth c.et) true (c.addrs s base x) dest [] (freeOrder s.free)
      (atomicLane c pol .cas (fun L => s.rgroup c.t c.et (d.toNat + n) L) (fun L => s.rgroup c.t c.et d.toNat L) dest))

-- ## reduce-on-write

/-- Post one lane's update (R396); a partition-window update is sent to its target (R159). `group` names the
instruction. -/
def postLane (c : Issue) (group : Nat) (op : AtOp) (pol : Pol) (x : DWord) (s : State) (L : Nat) (va : DWord) : State :=
  let (id, s) := s.fresh
  let away := match route s c.t.ctx va pol with | .away i => some i | _ => none
  let p : PostedOp :=
    { id := id, group := group, word := c.word, pc := c.x.pc, split := c.uid, faulted := false, tid := c.tid,
      ctx := c.t.ctx, comp := c.t.comp, coach := c.t.coach, va := va, pol := pol, et := c.et, ftz := modeFtz c.mode,
      op := op, x := x, lane := L, remote := away.isSome }
  let s : State := { s with posted := s.posted ++ [p] }
  match away with
  | some i => s.request c.t.coach id c.t.ctx c.t.comp c.tid i va (etMemWidth c.et) pol (.atomic op x 0) c.et (modeFtz c.mode)
  | none =>
    overWords (wordIndex va.toNat) (wordCount (etMemWidth c.et))
      (fun s j _ => dropCopy s c.t.coach c.t.asid (va.toNat / 128) j) s

/-- A reduce-on-write (R394 to R398): posted in an order of the lanes that the device does not fix (log 18); the update is
performed later at its place. -/
def redInstr (i : Instr) (sw : Bool) (op : AtOp) (ok : ET → Bool) (d : BitVec 8) (base : BitVec 6) (pol : Pol)
    (x : Option (BitVec 8)) (s : State) : Host.Outcome State Fault Refusal :=
  issueAs false i sw (redUses ok i d x) passCost s (fun c =>
    if pol == .own then c.trapWord .illegalOp
    else
      let ls := c.addrs s base x
      match checkLanes s c (etMemWidth c.et) true ls with
      | some r => r
      | none => .next ((freeOrder s.free ls).foldl (fun s' l => postLane c s.nextId op pol (s.rgroup c.t c.et d.toNat l.1) s' l.1 l.2) s))

/-- REDADD (R395, R396). -/
def execRedadd (sw : Bool) (d : BitVec 8) (base : BitVec 6) (pol : Pol) (x : Option (BitVec 8)) (s : State) :
    Host.Outcome State Fault Refusal :=
  redInstr (.redadd sw d base pol x) sw .add etAtomicAdd d base pol x s

/-- REDMIN (R395, R396). -/
def execRedmin (sw : Bool) (d : BitVec 8) (base : BitVec 6) (pol : Pol) (x : Option (BitVec 8)) (s : State) :
    Host.Outcome State Fault Refusal :=
  redInstr (.redmin sw d base pol x) sw .min etAtomicMinMax d base pol x s

/-- REDMAX (R395, R396). -/
def execRedmax (sw : Bool) (d : BitVec 8) (base : BitVec 6) (pol : Pol) (x : Option (BitVec 8)) (s : State) :
    Host.Outcome State Fault Refusal :=
  redInstr (.redmax sw d base pol x) sw .max etAtomicMinMax d base pol x s

/-- REDOR (R395, R396). -/
def execRedor (sw : Bool) (d : BitVec 8) (base : BitVec 6) (pol : Pol) (x : Option (BitVec 8)) (s : State) :
    Host.Outcome State Fault Refusal :=
  redInstr (.redor sw d base pol x) sw .or etWide d base pol x s

-- ## region instructions (R195)

/-- The region, or PROTECTION where it reaches beyond VA bit 56. -/
def regionOk (base : DWord) (len : Nat) : Bool := base.toNat + len ≤ 2 ^ 57

/-- Cost of INVR (R195): one cycle per line, 2,048 for 256 KiB or more. -/
def invrCost (len : Nat) (base : Nat) : Nat :=
  if len ≥ 262144 then 2048 else max 1 ((base + len + 127) / 128 - base / 128)

/-- Lines a region instruction acts on: those that overlap, or every line of the ASID from 256 KiB on (R195). -/
def regionLine (base len line : Nat) : Bool := len ≥ 262144 || lineOverlaps line base len

/-- INVR (R192, R195). -/
def execInvr (sw : Bool) (d : BitVec 6) (base : BitVec 6) (s : State) : Host.Outcome State Fault Refusal :=
  let i := Instr.invr sw d base
  issueAs false i sw (fun _ => { regOk := wellFormed i })
    (fun c => invrCost (s.rs c.t d.toNat).toNat (s.rpair c.t base.toNat).toNat) s (fun c =>
    let a := s.rpair c.t base.toNat
    let n := (s.rs c.t d.toNat).toNat
    if n == 0 then .next s
    else if !regionOk a n then laneTrap .protection 0 a
    else .next (removeCopies s c.t.coach c.t.asid (regionLine a.toNat n)))

/-- WBR (R195, R197): write back and deregister the coach's registered words of the lines. -/
def execWbr (sw : Bool) (d : BitVec 6) (base : BitVec 6) (s : State) : Host.Outcome State Fault Refusal :=
  let i := Instr.wbr sw d base
  issueCtl i sw [] s (fun c =>
    let a := s.rpair c.t base.toNat
    let n := (s.rs c.t d.toNat).toNat
    if n == 0 then .next s
    else if !regionOk a n then laneTrap .protection 0 a
    else
      let mine := s.l1.filter (fun l => l.coach == c.t.coach && l.asid == c.t.asid && regionLine a.toNat n l.line)
      .next (mine.foldl (fun s l =>
        (List.range 32).foldl (fun s i =>
          match wordBack (l.words.getD i .none) with
          | some (k, v) => setL1Word (acceptWriteback s l.asid l.line i l.coach k v) l.coach l.asid l.line i .none
          | none => s) s) s))

/-- The whole words of a region, as addresses (R195). -/
def regionWords (base len : Nat) : List DWord :=
  let lo := (base + 3) / 4
  (List.range ((base + len) / 4 - lo)).map (fun k => BitVec.ofNat 64 (4 * (lo + k)))

/-- One word of OWNR: registered as an .OWN write that changes no byte; uncached and window words are left (R195). -/
def ownrWord (c : Issue) (s : State) (_ : Nat) (va : DWord) : Except Cause (State × Option (List Word)) :=
  match homeLine s c.t.ctx c.t.comp va.toNat true with
  | .error k => .error k
  | .ok (s, some _) => .ok (s, none)
  | .ok (s, none) =>
    match placeWord s c.t.asid (va.toNat / 128) (wordIndex va.toNat) with
    | .error k => .error k
    | .ok _ =>
      if c.t.sys then .ok (s, none)
      else .ok (registerWord s c.t.ctx c.t.coach c.t.asid (va.toNat / 128) (wordIndex va.toNat), none)

/-- OWNR (R195): steps 2 and 4 to 7 of R176; the region's words are served as one access reported as lane 0. What TADDR
holds for a cause of steps 2 and 4, which concern the whole region, is the model's choice: its base (log 31). -/
def execOwnr (sw : Bool) (d : BitVec 6) (base : BitVec 6) (s : State) : Host.Outcome State Fault Refusal :=
  let i := Instr.ownr sw d base
  issueCtl i sw [] s (fun c =>
    let a := s.rpair c.t base.toNat
    let n := (s.rs c.t d.toNat).toNat
    if n == 0 then .next s
    else if !regionOk a n then laneTrap .protection 0 a
    else if lockHit s c.t.ctx a.toNat n true then laneTrap .rangeLock 0 a
    else if s.posted.any (fun p => p.tid == c.tid && overlaps a.toNat n (localVa s p.ctx p.va) 8) then .hold .line
    else concludeLanes c .ack [] (serve (ownrWord c) s []
      (((regionWords a.toNat n).filter (fun v => !inWindow v)).map (fun v => (0, v)))))

-- ## scratchpad (R411 to R413)

/-- The scratchpad addresses of the lanes (R412). -/
def spadLanes (s : State) (c : Issue) (base : BitVec 6) (x : Option (BitVec 8)) : List (Nat × Word) :=
  c.lanes.map (fun L => (L, spadAddr s c.t base x L))

/-- What a lane reads from its region, the lane known to be legal. -/
def spadRead (s : State) (c : Issue) (w : Nat) (sa : Word) : Nat :=
  match spadRegion s c.t.drove c.t.coach sa with | some h => h.read (spadOffset sa) w | none => 0

/-- SPLD (R412). -/
def execSpld (sw : Bool) (d : BitVec 8) (base : BitVec 6) (x : Option (BitVec 8)) (s : State) :
    Host.Outcome State Fault Refusal :=
  let i := Instr.spld sw d base x
  issueAs false i sw (loadUses i d x) (fun c => spadCost s c.t.drove false (etMemWidth c.et) c.x.mask (spadLanes s c base x)) s
    (fun c =>
      let w := etMemWidth c.et
      let ls := spadLanes s c base x
      match checkSpad s c w false ls with
      | some r => r
      | none => .next (addPending s c (.vec d.toNat (etRegCount c.et))
          (ls.map (fun l => (l.1, valueWords (etRegCount c.et) (extendLoad c.et (spadRead s c w l.2)))))))

/-- SPST (R412): the highest lane of an address writes. -/
def execSpst (sw : Bool) (d : BitVec 8) (base : BitVec 6) (x : Option (BitVec 8)) (s : State) :
    Host.Outcome State Fault Refusal :=
  let i := Instr.spst sw d base x
  issueAs false i sw (storeUses i d x) (fun c => spadCost s c.t.drove false (etMemWidth c.et) c.x.mask (spadLanes s c base x)) s
    (fun c =>
      let w := etMemWidth c.et
      let ls := spadLanes s c base x
      match checkSpad s c w true ls with
      | some r => r
      | none =>
        .next ((keepHighest ls).foldl (fun s' l => spadWrite s' c.t.drove l.2 w (s.rgroup c.t c.et d.toNat l.1).toNat) s))

/-- One update of SPAADD: the state and the old value. -/
def spadAdd (c : Issue) (d : BitVec 8) (s0 : State) (s : State) (l : Nat × Word) : State × (Nat × List Word) :=
  let w := etMemWidth c.et
  let old := BitVec.ofNat 64 (spadRead s c w l.2)
  let new := atomicNew .add c.et (modeFtz c.mode) old (s0.rgroup c.t c.et d.toNat l.1) 0
  (spadWrite s c.t.drove l.2 w new.toNat, (l.1, valueWords (etRegCount c.et) old))

/-- SPAADD (R412): indivisible updates in a free order, each once. -/
def execSpaadd (sw : Bool) (d : BitVec 8) (base : BitVec 6) (x : Option (BitVec 8)) (s : State) :
    Host.Outcome State Fault Refusal :=
  let i := Instr.spaadd sw d base x
  issueAs false i sw (atomicUses etAtomicAdd i d x)
    (fun c => spadCost s c.t.drove true (etMemWidth c.et) c.x.mask (spadLanes s c base x)) s
    (fun c =>
      let ls := spadLanes s c base x
      match checkSpad s c (etMemWidth c.et) true ls with
      | some r => r
      | none =>
        let order := (freeOrder s.free (ls.map (fun l => (l.1, l.2.setWidth 64)))).map (fun l => (l.1, l.2.setWidth 32))
        let (s', vals) := order.foldl (fun (a : State × List (Nat × List Word)) l =>
          let (s', v) := spadAdd c d s a.1 l
          (s', a.2 ++ [v])) (s, [])
        .next (addPending s' c (.vec d.toNat (etRegCount c.et)) vals))

-- ## handles (R365 to R368)

/-- The buffers and regions whose data lies on a coach. -/
def coachBuffers (s : State) (coach : Nat) : List (Nat × Nat) :=
  s.droves.flatMap (fun d => if d.2.train.isNone then []
    else (d.2.handles.filter (fun h => h.2.coach == coach)).map (fun h => (h.2.base, h.2.size)))

/-- The lowest free run of `size` bytes at a multiple of 1,536 on a coach (R179, R365). -/
def freeRun (s : State) (coach size : Nat) : Option Nat :=
  let used := coachBuffers s coach
  let cands := 0 :: used.map (fun u => (u.1 + u.2 + 1535) / 1536 * 1536)
  let fits := cands.filter (fun b => decide (b + size ≤ Config.scratchpadBytes) && used.all (fun u => !overlaps b size u.1 u.2))
  fits.foldl (fun (m : Option Nat) b => match m with | none => some b | some y => some (min y b)) none

/-- The lowest free handle of a drove, 1 to 8,191. -/
def freeHandle (d : Drove) : Option Nat :=
  let used := d.handles.map (·.1)
  ((List.range (used.length + 1)).map (· + 1)).find? (fun h => !used.contains h && decide (h ≤ 8191))

/-- HALLOC (R365). -/
def execHalloc (sw : Bool) (d : BitVec 6) (a : BitVec 6) (s : State) : Host.Outcome State Fault Refusal :=
  issueCtl (.halloc sw d a) sw [d.toNat] s (fun c =>
    let n := (s.rs c.t a.toNat).toNat
    if n == 0 || n > 524288 then c.trapWord .illegalOp
    else
      let size := min ((n + 1535) / 1536 * 1536) 524288
      match s.drove c.t.drove with
      | none => .next (c.put s (c.t.setS d.toNat 0))
      | some dr =>
        match freeHandle dr, freeRun s c.t.coach size with
        | some h, some b =>
          let (seed, s) := s.fresh
          let s := s.modDrove c.t.drove (fun dr =>
            { dr with handles := Store.insert dr.handles h ⟨c.t.coach, b, size, c.t.coach, seed, []⟩ })
          .next (c.put s (c.t.setS d.toNat (BitVec.ofNat 32 (h * 2 ^ 19))))
        | _, _ => .next (c.put s (c.t.setS d.toNat 0)))

/-- The buffer that HPASS and HFREE name (R366, R367). -/
def namedHandle (s : State) (c : Issue) (h : Word) : Option Nat :=
  if spadOffset h != 0 || spadHandle h == 0 then none
  else match s.drove c.t.drove with
    | none => none
    | some d =>
      match Store.find d.handles (spadHandle h) with
      | some b => if b.holder == c.t.coach then some (spadHandle h) else none
      | none => none

/-- HPASS (R366). -/
def execHpass (sw : Bool) (a : BitVec 6) (b : BitVec 6) (s : State) : Host.Outcome State Fault Refusal :=
  issueCtl (.hpass sw a b) sw [] s (fun c =>
    let pos := (s.rs c.t b.toNat).toNat
    let h := s.rs c.t a.toNat
    if pos > 7 then c.trapWord .illegalOp
    else match namedHandle s c h with
      | none => .trap .handle 0 (h.setWidth 64)
      | some n =>
        if !released c.t c.uid false then .hold (.release false)
        else if copyNamesHandle s c.t.drove n then .hold (.handleFree n)
        else .next (s.modDrove c.t.drove (fun dr =>
          { dr with handles := dr.handles.map (fun e =>
              if e.1 == n then (e.1, { e.2 with holder := c.t.coach / 8 * 8 + pos }) else e) })))

/-- HFREE (R367). -/
def execHfree (sw : Bool) (a : BitVec 6) (s : State) : Host.Outcome State Fault Refusal :=
  issueCtl (.hfree sw a) sw [] s (fun c =>
    let h := s.rs c.t a.toNat
    match namedHandle s c h with
    | none => .trap .handle 0 (h.setWidth 64)
    | some n =>
      if !released c.t c.uid false then .hold (.release false)
      else if copyNamesHandle s c.t.drove n then .hold (.handleFree n)
      else .next (s.modDrove c.t.drove (fun dr => { dr with handles := Store.erase dr.handles n })))

end Sys2Proof.Machine
end

