-- ==== Sys2Proof/Machine/Image.lean ====
section
/-! DEFINITION. The register image (spec/04 R109 to R112): the team state block, split records and image lines, their
writing and reading by the hardware under the compartment's key (R110, spec/13 R314), and the image of HSAVE and
HLOAD (spec/15 R369, R371). -/
namespace Sys2Proof.Machine

-- ## words of the image

/-- Mask words 0 to 31, or a mask's summary before them (R111, R112). -/
def maskWords (m : LaneMask) : List Word := (List.range 32).map (maskWord m)
def summaryAndMask (m : LaneMask) : List Word := maskSummary m :: maskWords m
/-- n zero words. -/
def zeros (n : Nat) : List Word := List.replicate n 0

/-- LANEW (R42). -/
def lanewOf (t : Team) : Word := BitVec.ofNat 32 (t.role * 2 ^ 16 + t.w)
/-- XBLK (R106). -/
def xblkOf (t : Team) : Word := BitVec.ofNat 32 (t.pend.toNat * 256 + t.xblk.toNat)
/-- The gang list as 8 bytes, 0xFF for an empty place (R111). -/
def gangWords (t : Team) : List Word :=
  let b (i : Nat) : Nat := t.gang.getD i 255
  [BitVec.ofNat 32 (b 0 + 256 * b 1 + 65536 * b 2 + 16777216 * b 3),
   BitVec.ofNat 32 (b 4 + 256 * b 5 + 65536 * b 6 + 16777216 * b 7)]

/-- Bytes 0x000 to 0x4DF of the state block (R111, R369), with the split count and XBLK given. -/
def blockHead (t : Team) (count : Nat) (xblk : Word) : List Word :=
  (List.range 7).flatMap (fun k => maskWords (Store.get 0 t.preds (k + 1))) ++
  (List.range 64).map t.s ++
  [t.tvec, t.tpc, t.tcause, t.tinfo, t.taddr.setWidth 32, (t.taddr >>> 32).setWidth 32, t.tsa, t.tsb, t.tsca, t.tscb,
   t.events, t.evmask, t.seed, xblk] ++
  gangWords t ++
  [BitVec.ofNat 32 count, BitVec.ofNat 32 t.nextRec, lanewOf t, t.batchCtr, t.bankCtr, t.copyCtr, t.collCtr, t.advisory]

/-- Age rank of a split (R112). -/
def ageRank (t : Team) (uid : Nat) : Nat := (t.splits.takeWhile (fun x => x.uid != uid)).length

/-- Record number of the split in an on-chip entry, 0xFFFF for an empty one (R111, R112). -/
def entryRecord (t : Team) (n : Nat) : Nat :=
  match t.splits.find? (fun x => x.entry == some n) with | some x => ageRank t x.uid | none => 0xFFFF

/-- The record numbers of the on-chip entries 0 to 7, two per word (R111, R112). -/
def onChipWords (t : Team) : List Word :=
  (List.range 4).map (fun i => BitVec.ofNat 32 (entryRecord t (2 * i) + 65536 * entryRecord t (2 * i + 1)))

/-- The replay record (R111). -/
def replayWords (t : Team) : List Word :=
  match t.replay with
  | none => zeros 36
  | some r => [r.word, r.pc, BitVec.ofNat 32 (2 ^ 31 + ageRank t r.split)] ++ summaryAndMask r.lanes

/-- The team state block, 512 words (R111). -/
def stateBlock (t : Team) : List Word :=
  blockHead t t.splits.length (xblkOf t) ++ onChipWords t ++ zeros 4 ++ replayWords t ++ zeros 156

/-- State code of a split (R53, R112). -/
def splitStateCode (s : State) (tid : Nat) (t : Team) (x : Split) : Nat :=
  match x.phase with
  | .joinWait => 2
  | .handler => 3
  | .run => if splitParked s tid t x then 1 else 0

/-- A split record of 160 words (R112), with its rank and state code. -/
def splitRecord (x : Split) (rank code : Nat) : List Word :=
  [x.pc, BitVec.ofNat 32 (rank * 65536 + code), x.mode, BitVec.ofNat 32 (x.cdepth + 65536 * x.jdepth),
   x.gtimeLatch.getD 0, x.cycleLatch.getD 0, x.icount,
   BitVec.ofNat 32 (if x.phase == .handler then x.entryDepth else 0)] ++
  summaryAndMask x.mask ++ zeros 23 ++
  ((x.ret.reverse ++ zeros 64).take 64) ++
  ((x.joins.reverse.flatMap (fun r => [r.pc, BitVec.ofNat 32 (r.depth + 65536 * r.id)]) ++ zeros 32).take 32)

/-- The split records of a team as the hardware writes them: compacted, by age rank (R112). -/
def splitRecords (s : State) (tid : Nat) (t : Team) : List (List Word) :=
  t.splits.map (fun x => splitRecord x (ageRank t x.uid) (splitStateCode s tid t x))

/-- Image line j (R109): 1,024 words of the vector registers. -/
def imageLine (t : Team) (j : Nat) : List Word :=
  (List.range 1024).map (fun i =>
    let seg := 32 * j + i / 32
    t.v (seg / t.m) (32 * (seg % t.m) + i % 32))

-- ## hardware accesses to a context's memory

/-- The key slot of a compartment of a context (R313). -/
def compSlot (s : State) (ctx comp : Nat) : Nat := ((s.ctx ctx).bind (fun c => c.slots[comp]?)).getD 0

/-- In place of a compartment: the page's own key seals the access, which is on no team's behalf (R301, R303). -/
def ownKey : Nat := 15

/-- The address of a hardware access to a frame of the context, whatever compartment the page names: it must be
CACHEABLE, and writable (R110). -/
def hwTranslate (s : State) (ctx comp va : Nat) (write : Bool) : Except Cause (State × Trans) :=
  match rawTrans s ctx va with
  | none => .error .pageNotPresent
  | some t0 =>
    match translate s ctx (pteCmp t0.pte) va write with
    | .error .pageWrite => .error .protection
    | .error c => .error c
    | .ok (s, t) =>
      if pteUncached t.pte || !pteW t.pte then .error .protection
      else if pteTier t.pte == .host || comp == ownKey then .ok (s, t)
      else .ok (s, { t with pte := withKsel t.pte (compSlot s ctx comp) })

/-- The key under which the hardware seals a line of an access (R110, R314): the compartment's, or the page's own. -/
def hwSlot (s : State) (ctx comp : Nat) (l : L2Line) : Nat :=
  if comp == ownKey || l.slot == 0 then l.slot else compSlot s ctx comp

/-- The line of a hardware access at its home slice (R32, R36): a held line is not translated again, but for a write to a clean
page (R172); a missing one is filled from its stack. A held line under another compartment's key fails its tag check (R314). -/
def hwLine (s : State) (ctx comp va : Nat) (write : Bool) : Except (Cause × Nat) (State × L2Line) :=
  let asid := s.asid ctx
  let line := va / 128
  match l2Find s asid line with
  | some l =>
    if !l.w then .error (.protection, va)
    else if !write && comp != ownKey && l.slot != 0 && (s.key l.slot).comp != comp then .error (.integrity, va)
    else if poisoned s asid va then .error (.poison, va)
    else if write && !l.dk then
      match hwTranslate s ctx comp va true with
      | .error c => .error (c, va)
      | .ok (s, _) => .ok (s, { l with dk := true })
    else .ok (s, l)
  | none =>
    match hwTranslate s ctx comp va write with
    | .error c => .error (c, va)
    | .ok (s, t) =>
      match checkSeal s asid va t with
      | .error c => .error (c, va)
      | .ok _ =>
        let l : L2Line := ⟨asid, line, pteKsel t.pte, pteW t.pte, pteCmp t.pte, pteD t.pte || write, false, baseRead s t,
          List.replicate 32 (.u 0), 0, s.free⟩
        .ok (l2Put (noteRequest s t.key (pteLinear t.pte) false) l, l)

/-- Write the words of one 128-byte line at its home slice (R36, R117); an error names the line that failed. A line that
the slice does not hold replaces its bytes in a block that must be under the same keys (R317). -/
def hwWriteLine (s : State) (ctx comp va : Nat) (ws : List Word) : Except (Cause × Nat) State :=
  match hwLine s ctx comp va true with
  | .error c => .error c
  | .ok (s, l) =>
    .ok (modL2 (recallLine s l.asid l.line) l.asid l.line (fun x =>
      { x with data := ws, dirty := true, dk := true, slot := hwSlot s ctx comp l, stamp := s.free }))

/-- Read the words of one 128-byte line at its home slice, registered words at their owners (R36). -/
def hwReadLine (s : State) (ctx comp va : Nat) : Except (Cause × Nat) (State × List Word) :=
  match hwLine s ctx comp va false with
  | .error c => .error c
  | .ok (s, l) =>
    match lineWords s l.asid l.line with
    | .error c => .error (c, va)
    | .ok ws => .ok (s, ws)

/-- Write words from an address, line by line; a part line keeps the other words. `fuel` bounds the lines. -/
def hwWriteWords (s : State) (ctx comp : Nat) : Nat → Nat → List Word → Except (Cause × Nat) State
  | 0, _, _ => .ok s
  | _, _, [] => .ok s
  | fuel + 1, va, ws =>
    let lo := va % 128 / 4
    let n := 32 - lo
    let part := ws.take n
    let old : Except (Cause × Nat) (State × List Word) :=
      if part.length == 32 then .ok (s, []) else hwReadLine s ctx comp (va / 128 * 128)
    match old with
    | .error c => .error c
    | .ok (s, o) =>
      match hwWriteLine s ctx comp (va / 128 * 128) (o.take lo ++ part ++ o.drop (lo + part.length)) with
      | .error c => .error c
      | .ok s => hwWriteWords s ctx comp fuel (va + 4 * part.length) (ws.drop n)

/-- Read n lines from a line address. -/
def hwReadLines (s : State) (ctx comp : Nat) : Nat → Nat → Except (Cause × Nat) (State × List Word)
  | 0, _ => .ok (s, [])
  | n + 1, va =>
    match hwReadLine s ctx comp va with
    | .error c => .error c
    | .ok (s, ws) =>
      match hwReadLines s ctx comp n (va + 128) with
      | .error c => .error c
      | .ok (s, r) => .ok (s, ws ++ r)

/-- Write one image line of a team (R109, R113). -/
def writeImageLine (s : State) (t : Team) (j : Nat) : Except (Cause × Nat) State :=
  hwWriteWords s t.ctx t.comp 32 (imageBase s t + 4096 * j) (imageLine t j)

/-- Write the state block and the split records of a team, compacted (R111, R112). -/
def writeFrame (s : State) (tid : Nat) (t : Team) : Except (Cause × Nat) State :=
  let base := imageBase s t
  match hwWriteWords s t.ctx t.comp 16 (base + 2 ^ 20) (stateBlock t) with
  | .error c => .error c
  | .ok s =>
    let recs := (splitRecords s tid t).flatten
    hwWriteWords s t.ctx t.comp (recs.length / 32 + 2) (base + 2 ^ 20 + 2048) recs

/-- Write the dirty lines of a team, its state block and its split records (R112, R117); the lines are clean. -/
def writeImage (s : State) (tid : Nat) : Except (Cause × Nat) State :=
  match s.team tid with
  | none => .ok s
  | some t =>
    let lines := (t.lines.filter (fun l => l.dirty && l.st != .filling)).map (·.line)
    let afterLines := lines.foldl (fun acc j =>
      match acc with
      | .error c => .error c
      | .ok s => writeImageLine s t j) (Except.ok s)
    match afterLines with
    | .error c => .error c
    | .ok s =>
      match writeFrame s tid t with
      | .error c => .error c
      | .ok s => .ok (s.modTeam tid (fun t => { t with lines := t.lines.map (fun l =>
            if l.st == .filling then l else { l with dirty := false }) }))

/-- Put the words of image line j into the registers they hold (R109). -/
def Team.setImageLine (t : Team) (j : Nat) (ws : List Word) : Team :=
  (List.range 1024).foldl (fun t i =>
    let seg := 32 * j + i / 32
    t.setV (seg / t.m) (32 * (seg % t.m) + i % 32) (ws.getD i 0)) t

-- ## HSAVE and HLOAD images (R369 to R371)

/-- A split as HSAVE records it: a wait of the second kind is recorded RUN, an XACQ that has not been granted and cleared at its
own PC; the issuing split with the next PC and its count after HSAVE (R370). -/
def savedSplit (t : Team) (uid : Nat) (x : Split) : Split :=
  if x.uid == uid then { x with pc := x.pc + 4, icount := x.icount + 1, waits := [] }
  else if x.waits.contains .xacq && !(t.pend == 0 && !t.clearing) then { x with pc := x.pc - 4, icount := x.icount - 1, phase := .run, waits := [] }
  else { x with waits := [] }

/-- The HSAVE image (R369). -/
def hsaveImage (t : Team) (uid : Nat) : List Word :=
  let xs := t.splits.map (savedSplit t uid)
  blockHead t xs.length (BitVec.ofNat 32 t.xblk.toNat) ++ List.replicate 4 (0xFFFFFFFF : Word) ++ zeros 4 ++ zeros 192 ++
  (xs.flatMap (fun x => splitRecord x (ageRank t x.uid)
    (match x.phase with | .run => 0 | .joinWait => 2 | .handler => 3)))

/-- Read-out of an image's words. -/
def imgMask (ws : List Word) (i : Nat) : LaneMask :=
  BitVec.ofNat 1024 ((List.range 32).foldr (fun j a => (ws.getD (i + j) 0).toNat + 2 ^ 32 * a) 0)

/-- The legal gang lists of R207 for a team: empty, or 2 to 8 ids of the drove, different modulo 8, its own among
them. -/
def gangOk (t : Team) (ids : List Nat) : Bool :=
  ids.isEmpty ||
  (decide (2 ≤ ids.length) && ids.all (fun i => decide (i < t.teams)) && ids.contains t.teamId &&
   (ids.map (· % 8)).eraseDups.length == ids.length)

/-- Bytes 0 to 7 of a pair as gang ids: the ids before the first 0xFF, or none where a byte after it is not 0xFF. -/
def gangIds (x : DWord) : Option (List Nat) :=
  let bs := (List.range 8).map (fun i => field x.toNat (8 * i + 7) (8 * i))
  let ids := bs.takeWhile (· != 255)
  if (bs.drop ids.length).all (· == 255) then some ids else none

/-- The stacks of a split record, newest first (R112). -/
def recordReturns (ws : List Word) : List Word := ((ws.drop 64).take (field (ws.getD 3 0).toNat 6 0)).reverse
def recordJoins (ws : List Word) : List JoinRec :=
  ((List.range (field (ws.getD 3 0).toNat 20 16)).map (fun i =>
    JoinRec.mk (ws.getD (128 + 2 * i) 0) (field (ws.getD (129 + 2 * i) 0).toNat 7 0)
      (field (ws.getD (129 + 2 * i) 0).toNat 31 16))).reverse

/-- The registers of a team from the words of its state block (R111): predicates, scalars, specials, gang list, next
join-record id, counters and advisory source. Bits that their registers do not hold are dropped: TCAUSE[31:8] (R290),
TSA[4:0] and TSB[4:0], EVENTS and EVMASK above bit 0, and TVEC[1:0], which no instruction can set (R71, log 78). -/
def Team.setBlock (t : Team) (ws : List Word) (gang : List Nat) : Team :=
  { t with
    preds := (List.range 7).foldl (fun m k => Store.put 0 m (k + 1) (imgMask ws (32 * k))) []
    scalars := (List.range 63).foldl (fun m k => Store.put 0 m (k + 1) (ws.getD (225 + k) 0)) []
    tvec := ws.getD 288 0 &&& 0xFFFFFFFC, tpc := ws.getD 289 0, tcause := ws.getD 290 0 &&& 0xFF, tinfo := ws.getD 291 0
    taddr := ws.getD 293 0 ++ ws.getD 292 0
    tsa := ws.getD 294 0 &&& 0xFFFFFFE0, tsb := ws.getD 295 0 &&& 0xFFFFFFE0
    tsca := ws.getD 296 0, tscb := ws.getD 297 0
    events := ws.getD 298 0 &&& 1, evmask := ws.getD 299 0 &&& 1, seed := ws.getD 300 0
    gang := gang, gangRank := gang.findIdx (· == t.teamId)
    nextRec := (ws.getD 305 0).toNat
    batchCtr := ws.getD 307 0, bankCtr := ws.getD 308 0, copyCtr := ws.getD 309 0, collCtr := ws.getD 310 0
    advisory := ws.getD 311 0 }

/-- One split record read back (R112, R371), or none when a check fails; a bit that R112 gives no field must be zero, as a
reserved byte must (log 93). -/
def parseSplit (t : Team) (ws : List Word) : Option Split :=
  let g (i : Nat) : Nat := (ws.getD i 0).toNat
  let cd := field (g 3) 6 0
  let jd := field (g 3) 20 16
  let mask := imgMask ws 9
  let code := field (g 1) 2 0
  let phase := match code with | 0 => some Phase.run | 2 => some .joinWait | 3 => some .handler | _ => none
  let rets := recordReturns ws
  let joins := recordJoins ws
  let aligned (w : Word) : Bool := w.extractLsb' 0 2 == 0
  match phase with
  | none => none
  | some ph =>
    if field (g 1) 15 3 == 0 && field (g 3) 15 7 == 0 && field (g 3) 31 21 == 0 && field (g 7) 31 7 == 0 &&
        (ph == .handler || g 7 == 0) && decide (cd ≤ 64) && decide (jd ≤ 16) &&
        (List.range 23).all (fun i => g (41 + i) == 0) && mask != 0 && mask.toNat < 2 ^ t.w &&
        ws.getD 8 0 == maskSummary mask && aligned (ws.getD 0 0) && rets.all aligned &&
        joins.all (fun r => aligned r.pc) && (List.range jd).all (fun i => field (g (129 + 2 * i)) 15 8 == 0) then
      some { Split.fresh 0 (ws.getD 0 0) mask with
             mode := ws.getD 2 0, phase := ph, ret := rets, joins := joins, gtimeLatch := some (ws.getD 4 0),
             cycleLatch := some (ws.getD 5 0), icount := ws.getD 6 0, entryDepth := field (g 7) 6 0, entry := none }
    else none

/-- All the split records of an image, or none. -/
def parseSplits (t : Team) : Nat → List Word → Option (List Split)
  | 0, _ => some []
  | n + 1, ws =>
    match parseSplit t (ws.take 160), parseSplits t n (ws.drop 160) with
    | some x, some r => some (x :: r)
    | _, _ => none

/-- No two masks share a lane. -/
def disjointMasks : List Split → Bool
  | [] => true
  | x :: r => r.all (fun y => x.mask &&& y.mask == 0) && disjointMasks r

/-- The team that HLOAD installs (R371), or none when a check of the image fails. -/
def hloadTeam (t : Team) (ws : List Word) : Option Team :=
  let n := (ws.getD 304 0).toNat
  let gang := gangIds (ws.getD 303 0 ++ ws.getD 302 0)
  match parseSplits t n (ws.drop 512), gang with
  | some xs, some ids =>
    if n != 0 && decide (n ≤ t.w) && ws.getD 306 0 == lanewOf t && ws.getD 301 0 == BitVec.ofNat 32 t.xblk.toNat &&
        decide ((xs.filter (fun x => x.phase == .handler)).length ≤ 1) && disjointMasks xs && gangOk t ids &&
        ws.getD 224 0 == 0 && ((ws.getD 298 0).getLsbD 0 || ws.getD 311 0 == 0) && (List.range 4).all (fun i => ws.getD (316 + i) 0 == 0) &&
        (List.range 192).all (fun i => ws.getD (320 + i) 0 == 0) then
      let xs := xs.zipIdx.map (fun (e : Split × Nat) =>
        { e.1 with uid := t.nextUid + e.2, entry := if e.2 < 8 then some e.2 else none, entryAt := t.issues })
      some { t.setBlock ws ids with splits := xs, nextUid := t.nextUid + n }
    else none
  | _, _ => none

-- ## the state frame on its way back (R114)

/-- A code address without its bits 1:0 (R71, log 78). -/
def codeAligned (w : Word) : Word := w &&& 0xFFFFFFFC

/-- The waits that a split keeps when its record says a state (R53, R112): what it waits for is not in the image, and a record
in another state than the split's ends its waits. `parked` says whether the split is PARKED now. -/
def Split.keptWaits (x : Split) (parked : Bool) (code : Nat) : List Wait :=
  match x.phase with
  | .run => if code == 1 || (code == 0 && !parked) then x.waits else []
  | .joinWait => if code == 2 then x.waits else []
  | .handler => if code == 3 then x.waits else []

/-- A split with what its record holds; what R284 to R287 count is not in the image. -/
def Split.setRecord (x : Split) (parked : Bool) (ws : List Word) : Split :=
  let latch (old : Option Word) (w : Word) : Option Word := if old.getD 0 == w then old else some w
  let code := field (ws.getD 1 0).toNat 2 0
  { x with
    pc := codeAligned (ws.getD 0 0)
    mask := imgMask ws 9
    mode := ws.getD 2 0
    phase := match code with | 2 => .joinWait | 3 => .handler | _ => .run
    waits := x.keptWaits parked code
    ret := (recordReturns ws).map codeAligned
    joins := (recordJoins ws).map (fun r => { r with pc := codeAligned r.pc })
    gtimeLatch := latch x.gtimeLatch (ws.getD 4 0)
    cycleLatch := latch x.cycleLatch (ws.getD 5 0)
    icount := ws.getD 6 0
    entryDepth := field (ws.getD 7 0).toNat 6 0 }

/-- The splits of a team from n records: record j is the split of age rank j, in the on-chip entry that names j (R111,
R112). -/
def loadSplits (s : State) (tid : Nat) (t : Team) (n : Nat) (ws : List Word) : List Split :=
  let onChip := (List.range 8).map (fun e => field (ws.getD (312 + e / 2) 0).toNat (16 * (e % 2) + 15) (16 * (e % 2)))
  (List.range n).map (fun j =>
    let x := t.splits.getD j { Split.fresh (t.nextUid + j) 0 0 with entryAt := t.issues }
    let y := x.setRecord (splitParked s tid t x) ((ws.drop (512 + 160 * j)).take 160)
    { y with entry := (List.range 8).find? (fun e => onChip.getD e 0xFFFF == j) })

/-- The replay record of a state block (R111): valid, and of one of the splits. -/
def loadReplay (xs : List Split) (ws : List Word) : Option Replay :=
  let f := (ws.getD 322 0).toNat
  match xs[field f 15 0]? with
  | some x => if f.testBit 31 then some ⟨ws.getD 320 0, codeAligned (ws.getD 321 0), x.uid, imgMask ws 324⟩ else none
  | none => none

/-- A team with what its state block and its split records hold (R111, R112). A count that no team can have leaves the splits
that it had (log 90). -/
def Team.setFrame (s : State) (tid : Nat) (t : Team) (ws : List Word) : Team :=
  let count := (ws.getD 304 0).toNat
  let n := if count == 0 || decide (t.w < count) then t.splits.length else count
  let xs := loadSplits s tid t n ws
  let xblk := ws.getD 301 0
  let waiting := xs.any (fun x => x.waits.contains .xacq)
  { t.setBlock ws ((gangIds (ws.getD 303 0 ++ ws.getD 302 0)).getD t.gang) with
    frame := .inUse
    splits := xs
    nextUid := t.nextUid + n
    xblk := xblk.extractLsb' 0 3 &&& t.allowed
    pend := if waiting then xblk.extractLsb' 8 3 &&& t.allowed else 0
    replay := loadReplay xs ws
    events := (ws.getD 298 0 &&& 1) ||| t.events
    advisory := if t.events.getLsbD 0 && !(ws.getD 298 0).getLsbD 0 then t.advisory else ws.getD 311 0 }

/-- Load a team's frame and its split records from its image (R111, R112, R114): what the image says holds, whoever wrote
it there while the team was not placed; an advisory that came while the frame was only there is pending too (R296). -/
def loadFrame (s : State) (tid : Nat) : Except (Cause × Nat) State :=
  match s.team tid with
  | none => .ok s
  | some t =>
    match hwReadLines s t.ctx t.comp 16 (imageBase s t + 2 ^ 20) with
    | .error c => .error c
    | .ok (s, head) =>
      let count := (head.getD 304 0).toNat
      let n := if count == 0 || decide (t.w < count) then t.splits.length else count
      match hwReadLines s t.ctx t.comp (5 * n) (imageBase s t + 2 ^ 20 + 2048) with
      | .error c => .error c
      | .ok (s, recs) => .ok (s.setTeam tid (t.setFrame s tid (head ++ recs)))

/-- The frame of a team that does not run has changed on its coach: the image no longer has what it holds (R114). -/
def Team.touchFrame (t : Team) : Team :=
  match t.frame with
  | .evictable c _ stamp => { t with frame := .evictable c true stamp }
  | .inUse | .image => t

end Sys2Proof.Machine
end

