-- ==== Sys2Proof/Machine/Control.lean ====
section
/-! DEFINITION. Control and team instructions (spec/03 R86; entries R357 to R360, R363, R364, R372, R374, R375,
R383 to R385, R393, R399, R400; spec/02 R51 to R64; spec/04 R107, R108, R117; spec/08 R207; spec/10 R264; spec/11
R276; spec/12 R293 to R295; spec/13 R319, R321). -/
namespace Sys2Proof.Machine

-- ## moves of a split

/-- NOP (R76). -/
def execNop (sw : Bool) (s : State) : Host.Outcome State Fault Refusal :=
  issueCtl (.nop sw) sw [] s (fun _ => .next s)

/-- A taken branch of the spin detector's kind: its offset lies between -15 and 0 words (R286). -/
def spinOffset (pc target : Word) : Bool := let d := (pc - target).toNat; d % 4 == 0 && decide (d ≤ 60)

/-- A taken branch as the spin detector sees it (R286): the end of an iteration of the watched loop, the start of another
watch, or a different branch. A branch taken forward, or further back than 15 words, is a different branch too: it ends the
count and starts no watch (DESIGN CHOICE, log 98). -/
def branchSpin (x : Split) (target : Word) : Split :=
  match x.spin with
  | some sp =>
    if sp.watching && sp.target == target && sp.branch == x.pc then { x with spin := some (spinIterate sp) }
    else if spinOffset x.pc target then { x with spin := some (spinWatch x.spin target x.pc) }
    else { x with spin := (spinRestart (some sp)).map (fun w => { w with cur := sp.cur }) }
  | none => if spinOffset x.pc target then { x with spin := some (spinWatch none target x.pc) } else x

/-- The whole split branches. -/
def takeBranch (s : State) (c : Issue) (target : Word) : Res :=
  .goto (c.put s (c.t.modSplit c.uid (fun x => branchSpin x target))) target

/-- BRA (R358). -/
def execBra (sw : Bool) (off : BitVec 24) (s : State) : Host.Outcome State Fault Refusal :=
  issueCtl (.bra sw off) sw [] s (fun c => takeBranch s c (targetJ c.x.pc off))

/-- c[L] of BRP over the active lanes (R359). -/
def brpTrue (c : Issue) (neg : Bool) (p : BitVec 3) : LaneMask :=
  c.x.mask &&& (if neg then ~~~(c.t.p p.toNat) else c.t.p p.toNat)

/-- A new split divided from the issuing one (R55, R64, R81, R96, R138): copies of its stacks, MODE, latches and of
the count after the dividing instruction; the youngest of the team. Its parent's pending writes are of earlier
instructions in its program order too (R122, R188; log 75). -/
def divideSplit (s : State) (tid : Nat) (t : Team) (x : Split) (mask : LaneMask) (pc : Word) : Team :=
  let uid := t.nextUid
  let y : Split := { x with
    uid := uid
    mask := mask
    pc := pc
    icount := x.icount + 1
    waits := []
    dueAt := 0
    demoted := none
    spin := none }
  arrive 17 (sharePending (addSplit (splitParked s tid t) t y) x.uid uid) uid

/-- BRP.DIV (R55, R359). -/
def execBrpDiv (sw : Bool) (neg : Bool) (p : BitVec 3) (imm : BitVec 16) (s : State) :
    Host.Outcome State Fault Refusal :=
  issueCtl (.brpDiv sw neg p imm) sw [] s (fun c =>
    if c.x.phase == .handler then c.trapWord .illegalOp
    else
      let target := targetK c.x.pc imm
      let tr := brpTrue c neg p
      let fl := c.x.mask &&& ~~~tr
      if fl == 0 then takeBranch s c target
      else if tr == 0 then .next s
      else
        let t := c.t.modSplit c.uid (fun x => { x with mask := fl, spin := spinRestart x.spin })
        .next (c.put s (divideSplit s c.tid t c.x tr target)))

/-- BRP.ANY (R359). -/
def execBrpAny (sw : Bool) (neg : Bool) (p : BitVec 3) (imm : BitVec 16) (s : State) :
    Host.Outcome State Fault Refusal :=
  issueCtl (.brpAny sw neg p imm) sw [] s (fun c =>
    if brpTrue c neg p != 0 then takeBranch s c (targetK c.x.pc imm) else .next s)

/-- BRP.ALL (R359). -/
def execBrpAll (sw : Bool) (neg : Bool) (p : BitVec 3) (imm : BitVec 16) (s : State) :
    Host.Outcome State Fault Refusal :=
  issueCtl (.brpAll sw neg p imm) sw [] s (fun c =>
    if brpTrue c neg p == c.x.mask then takeBranch s c (targetK c.x.pc imm) else .next s)

/-- BRP.NONE (R359). -/
def execBrpNone (sw : Bool) (neg : Bool) (p : BitVec 3) (imm : BitVec 16) (s : State) :
    Host.Outcome State Fault Refusal :=
  issueCtl (.brpNone sw neg p imm) sw [] s (fun c =>
    if brpTrue c neg p == 0 then takeBranch s c (targetK c.x.pc imm) else .next s)

/-- The next join-record id that no live record of the team holds (R374), from n on. -/
def freshRecord (t : Team) : Nat → Nat → Nat
  | 0, n => n % 65536
  | k + 1, n => if t.splits.any (·.memberOf (n % 65536)) then freshRecord t k (n + 1) else n % 65536

/-- JOINAT (R58, R374). -/
def execJoinat (sw : Bool) (imm : BitVec 16) (s : State) : Host.Outcome State Fault Refusal :=
  issueCtl (.joinat sw imm) sw [] s (fun c =>
    if c.x.phase == .handler then c.trapWord .illegalOp
    else if c.x.jdepth == 16 then c.trapInfo .stack 2
    else
      let id := freshRecord c.t (16 * c.t.splits.length) c.t.nextRec
      let t := c.t.modSplit c.uid (fun x => { x with joins := ⟨targetK c.x.pc imm, x.cdepth, id⟩ :: x.joins })
      .next (c.put s { t with nextRec := (id + 1) % 65536 }))

/-- Push a return address and move (R360). -/
def callTo (s : State) (c : Issue) (target : Word) : Res :=
  if c.x.cdepth == 64 then c.trapInfo .stack 0
  else .goto (c.put s (c.t.modSplit c.uid (fun x => { x with ret := (c.x.pc + 4) :: x.ret }))) target

/-- CALL (R360). -/
def execCall (sw : Bool) (off : BitVec 24) (s : State) : Host.Outcome State Fault Refusal :=
  issueCtl (.call sw off) sw [] s (fun c => callTo s c (targetJ c.x.pc off))

/-- A code address from a register or table that is not a multiple of 4 (R71, R291). -/
def codeMisalign (c : Issue) (v : Word) : Res := .trap .misalign 0x80000000 (c.t.codeHi ++ v)

/-- CALLI (R360). -/
def execCalli (sw : Bool) (a : BitVec 6) (s : State) : Host.Outcome State Fault Refusal :=
  issueCtl (.calli sw a) sw [] s (fun c =>
    let v := s.rs c.t a.toNat
    if v.extractLsb' 0 2 != 0 then codeMisalign c v else callTo s c v)

/-- RET (R60, R400): the records above the new depth are popped, and the split counts as exited for them. -/
def execRet (sw : Bool) (s : State) : Host.Outcome State Fault Refusal :=
  issueCtl (.ret sw) sw [] s (fun c =>
    match c.x.ret with
    | [] => c.trapInfo .stack 1
    | r :: rest =>
      let gone := c.x.joins.takeWhile (fun j => decide (j.depth > rest.length))
      let t := c.t.modSplit c.uid (fun x => { x with ret := rest, joins := x.joins.drop gone.length })
      let t := leavePending t c.uid (gone.map (·.id))
      .goto (c.put s (gone.foldl (fun t j => settleRecord t j.id) t)) r)

/-- EXIT (R61, R364): the split's lanes leave the team. -/
def execExit (sw : Bool) (s : State) : Host.Outcome State Fault Refusal :=
  issueCtl (.exit sw) sw [] s (fun c => .done (c.put s (exitSplit c.t c.uid)))

/-- TRAPI (R293). -/
def execTrapi (sw : Bool) (imm : BitVec 16) (s : State) : Host.Outcome State Fault Refusal :=
  issueCtl (.trapi sw imm) sw [] s (fun c => .trap .trapSw (imm.setWidth 32) c.fullPc)

/-- RETT (R295). -/
def execRett (sw : Bool) (s : State) : Host.Outcome State Fault Refusal :=
  issueCtl (.rett sw) sw [] s (fun c =>
    if c.x.phase != .handler then c.trapWord .illegalOp
    else if c.x.cdepth != c.x.entryDepth then c.trapInfo .stack 3
    else if c.t.tpc.extractLsb' 0 2 != 0 then codeMisalign c c.t.tpc
    else
      let ws := if sw && pendingOf c.t c.uid then [Wait.switch] else []
      let t := c.t.modSplit c.uid (fun x => { x with icount := x.icount + 1, waits := ws })
      .done (c.put s (leaveHandler t c.uid)))

-- ## tables

/-- Distinct values of a list, ascending. -/
def insertSortedNat (n : Nat) : List Nat → List Nat
  | [] => [n]
  | x :: r => if n < x then n :: x :: r else if n == x then x :: r else x :: insertSortedNat n r
def distinctSorted (xs : List Nat) : List Nat := xs.foldl (fun a x => insertSortedNat x a) []

/-- Ask other members for words that an instruction itself needs, each once, under its request type; the instruction is held
(R159). -/
def awaitWords (s : State) (c : Issue) (pol : Pol) (vas : List DWord) : Res :=
  let asked := c.t.pending.map (fun p => p.dest)
  let s := (vas.filter (fun v => !asked.contains (.word v.toNat))).foldl (fun s v =>
    match route s c.t.ctx v .wt with
    | .away i => sendRemote s c i v 4 (match pol with | .nc => .nc | _ => .wt) .read .n32 (.word v.toNat) [0]
    | _ => s) s
  .fault (s.modTeam c.tid (fun t => t.modSplit c.uid (fun x =>
    { x with waits := [.switch], parkedAt := s.clk.cycle.toNat })))

/-- A word the instruction needs, at the place of a load of this request type, or as another member has sent it. -/
def needWord (c : Issue) (pol : Pol) (s : State) (_ : Nat) (va : DWord) : Except Cause (State × Option (List Word)) :=
  match Store.find c.t.remoteWords va.toNat with
  | some v => .ok (s, some [v])
  | none =>
    match route s c.t.ctx va pol with
    | .here a p _ =>
      match perform s c.agent a 4 (c.pol p) .read .n32 false with
      | .error k => .error k
      | .ok (s, m) => .ok (s, some [splitWord m 0])
    | _ => .error .protection

/-- The words that are still with another member. -/
def missingWords (s : State) (c : Issue) (vas : List DWord) : List DWord :=
  vas.filter (fun v => (Store.find c.t.remoteWords v.toNat).isNone &&
    (match route s c.t.ctx v .wt with | .away _ => true | _ => false))

/-- JTAB (R64, R375). -/
def execJtab (sw : Bool) (d : BitVec 6) (a : BitVec 8) (b : BitVec 6) (s : State) :
    Host.Outcome State Fault Refusal :=
  let i := Instr.jtab sw d a b
  issueAs false i sw (fun _ => { vr := [a.toNat], regOk := wellFormed i }) oneCycle s (fun c =>
    let n := (s.rs c.t d.toNat).toNat
    let idx := c.active.map (fun L => (L, (s.rv c.t a.toNat L).toNat))
    match idx.find? (fun e => decide (e.2 ≥ n)) with
    | some e => c.trapInfo .tableRange (BitVec.ofNat 32 e.1)
    | none =>
      let tb := s.rpair c.t b.toNat
      if tb.toNat % 4 != 0 then .trap .misalign 0 tb
      else
        let es := distinctSorted (idx.map (·.2))
        let firsts := keepFirst idx
        let ls : List (Nat × DWord) := firsts.map (fun e => (e.1, tb + BitVec.ofNat 64 (4 * e.2)))
        match checkLanes s c 4 false ls with
        | some r => r
        | none =>
          let away := missingWords s c (ls.map (·.2))
          if !away.isEmpty then awaitWords s c .si away
          else if postedLine s c.tid ls then .hold .line
          else
            let sv := serve (needWord c .si) s [] ls
            match sv.stop with
            | some (k, L, va) =>
              if causeParks k then
                .fault (sv.s.modTeam c.tid (fun t =>
                  { t with parked := true, fault := some (L, va), replay := some ⟨c.word, c.x.pc, c.uid, c.x.mask⟩ }))
              else .fault (laneHalt sv.s c k L va)
            | none =>
              let read := (firsts.map (·.2)).zip (sv.vals.map (fun v => v.2.getD 0 0))
              let targets := es.map (fun e => (e, ((read.find? (fun r => r.1 == e)).map (·.2)).getD 0))
              match targets.find? (fun e => e.2.extractLsb' 0 2 != 0) with
              | some e => codeMisalign c e.2
              | none =>
                let distinct := (targets.map (·.2)).eraseDups
                let s := sv.s.modTeam c.tid (fun t => { t with replay := none, remoteWords := [] })
                let lanesOfEntry (e : Nat) : LaneMask :=
                  (idx.filter (fun x => x.2 == e)).foldl (fun m x => m ||| (1#1024 <<< x.1)) 0
                match targets with
                | [] => .next s
                | (e0, t0) :: rest =>
                  if c.x.phase == .handler then
                    if distinct.length > 1 then c.trapWord .illegalOp else .goto s t0
                  else
                    let s := s.modTeam c.tid (fun t =>
                      if rest.isEmpty then t
                      else t.modSplit c.uid (fun x => { x with mask := lanesOfEntry e0, spin := spinRestart x.spin }))
                    .goto (s.modTeam c.tid (fun t =>
                      rest.foldl (fun t e => divideSplit s c.tid t c.x (lanesOfEntry e.1) e.2) t)) t0)

-- ## item queues (R49 to R52)

/-- Items of a queue. -/
def queueItems (d : Drove) (pos q : Nat) : List Word := ((Store.find d.queues (4 * pos + q)).map (·.2)).getD []
/-- Head index of a queue (R50). -/
def queueHead (d : Drove) (pos q : Nat) : Nat := ((Store.find d.queues (4 * pos + q)).map (·.1)).getD 0

/-- The drove claims item queues (R49). -/
def claimsQueues (s : State) (drove : Nat) : Bool := ((s.drove drove).map (·.iq)).getD false

/-- IPUSH (R51, R372). It takes a pass for each mask word, as REFILL does and as JTAB, BKRUN and BKREAD do not: R40 does not
say which the per-lane instructions of R86 and R90 are (log 100). -/
def execIpush (sw : Bool) (a : BitVec 8) (q : BitVec 2) (pos : BitVec 3) (s : State) :
    Host.Outcome State Fault Refusal :=
  issueAs false (.ipush sw a q pos) sw (fun _ => { vr := [a.toNat], mode := .guard }) passCost s (fun c =>
    if !claimsQueues s c.t.drove then c.trapWord .illegalOp
    else
      let vals := c.lanes.map (fun L => s.rv c.t a.toNat L)
      if vals.isEmpty then .next s
      else if !roomFor s c.t.drove pos.toNat q.toNat vals.length then .hold (.room pos.toNat q.toNat vals.length)
      else .next (s.modDrove c.t.drove (fun d => { d with
        queues := Store.insert d.queues (4 * pos.toNat + q.toNat)
          (queueHead d pos.toNat q.toNat, queueItems d pos.toNat q.toNat ++ vals) })))

/-- The lanes that a REFILL serves, with their items (R52): the finished ones, ascending, as far as the queue goes. -/
def refillGot (s : State) (c : Issue) (p : BitVec 3) (q : BitVec 2) : List (Nat × Word) :=
  match s.drove c.t.drove with
  | none => []
  | some dr => (lanesOf c.t.w (c.x.mask &&& c.t.p p.toNat)).zip (queueItems dr (c.t.coach % 8) q.toNat)

/-- REFILL (R52, R399): the pops are one unbroken run; lanes without an item retire. -/
def execRefill (sw : Bool) (d : BitVec 8) (p : BitVec 3) (q : BitVec 2) (s : State) :
    Host.Outcome State Fault Refusal :=
  issueAs false (.refill sw d p q) sw (fun c =>
      { vw := [d.toNat], pw := [p.toNat]
        wrote := some ((refillGot s c p q).foldl (fun m e => m ||| (1#1024 <<< e.1)) 0) }) passCost s (fun c =>
    match s.drove c.t.drove with
    | none => c.trapWord .illegalOp
    | some dr =>
      if !dr.iq then c.trapWord .illegalOp
      else
        let pos := c.t.coach % 8
        let fin := lanesOf c.t.w (c.x.mask &&& c.t.p p.toNat)
        let items := queueItems dr pos q.toNat
        let got := refillGot s c p q
        let retired := (fin.drop items.length).foldl (fun m L => m ||| (1#1024 <<< L)) (0 : LaneMask)
        let s := s.modDrove c.t.drove (fun dr => { dr with
          queues := Store.insert dr.queues (4 * pos + q.toNat)
            ((queueHead dr pos q.toNat + got.length) % 4096, items.drop got.length) })
        let t := got.foldl (fun (t : Team) e => t.setV d.toNat e.1 e.2) c.t
        let t := t.mergeP p.toNat (got.foldl (fun m e => m ||| (1#1024 <<< e.1)) 0) 0
        let mask := c.x.mask &&& ~~~retired
        if mask == 0 then .done (c.put s (exitSplit t c.uid))
        else .next (c.put s (t.modSplit c.uid (fun x => { x with mask := mask }))))

-- ## MODE and specials

/-- MODEI.LO (R82). -/
def execModeiLo (sw : Bool) (imm : BitVec 16) (s : State) : Host.Outcome State Fault Refusal :=
  issueAs false (.modeiLo sw imm) sw (fun _ => { spec := [0] }) oneCycle s (fun c =>
    .next (c.put s (c.t.modSplit c.uid (fun x => { x with mode := x.mode.extractLsb' 16 16 ++ imm }))))

/-- MODEI.HI (R82). -/
def execModeiHi (sw : Bool) (imm : BitVec 16) (s : State) : Host.Outcome State Fault Refusal :=
  issueAs false (.modeiHi sw imm) sw (fun _ => { spec := [0] }) oneCycle s (fun c =>
    .next (c.put s (c.t.modSplit c.uid (fun x => { x with mode := imm ++ x.mode.extractLsb' 0 16 }))))

/-- COACHID[8:0] (R22, R23). A system coach has none: the model reads its die, train 0 and its number there (log 76). -/
def coachNumber (coach : Nat) : Nat := if coach < Config.coaches then coach else 128 * dieOf coach + coach % 2

/-- The value of a special (R23, R42, R95, R384). -/
def specialValue (s : State) (c : Issue) (n : Nat) : Word :=
  let t := c.t
  match n with
  | 0x00 => c.x.mode
  | 0x01 => lanewOf t
  | 0x02 => BitVec.ofNat 32 t.teamId
  | 0x03 => BitVec.ofNat 32 t.droveId
  | 0x04 => BitVec.ofNat 32 t.stage
  | 0x05 => BitVec.ofNat 32 (t.member * 2 ^ 18 + coachNumber t.coach)
  | 0x06 => BitVec.ofNat 32 (t.ptrain * 256 + coachNumber t.coach / 8)
  | 0x07 => s.clk.gtime.setWidth 32
  | 0x08 => c.x.gtimeLatch.getD 0
  | 0x09 => s.clk.cycle.setWidth 32
  | 0x0A => c.x.cycleLatch.getD 0
  | 0x0B => t.tvec
  | 0x0C => t.tpc
  | 0x0D => t.tcause
  | 0x0E => t.tinfo
  | 0x0F => t.taddr.setWidth 32
  | 0x10 => (t.taddr >>> 32).setWidth 32
  | 0x11 => BitVec.ofNat 32 (t.gangRank * 256 + t.gang.length)
  | 0x12 => t.tsa
  | 0x13 => t.tsb
  | 0x14 => t.tsca
  | 0x15 => t.tscb
  | 0x16 => t.events
  | 0x17 => t.evmask
  | 0x18 => t.seed
  | 0x19 => xblkOf t
  | 0x1A => BitVec.ofNat 32 (c.x.jdepth * 65536 + c.x.cdepth)
  | 0x1B => BitVec.ofNat 32 t.ctx
  | 0x1C => BitVec.ofNat 32 t.asid
  | 0x1D => BitVec.ofNat 32 t.droves
  | 0x1E => BitVec.ofNat 32 t.teams
  | _ => BitVec.ofNat 32 t.node

/-- MFS (R96, R384): a read of a _LO counter sets the split's latch. -/
def execMfs (sw : Bool) (d : BitVec 6) (a : BitVec 5) (s : State) : Host.Outcome State Fault Refusal :=
  issueCtl (.mfs sw d a) sw [d.toNat] s (fun c =>
    let t := c.t.setS d.toNat (specialValue s c a.toNat)
    let t := match a.toNat with
      | 0x07 => t.modSplit c.uid (fun x => { x with gtimeLatch := some ((s.clk.gtime >>> 32).setWidth 32) })
      | 0x09 => t.modSplit c.uid (fun x => { x with cycleLatch := some ((s.clk.cycle >>> 32).setWidth 32) })
      | _ => t
    .next (c.put s t))

/-- The specials that MTS may write (R95, R385). -/
def specialWritable (n : Nat) : Bool :=
  [0x00, 0x0B, 0x0C, 0x12, 0x13, 0x14, 0x15, 0x16, 0x17, 0x18].contains n

/-- Write a special (R385). -/
def writeSpecial (t : Team) (uid n : Nat) (x : Word) : Team :=
  match n with
  | 0x00 => t.modSplit uid (fun y => { y with mode := x })
  | 0x0B => { t with tvec := x }
  | 0x0C => { t with tpc := x }
  | 0x12 => { t with tsa := x &&& 0xFFFFFFE0 }
  | 0x13 => { t with tsb := x &&& 0xFFFFFFE0 }
  | 0x14 => { t with tsca := x }
  | 0x15 => { t with tscb := x }
  | 0x16 => if x.getLsbD 0 then { t with events := t.events &&& 0xFFFFFFFE, advisory := 0 } else t
  | 0x17 => { t with evmask := x &&& 1 }
  | 0x18 => { t with seed := x }
  | _ => t

/-- MTS (R385). -/
def execMts (sw : Bool) (d : BitVec 5) (a : BitVec 6) (s : State) : Host.Outcome State Fault Refusal :=
  issueAs false (.mts sw d a) sw (fun _ => { spec := [d.toNat], regOk := specialWritable d.toNat }) oneCycle s (fun c =>
    let x := s.rs c.t a.toNat
    if (d == 0x0B || d == 0x0C) && x.extractLsb' 0 2 != 0 then codeMisalign c x
    else .next (c.put s (writeSpecial c.t c.uid d.toNat x)))

-- ## barriers (R181)

/-- Checks of a barrier address (R357, R393). -/
def barrierTrap (s : State) (c : Issue) (sa : Word) : Option Res :=
  if sa.toNat % 8 != 0 then some (.trap .misalign 0 (sa.setWidth 64))
  else if spadHandle sa != 0 || decide (spadOffset sa ≥ commonSize s c.t.drove) then
    some (.trap .handle 0 (sa.setWidth 64))
  else none

/-- REMAIN of a barrier word is 0: the program error of R181. -/
def barrierSpent (s : State) (drove off : Nat) : Bool :=
  match (s.drove drove).bind (fun d => Store.find d.handles 0) with
  | some h => field (h.read off 8) 31 0 == 0
  | none => false

/-- ARRIVE (R181, R357). -/
def execArrive (sw : Bool) (d : BitVec 6) (a : BitVec 6) (s : State) : Host.Outcome State Fault Refusal :=
  issueCtl (.arrive sw d a) sw [d.toNat] s (fun c =>
    let sa := s.rs c.t a.toNat
    match barrierTrap s c sa with
    | some r => r
    | none =>
      if !released c.t c.uid false then .hold (.release false)
      else
        let ph := if barrierSpent s c.t.drove sa.toNat then Config.freeWord s.free 3 0
          else if phaseOf s c.t.drove sa.toNat then 1 else 0
        let (s', _) := arrivalOn s c.t.drove sa.toNat
        .next (s'.modTeam c.tid (fun t => t.setS d.toNat ph)))

/-- PWAIT (R393). -/
def execPwait (sw : Bool) (a : BitVec 6) (b : BitVec 6) (s : State) : Host.Outcome State Fault Refusal :=
  issueCtl (.pwait sw a b) sw [] s (fun c =>
    let sa := s.rs c.t a.toNat
    let ph := s.rs c.t b.toNat
    if ph.toNat > 1 then c.trapWord .illegalOp
    else match barrierTrap s c sa with
      | some r => r
      | none =>
        if phaseOf s c.t.drove sa.toNat == ph.getLsbD 0 then .park s [.barrier sa.toNat]
        else .next (acquireRemoval s c.t.coach c.t.asid))

/-- DBAR (R363). -/
def execDbar (sw : Bool) (imm : BitVec 16) (s : State) : Host.Outcome State Fault Refusal :=
  issueCtl (.dbar sw imm) sw [] s (fun c =>
    let sa : Word := imm.setWidth 32 <<< 3
    match barrierTrap s c sa with
    | some r => r
    | none =>
      if !released c.t c.uid false then .hold (.release false)
      else
        let (s', ph) := arrivalOn s c.t.drove sa.toNat
        if phaseOf s' c.t.drove sa.toNat != ph then .next (acquireRemoval s' c.t.coach c.t.asid)
        else .park s' [.barrier sa.toNat])

-- ## gangs and blocks

/-- GANGSET (R207). -/
def execGangset (sw : Bool) (a : BitVec 6) (s : State) : Host.Outcome State Fault Refusal :=
  issueAs false (.gangset sw a) sw (fun c =>
      { spec := [0x11]
        regOk := evenReg a && (match gangIds (s.rpair c.t a.toNat) with
          | some ids => gangOk c.t ids
          | none => false) })
    oneCycle s (fun c =>
      match gangIds (s.rpair c.t a.toNat) with
      | none => c.trapWord .illegalReg
      | some ids =>
        if c.t.latch.isSome then .hold .latchEmpty
        else .next (c.put s { c.t with gang := ids, gangRank := ids.findIdx (· == c.t.teamId) }))

/-- Lines of a block set (R105). -/
def blockLines (t : Team) (blk : BitVec 3) : Nat :=
  t.m * ((if blk.getLsbD 0 then 1 else 0) + (if blk.getLsbD 1 then 2 else 0) + (if blk.getLsbD 2 then 4 else 0))

/-- XACQ (R44, R107). -/
def execXacq (sw : Bool) (blk : BitVec 3) (s : State) : Host.Outcome State Fault Refusal :=
  issueAs false (.xacq sw blk) sw (fun c =>
      { spec := [0x19], regOk := c.t.xblk == 0 && c.t.pend == 0 && (blk &&& ~~~c.t.allowed) == 0 })
    oneCycle s (fun c =>
      if blk == 0 then c.trapWord .illegalOp
      else
        let s := c.put s { c.t with pend := blk }
        .park (s.modCoach c.t.coach (fun k => { k with acquire := k.acquire ++ [(c.tid, blockLines c.t blk, c.uid)] }))
          [.xacq])

/-- Which block an image line belongs to (R109): 0 for the base block. -/
def lineBlock (m j : Nat) : BitVec 3 := if j < m then 0 else if j < 2 * m then 1 else if j < 4 * m then 2 else 4

/-- Put words where a line stands, whatever its page says: no access is made, its bytes become what they become. -/
def pokeLine (s : State) (ctx va : Nat) (ws : List Word) : State :=
  match l2Find s (s.asid ctx) (va / 128) with
  | some _ => modL2 s (s.asid ctx) (va / 128) (fun l => { l with data := ws })
  | none =>
    match rawTrans s ctx va with
    | none => s
    | some t =>
      let k := t.key / 128 * 128
      if s.nmuBuf.any (fun l => l.key == k) then
        { s with nmuBuf := s.nmuBuf.map (fun l => if l.key == k then { l with data := ws } else l) }
      else { s with mem := writeWords s.mem k ws }

/-- The image of released lines holds a free value in each word (R108, log 6). -/
def releaseLines (s : State) (t : Team) (js : List Nat) : State :=
  js.foldl (fun s j =>
    (List.range 32).foldl (fun s k =>
      pokeLine s t.ctx (imageBase s t + 4096 * j + 128 * k)
        ((List.range 32).map (fun i => Config.freeWord s.free (6144 + t.image) (1024 * j + 32 * k + i)))) s) s

/-- The image of released blocks (R108). -/
def releaseImage (s : State) (t : Team) (blk : BitVec 3) : State :=
  releaseLines s t ((List.range (8 * t.m)).filter (fun j => lineBlock t.m j &&& blk != 0))

/-- XREL (R108): the released registers' lines are FREE, and what the image holds of them is free. -/
def execXrel (sw : Bool) (blk : BitVec 3) (s : State) : Host.Outcome State Fault Refusal :=
  issueAs false (.xrel sw blk) sw (fun c => { spec := [0x19], regOk := (blk &&& ~~~c.t.xblk) == 0 }) oneCycle s (fun c =>
    if blk == 0 then c.trapWord .illegalOp
    else if !regsLanded c.t (BitVec.allOnes 1024) (blockRegs blk) then .hold (.regs (blockRegs blk))
    else if matrixBusy c.t blk then .hold (.blocks blk)
    else .next (c.put (releaseImage s c.t blk) { c.t with
      xblk := c.t.xblk &&& ~~~blk
      vregs := c.t.vregs.filter (fun e => !(blockRegs blk).contains (e.1 / 1024))
      lines := c.t.lines.filter (fun l => lineBlock c.t.m l.line &&& blk == 0) }))

-- ## saving and restoring (R117, R369 to R371)

/-- Stop the sister splits and hold until the team's returns have landed (R117, R370). -/
def holdTeam (s : State) (c : Issue) : Res :=
  .fault (s.modTeam c.tid (fun t => { t.modSplit c.uid (fun x =>
    { x with waits := [.drain], parkedAt := s.clk.cycle.toNat }) with flushing := some c.uid }))

/-- Words of 16-byte units from an address. -/
def unitAddrs (a : DWord) (n : Nat) : List (Nat × DWord) :=
  (List.range n).map (fun k => (k, a + BitVec.ofNat 64 (16 * k)))

/-- Steps 2 and 4 of R176 for a region accessed in 16-byte units, reported as lane 0. -/
def unitsTrap (s : State) (c : Issue) (a : DWord) (n : Nat) (write : Bool) : Option Res :=
  let us := unitAddrs a n
  match us.find? (fun u => routeBad s c.t.ctx u.2) with
  | some u => some (laneTrap .protection 0 u.2)
  | none =>
    match us.find? (fun u => lockHit s c.t.ctx u.2.toNat 16 write) with
    | some u => some (laneTrap .rangeLock 0 u.2)
    | none => none

/-- HSAVE (R370): the image goes out in ascending 16-byte units; a page fault replays from the faulting unit. -/
def execHsave (sw : Bool) (base : BitVec 6) (pol : Pol) (s : State) : Host.Outcome State Fault Refusal :=
  let i := Instr.hsave sw base pol
  issueCtl i sw [] s (fun c =>
    let a := s.rpair c.t base.toNat
    if a.toNat % 128 != 0 then .trap .misalign 0 a
    else if !c.t.pending.all (fun p => p.dest == .ack) || !sistersSettled s c.tid c.t c.uid then holdTeam s c
    else
      let ws := hsaveImage c.t c.uid
      let us := unitAddrs a (ws.length / 4)
      match (if c.replaying then none else unitsTrap s c a (ws.length / 4) true) with
      | some r => r
      | none =>
        if postedLine s c.tid us then .hold .line
        else
          let first := match c.t.replay with | some r => if c.replaying then r.lanes.toNat else 0 | none => 0
          let sv := serve (store4Lane c pol (fun k j => ws.getD (4 * k + j) 0)) s [] (us.drop first)
          match sv.stop with
          | some (k, L, va) =>
            if causeParks k then
              .fault (sv.s.modTeam c.tid (fun t =>
                { t with parked := true, fault := some (0, va), replay := some ⟨c.word, c.x.pc, c.uid, BitVec.ofNat 1024 L⟩ }))
            else .fault (laneHalt sv.s c k 0 va)
          | none => .next (sv.s.modTeam c.tid (fun t => { t with replay := none, flushing := none })))

/-- The words of an image in memory, in 16-byte units (R371). -/
def readUnits (c : Issue) (pol : Pol) (s : State) (a : DWord) (n : Nat) : Served :=
  serve (fun s L va => needWord c pol s L va) s [] ((List.range (4 * n)).map (fun k => (k, a + BitVec.ofNat 64 (4 * k))))

/-- A page fault or another cause while an image is read (R371): the replay reads it again from its start. -/
def imageFault (c : Issue) (s : State) (k : Cause) (va : DWord) : Res :=
  if causeParks k then
    .fault (s.modTeam c.tid (fun t =>
      { t with parked := true, fault := some (0, va), replay := some ⟨c.word, c.x.pc, c.uid, c.x.mask⟩ }))
  else .fault (laneHalt s c k 0 va)

/-- HLOAD (R371). -/
def execHload (sw : Bool) (base : BitVec 6) (pol : Pol) (s : State) : Host.Outcome State Fault Refusal :=
  let i := Instr.hload sw base pol
  issueCtl i sw [] s (fun c =>
    let a := s.rpair c.t base.toNat
    if c.x.phase == .handler || c.t.splits.length != 1 then c.trapWord .illegalOp
    else if a.toNat % 128 != 0 then .trap .misalign 0 a
    else if c.t.pending.any (fun p => match p.dest with | .word _ => false | _ => true) then .hold .drain
    else if s.posted.any (fun p => p.tid == c.tid) then .hold .line
    else if c.t.tags.any (fun o => !o.done) then .hold .tags
    else if c.t.latch.isSome || c.t.openMM != 0 || c.t.batches.any (fun b => b.left != 0) then .hold .batches
    else match unitsTrap s c a 128 (pol == .own) with
      | some r => r
      | none =>
        let addrs (n : Nat) : List DWord := (List.range n).map (fun k => a + BitVec.ofNat 64 (4 * k))
        let away := missingWords s c (addrs 512)
        if !away.isEmpty then awaitWords s c pol away
        else
          let sv := readUnits c pol s a 128
          match sv.stop with
          | some (k, _, va) => imageFault c sv.s k va
          | none =>
            let head := sv.vals.map (fun v => v.2.getD 0 0)
            let n := (head.getD 304 0).toNat
            if n == 0 || n > c.t.w then c.trapWord .illegalOp
            else
              let units := 128 + 40 * n
              match unitsTrap s c a units (pol == .own) with
              | some r => r
              | none =>
                let away := missingWords s c (addrs (4 * units))
                if !away.isEmpty then awaitWords s c pol away
                else
                  let sv := readUnits c pol s a units
                  match sv.stop with
                  | some (k, _, va) => imageFault c sv.s k va
                  | none =>
                    match hloadTeam c.t (sv.vals.map (fun v => v.2.getD 0 0)) with
                    | none => .trap .illegalOp c.word c.fullPc
                    | some t => .done (c.put sv.s { t with replay := none, remoteWords := [] }))

/-- RFLUSH (R117): the dirty lines, the state frame and the split records go to the image; the lines are clean. R117 does not
say which PC and ICOUNT the image has of the issuing split: the model writes it before that split advances (log 88). -/
def execRflush (sw : Bool) (s : State) : Host.Outcome State Fault Refusal :=
  issueCtl (.rflush sw) sw [] s (fun c =>
    if !c.t.pending.all (fun p => p.dest == .ack) then
      .fault (s.modTeam c.tid (fun t => { t.modSplit c.uid (fun x =>
        { x with waits := [.regs (regGroup 0 320)], parkedAt := s.clk.cycle.toNat }) with flushing := some c.uid }))
    else match writeImage s c.tid with
      | .ok s => .next (s.modTeam c.tid (fun t => { t with flushing := none }))
      | .error (k, va) =>
        if causeParks k then .fault (s.modTeam c.tid (fun t =>
          { t with parked := true, fault := some (0, BitVec.ofNat 64 va), flushing := some c.uid }))
        else .fault (haltTeam s c.tid c.uid ⟨k, 0, BitVec.ofNat 64 va⟩))

-- ## sequences (R319, R321)

/-- SEQOPEN (R319). -/
def execSeqopen (sw : Bool) (d : BitVec 6) (a : BitVec 6) (b : BitVec 6) (s : State) :
    Host.Outcome State Fault Refusal :=
  issueCtl (.seqopen sw d a b) sw [d.toNat] s (fun c =>
    let base := s.rpair c.t a.toNat
    let n := (s.rs c.t b.toNat).toNat
    if n == 0 || n > 1048576 then c.trapWord .illegalOp
    else if base.toNat % 65536 != 0 then .trap .misalign 0x80000000 base
    else if base.toNat + 65536 * n > 2 ^ 56 then .trap .protection 0 base
    else .park s [.seqopen d base.toNat n])

/-- The sequence that a handle names: LIVE or ROTATING, of the context and compartment, at the slot's present
generation (R319, R321). -/
def seqNamed (s : State) (ctx comp : Nat) (h : Word) : Option Seq :=
  match s.ctx ctx with
  | none => none
  | some x => x.seqs.find? (fun q => !q.ended && q.handle == h && q.comp == comp &&
      (let k := s.key q.slot
       (k.st == .live || k.st == .rotating) && k.gen.toNat == field h.toNat 30 12))

/-- A SEQEND of the handle has begun and still waits for range locks (R321). -/
def seqEnding (s : State) (h : Word) : Bool := s.teams.any (fun e => e.2.splits.any (fun y => y.waits.contains (.seqend h)))

/-- SEQEND (R321). A second one of the same handle is held until the first has ended the sequence, and then finds none
(R322, log 73). -/
def execSeqend (sw : Bool) (a : BitVec 6) (s : State) : Host.Outcome State Fault Refusal :=
  issueCtl (.seqend sw a) sw [] s (fun c =>
    let h := s.rs c.t a.toNat
    match seqNamed s c.t.ctx c.t.comp h with
    | none => c.trapInfo .tableRange h
    | some _ => if seqEnding s h then .hold (.ending h) else .park s [.seqend h])

-- ## scheduler posts (R276)

/-- NCOUNT of the team's context. -/
def nodeCount (s : State) (ctx : Nat) : Nat := ((s.ctx ctx).map (fun c => c.spec.ncount)).getD 0

/-- LAUNCH (R276). -/
def execLaunch (sw : Bool) (a : BitVec 6) (s : State) : Host.Outcome State Fault Refusal :=
  issueCtl (.launch sw a) sw [] s (fun c =>
    let e := s.rs c.t a.toNat
    if e.toNat ≥ nodeCount s c.t.ctx then c.trapInfo .tableRange e
    else if !released c.t c.uid false then .hold (.release false)
    else .next (s.modCtx c.t.ctx (fun x => { x with posts := x.posts ++ [.arm c.tid e.toNat] })))

/-- SIGNAL (R276). -/
def execSignal (sw : Bool) (a : BitVec 6) (b : BitVec 6) (s : State) : Host.Outcome State Fault Refusal :=
  issueCtl (.signal sw a b) sw [] s (fun c =>
    let e := s.rs c.t a.toNat
    let n := (s.rs c.t b.toNat).toNat
    if n > 65535 then c.trapWord .illegalOp
    else if e.toNat ≥ nodeCount s c.t.ctx then c.trapInfo .tableRange e
    else if !released c.t c.uid false then .hold (.release false)
    else if n == 0 then .next s
    else .next (s.modCtx c.t.ctx (fun x => { x with posts := x.posts ++ [.dec c.tid e.toNat n] })))

-- ## tags (R219, R232, R263, R264)

/-- A wait for a tag or batch. -/
def waitTag (i : Instr) (sw : Bool) (k : TagKind) (a : BitVec 6) (s : State) : Host.Outcome State Fault Refusal :=
  issueCtl i sw [] s (fun c =>
    let n := s.rs c.t a.toNat
    if !tagLegal (c.t.counter k) n then c.trapWord .illegalOp
    else if tagComplete c.t k n then .next (observe s c.tid k n)
    else .park s [.tag k n false])

/-- A poll of a tag. -/
def pollTag (i : Instr) (sw : Bool) (k : TagKind) (d : BitVec 6) (a : BitVec 6) (s : State) :
    Host.Outcome State Fault Refusal :=
  issueCtl i sw [d.toNat] s (fun c =>
    let n := s.rs c.t a.toNat
    if !tagLegal (c.t.counter k) n then c.trapWord .illegalOp
    else if tagComplete c.t k n then
      .next ((observe s c.tid k n).modTeam c.tid (fun t => t.setS d.toNat 1))
    else .next (c.put s (c.t.setS d.toNat 0)))

/-- YIELDC (R264). -/
def yieldTag (i : Instr) (sw : Bool) (k : TagKind) (a : BitVec 6) (imm : BitVec 16) (s : State) :
    Host.Outcome State Fault Refusal :=
  issueCtl i sw [] s (fun c =>
    let n := s.rs c.t a.toNat
    let target := targetK c.x.pc imm
    if !tagLegal (c.t.counter k) n then c.trapWord .illegalOp
    else if tagComplete c.t k n then .goto (observe s c.tid k n) target
    else .done (advance s c.tid c.uid sw target [.tag k n true]))

/-- YIELDC.COPY (R264). -/
def execYieldcCopy (sw : Bool) (t : BitVec 6) (imm : BitVec 16) (s : State) : Host.Outcome State Fault Refusal :=
  yieldTag (.yieldcCopy sw t imm) sw .copy t imm s
/-- YIELDC.COLL (R264). -/
def execYieldcColl (sw : Bool) (t : BitVec 6) (imm : BitVec 16) (s : State) : Host.Outcome State Fault Refusal :=
  yieldTag (.yieldcColl sw t imm) sw .coll t imm s
/-- YIELDC.BANK (R264). -/
def execYieldcBank (sw : Bool) (t : BitVec 6) (imm : BitVec 16) (s : State) : Host.Outcome State Fault Refusal :=
  yieldTag (.yieldcBank sw t imm) sw .bank t imm s
/-- YIELDC.MM (R264). -/
def execYieldcMm (sw : Bool) (t : BitVec 6) (imm : BitVec 16) (s : State) : Host.Outcome State Fault Refusal :=
  yieldTag (.yieldcMm sw t imm) sw .mm t imm s
/-- DWAIT (R263). -/
def execDwait (sw : Bool) (a : BitVec 6) (s : State) : Host.Outcome State Fault Refusal :=
  waitTag (.dwait sw a) sw .copy a s
/-- CWAIT (R263). -/
def execCwait (sw : Bool) (a : BitVec 6) (s : State) : Host.Outcome State Fault Refusal :=
  waitTag (.cwait sw a) sw .coll a s
/-- BKWAIT (R232). -/
def execBkwait (sw : Bool) (a : BitVec 6) (s : State) : Host.Outcome State Fault Refusal :=
  waitTag (.bkwait sw a) sw .bank a s
/-- MWAIT (R219). -/
def execMwait (sw : Bool) (a : BitVec 6) (s : State) : Host.Outcome State Fault Refusal :=
  waitTag (.mwait sw a) sw .mm a s
/-- DPOLL (R263). -/
def execDpoll (sw : Bool) (d : BitVec 6) (a : BitVec 6) (s : State) : Host.Outcome State Fault Refusal :=
  pollTag (.dpoll sw d a) sw .copy d a s
/-- CPOLL (R263). -/
def execCpoll (sw : Bool) (d : BitVec 6) (a : BitVec 6) (s : State) : Host.Outcome State Fault Refusal :=
  pollTag (.cpoll sw d a) sw .coll d a s

end Sys2Proof.Machine
end

