-- ==== Sys2Proof/Machine/MatrixNum.lean ====
section
/-! DEFINITION. Matrix operand formats and the aligned matrix sum (spec/05 R144 to R150). -/
namespace Sys2Proof.Machine

/-- Exponent, fraction and bias of a matrix format with a sign (R144); integers apart. -/
def mfmtF (f : MFmt) : FFmt :=
  match f with
  | .e2m1 => ⟨2, 1, 1⟩ | .e2m3 => ⟨2, 3, 1⟩ | .e3m2 => ⟨3, 2, 3⟩ | .e4m3 => ⟨4, 3, 7⟩ | .e5m2 => ⟨5, 2, 15⟩
  | .bf16 => fmtBF16 | .f16 => fmtF16 | _ => fmtF32

/-- Formats with the IEEE infinities and NaNs (R144). -/
def mfmtIEEE (f : MFmt) : Bool := match f with | .e5m2 | .bf16 | .f16 | .f32 => true | _ => false

/-- The value of an element's bits (R144); under MXS an I8 element i stands for i * 2^-6 (R146). The
zero of an integer format counts as +0 in the all-zero case of R148, by the model's choice (log 101). -/
def mfmtVal (f : MFmt) (mxs : Bool) (bits : Nat) : FVal :=
  match f with
  | .i8 =>
    let v := sextNat 8 bits
    .fin (decide (v < 0)) v.natAbs (if mxs then -6 else 0)
  | .i4 => let v := sextNat 4 bits; .fin (decide (v < 0)) v.natAbs 0
  | _ =>
    let g := mfmtF f
    if mfmtIEEE f then fdecode g false bits
    else if f == .e4m3 && bits % 128 == 127 then .nan
    else
      let neg := (bits >>> (g.eb + g.fb)) % 2 == 1
      let ex := (bits >>> g.fb) % 2 ^ g.eb
      let fr := bits % 2 ^ g.fb
      if ex == 0 then .fin neg fr g.emin else .fin neg (2 ^ g.fb + fr) ((ex : Int) - g.bias - g.fb)

/-- Bits of one element in memory that the format uses (R145). -/
def mfmtBits (f : MFmt) : Nat := match f with | .e2m1 | .i4 => 4 | .e2m3 | .e3m2 => 6 | .bf16 | .f16 => 16 | .f32 => 32 | _ => 8

/-- Element k of a 32-byte run read as a 256-bit little-endian number (R145, R210). -/
def mfmtElem (f : MFmt) (run : Nat) (k : Nat) : Nat := (run >>> (mfmtStride f * k)) % 2 ^ mfmtBits f

/-- An E8M0 scale byte (R146): 2^(E - 127), 0xFF is NaN. -/
def scaleVal (e : Nat) : FVal := if e == 255 then .nan else .fin false 1 ((e : Int) - 127)

/-- floor(log2 |x|) of a non-zero finite value. -/
def topExp (x : FVal) : Int := match x with | .fin _ m e => (Nat.log2 m : Int) + e | _ => 0

/-- Zero test of a finite value. -/
def fzero (x : FVal) : Bool := match x with | .fin _ m _ => m == 0 | _ => false

/-- Largest exponent of the non-zero members. -/
def maxTop : List FVal → Option Int
  | [] => none
  | x :: r =>
    if fzero x then maxTop r
    else match maxTop r with | none => some (topExp x) | some y => some (max (topExp x) y)

/-- trunc(x / 2^q) toward zero, and whether x is no multiple of 2^q. -/
def truncAt (q : Int) (x : FVal) : Int × Bool :=
  match x with
  | .fin neg m e =>
    let s := (q - e).toNat
    let k := if q ≤ e then m <<< (e - q).toNat else m >>> s
    let st := !decide (q ≤ e) && m % 2 ^ s != 0
    (if neg then -(k : Int) else k, st)
  | _ => (0, false)

/-- The aligned sum of R148 over the products and the accumulator, as F32 bits; specials by R149. -/
def alignedSum (xs : List FVal) : Nat :=
  if xs.contains .nan || (xs.contains (.inf false) && xs.contains (.inf true)) then fmtF32.nanBits
  else if xs.contains (.inf false) then fmtF32.infBits
  else if xs.contains (.inf true) then fmtF32.signBit true + fmtF32.infBits
  else
    match maxTop xs with
    | none => if xs.all fsign then fmtF32.signBit true else 0
    | some top =>
      let q := top - 47
      let ps := xs.map (truncAt q)
      let s := ps.foldl (fun a p => a + p.1) (0 : Int)
      if s == 0 then 0
      else fround fmtF32 (rndRNE false) (.fin (decide (s < 0)) s.natAbs q) (ps.any (·.2))

/-- One accumulator element (R148 to R150): runs of A and B as 256-bit numbers, scale bytes per block of 32
elements under MXS. -/
def matrixElem (fa fb : MFmt) (mxs : Bool) (runA runB : Nat) (scA scB : List Nat) (c : Nat) : Nat :=
  let ks := List.range (mfmtK fa)
  if mfmtInt fa && mfmtInt fb && !mxs then
    let v := ks.foldl (fun acc k =>
      acc + sextNat (mfmtBits fa) (mfmtElem fa runA k) * sextNat (mfmtBits fb) (mfmtElem fb runB k)) (c : Int)
    toBits 32 v
  else
    let ts := ks.map (fun k =>
      let p := fmul (mfmtVal fa mxs (mfmtElem fa runA k)) (mfmtVal fb mxs (mfmtElem fb runB k))
      if mxs then fmul (fmul p (scaleVal (scA.getD (k / 32) 127))) (scaleVal (scB.getD (k / 32) 127)) else p)
    alignedSum (ts ++ [fdecode fmtF32 false c])

end Sys2Proof.Machine
end

