-- ==== Sys2Proof/Machine/BankNum.lean ====
section
/-! DEFINITION. Arithmetic of the bank units: BFP32 block floating point (spec/05 R153 to R155) and the bit-serial
multiply-accumulate (R156, R157). A row register is a list of 256 words. -/
namespace Sys2Proof.Machine

/-- rne(v * 2^k): nearest integer, a tie to the even one (R154). -/
def rneShift (v : Int) (k : Int) : Int :=
  if k ≥ 0 then v * ((2 ^ k.toNat : Nat) : Int)
  else
    let s := (-k).toNat
    let m := v.natAbs
    let q := m >>> s
    let rem := m % 2 ^ s
    let q' := if decide (2 * rem > 2 ^ s) || (2 * rem == 2 ^ s && q % 2 == 1) then q + 1 else q
    if v < 0 then -(q' : Int) else q'

/-- rne of a finite F32 value times 2^k. -/
def rneF (x : FVal) (k : Int) : Int :=
  match x with
  | .fin neg m e => rneShift (if neg then -(m : Int) else m) (e + k)
  | _ => 0

/-- The largest of optional integers. -/
def optMax (a b : Option Int) : Option Int :=
  match a, b with
  | none, y => y
  | x, none => x
  | some x, some y => some (max x y)

/-- A block after BFPADD: its exponent word and its 32 mantissas (R154); an unchanged block keeps its word. -/
def bfpAddBlock (ew : Word) (ms : List Word) (xs : List Word) : Word × List Word :=
  let e := field ew.toNat 7 0
  let fs := xs.map (fun x => fdecode fmtF32 false x.toNat)
  let special := fs.any (fun x => match x with | .fin _ _ _ => false | _ => true)
  if e == 255 || special then (255#32, ms)
  else
    let ea : Option Int := if ms.any (· != 0) then some ((e : Int) - 127) else none
    let ex := maxTop fs
    match optMax ea ex with
    | none => (ew, ms)
    | some top =>
      let et := max top (-127)
      let first := fun (m : Word) => match ea with | none => (0 : Int) | some a => rneShift m.toInt (a - et)
      let s := List.zipWith (fun m x => first m + rneF x (29 - et)) ms fs
      let wide := s.any (fun v => decide (v < -(2 ^ 31 : Nat)) || decide (v > ((2 ^ 31 : Nat) : Int) - 1))
      let et' := if wide then et + 1 else et
      let s' := if wide then s.map (fun v => rneShift v (-1)) else s
      if et' > 127 then (255#32, ms) else (BitVec.ofInt 32 (et' + 127), s'.map (fun v => BitVec.ofInt 32 v))

/-- Words i..i+n-1 of a row. -/
def rowSlice (q : List Word) (i n : Nat) : List Word := (q.drop i).take n

/-- BFPADD (R153, R154): seven blocks of 32, exponent words 224 to 230; words 231 to 255 are not written. -/
def bfpAdd (d a : List Word) : List Word :=
  let bs := (List.range 7).map (fun j =>
    bfpAddBlock (d.getD (224 + j) 0) (rowSlice d (32 * j) 32) (rowSlice a (32 * j) 32))
  (bs.map (·.2)).flatten ++ bs.map (·.1) ++ rowSlice d 231 25

/-- BFPOUT of one block (R155). -/
def bfpOutBlock (e : Nat) (ms : List Word) : List Word :=
  ms.map (fun m =>
    if e == 255 then 0x7FC00000#32
    else BitVec.ofNat 32 (fround fmtF32 (rndRNE false)
      (.fin (decide (m.toInt < 0)) m.toInt.natAbs ((e : Int) - 127 - 29)) false))

/-- BFPOUT (R155): words 224 to 255 are zero. -/
def bfpOut (a : List Word) : List Word :=
  ((List.range 7).map (fun j =>
    bfpOutBlock (field ((a.getD (224 + j) 0).toNat) 7 0) (rowSlice a (32 * j) 32))).flatten ++ List.replicate 32 0

/-- Whether a BSMAC descriptor is legal (R156). -/
def bsmacLegal (k : Word) : Bool :=
  let wa := field k.toNat 3 0 + 1
  field k.toNat 15 15 == 0 && decide (field k.toNat 14 10 < 32 / wa)

/-- Bank cycles of a BSMAC (R157). -/
def bsmacCycles (k : Word) : Nat := (field k.toNat 3 0 + 1) * (field k.toNat 7 4 + 1)

/-- BSMAC on one word (R157): d + w * a, narrowed to I32 under SAT. -/
def bsmacWord (sat : Bool) (k a d : Word) : Word :=
  let wa := field k.toNat 3 0 + 1
  let wb := field k.toNat 7 4 + 1
  let fld := field k.toNat 14 10
  let w0 := (a.toNat >>> (fld * wa)) % 2 ^ wa
  let w : Int := if k.toNat.testBit 8 then sextNat wa w0 else w0
  let a0 := field k.toNat 31 16 % 2 ^ wb
  let v : Int := if k.toNat.testBit 9 then sextNat wb a0 else a0
  BitVec.ofNat 32 (narrow .i32 sat (d.toInt + w * v))

end Sys2Proof.Machine
end

