-- ==== Sys2Proof/Machine/Bank.lean ====
section
/-! DEFINITION. Near-bank compute (spec/09; spec/03 R93, R94; spec/05 R153 to R157): BKLOAD, BKRUN and BKREAD on a
coach, the instructions of a bank unit, rows and their sealing, and the steps of the bank units and of the NMUs'
arbitration. Ordinary traffic reaches memory at once (Machine/Memory.lean); its requests and their service at row
boundaries are kept for their order and timing alone (log 14). -/
namespace Sys2Proof.Machine

-- ## rows

/-- The row at k passes from v0 (R229): 8 MiB of VA for each. -/
def rowVa (v0 : DWord) (k : Int) : DWord := v0 + BitVec.ofInt 64 (k * 8388608)

/-- Bank unit of a stack-local address in a bank-linear page (R22, R166). -/
def unitOf (t : Trans) : Nat :=
  8192 * t.stack + 16 * (32 * field t.key 35 32 + field t.key 14 10) + field t.key 18 15

/-- Memory slice of a bank unit (R311). -/
def unitSlice (u : Nat) : Nat := u % 8192 / 512
/-- Pseudo-channel of a bank unit, in the device. -/
def unitChannel (u : Nat) : Nat := u / 16

/-- The context runs: its units may act. -/
def ctxActive (s : State) (ctx : Nat) : Bool :=
  match s.ctx ctx with | some c => c.running && c.halt.isNone | none => false

/-- Translation of a row for a bank unit, with the checks of R229 in their order. -/
def bankTrans (s : State) (ctx comp : Nat) (va : DWord) (write : Bool) : Except Cause (State × Trans) :=
  if !canonical va || inWindow va then .error .protection
  else
    match rawTrans s ctx va.toNat with
    | none =>
      (match translate s ctx comp va.toNat write with | .error c => .error c | .ok _ => .error .pageNotPresent)
    | some t0 =>
      if pteMig t0.pte then .error .pageMigrating
      else if !pteLinear t0.pte || pteTier t0.pte != .hbm then .error .protection
      else translate s ctx comp va.toNat write

/-- The NMU's buffer holds written bytes of a row. -/
def bufferedDirty (s : State) (t : Trans) : Bool := s.nmuBuf.any (fun l => l.dirty && l.key / 1024 == t.key / 1024)

/-- The lines of a row in its NMU's buffer are written back and dropped (R248, R250). -/
def drainRow (s : State) (t : Trans) : State :=
  let row := t.key / 1024
  let s := (s.nmuBuf.filter (fun l => l.key / 1024 == row)).foldl nmuWriteBack s
  { s with nmuBuf := s.nmuBuf.filter (fun l => l.key / 1024 != row) }

/-- Lines of a row leave the caches and the NMU's buffer before it is activated (R233, R248). -/
def clearRow (s : State) (ctx : Nat) (va : DWord) (t : Trans) : State :=
  drainRow (flushRange s (s.asid ctx) (va.toNat / 1024 * 1024) 1024) t

/-- Memory key of a row's first byte. -/
def rowKey (t : Trans) : Nat := t.key / 1024 * 1024

/-- The key slot of an open row still holds its keys (R240). -/
def rowKeyLive (s : State) (r : OpenRow) : Bool :=
  let k := s.key (pteKsel r.t.pte)
  (k.st == .live || k.st == .rotating) && k.gen == r.gen

/-- R237, R240: the row is as it was in DRAM at its activation; the writes it has received since are discarded. -/
def dropRow (s : State) (r : OpenRow) : State :=
  { s with mem := writeWords s.mem (rowKey r.t) r.buf, seals := Store.put 0 s.seals r.t.block r.sealId }

/-- R240: precharge of the open row; whether its key still lives, when ROWST or an ordinary request wrote it. -/
def closeRow (s : State) (e : BankExec) : State × BankExec × Bool :=
  match e.row with
  | none => (s, e, true)
  | some r =>
    if r.written && !rowKeyLive s r then (dropRow s r, { e with row := none }, false)
    else (s, { e with row := none }, true)

/-- What became of a row. -/
inductive RowRes
  /-- the kernel with the row open -/
  | ok (s : State) (e : BankExec)
  /-- a cause at an address -/
  | stop (s : State) (e : BankExec) (c : Cause) (va : DWord)

/-- The VA of the open row, or of the pass's row. -/
def openVa (e : BankExec) : DWord := rowVa e.run.va (e.pass + ((e.row.map (·.off)).getD 0))

/-- R239: activate the row at an offset, after the checks of R229; the activation of a row at a sweep pointer waits until
the sweep has moved past it. A row that is open already stays so, unless its sequence has ended (R322). -/
def activateRow (s : State) (u : Nat) (e : BankExec) (off : Int) (write : Bool) : RowRes :=
  let va := rowVa e.run.va (e.pass + off)
  match bankTrans s e.run.ctx e.run.comp va write with
  | .error c => .stop s e c va
  | .ok (s, t) =>
    if unitOf t != u then .stop s e .bankFault va
    else if e.row.any (fun r => r.off == off) then
      (if e.row.all (rowKeyLive s) then .ok s e else .stop s e .keyEnded va)
    else
      match closeRow s e with
      | (s, e', false) => .stop s e' .keyEnded (openVa e)
      | (s, e', true) =>
        let s := sweepPast (clearRow s e.run.ctx va t) (pteKsel t.pte) t.block
        match checkSeal s (s.asid e.run.ctx) va.toNat t with
        | .error c => .stop s e' c va
        | .ok _ =>
          .ok s { e' with row := some ⟨off, t, readWords s.mem (rowKey t) 256, Store.get 0 s.seals t.block,
                                       (s.key (pteKsel t.pte)).gen, false⟩ }

/-- BANK_FAULT (R237): the context halts with bank unit u as origin (R302); what TINFO holds is unit-specific
(R291), a free value (log 6). -/
def bankFaultHalt (s : State) (u : Nat) : State :=
  match (s.bank u).exec with
  | none => s
  | some e =>
    let s := match e.row with | some r => dropRow s r | none => s
    let s := s.setBank u { s.bank u with exec := some { e with row := none } }
    haltContext s ⟨e.run.ctx, .bankFault, 5, u, Config.freeWord s.free 5 u, 0⟩

/-- A memory cause of a bank unit: a stall (R229), a fault of the unit, or the halt of its context. -/
def bankCause (s : State) (u : Nat) (c : Cause) (va : DWord) : State :=
  if causeParks c then
    s.setBank u { s.bank u with exec := (s.bank u).exec.map (fun e => { e with stalled := some va }) }
  else if c == .bankFault then bankFaultHalt s u
  else match (s.bank u).exec with
    | none => s
    | some e => haltContext s ⟨e.run.ctx, c, 5, u, 0, va⟩

-- ## tags and ends (R232)

/-- Some bank operation of a team with this tag has not ended. -/
def bankTagOpen (s : State) (tid : Nat) (tag : Word) : Bool :=
  let inItem (i : BankItem) : Bool :=
    match i with
    | .run r => r.tid == tid && r.tag == tag
    | .load t _ _ g _ _ => t == tid && g == tag
    | .image t g _ _ => t == tid && g == tag
    | .read _ _ _ _ _ _ _ _ => false
  let inRun (x : BankExec) : Bool := x.run.tid == tid && x.run.tag == tag
  s.bankFlight.any inItem ||
  s.banks.any (fun e => e.2.queue.any inItem || e.2.exec.any inRun || e.2.saved.any (fun x => inRun x.2.exec))

/-- Release the range locks of an operation and mark its tag done (R202, R232). -/
def endTag (s : State) (tid : Nat) (k : TagKind) (tag : Word) : State :=
  let s : State := { s with locks := s.locks.filter (fun l => !(l.tid == tid && l.kind == k && l.tag == tag)) }
  s.modTeam tid (fun t => { t with tags := t.tags.map (fun o => if o.kind == k && o.tag == tag then { o with done := true } else o) })

/-- The tag ends when its last part has. -/
def settleBankTag (s : State) (tid : Nat) (tag : Word) : State :=
  if bankTagOpen s tid tag then s else endTag s tid .bank tag

/-- R231: the run ends; its registers stay readable with KEEP (R234). -/
def endRun (s : State) (u : Nat) (e : BankExec) : State :=
  let b := s.bank u
  let keep := e.run.ctl.getLsbD 16
  let s := s.setBank u { b with
    exec := none
    q := if keep then b.q else List.replicate 4 zeroRow
    kept := if keep then
        Store.insert b.kept e.run.ctx ⟨{ e with row := none, opening := none, prog := 0, ending := false }, false, b.q, b.k, b.mode, b.mstack⟩
      else b.kept
    mstack := [] }
  settleBankTag s e.run.tid e.run.tag

-- ## issue on a coach

/-- BKLOAD (R226): the image is read when the load is delivered. Its range stands in the table of the issuing coach's die
(R201, log 80). -/
def execBkload (sw : Bool) (d : BitVec 6) (a : BitVec 6) (slot : BitVec 2) (s : State) :
    Host.Outcome State Fault Refusal :=
  issueCtl (.bkload sw d a slot) sw [d.toNat] s (fun c =>
    let va := s.rpair c.t a.toNat
    if va.toNat % 256 != 0 then .trap .misalign 0x80000000 va
    else if !released c.t c.uid false then .hold (.release false)
    else if !lockRoom s c.t.ctx (dieOf c.t.coach) 1 then .hold (.engine .bank 0 (dieOf c.t.coach) 1)
    else
      let tag := nextTag c.t.bankCtr
      let t : Team := { c.t with bankCtr := tag, tags := c.t.tags ++ [⟨.bank, tag, false, [], []⟩] }
      let s := c.put s (t.setS d.toNat tag)
      let s := flushRange s (s.asid c.t.ctx) va.toNat 256
      .next { s with
        locks := s.locks ++ [⟨c.t.ctx, dieOf c.t.coach, none, va.toNat, 256, false, c.tid, .bank, tag⟩]
        bankFlight := s.bankFlight ++ [.load c.tid c.t.ctx c.t.comp tag slot.toNat va] })

/-- Steps 1 and 2 of R176 for row addresses, VA[56] refused (R228, R234). -/
def rowTrap (s : State) (c : Issue) (align : Nat) (ls : List (Nat × DWord)) : Option Res :=
  match ls.find? (fun l => l.2.toNat % align != 0) with
  | some l => some (laneTrap .misalign l.1 l.2)
  | none =>
    match ls.find? (fun l => routeBad s c.t.ctx l.2 || inWindow l.2) with
    | some l => some (laneTrap .protection l.1 l.2)
    | none => none

/-- vpair(A, L) of the lanes of an instruction. -/
def pairAddrs (s : State) (c : Issue) (a : BitVec 8) : List (Nat × DWord) :=
  c.lanes.map (fun L => (L, s.rv c.t (a.toNat + 1) L ++ s.rv c.t a.toNat L))

/-- Bounding span of some rows (R201). -/
def rowSpan (ls : List (Nat × DWord)) : Nat × Nat :=
  let lo := ls.foldl (fun m l => min m l.2.toNat) (2 ^ 64)
  let hi := ls.foldl (fun m l => max m l.2.toNat) 0
  (lo, hi + 1024 - lo)

/-- BKRUN (R227, R228). R201 enters a range on the die of the operation's engine; bank units lie in the stacks, and the
model takes the compute die of the issuing coach (log 80). -/
def execBkrun (sw : Bool) (d : BitVec 6) (a : BitVec 8) (b : BitVec 6) (s : State) :
    Host.Outcome State Fault Refusal :=
  let i := Instr.bkrun sw d a b
  issueAs false i sw (fun _ =>
      { vr := [a.toNat, a.toNat + 1], sw := [d.toNat], mode := .guard, regOk := wellFormed i }) oneCycle s (fun c =>
    let ctl := s.rs c.t b.toNat
    let count := field ctl.toNat 13 0
    if field ctl.toNat 31 18 != 0 || count == 0 || decide (count > 8192) then c.trapWord .illegalOp
    else
      let ls := pairAddrs s c a
      match rowTrap s c 1024 ls with
      | some r => r
      | none =>
        if !released c.t c.uid false then .hold (.release false)
        else if !ls.isEmpty && !lockRoom s c.t.ctx (dieOf c.t.coach) 1 then .hold (.engine .bank 0 (dieOf c.t.coach) 1)
        else
          let tag := nextTag c.t.bankCtr
          let span := rowSpan ls
          let dst := if ls.isEmpty then [] else [span]
          let t : Team := { c.t with bankCtr := tag, tags := c.t.tags ++ [⟨.bank, tag, ls.isEmpty, dst, []⟩] }
          let s := c.put s (t.setS d.toNat tag)
          let s := if ls.isEmpty then s else flushRange s (s.asid c.t.ctx) span.1 span.2
          let ks := (List.range 8).map (fun j => s.rs c.t (b.toNat + 1 + j))
          .next { s with
            locks := if ls.isEmpty then s.locks
              else s.locks ++ [⟨c.t.ctx, dieOf c.t.coach, none, span.1, span.2, true, c.tid, .bank, tag⟩]
            bankFlight := s.bankFlight ++ ls.map (fun l =>
              BankItem.run ⟨c.tid, c.t.ctx, c.t.comp, field ctl.toNat 15 14, tag, l.2, ctl, ks, 0, 0, []⟩) })

/-- BKREAD (R234): each lane is served at its bank in queue order and lands as a long-latency write. -/
def execBkread (sw : Bool) (d : BitVec 8) (a : BitVec 8) (q : BitVec 2) (s : State) :
    Host.Outcome State Fault Refusal :=
  let i := Instr.bkread sw d a q
  issueAs false i sw (fun _ =>
      { vr := [a.toNat, a.toNat + 1], vw := [d.toNat], mode := .guard, regOk := wellFormed i, wrote := some 0 }) oneCycle s
    (fun c =>
    let ls := pairAddrs s c a
    match rowTrap s c 4 ls with
    | some r => r
    | none =>
      if ls.isEmpty then .next s
      else
        let (id, s) := s.fresh
        let s := c.put s { c.t with
          pending := c.t.pending ++ [⟨[c.uid], [], .vec d.toNat 1, ls.map (fun l => (l.1, [])), some id, true⟩] }
        .next { s with bankFlight := s.bankFlight ++ ls.map (fun l =>
          BankItem.read c.tid c.t.ctx c.t.comp id l.1 q.toNat 0 l.2) })

-- ## the instructions of a bank unit (R223, R224, R235, R236)

/-- What an instruction of a bank unit did. -/
inductive BankRes
  /-- its effect, the unit and its kernel afterwards, and the bank cycles it took -/
  | ok (s : State) (b : BankUnit) (e : BankExec) (bc : Nat)
  /-- BANK_FAULT -/
  | fault
  /-- a cause of a row access, with the kernel as it leaves it -/
  | cause (s : State) (e : BankExec) (c : Cause) (va : DWord)

/-- The current mask (R223). -/
def bankMask (b : BankUnit) : BitVec 256 := match b.mstack with | m :: _ => m | [] => BitVec.allOnes 256

/-- Word i of the result where the mask is set, of the old row elsewhere. -/
def maskedRow (m : BitVec 256) (old new : List Word) : List Word :=
  (List.range 256).map (fun i => if m.getLsbD i then new.getD i 0 else old.getD i 0)

/-- A register operand as 256 words (R93). -/
def bankOperand (b : BankUnit) (r : BReg) : List Word :=
  match r with
  | .q n => b.q.getD n.toNat zeroRow
  | .k n => List.replicate 256 (b.k.getD n.toNat 0)

/-- Write a row register. -/
def setQ (b : BankUnit) (d : BitVec 2) (ws : List Word) : BankUnit := { b with q := b.q.set d.toNat ws }
def getQ (b : BankUnit) (d : BitVec 2) : List Word := b.q.getD d.toNat zeroRow

/-- Bank cycles of the device's grid (R243). -/
def bankCycle (s : State) : Nat := s.clk.gtime.toNat / 2

/-- Execute an instruction at the chosen bank unit; on a coach a bank-only opcode is ILLEGAL_OP (R92). An instruction of n
bank cycles takes them from the boundary at which the last interval ended, however late the unit has its turn (R243). -/
def bankAs (i : Instr) (s : State) (body : Nat → BankUnit → BankExec → BankRes) : Host.Outcome State Fault Refusal :=
  match s.cur with
  | .bank u =>
    match (s.bank u).exec with
    | none => .fault .noBank
    | some e =>
      match body u (s.bank u) e with
      | .ok s' b' e' n =>
        .next (s'.setBank u { b' with
          exec := some { e' with advanced := true }, reqs := (s'.bank u).reqs, busy := b'.busy + n })
      | .fault => .next (bankFaultHalt s u)
      | .cause s' e' c va => .next (bankCause (s'.setBank u { s'.bank u with exec := some e' }) u c va)
  | .split _ _ => issueAs false i false (fun _ => {}) oneCycle s (fun c => c.trapWord .illegalOp)
  | .idle => .fault .noBank

/-- The kernel goes on at the next word; there is none past word 63 (R231). -/
def bankNext (s : State) (b : BankUnit) (e : BankExec) (n : Nat) : BankRes :=
  if 63 ≤ e.upc then .fault else .ok s b { e with upc := e.upc + 1, stalled := none, prog := 0 } n

/-- A long instruction of n bank cycles: each 32 of them end at a row boundary, and it has its effect in the last one (R243,
R246). -/
def bankLong (s : State) (b b' : BankUnit) (e : BankExec) (n : Nat) : BankRes :=
  if e.prog + 32 < n then .ok s b { e with prog := e.prog + 32 } 32 else bankNext s b' e (n - e.prog)

/-- k[n] as a row offset (R236). -/
def rowOffset (b : BankUnit) (k : BitVec 3) : Int := (b.k.getD k.toNat 0).toInt

/-- ROWLD and ROWST open the row they name; an open row costs nothing (R235, R236). On another row there is a boundary after
the activation and after 32 bank cycles (R243). -/
def withRow (s : State) (u : Nat) (b : BankUnit) (e : BankExec) (k : BitVec 3) (write : Bool)
    (f : State → BankExec → OpenRow → Nat → BankRes) : BankRes :=
  let off := rowOffset b k
  match e.row, e.prog with
  | some r, p + 1 => if p + 1 < 32 then .ok s b { e with prog := 32 } 16 else f s e r 16
  | _, _ =>
    match activateRow s u e off write with
    | .stop s e c va => .cause s e c va
    | .ok s e' =>
      if e.row.any (fun r => r.off == off) then
        match e'.row with | some r => f s e' r 32 | none => .ok s b e' 0
      else .ok s b { e' with prog := 16, stalled := none } 16

/-- The words of a row as a kernel reads them: those of an image window are unpredictable (R9, R110). -/
def rowRead (s : State) (e : BankExec) (r : OpenRow) : List Word :=
  let va := (openVa e).toNat
  if inImageWindow s e.run.ctx va then (List.range 256).map (fun i => Config.freeWord s.free 5122 (va + 4 * i))
  else readWords s.mem (rowKey r.t) 256

/-- What ROWST stores: in a window that belongs to the hardware the bytes it writes become unpredictable (R9, R50, R110,
R301). -/
def rowWrite (s : State) (e : BankExec) (ws : List Word) : List Word :=
  let va := (openVa e).toNat
  if writesWindow s e.run.ctx va (.write 0) then (List.range 256).map (fun i => Config.freeWord s.free 5123 (va + 4 * i)) else ws

/-- ROWLD (R236): it sees the ordinary writes that have reached the row (R250). -/
def execRowld (sw : Bool) (d : BitVec 2) (k : BitVec 3) (s : State) : Host.Outcome State Fault Refusal :=
  bankAs (.rowld sw d k) s (fun u b e => withRow s u b e k false (fun s e r n =>
    let r := { r with written := r.written || bufferedDirty s r.t }
    let s := drainRow s r.t
    bankNext s (setQ b d (maskedRow (bankMask b) (getQ b d) (rowRead s e r))) { e with row := some r } n))

/-- ROWST (R236): it writes the masked words and marks the row written. -/
def execRowst (sw : Bool) (a : BitVec 2) (k : BitVec 3) (s : State) : Host.Outcome State Fault Refusal :=
  bankAs (.rowst sw a k) s (fun u b e => withRow s u b e k true (fun s e r n =>
    let s := sealBlock (drainRow s r.t) r.t
    let row := rowKey r.t
    let s : State := { s with
      mem := writeWords s.mem row (maskedRow (bankMask b) (readWords s.mem row 256) (rowWrite s e (getQ b a))) }
    bankNext s b { e with row := some { r with written := true } } n))

/-- BFPADD (R154). -/
def execBfpadd (sw : Bool) (d a : BitVec 2) (s : State) : Host.Outcome State Fault Refusal :=
  bankAs (.bfpadd sw d a) s (fun _ b e => bankLong s b (setQ b d (bfpAdd (getQ b d) (getQ b a))) e 64)

/-- BSMAC (R156, R157). -/
def execBsmac (sw : Bool) (d a : BitVec 2) (k : BitVec 3) (s : State) : Host.Outcome State Fault Refusal :=
  bankAs (.bsmac sw d a k) s (fun _ b e =>
    let kw := b.k.getD k.toNat 0
    if !bsmacLegal kw then .fault
    else bankLong s b (setQ b d (maskedRow (bankMask b) (getQ b d)
      (List.zipWith (fun x y => bsmacWord (modeSat b.mode) kw x y) (getQ b a) (getQ b d)))) e (bsmacCycles kw))

/-- MPUSH (R224). -/
def execMpush (sw : Bool) (a : BitVec 2) (s : State) : Host.Outcome State Fault Refusal :=
  bankAs (.mpush sw a) s (fun _ b e =>
    if b.mstack.length ≥ 4 then .fault
    else
      let nz := (List.range 256).foldl (fun (m : BitVec 256) i => if (getQ b a).getD i 0 != 0 then m ||| (1 <<< i) else m) 0
      bankNext s { b with mstack := (bankMask b &&& nz) :: b.mstack } e 32)

/-- MPOP (R224). -/
def execMpop (sw : Bool) (s : State) : Host.Outcome State Fault Refusal :=
  bankAs (.mpop sw) s (fun _ b e =>
    match b.mstack with
    | [] => .fault
    | _ :: r => bankNext s { b with mstack := r } e 1)

/-- MFLIP (R224). -/
def execMflip (sw : Bool) (s : State) : Host.Outcome State Fault Refusal :=
  bankAs (.mflip sw) s (fun _ b e =>
    match b.mstack with
    | [] => .fault
    | m :: r =>
      let parent := match r with | p :: _ => p | [] => BitVec.allOnes 256
      bankNext s { b with mstack := (parent &&& ~~~m) :: r } e 1)

/-- BKEND (R231, R235): it ends the pass; what follows its one bank cycle is `endPass`. -/
def execBkend (sw : Bool) (s : State) : Host.Outcome State Fault Refusal :=
  bankAs (.bkend sw) s (fun _ b e => if e.prog != 0 then .fault else .ok s b { e with ending := true, stalled := none } 1)

/-- BFPOUT (R155). -/
def execBfpout (sw : Bool) (d a : BitVec 2) (s : State) : Host.Outcome State Fault Refusal :=
  bankAs (.bfpout sw d a) s (fun _ b e => bankNext s (setQ b d (bfpOut (getQ b a))) e 32)

/-- How a bank unit rounds (R93, R133, R135). -/
def bankNum (m : Word) : NumMode := ⟨modeEt m, (modeRm m).getD .rne, modeSat m, modeFtz m, []⟩

/-- An operation a bank unit accepts under its type (R94, R418). -/
def bankTypeOk (op : VOp) (et : ET) : Bool :=
  match op with | .shl | .shr | .sra => !etFloat et | .mulh => false | _ => true

/-- The coach instructions that a bank unit admits (R93, R235). -/
def bankOpRes (o : BankOp) (s : State) (b : BankUnit) (e : BankExec) : BankRes :=
  match o with
  | .alu op d x y =>
    if !bankTypeOk op (modeEt b.mode) then .fault
    else
      let xs := bankOperand b x
      let ys := bankOperand b y
      let old := getQ b d
      let new := (List.range 256).map (fun i =>
        (vop op (bankNum b.mode) ((xs.getD i 0).setWidth 64) ((ys.getD i 0).setWidth 64) ((old.getD i 0).setWidth 64)).setWidth 32)
      bankNext s (setQ b d (maskedRow (bankMask b) old new)) e 32
  | .sel d x y => bankNext s (setQ b d (maskedRow (bankMask b) (bankOperand b y) (bankOperand b x))) e 32
  | .cmp comb cond d x y =>
    let xs := bankOperand b x
    let ys := bankOperand b y
    let old := getQ b d
    let new := (List.range 256).map (fun i =>
      if combine comb (old.getD i 0 != 0)
          (elemCond cond (modeEt b.mode) (modeFtz b.mode) (xs.getD i 0).toNat (ys.getD i 0).toNat) then (1 : Word) else 0)
    bankNext s (setQ b d (maskedRow (bankMask b) old new)) e 32
  | .vli d imm => bankNext s (setQ b d (maskedRow (bankMask b) (getQ b d) (List.replicate 256 (imm.signExtend 32)))) e 32
  | .bra off =>
    let t : Int := e.upc + off.toInt
    if t < 0 || t > 63 then .fault else .ok s b { e with upc := t.toNat } 1
  | .modeLo imm =>
    if !bankModeLoOk imm then .fault
    else bankNext s { b with mode := b.mode.extractLsb' 16 16 ++ imm } e 1
  | .modeHi => bankNext s { b with mode := 0#16 ++ b.mode.extractLsb' 0 16 } e 1

/-- A coach instruction in a bank unit (R235). -/
def execBankSubsetInstruction (o : BankOp) (s : State) : Host.Outcome State Fault Refusal :=
  bankAs (.bankSubsetInstruction o) s (fun _ b e => bankOpRes o s b e)

-- ## the next word of a kernel (R231)

/-- The words of a kernel slot (R225): what the unit holds of its own; zeros where a scrub has cleared them and no context
has started to run since (R325); else the context's image. -/
def slotWords (s : State) (u n : Nat) : List Word :=
  match Store.find (s.bank u).slots n with
  | some ws => ws
  | none =>
    if s.blankSlots.contains (unitSlice u, n) then List.replicate 64 0
    else ((((s.ctx (n / 4)).map (fun (c : Context) => c.spec.slotimg)).getD []).drop (64 * (n % 4))).take 64

/-- The word at a kernel's micro-PC. -/
def kernelWord (s : State) (u : Nat) (e : BankExec) : Word :=
  let img := if e.run.words.isEmpty then slotWords s u (4 * e.run.ctx + e.run.image) else e.run.words
  img.getD e.upc 0

/-- What a chosen unit does next. -/
inductive Fetched
  /-- an instruction to execute -/
  | run (s : State) (i : Instr)
  /-- nothing more in this step -/
  | spent (s : State)

-- ## arrival, delivery, admission

/-- The team of a bank operation. -/
def itemTeam (i : BankItem) : Nat :=
  match i with | .run r => r.tid | .load t _ _ _ _ _ => t | .image t _ _ _ => t | .read t _ _ _ _ _ _ _ => t

/-- A bank operation in flight that no earlier one of its team holds up (R230). -/
def firstOfTeam : List Nat → List BankItem → List BankItem
  | _, [] => []
  | seen, i :: r =>
    if seen.contains (itemTeam i) then firstOfTeam seen r else i :: firstOfTeam (itemTeam i :: seen) r

/-- Remove the first occurrence of an item. -/
def dropItem (x : BankItem) : List BankItem → List BankItem
  | [] => []
  | y :: r => if y == x then r else y :: dropItem x r

/-- Runs of a context that wait in an NMU's queue (R242). -/
def nmuWaiting (s : State) (ctx u : Nat) : Nat :=
  s.banks.foldl (fun n e =>
    if e.1 / 512 == u / 512 then
      n + (e.2.queue.filter (fun i => match i with | .run r => r.ctx == ctx | _ => false)).length
    else n) 0

/-- The row address, context and compartment of an item that goes to one bank unit. -/
def itemRow (i : BankItem) : Option (Nat × Nat × DWord) :=
  match i with
  | .run r => some (r.ctx, r.comp, r.va)
  | .read _ ctx comp _ _ _ _ va => some (ctx, comp, va)
  | _ => none

/-- The address that an operation in flight needs first: its row, or the image it loads. -/
def itemVa (i : BankItem) : Option (Nat × DWord) :=
  match i with
  | .run r => some (r.ctx, r.va)
  | .read _ ctx _ _ _ _ _ va => some (ctx, va)
  | .load _ ctx _ _ _ va => some (ctx, va)
  | .image _ _ _ _ => none

/-- The origin unit of a bank operation that has not reached a bank unit: the spec names none (R302, log 6). -/
def freeUnit (s : State) : Nat := Config.freeNat s.free 12 % Config.bankUnits

/-- The unit whose row the address names under its leaf, bank-linear or not. -/
def namedUnit (s : State) (ctx : Nat) (va : DWord) : Option Nat := (rawTrans s ctx va.toNat).map unitOf

/-- The context of a bank operation. -/
def itemCtx (i : BankItem) : Nat :=
  match i with | .run r => r.ctx | .load _ c _ _ _ _ => c | .image t _ _ _ => t / 8192 | .read _ c _ _ _ _ _ _ => c

/-- BKREAD lanes of a queue that no earlier run or image of their own team holds up (R230, R234). -/
def readsAhead : List Nat → List BankItem → List BankItem
  | _, [] => []
  | seen, i :: r =>
    match i with
    | .read _ _ _ _ _ _ _ _ => if seen.contains (itemTeam i) then readsAhead seen r else i :: readsAhead seen r
    | _ => readsAhead (itemTeam i :: seen) r

/-- The BKREAD lanes that may be served at a bank (R234): their context runs, its stopped runs and kept state are back (R246),
and no run of their team occupies the bank. -/
def servableReads (s : State) (b : BankUnit) : List BankItem :=
  (readsAhead (match b.exec with | some e => [e.run.tid] | none => []) b.queue).filter (fun i =>
    ctxActive s (itemCtx i) && (Store.find b.saved (itemCtx i)).isNone)

/-- Give a BKREAD lane the word of its bank's kept state, or zero (R234). -/
def serveRead (u : Nat) (s : State) (i : BankItem) : State :=
  match i with
  | .read tid ctx _ id lane q _ va =>
    let b := s.bank u
    let w := match Store.find b.kept ctx with
      | some x => (x.q.getD q zeroRow).getD (va.toNat / 4 % 256) 0
      | none => 0
    let s := s.setBank u { b with queue := dropItem i b.queue }
    s.modTeam tid (fun t => { t with pending := t.pending.map (fun p =>
      if p.bk && p.remote == some id then
        { p with lanes := p.lanes.map (fun x => if x.1 == lane then (x.1, [w]) else x) }
      else p) })
  | _ => s

/-- A bank without a kernel serves the BKREAD lanes that wait there at once (R234). -/
def serveIdle (u : Nat) (s : State) : State :=
  if (s.bank u).exec.isSome then s else (servableReads s (s.bank u)).foldl (fun s i => serveRead u s i) s

/-- BANK_RUN_ARRIVAL (R230): the next run or BKREAD lane bound for this unit enters its queue, a lane at an idle bank is served
at once (R234); one whose address cannot be translated stays, or halts its context (R229). -/
def execBankRunArrival (u : Nat) (s : State) : Host.Outcome State Fault Refusal :=
  let cands := (firstOfTeam [] s.bankFlight).filter (fun i =>
    match itemRow i with
    | some (ctx, comp, va) =>
      ctxActive s ctx &&
      (match bankTrans s ctx comp va false with
       | .ok (_, t) => unitOf t == u && decide (nmuWaiting s ctx u < 256)
       | .error c => !causeParks c && namedUnit s ctx va == some u)
    | none => false)
  match cands with
  | [] => .next s
  | i :: _ =>
    match itemRow i with
    | none => .next s
    | some (ctx, comp, va) =>
      match bankTrans s ctx comp va false with
      | .error c => .next (haltContext s ⟨ctx, c, 5, u, 0, va⟩)
      | .ok (s', _) =>
        let i' := match i with
          | .run r => BankItem.run { r with since := s.free }
          | .read tid ctx comp id lane q _ va => .read tid ctx comp id lane q (bankCycle s) va
          | x => x
        let s' : State := { s' with bankFlight := dropItem i s'.bankFlight }
        .next (serveIdle u (s'.setBank u { s'.bank u with queue := (s'.bank u).queue ++ [i'] }))

/-- Read the 256 bytes of a kernel image at their place of effect (R226). -/
def readImage (s : State) (ctx comp va : Nat) : Except Cause (State × List Word) :=
  (List.range 64).foldl (fun acc j =>
    match acc with
    | .error c => .error c
    | .ok (s, ws) =>
      match perform s ⟨ctx, comp, noCoach⟩ (va + 4 * j) 4 .wt .read .n32 false with
      | .error c => .error c
      | .ok (s, x) => .ok (s, ws ++ [splitWord x 0])) (.ok (s, []))

/-- The next operation of a running context at a bank; those of other contexts wait (R242). A record still to be
restored comes first (R246). -/
def headItem (s : State) (b : BankUnit) : Option BankItem :=
  if b.saved.any (fun e => ctxActive s e.1) then none else b.queue.find? (fun i => ctxActive s (itemCtx i))

/-- A bank unit that must receive a context's image in turn: it runs for it, is to resume, or has operations of it
queued. -/
def bankBusy (b : BankUnit) (ctx : Nat) : Bool :=
  (match b.exec with | some e => e.run.ctx == ctx | none => false) || b.saved.any (fun e => e.1 == ctx) ||
    b.queue.any (fun i => itemCtx i == ctx)

/-- The image becomes slot image and reaches every idle unit of the partition; busy units keep their words and
receive it in queue order (R226, R230). -/
def spreadImage (s : State) (ctx tid : Nat) (tag : Word) (slot : Nat) (ws : List Word) : State :=
  let mine (u : Nat) : Bool := (((s.ctxPart ctx).map (fun p => p.slices)).getD []).contains (unitSlice u)
  let s : State := { s with banks := s.banks.map (fun e =>
    if !mine e.1 then e
    else if bankBusy e.2 ctx then
      (e.1, { e.2 with
        slots := match Store.find e.2.slots (4 * ctx + slot) with
          | some _ => e.2.slots
          | none => Store.insert e.2.slots (4 * ctx + slot) (slotWords s e.1 (4 * ctx + slot))
        queue := e.2.queue ++ [.image tid tag slot ws] })
    else (e.1, { e.2 with slots := Store.erase e.2.slots (4 * ctx + slot) })) }
  let s : State := { s with blankSlots := s.blankSlots.filter (fun x => !(mine (x.1 * 512) && x.2 == 4 * ctx + slot)) }
  s.modCtx ctx (fun (c : Context) =>
    let img := c.spec.slotimg ++ List.replicate (256 - c.spec.slotimg.length) 0
    let spec : CtxRecord := { c.spec with slotimg := img.take (64 * slot) ++ ws ++ img.drop (64 * slot + 64) }
    { c with spec := spec })

/-- Some NMU's queue of the context is full: its teams' later bank operations are held at their coach (R242). -/
def nmuFull (s : State) (ctx : Nat) : Bool := s.banks.any (fun e => decide (256 ≤ nmuWaiting s ctx e.1))

/-- BKLOAD_DELIVERY (R226): the image of the next BKLOAD is read and spread (unit number 131,072 stands for that
step), or an image lands in a bank unit's slot after its earlier runs. The cause of a SHARED_UNCACHED or window image,
which R226 does not name, is PROTECTION (log 80). -/
def execBkloadDelivery (u : Nat) (s : State) : Host.Outcome State Fault Refusal :=
  if u == Config.bankUnits then
    let cands := (firstOfTeam [] s.bankFlight).filter (fun i =>
      match i with | .load _ ctx _ _ _ _ => ctxActive s ctx && !nmuFull s ctx | _ => false)
    match cands with
    | .load tid ctx comp tag slot va :: _ =>
      let bad := !canonical va || inWindow va ||
        (match rawTrans s ctx va.toNat with | some t => pteUncached t.pte | none => false)
      if bad then .next (haltContext s ⟨ctx, .protection, 5, freeUnit s, 0, va⟩)
      else match readImage s ctx comp va.toNat with
        | .error c => if causeParks c then .next s else .next (haltContext s ⟨ctx, c, 5, freeUnit s, 0, va⟩)
        | .ok (s', ws) =>
          let s' : State := { s' with bankFlight := dropItem (.load tid ctx comp tag slot va) s'.bankFlight }
          .next (settleBankTag (spreadImage s' ctx tid tag slot ws) tid tag)
    | _ => .next s
  else
    let b := s.bank u
    match b.exec, headItem s b with
    | none, some (.image tid tag slot ws) =>
      .next (settleBankTag (s.setBank u { b with
        queue := dropItem (.image tid tag slot ws) b.queue, slots := Store.insert b.slots (4 * (tid / 8192) + slot) ws }) tid tag)
    | _, _ => .next s

/-- The run at the head of a free bank's queue. -/
def headRun (s : State) (b : BankUnit) : Option BankRun :=
  match b.exec, headItem s b with
  | none, some (.run r) => some r
  | _, _ => none

/-- Runs that could be admitted now in a pseudo-channel (R242). -/
def admissible (s : State) (ch : Nat) : List (Nat × BankRun) :=
  s.banks.filterMap (fun e => if unitChannel e.1 == ch then (headRun s e.2).map (fun r => (e.1, r)) else none)

/-- Runs that a pseudo-channel has in hand (R241). -/
def channelRuns (s : State) (ch : Nat) : Nat := (s.banks.filter (fun e => unitChannel e.1 == ch && e.2.exec.isSome)).length

/-- SERVE class (R227). -/
def isServe (r : BankRun) : Bool := r.ctl.getLsbD 17

/-- The run queued longest. -/
def longestQueued (xs : List (Nat × BankRun)) : Option (Nat × BankRun) :=
  xs.foldl (fun b x => match b with | none => some x | some y => if x.2.since < y.2.since then some x else b) none

/-- The run that an NMU admits next in a pseudo-channel (R241, R242). A stopped run of a running context counts. -/
def admitChoice (s : State) (ch : Nat) : Option (Nat × BankRun) :=
  if 4 ≤ (s.banks.filter (fun e => unitChannel e.1 == ch && (e.2.exec.isSome || e.2.saved.any (fun x => ctxActive s x.1)))).length then none
  else
    let xs := admissible s ch
    match longestQueued (xs.filter (fun x => !isServe x.2 && decide (x.2.passed ≥ 4))) with
    | some x => some x
    | none =>
      match longestQueued (xs.filter (fun x => isServe x.2)) with
      | some x => some x
      | none => longestQueued xs

/-- A run starts with the state of R223. -/
def startRun (s : State) (b : BankUnit) (r : BankRun) : BankUnit :=
  { b with
    busy := max b.busy (bankCycle s)
    q := List.replicate 4 zeroRow
    k := r.k
    mode := 0
    mstack := []
    queue := dropItem (.run r) b.queue
    kept := Store.erase b.kept r.ctx
    exec := some ⟨r, 0, 0, none, none, some 0, 0, true, false⟩ }

-- ## arbitration (R243 to R245)

/-- ORDINARY_REQUEST_ARRIVAL (R243). -/
def execOrdinaryRequestArrival (u row : Nat) (write : Bool) (id : Nat) (s : State) :
    Host.Outcome State Fault Refusal :=
  let b := s.bank u
  .next (s.setBank u { b with reqs := b.reqs ++ [⟨id, row, write, bankCycle s⟩] })

/-- The row number of the kernel's open row (R166). -/
def openRowNumber (e : BankExec) : Option Nat := e.row.map (fun r => field r.t.key 31 19)

/-- Activate the row that a pass, a resumed or a suspended run still has to open (R231, R244, R246): tRCD = 8 bc. -/
def reopenRow (s : State) (u : Nat) (e : BankExec) (off : Int) : State :=
  match activateRow s u e off false with
  | .stop s e c va => bankCause (s.setBank u { s.bank u with exec := some e }) u c va
  | .ok s e' =>
    let b := s.bank u
    s.setBank u { b with exec := some { e' with opening := none, stalled := none, advanced := true }, busy := b.busy + 8 }

/-- Serve requests one after another from a bank cycle; each gets the cycle in which it completes. -/
def serveRequests (lead tail : Nat) : Nat → List OrdReq → List (Nat × Nat) × Nat
  | now, [] => ([], now)
  | now, r :: rest =>
    let done := now + lead + (if r.write then 4 else 12)
    let (xs, t) := serveRequests lead tail (done + tail) rest
    ((r.id, done) :: xs, t)

/-- What waits at a bank: an ordinary request, or a BKREAD lane (R243). -/
inductive BankAsk
  | req (r : OrdReq)
  | read (i : BankItem) (at_ : Nat)
deriving DecidableEq, Repr

/-- The grid cycle of its arrival. -/
def BankAsk.since (x : BankAsk) : Nat := match x with | .req r => r.at_ | .read _ n => n

/-- Insert by age; of one age, the earlier listed first. -/
def insertAsk (x : BankAsk) : List BankAsk → List BankAsk
  | [] => [x]
  | y :: r => if x.since < y.since then x :: y :: r else y :: insertAsk x r

/-- The requests and BKREAD lanes that wait at a bank, oldest first (R243). -/
def bankAsks (s : State) (b : BankUnit) : List BankAsk :=
  let reads := (servableReads s b).map (fun i =>
    BankAsk.read i (match i with | .read _ _ _ _ _ _ n _ => n | _ => 0))
  (b.reqs.map BankAsk.req ++ reads).foldl (fun acc x => insertAsk x acc) []

/-- Serve the BKREAD lanes among those taken: they read no DRAM and take no bank cycle (R234). -/
def serveReads (u : Nat) (xs : List BankAsk) (s : State) : State :=
  xs.foldl (fun s x => match x with | .read i _ => serveRead u s i | .req _ => s) s

/-- The ordinary requests among those taken. -/
def askedRows (xs : List BankAsk) : List OrdReq := xs.filterMap (fun x => match x with | .req r => some r | .read _ _ => none)

/-- The kernel's row boundary in a grid cycle with some requests taken (R244). Requests that all name the open row are served
on it; else, or with a refresh due, the row is precharged, and reactivated after the requests to other rows. -/
def suspendKernel (u : Nat) (s : State) (e : BankExec) (now : Nat) (taken : List OrdReq) : State :=
  let b := s.bank u
  let rest := taken.foldl List.erase b.reqs
  let row := openRowNumber e
  let e := { e with advanced := false }
  if !b.refresh && taken.all (fun r => row == some r.row) then
    let (done, t) := serveRequests 0 0 now taken
    s.setBank u { b with reqs := rest, served := b.served ++ done, busy := t, exec := some e }
  else
    match closeRow s e with
    | (s, e', false) => bankCause (s.setBank u { b with exec := some e' }) u .keyEnded (openVa e)
    | (s, e', true) =>
      let tRP := if e.row.isSome then 8 else 0
      let (d1, t1) := serveRequests 8 8 (now + tRP + (if b.refresh then 40 else 0)) (taken.filter (fun r => row != some r.row))
      let (d2, t2) := serveRequests 0 0 (t1 + tRP) (taken.filter (fun r => row == some r.row))
      let b' : BankUnit := { b with
        reqs := rest
        served := b.served ++ d1 ++ d2
        busy := t2
        refresh := false
        lastRefresh := if b.refresh then now else b.lastRefresh
        exec := some { e' with opening := match e.row with | some r => some r.off | none => e'.opening } }
      let s := s.setBank u b'
      match e.row with
      | none => s
      | some r =>
        match activateRow s u e' r.off false with
        | .stop s e'' c va =>
          bankCause (s.setBank u { s.bank u with exec := some { e'' with opening := some r.off } }) u c va
        | .ok s e'' => s.setBank u { s.bank u with exec := some e'' }

/-- The run has executed its last BKEND and precharged its row (R231). -/
def runOver (e : BankExec) : Bool := e.ending && e.row.isNone && e.opening.isNone

/-- The grid cycle of a kernel's boundary (R243): where its last interval ended; in a stall, every cycle is one, and the first
that counts is the one after the oldest request's arrival. -/
def boundaryCycle (b : BankUnit) (e : BankExec) (asks : List BankAsk) : Nat :=
  if e.stalled.isSome then (match asks with | x :: _ => max b.busy (x.since + 1) | [] => b.busy) else b.busy

/-- A bank without a kernel (R244, R245): a refresh that fell due first; else the oldest request alone, from its arrival or the
end of the one before; a BKREAD lane at once (R234). -/
def idleService (u : Nat) (s : State) : Option State :=
  let b := s.bank u
  if b.refresh then some (s.setBank u { b with refresh := false, lastRefresh := b.busy, busy := b.busy + 40 })
  else match bankAsks s b with
    | [] => none
    | .read i _ :: _ => some (serveRead u s i)
    | .req r :: _ =>
      if bankCycle s < max b.busy r.at_ then none
      else
        let (done, t) := serveRequests 8 8 (max b.busy r.at_) [r]
        some (s.setBank u { b with reqs := b.reqs.erase r, served := b.served ++ done, busy := t })

/-- A row boundary (R243, R244), once its grid cycle has come: it takes what arrived in earlier cycles; none where nothing is
served. -/
def rowBoundary (u : Nat) (s : State) : Option State :=
  let b := s.bank u
  match b.exec with
  | none => idleService u s
  | some e =>
    let asks := bankAsks s b
    let now := boundaryCycle b e asks
    let taken := (asks.filter (fun x => decide (x.since < now))).take 4
    if bankCycle s < now || runOver e || (!e.advanced && e.stalled.isNone) || (taken.isEmpty && !b.refresh) then none
    else
      let s := serveReads u taken s
      if (askedRows taken).isEmpty && !b.refresh then
        some (s.setBank u { s.bank u with exec := some { e with advanced := false } })
      else some (suspendKernel u s e now (askedRows taken))

/-- BANK_ROW_BOUNDARY (R243, R244). -/
def execBankRowBoundary (u : Nat) (s : State) : Host.Outcome State Fault Refusal :=
  .next ((rowBoundary u s).getD s)

/-- REFRESH_DUE (R244): at most once in 1,950 bc; a bank with a kernel serves it at its next boundary. -/
def execRefreshDue (u : Nat) (s : State) : Host.Outcome State Fault Refusal :=
  let b := s.bank u
  if b.lastRefresh != 0 && decide (bankCycle s < b.lastRefresh + 1950) then .next s
  else match b.exec with
    | some _ => .next (s.setBank u { b with refresh := true })
    | none => .next (s.setBank u { b with busy := max b.busy (bankCycle s) + 40, lastRefresh := bankCycle s })

-- ## the next step of a bank unit

/-- After the boundary at BKEND's end (R231, R240): the open row is precharged in 8 bank cycles, and the next pass begins; of
the last pass the run ends once the precharge is over, and not before (R232). -/
def endPass (s : State) (u : Nat) (e : BankExec) : State :=
  match closeRow s e with
  | (s, e', false) => bankCause (s.setBank u { s.bank u with exec := some e' }) u .keyEnded (openVa e)
  | (s, e', true) =>
    let b := s.bank u
    s.setBank u { b with
      busy := b.busy + 8
      mstack := []
      exec := some (if e.pass + 1 < field e.run.ctl.toNat 13 0 then
        { e' with pass := e.pass + 1, upc := 0, opening := some 0, ending := false, advanced := true }
        else { e' with advanced := true }) }

/-- A bank unit's next step, once its bank cycles have passed: the end of its run, a row boundary at which something is served,
the activation of a row, the end of a pass, or the word at the micro-PC; a word that is not admitted is BANK_FAULT (R94, R231,
R243). -/
def fetchBank (s : State) (u : Nat) : Fetched :=
  let b := s.bank u
  match b.exec with
  | none => .spent s
  | some e =>
    if !ctxActive s e.run.ctx || decide (bankCycle s < b.busy) then .spent s
    else if runOver e then .spent (endRun s u e)
    else match rowBoundary u s with
      | some s' => .spent s'
      | none =>
        match e.opening with
        | some off => .spent (reopenRow s u e off)
        | none =>
          if e.ending then .spent (endPass s u e)
          else if e.upc ≥ 64 then .spent (bankFaultHalt s u)
          else match decodeBank (kernelWord s u e) with
            | .ok i => .run s i
            | .error _ => .spent (bankFaultHalt s u)

end Sys2Proof.Machine
end

