-- ==== Sys2Proof/Machine/Fetch.lean ====
section
/-! DEFINITION. Fetching the next instruction of a split (spec/03 R71, R72, R77, R92), the operand words that name an
instruction where one encoding serves several rows of the table (R361, R414, R323, log 10), and the state in which a
given word is the next one fetched. -/
namespace Sys2Proof.Machine

/-- First id of the teams of system coaches. -/
def systemTeam : Nat := 131072
/-- The system's own context number (log 13): no tenant has it. -/
def systemCtx : Nat := 16

/-- The word at a code address of a system coach: firmware runs from the staged image (log 12). -/
def systemWord (s : State) (pc : DWord) : Word := BitVec.ofNat 32 (readBytes s.mem (stagingKey pc.toNat) 4)

/-- The row of the table that an encoded instruction is, where its operand words decide (log 10). -/
def refine (s : State) (t : Team) (i : Instr) : Instr :=
  match i with
  | .tlbinvPage sw d a => if field (s.rs t (a.toNat + 2)).toNat 9 8 == 1 then .tlbinvContext sw d a else i
  | .keyopAlloc sw d a =>
    match field (s.rs t a.toNat).toNat 3 0 with
    | 1 => .keyopDestroy sw d a
    | 2 => .keyopRotate sw d a
    | 3 => .keyopStatus sw d a
    | 4 => .keyopRelease sw d a
    | _ => i
  | .ctxswArm sw d a => if (s.rs t (a.toNat + 2)).getLsbD 31 then .ctxswCancel sw d a else i
  | .scrub sw d a => if (s.rs t a.toNat).getLsbD 31 then .scrubPoll sw d a else i
  | _ => i

/-- A cause of a fetch (R176, R177): a page fault parks the team, and the fetch is tried again when it is resolved;
any other halts. -/
def fetchCause (s : State) (tid uid : Nat) (c : Cause) (pc : DWord) : State :=
  if causeParks c then s.modTeam tid (fun t => { t with parked := true, fault := some (0, pc) })
  else haltTeam s tid uid ⟨c, 0, pc⟩

/-- The instruction that the chosen split executes next; a word with no meaning is ILLEGAL_OP (R92). -/
def fetchSplit (s : State) (tid uid : Nat) : Fetched :=
  match s.team tid with
  | none => .spent s
  | some t =>
    match t.split uid with
    | none => .spent s
    | some x =>
      let pc : DWord := t.codeHi ++ x.pc
      let got : Except Cause (State × Word) :=
        if t.sys then .ok (s, systemWord s pc) else fetchWord s ⟨t.ctx, t.comp, t.coach⟩ pc
      match got with
      | .error c => .spent (fetchCause s tid uid c pc)
      | .ok (s, w) =>
        match decodeWord w with
        | .ok i => .run s (refine s t i)
        | .error _ => .spent (takeCause (s.tick 1) tid uid ⟨.illegalOp, w, pc⟩)

/-- A team with nothing in it: every register zero, no block, no split. -/
def Team.blank : Team :=
  { ctx := 0, sys := false, image := 0, drove := 0, coach := 0, slot := 0, comp := 0, role := 0, w := 32, teamId := 0,
    droveId := 0, stage := 0, droves := 1, teams := 1, node := 0, asid := 0, member := 0, ptrain := 0, codeHi := 0,
    allowed := 7, vregs := [], preds := [], scalars := [], tvec := 0, tpc := 0, tcause := 0, tinfo := 0, taddr := 0,
    gang := [], gangRank := 0, tsa := 0, tsb := 0, tsca := 0, tscb := 0, events := 0, evmask := 0, advisory := 0,
    seed := 0, xblk := 0, pend := 0, nextRec := 0, batchCtr := 0, bankCtr := 0, copyCtr := 0, collCtr := 0,
    splits := [], nextUid := 0, replay := none, pending := [], parked := false, clearing := false, started := true,
    retiring := false, lines := [], openMM := 0, batches := [], tags := [], latch := none, accs := [], flushing := none, fault := none,
    issues := 0, age := 0, cause := none, running := true, frame := .inUse, sysLines := [], remoteWords := [] }

/-- The lanes of a team of W lanes. -/
def allLanes (w : Nat) : LaneMask := BitVec.ofNat 1024 (2 ^ w - 1)

/-- A context record of zeros. -/
def CtxRecord.zero : CtxRecord :=
  ⟨0, 0, 0, 0, 0, 0, 0, 0, 0, 0, 0, 0, 0, 0, []⟩

/-- A context with nothing in it, running. -/
def Context.blank : Context :=
  { spec := CtxRecord.zero, part := 0, nc := 1, seqmax := 0, slots := [], gates := [], nodes := [], posts := [],
    policy := [], ready := [], opens := [], requeue := [], turns := [], schedFault := none, schedStop := none, running := true, started := true,
    halt := none, collNum := 0, seqs := [], images := [], qsaves := [], ownfall := 0, empties := [], rx := [],
    rxOpen := none, recordsDue := [] }

/-- A word as the next one that a team of a context's coach fetches: its line in the instruction cache. -/
def placeCoachWord (s : State) (w : Word) : State :=
  { s with
    cur := .split 0 0
    ctxs := Store.insert s.ctxs 0 Context.blank
    teams := Store.insert s.teams 0 { Team.blank with splits := [Split.fresh 0 0 (allLanes 32)], nextUid := 1 }
    icache := [⟨0, 0, 0, 0, 0, [w], 0⟩] }

/-- A word as the next one that a team of a system coach fetches. -/
def placeSystemWord (s : State) (w : Word) : State :=
  { s with
    cur := .split systemTeam 0
    teams := Store.insert s.teams systemTeam
      { Team.blank with sys := true, ctx := systemCtx, image := 0, coach := Config.coaches,
                        splits := [Split.fresh 0 0 (allLanes 32)], nextUid := 1 }
    mem := writeBytes s.mem (stagingKey 0) 4 w.toNat }

/-- A word as the next one that a bank unit's kernel executes. -/
def placeBankWord (s : State) (w : Word) : State :=
  { s with
    cur := .bank 0
    ctxs := Store.insert s.ctxs 0 Context.blank
    banks := [(0, { BankUnit.empty with
      slots := [(0, [w])]
      exec := some ⟨⟨0, 0, 0, 0, 1, 0, 1, List.replicate 8 0, 0, 0, []⟩, 0, 0, none, none, none, 0, true, false⟩ })] }

/-- The word where the next step fetches it: bank-only opcodes in a bank unit, the PRIV family in system mode, every
other word on a coach. -/
def placeWordNext (s : State) (w : Word) : State :=
  let op := field w.toNat 30 24
  if decide (0x26 ≤ op) && decide (op ≤ 0x2E) then placeBankWord s w
  else if op == 0x7F then placeSystemWord s w
  else placeCoachWord s w

end Sys2Proof.Machine
end

