-- ==== Sys2Proof/Machine/Matrix.lean ====
section
/-! DEFINITION. Matrix instructions and the tensor cores (spec/08; spec/05 R144 to R150): the rendezvous of a gang,
batches, tile fetch and the steps of a share. -/
namespace Sys2Proof.Machine

-- ## operands of a share

/-- MODE fields captured in MODE[31:16] (R79, R91). -/
def mmEta (mm : MMInstr) : MFmt := (mfmtOfCode (field mm.modeHi 7 4)).getD .e4m3
def mmEtb (mm : MMInstr) : MFmt := (mfmtOfCode (field mm.modeHi 11 8)).getD .e4m3
def mmMxs (mm : MMInstr) : Bool := mm.modeHi.testBit 12

/-- Address of the run of row i of an operand (R210). -/
def runAddr (base : DWord) (stride : Word) (i : Nat) : DWord := base + BitVec.ofNat 64 (i * stride.toNat)
/-- Scale bytes of a row, and the address of the first (R212). -/
def scaleCount (f : MFmt) : Nat := if f == .e2m1 then 2 else 1
def scaleAddr (f : MFmt) (base : DWord) (ts stride : Word) (i : Nat) : DWord :=
  (base.extractLsb' 32 32 ++ ts) + BitVec.ofNat 64 (i * (stride.toNat / (if f == .e2m1 then 16 else 32)))

/-- Rows of A that a member needs: 128 of them from 128·rank. -/
def shareRow (mm : MMInstr) (r : Nat) : Nat := 128 * mm.rank + r

/-- The lines that a share reads (R213), each once. -/
def shareLines (mm : MMInstr) : List Nat :=
  let n := shapeN mm.shape
  let fa := mmEta mm
  let fb := mmEtb mm
  let line (a : DWord) : Nat := a.toNat / 128
  let rows := (List.range 128).map (shareRow mm)
  let runs := rows.map (fun i => line (runAddr mm.a mm.tsa i)) ++ (List.range n).map (fun j => line (runAddr mm.b mm.tsb j))
  let scales := if !mmMxs mm then [] else
    rows.flatMap (fun i => (List.range (scaleCount fa)).map (fun k => line (scaleAddr fa mm.a mm.tsca mm.tsa i + BitVec.ofNat 64 k))) ++
    (List.range n).flatMap (fun j => (List.range (scaleCount fb)).map (fun k => line (scaleAddr fb mm.b mm.tscb mm.tsb j + BitVec.ofNat 64 k)))
  (runs ++ scales).eraseDups

-- ## issue

/-- A share enters its coach's queue (R206); its accumulators are in flight (R220). -/
def enterShare (s : State) (tid coach : Nat) (mm : MMInstr) (batch : Word) : State :=
  let s := s.modCoach coach (fun k => { k with tensor := k.tensor ++ [⟨tid, mm, batch, 0, 0, [], [], none⟩] })
  s.modTeam tid (fun t => if t.accs.contains (mm.accUse batch) then t else { t with accs := t.accs ++ [mm.accUse batch] })

/-- The instruction as captured at issue (R91). -/
def captureMM (s : State) (c : Issue) (m : MShape) (d : BitVec 8) (a b : BitVec 6) : MMInstr :=
  { shape := m, word := c.word, d := d.toNat, a := s.rpair c.t a.toNat, b := s.rpair c.t b.toNat,
    tsa := c.t.tsa, tsb := c.t.tsb, tsca := c.t.tsca, tscb := c.t.tscb, modeHi := (c.x.mode >>> 16).toNat,
    gang := if m == .mm128 then [] else c.t.gang, rank := if m == .mm128 then 0 else c.t.gangRank }

/-- What the latches compare (R209). -/
def mmMatches (x y : MMInstr) : Bool :=
  x.shape == y.shape && x.d == y.d && x.a == y.a && x.b == y.b && x.gang == y.gang && x.tsa == y.tsa &&
    x.tsb == y.tsb && x.tsca == y.tsca && x.tscb == y.tscb && mmEta x == mmEta y && mmEtb x == mmEtb y &&
    mmMxs x == mmMxs y

/-- The team ids of a gang list, in its order. -/
def gangTids (s : State) (drove : Nat) (gang : List Nat) : List Nat :=
  match s.drove drove with
  | none => []
  | some d => gang.filterMap (fun g => d.teams.find? (fun tid => ((s.team tid).map (fun t => t.teamId == g)).getD false))

/-- A member that has entered an instruction: its team, the team's state, the entry. -/
structure LatchMember where
  tid : Nat
  t : Team
  e : LatchEntry

/-- The members of a gang list that have entered an instruction and run, in the list's order (R209). -/
def latchMembers (s : State) (drove : Nat) (gang : List Nat) : List LatchMember :=
  (gangTids s drove gang).filterMap (fun tid =>
    match s.team tid with
    | some t => if t.running then t.latch.map (fun e => ⟨tid, t, e⟩) else none
    | none => none)

/-- A member's instruction leaves the latch. -/
def clearLatch (s : State) (m : LatchMember) : State := s.modTeam m.tid (fun t => { t with latch := none })

/-- One instruction of a batch is no longer to be waited for (R218). -/
def leaveBatch (t : Team) (batch : Word) : Team :=
  if batch == 0 then { t with openMM := t.openMM - 1 }
  else { t with batches := t.batches.map (fun b => if b.num == batch then { b with left := b.left - 1 } else b) }

/-- A member's instruction leaves the latch without effect and raises a cause (R14, R209). -/
def latchCause (s : State) (k : MMInstr → Res) (m : LatchMember) : State :=
  let s := (clearLatch s m).modTeam m.tid (fun t =>
    (leaveBatch t m.e.batch).modSplit m.e.split (fun x => { x with waits := [] }))
  match k m.e.mm with
  | .trap c i a => takeCause s m.tid m.e.split ⟨c, i, a⟩
  | _ => s

/-- A member's share enters its queue, and its split goes on at the next instruction (R209). -/
def latchEnter (s : State) (m : LatchMember) : State :=
  let s := enterShare (clearLatch s m) m.tid m.t.coach m.e.mm m.e.batch
  match m.t.split m.e.split with
  | some x => advance s m.tid m.e.split (m.e.mm.word.getLsbD 31) (x.pc + 4) []
  | none => s

/-- The base of a matrix instruction that is not a multiple of 32 (R215). -/
def mmMisaligned (mm : MMInstr) : Option DWord := [mm.a, mm.b].find? (fun v => v.toNat % 32 != 0)

/-- The rendezvous of R209: once every team of the gang list has entered an instruction, they are compared; when they are
equal and aligned they enter every queue in one cycle, as soon as all have room. The checks keep R215's order. -/
def settleLatch (s : State) (tid : Nat) : State :=
  match (s.team tid).bind (fun t => t.latch.map (fun e => LatchMember.mk tid t e)) with
  | none => s
  | some me =>
    let mm := me.e.mm
    let ms := latchMembers s me.t.drove mm.gang
    if ms.length != mm.gang.length then s
    else if !ms.all (fun m => mmMatches mm m.e.mm) then
      ms.foldl (fun s m =>
        let pc := ((m.t.split m.e.split).map (fun x => m.t.codeHi ++ x.pc)).getD 0
        latchCause s (fun mm => .trap .illegalOp mm.word pc) m) s
    else match mmMisaligned mm with
      | some v => ms.foldl (latchCause · (fun _ => .trap .misalign 0x80000000 v)) s
      | none => if ms.all (fun m => tensorRoom s m.t.coach) then ms.foldl latchEnter s else s

/-- Every rendezvous that may have become possible: queue space was freed, or teams run again. -/
def settleLatches (s : State) : State :=
  ((s.teams.filter (fun e => e.2.latch.isSome)).map (·.1)).foldl settleLatch s

/-- The instruction enters its coach's latch, counted in the open batch (R209, R218), and its split parks there. -/
def enterLatch (s : State) (c : Issue) (mm : MMInstr) : State :=
  let t : Team := { c.t with latch := some ⟨mm, c.uid, 0⟩, openMM := c.t.openMM + 1 }
  settleLatch (s.setTeam c.tid (t.modSplit c.uid (fun x => { x with waits := [.latch], parkedAt := s.clk.cycle.toNat })))
    c.tid

/-- A matrix instruction (R215): the guard and the mask are ignored. An MM128 does not use the latch (R209): it enters the
queue at its issue, ahead of an instruction of the team that stands in the latch (log 79). -/
def matrixOp (i : Instr) (sw : Bool) (m : MShape) (d : BitVec 8) (a b : BitVec 6) (s : State) :
    Host.Outcome State Fault Refusal :=
  issueAs false i sw (fun c =>
      { vw := regGroup d.toNat (shapeAcc m), mode := .mat, wrote := some 0,
        regOk := wellFormed i && (m == .mm128 || c.t.gang.length == shapeG m) }) oneCycle s (fun c =>
    let mm := captureMM s c m d a b
    if c.t.w != 1024 then c.trapWord .illegalOp
    else if m == .mm128 then
      match mmMisaligned mm with
      | some v => .trap .misalign 0x80000000 v
      | none =>
        if !released c.t c.uid false then .hold (.release false)
        else if !tensorRoom s c.t.coach then .hold .tensor
        else .next (enterShare (c.put s { c.t with openMM := c.t.openMM + 1 }) c.tid c.t.coach mm 0)
    else if c.t.latch.isSome then .hold .latchEmpty
    else if !released c.t c.uid false then .hold (.release false)
    else .done (enterLatch s c mm))

/-- MM128 (R215). -/
def execMm128 (sw : Bool) (d : BitVec 8) (a b : BitVec 6) (s : State) : Host.Outcome State Fault Refusal :=
  matrixOp (.mm128 sw d a b) sw .mm128 d a b s
/-- MM256 (R209, R215). -/
def execMm256 (sw : Bool) (d : BitVec 8) (a b : BitVec 6) (s : State) : Host.Outcome State Fault Refusal :=
  matrixOp (.mm256 sw d a b) sw .mm256 d a b s
/-- MM512 (R209, R215). -/
def execMm512 (sw : Bool) (d : BitVec 8) (a b : BitVec 6) (s : State) : Host.Outcome State Fault Refusal :=
  matrixOp (.mm512 sw d a b) sw .mm512 d a b s
/-- MM1024 (R209, R215). -/
def execMm1024 (sw : Bool) (d : BitVec 8) (a b : BitVec 6) (s : State) : Host.Outcome State Fault Refusal :=
  matrixOp (.mm1024 sw d a b) sw .mm1024 d a b s

/-- MBATCH (R218): it closes the instructions issued since the last one, one that stands in the latch too. -/
def execMbatch (sw : Bool) (d : BitVec 6) (s : State) : Host.Outcome State Fault Refusal :=
  issueCtl (.mbatch sw d) sw [d.toNat] s (fun c =>
    let n := nextTag c.t.batchCtr
    let t : Team := { c.t with
      batchCtr := n
      batches := c.t.batches ++ [⟨n, c.t.openMM⟩]
      openMM := 0
      latch := c.t.latch.map (fun l => if l.batch == 0 then { l with batch := n } else l)
      accs := c.t.accs.map (fun a => if a.batch == 0 then { a with batch := n } else a) }
    let s := c.put s (t.setS d.toNat n)
    .next (s.modCoach c.t.coach (fun k => { k with tensor := k.tensor.map (fun h =>
      if h.tid == c.tid && h.batch == 0 then { h with batch := n } else h) })))

-- ## tile fetch and the tensor core

/-- The context and compartment of a share's team. -/
def shareAgent (s : State) (h : Share) : Option Agent :=
  (s.team h.tid).map (fun t => ⟨t.ctx, t.comp, noCoach⟩)

/-- The share runs: its team's context does. -/
def shareActive (s : State) (h : Share) : Bool :=
  match s.team h.tid with | some t => ctxActive s t.ctx && t.running | none => false

/-- Change the first share of a queue that a test selects. -/
def modFirstShare (p : Share → Bool) (f : Share → Share) : List Share → List Share
  | [] => []
  | h :: r => if p h then f h :: r else h :: modFirstShare p f r

/-- Release the pins of a share's lines (R163). -/
def unpinTiles (s : State) (asid : Nat) (ls : List Nat) : State :=
  ls.foldl (fun s line => modL2 s asid line (fun x => { x with tile := x.tile - 1 })) s

/-- The cause of an operand, or its line in the L2 (R213): a window or SHARED_UNCACHED operand is PROTECTION. -/
def fetchOperandLine (s : State) (ag : Agent) (line : Nat) : Except Cause State :=
  let va : DWord := BitVec.ofNat 64 (line * 128)
  if !canonical va || inWindow va then .error .protection
  else match homeLine s ag.ctx ag.comp va.toNat false with
    | .error c => .error c
    | .ok (_, some _) => .error .protection
    | .ok (s, none) => .ok s

/-- PFL2 (R214): the lines come into L2 as far as they can be had; no other effect, and no cause. -/
def execPfl2 (sw : Bool) (a b : BitVec 6) (s : State) : Host.Outcome State Fault Refusal :=
  issueCtl (.pfl2 sw a b) sw [] s (fun c =>
    let base := (s.rpair c.t a.toNat).toNat
    let n := (s.rs c.t b.toNat).toNat
    let lines := if n == 0 then [] else (List.range ((base + n - 1) / 128 + 1 - base / 128)).map (base / 128 + ·)
    .next (lines.foldl (fun s line => match fetchOperandLine s c.agent line with | .ok s' => s' | .error _ => s) s))

/-- A cause of an operand: a stall, or the halt of the context with the tensor core as origin (R213, R302). -/
def tensorCause (s : State) (coach : Nat) (ctx : Nat) (p : Share → Bool) (c : Cause) (va : DWord) : State :=
  if causeParks c then s.modCoach coach (fun k => { k with tensor := modFirstShare p (fun h => { h with stalled := some va }) k.tensor })
  else haltContext s ⟨ctx, c, 1, coach, 0, va⟩

/-- Tile ways of a line's set that other lines have pinned (R163). -/
def tileWays (s : State) (asid line : Nat) : Nat :=
  (s.l2.filter (fun x => l2Set x.line x.asid == l2Set line asid && x.tile != 0 && x.line != line)).length

/-- TILE_FETCH_LINE (R213): the next operand line of the first share that still needs one is pinned until that share has
consumed it; a set whose two tile ways are taken makes the fetch wait (R163). -/
def execTileFetchLine (coach : Nat) (s : State) : Host.Outcome State Fault Refusal :=
  let want (h : Share) : Bool := shareActive s h && h.stalled.isNone && decide (h.fetched < (shareLines h.mm).length)
  match (s.coach coach).tensor.find? want with
  | none => .next s
  | some h =>
    match shareAgent s h with
    | none => .next s
    | some ag =>
      let asid := s.asid ag.ctx
      let line := (shareLines h.mm).getD h.fetched 0
      match fetchOperandLine s ag line with
      | .error c => .next (tensorCause s coach ag.ctx (· == h) c (BitVec.ofNat 64 (line * 128)))
      | .ok s' =>
        if tileWays s' asid line ≥ 2 then .next s
        else
          let s' := modL2 s' asid line (fun x => { x with tile := x.tile + 1 })
          let got (x : Share) : Share := { x with fetched := x.fetched + 1, pins := x.pins ++ [line] }
          .next (s'.modCoach coach (fun k => { k with tensor := modFirstShare (· == h) got k.tensor }))

/-- The words of an operand line at their places (R213), none where one is LOST; in an image window of the hardware they
are free values (R110, log 6). -/
def consumeLine (s : State) (ag : Agent) (line : Nat) : Except (Cause × DWord) (State × List (Option Word)) :=
  match fetchOperandLine s ag line with
  | .error c => .error (c, BitVec.ofNat 64 (line * 128))
  | .ok s =>
    let hw := inImageWindow s ag.ctx (line * 128)
    .ok (s, (List.range 32).map (fun i =>
      if hw then some (Config.freeWord s.free 5122 (32 * line + i))
      else match placeWord s (s.asid ag.ctx) line i with | .ok w => some w | .error _ => none))

/-- A share consumes the lines it has pinned, and their ways are released (R163, R213). -/
def consumeLines (ag : Agent) : List Nat → State → Share → Except (Cause × DWord) (State × Share)
  | [], s, h => .ok (s, h)
  | line :: r, s, h =>
    match consumeLine s ag line with
    | .error e => .error e
    | .ok (s, ws) =>
      consumeLines ag r (unpinTiles s (s.asid ag.ctx) [line])
        { h with pins := h.pins.erase line, eaten := h.eaten ++ [(line, ws)] }

/-- Words of an operand, as one number. -/
def readRun (h : Share) (va : DWord) : Nat → Except (Cause × DWord) Nat
  | 0 => .ok 0
  | n + 1 =>
    match (Store.find h.eaten (va.toNat / 128)).bind (fun ws => ws.getD (wordIndex va.toNat) none) with
    | none => .error (.ownerLost, va)
    | some w =>
      match readRun h (va + 4) n with
      | .error e => .error e
      | .ok v => .ok (w.toNat + 2 ^ 32 * v)

/-- The bytes of a row's scales (R212). -/
def readScales (h : Share) (va : DWord) : Nat → Except (Cause × DWord) (List Nat)
  | 0 => .ok []
  | n + 1 =>
    match readRun h (va &&& ~~~(3 : DWord)) 1 with
    | .error e => .error e
    | .ok w =>
      match readScales h (va + 1) n with
      | .error e => .error e
      | .ok r => .ok (field w (8 * (va.toNat % 4) + 7) (8 * (va.toNat % 4)) :: r)

/-- The runs and scales of some rows of an operand. -/
def readRows (h : Share) (f : MFmt) (mxs : Bool) (base : DWord) (ts stride : Word) :
    List Nat → Except (Cause × DWord) (List (Nat × List Nat))
  | [] => .ok []
  | i :: r =>
    match readRun h (runAddr base stride i) 8 with
    | .error e => .error e
    | .ok v =>
      match readScales h (scaleAddr f base ts stride i) (if mxs then scaleCount f else 0) with
      | .error e => .error e
      | .ok sc =>
        match readRows h f mxs base ts stride r with
        | .error e => .error e
        | .ok xs => .ok ((v, sc) :: xs)

/-- One step of a share: 64 accumulator rows (R215, R216, R221). -/
def stepAccumulators (t : Team) (mm : MMInstr) (r0 : Nat) (as bs : List (Nat × List Nat)) : Team :=
  let n := shapeN mm.shape
  let f := 1024 / n
  (as.zipIdx).foldl (fun t (e : (Nat × List Nat) × Nat) =>
    let r := r0 + e.2
    (bs.zipIdx).foldl (fun t (b : (Nat × List Nat) × Nat) =>
      let reg := mm.d + r / f
      let lane := (r % f) * n + b.2
      let old := t.v reg lane
      t.setV reg lane (BitVec.ofNat 32
        (matrixElem (mmEta mm) (mmEtb mm) (mmMxs mm) e.1.1 b.1.1 e.1.2 b.1.2 old.toNat))) t) t

/-- A finished share leaves its queue, and its batch has one less to wait for (R218); the room may be waited for (R209). -/
def endShare (s : State) (coach : Nat) (h : Share) : State :=
  let s := s.modCoach coach (fun k => { k with tensor := k.tensor.erase h })
  settleLatches (s.modTeam h.tid (fun t => leaveBatch t h.batch))

/-- The rows of A and B that a step of a share multiplies. -/
def stepRows (h : Share) : Except (Cause × DWord) (List (Nat × List Nat) × List (Nat × List Nat)) :=
  let mm := h.mm
  match readRows h (mmEta mm) (mmMxs mm) mm.a mm.tsca mm.tsa ((List.range 64).map (fun i => shareRow mm (64 * h.steps + i))) with
  | .error e => .error e
  | .ok as =>
    match readRows h (mmEtb mm) (mmMxs mm) mm.b mm.tscb mm.tsb (List.range (shapeN mm.shape)) with
    | .error e => .error e
    | .ok bs => .ok (as, bs)

/-- A share whose operands have all been consumed does its next 64 rows (R217, R221); accumulators whose lines are FILLING
make it wait (R116). -/
def runShare (s : State) (coach : Nat) (ctx : Nat) (h : Share) : State :=
  let regs := regGroup h.mm.d (shapeAcc h.mm.shape)
  match stepRows h with
  | .error (c, va) => tensorCause s coach ctx (· == h) c va
  | .ok (as, bs) =>
    if ((s.team h.tid).map (fun t => regs.any t.filling)).getD false then s
    else
      let s := s.modTeam h.tid (fun t => markDirty (stepAccumulators t h.mm (64 * h.steps) as bs) regs)
      if h.steps + 1 < 2 then
        let stepped (x : Share) : Share := { x with steps := x.steps + 1 }
        s.modCoach coach (fun k => { k with tensor := modFirstShare (· == h) stepped k.tensor })
      else endShare s coach h

/-- TENSOR_STEP (R213, R217, R221): the first running share consumes the lines that have been fetched for it and, once it
has them all, does its next 64 rows. -/
def execTensorStep (coach : Nat) (s : State) : Host.Outcome State Fault Refusal :=
  match (s.coach coach).tensor.find? (shareActive s) with
  | none => .next s
  | some h =>
    match shareAgent s h with
    | none => .next s
    | some ag =>
      if h.stalled.isSome then .next s
      else match consumeLines ag h.pins s h with
        | .error (c, va) => .next (tensorCause s coach ag.ctx (· == h) c va)
        | .ok (s, h') =>
          let s := s.modCoach coach (fun k => { k with tensor := modFirstShare (· == h) (fun _ => h') k.tensor })
          if h'.fetched < (shareLines h'.mm).length then .next s else .next (runShare s coach ag.ctx h')

end Sys2Proof.Machine
end

