-- ==== Sys2Proof/Machine/BankSave.lean ====
section
/-! DEFINITION. Stopped runs and kept state of the bank units: the BKSAVE records (spec/09 R246), writing and reading them,
and bank state that follows its rows when a page moves (spec/13 R326, R327). -/
namespace Sys2Proof.Machine

/-- Words of a mask. -/
def bankMaskWords (m : BitVec 256) : List Word := (List.range 8).map (fun i => (m >>> (32 * i)).setWidth 32)
/-- A mask of words. -/
def bankMaskOf (ws : List Word) : BitVec 256 := BitVec.ofNat 256 ((List.range 8).foldr (fun j a => (ws.getD j 0).toNat + 2 ^ 32 * a) 0)

/-- The row that a record names (R246): the one that was open when the run stopped, or one that a stopped or suspended run has
not reopened yet. The row of a pass that has not begun is no such row: the pass opens it when it begins (R231). -/
def recordRow (x : BankSaved) : Option Int :=
  x.exec.opening.bind (fun off => if !x.opened && x.exec.upc == 0 && off == 0 then none else some off)

/-- A pair of words, low half first. -/
def pairWords (x : DWord) : List Word := [x.setWidth 32, (x >>> 32).setWidth 32]
/-- Words followed by zeros up to n. -/
def padWords (n : Nat) (ws : List Word) : List Word := ws ++ zeros (n - ws.length)

/-- A BKSAVE record (R246); `long` is the word of the long instruction inside which the run stopped. -/
def bankRecord (kind : Nat) (x : BankSaved) (long : Word) : List Word :=
  let e := x.exec
  let row := recordRow x
  ((List.range 4).flatMap (fun i => padWords 256 ((x.q.getD i zeroRow).take 256))) ++ padWords 8 (x.k.take 8) ++
  [x.mode, BitVec.ofNat 32 (kind + 256 * e.upc + 65536 * x.mstack.length), BitVec.ofNat 32 e.pass, e.run.ctl] ++
  pairWords e.run.va ++ [e.run.tag, BitVec.ofNat 32 (e.run.tid % 8192)] ++
  padWords 32 (x.mstack.reverse.flatMap bankMaskWords) ++
  [if row.isSome then 1 else 0, BitVec.ofInt 32 (row.getD 0), long] ++ zeros 13 ++ zeros 960

/-- The record of a unit for a context, if it has a stopped run or kept state of it, with the compartment whose key seals
it. -/
def unitRecord (s : State) (u ctx : Nat) : Option (Nat × List Word) :=
  let b := s.bank u
  match Store.find b.saved ctx with
  | some x => some (x.exec.run.comp, bankRecord 2 x (if x.exec.prog == 0 then 0 else kernelWord s u x.exec))
  | none => (Store.find b.kept ctx).map (fun x => (x.exec.run.comp, bankRecord 1 x 0))

/-- Where the record of a unit stands (R246). -/
def recordVa (s : State) (ctx u : Nat) : Nat := ((s.ctx ctx).map (fun c => c.spec.bksave.toNat)).getD 0 + 8192 * u

/-- What a record says of a stopped run or of kept state. A run stopped inside a long instruction repeats it from its start; a
row that was open is to be opened again, and so is the row of a pass that begins. -/
def BankSaved.setRecord (x : BankSaved) (ws : List Word) : BankSaved :=
  let g (i : Nat) : Nat := (ws.getD i 0).toNat
  let upc := field (g 1033) 13 8
  { exec := { x.exec with
      run := { x.exec.run with ctl := ws.getD 1035 0, va := ws.getD 1037 0 ++ ws.getD 1036 0, tag := ws.getD 1038 0 }
      upc := upc
      pass := g 1034
      row := none
      stalled := none
      prog := 0
      ending := false
      opening := if (ws.getD 1072 0).getLsbD 0 then some (ws.getD 1073 0).toInt else if upc == 0 then some 0 else none }
    opened := (ws.getD 1072 0).getLsbD 0
    q := (List.range 4).map (fun i => (ws.drop (256 * i)).take 256)
    k := (ws.drop 1024).take 8
    mode := ws.getD 1032 0
    mstack := ((List.range (field (g 1033) 18 16)).map (fun i => bankMaskOf ((ws.drop (1040 + 8 * i)).take 8))).reverse }

/-- What a record read back gives. -/
inductive ReadBack
  | got (s : State) (ws : List Word)
  /-- a page fault, or a record that was not written: the unit goes on with what it holds (log 49) -/
  | held
  | halted (s : State)

/-- A record of the context's last pre-emption could not be written: what its unit holds stays (log 49). -/
def recordUnwritten (s : State) (ctx va : Nat) : Bool := ((s.ctx ctx).map (fun c => c.recordsDue.contains va)).getD false

/-- Read the record of a unit (R246). -/
def readRecord (s : State) (ctx comp u : Nat) : ReadBack :=
  if recordUnwritten s ctx (recordVa s ctx u) then .held
  else match hwReadLines s ctx comp 34 (recordVa s ctx u) with
    | .ok (s, ws) => .got s ws
    | .error (c, va) => if causeParks c then .held else .halted (haltContext s ⟨ctx, c, 5, u, 0, BitVec.ofNat 64 va⟩)

/-- A stopped run of a context comes back to a free unit from its record, before any newer run there (R246), when its
pseudo-channel has room for it (R241). -/
def restoreRun (s : State) (ctx u : Nat) : State :=
  let b := s.bank u
  match (if channelRuns s (unitChannel u) < 4 then Store.find b.saved ctx else none), b.exec with
  | some x, none =>
    let back (s : State) (x : BankSaved) : State :=
      let b := s.bank u
      s.setBank u { b with
        exec := some { x.exec with prog := 0, advanced := true }, q := x.q, k := x.k, mode := x.mode, mstack := x.mstack
        saved := Store.erase b.saved ctx, busy := max b.busy (bankCycle s) }
    (match readRecord s ctx x.exec.run.comp u with
     | .got s ws => back s (x.setRecord ws)
     | .held => back s x
     | .halted s => s)
  | _, _ => s

/-- Kept state of a context comes back from its record (R246). -/
def restoreKept (s : State) (ctx u : Nat) : State :=
  match Store.find (s.bank u).kept ctx with
  | none => s
  | some x =>
    match readRecord s ctx x.exec.run.comp u with
    | .got s ws => s.setBank u { s.bank u with kept := Store.insert (s.bank u).kept ctx { x.setRecord ws with exec := x.exec } }
    | .held => s
    | .halted s => s

/-- Stop the run of a context at a bank unit (R240, R246): its row is precharged, its state kept. One that was about to close
its pass executes its BKEND again when it goes on; one whose last row is closed has ended. -/
def stopBank (s : State) (u : Nat) (e : BankExec) : State :=
  if runOver e then endRun s u e
  else match closeRow s e with
  | (s, e', live) =>
    let b := s.bank u
    let x : BankExec := { e' with opening := match e.row with | some r => some r.off | none => e.opening, ending := false }
    let s := s.setBank u { b with
      exec := none, q := List.replicate 4 zeroRow, mstack := []
      saved := Store.insert b.saved e.run.ctx ⟨x, e.row.isSome, b.q, b.k, b.mode, b.mstack⟩ }
    if live then s else haltContext s ⟨e.run.ctx, .keyEnded, 5, u, 0, openVa e⟩

/-- Stop every run of a context. -/
def stopBanks (s : State) (ctx : Nat) : State :=
  s.banks.foldl (fun s e =>
    match e.2.exec with
    | some x => if x.run.ctx == ctx then stopBank s e.1 x else s
    | none => s) s

/-- Stopped runs and kept state of a context come back (R246). -/
def restoreBanks (s : State) (ctx : Nat) : State :=
  (s.banks.map (·.1)).foldl (fun s u => restoreRun (restoreKept s ctx u) ctx u) s

-- ## bank state follows its rows (R22, R326, R327)

/-- The unit of a row as the page tables stand. -/
def rowUnit (s : State) (ctx : Nat) (va : DWord) : Option Nat :=
  match rawTrans s ctx va.toNat with
  | some t => if pteLinear t.pte && pteTier t.pte == .hbm then some (unitOf t) else none
  | none => none

/-- The unit to which a row has moved away from unit u. -/
def movedTo (s : State) (ctx u : Nat) (va : DWord) : Option Nat :=
  match rowUnit s ctx va with | some v => if v == u then none else some v | none => none

/-- The row of the pass in hand. -/
def passVa (e : BankExec) : DWord := rowVa e.run.va e.pass

/-- A run that moves takes the words of its kernel along (R247): a BKLOAD that its old unit has still to receive does not reach
it in its new one. Of a queued run they are those of the images queued before it, or else the unit's. -/
def BankRun.carry (s : State) (u : Nat) (before : List BankItem) (r : BankRun) : BankRun :=
  if !r.words.isEmpty then r
  else
    let images := before.filterMap (fun i =>
      match i with | .image t _ n ws => if t / 8192 == r.ctx && n == r.image then some ws else none | _ => none)
    { r with words := images.getLast?.getD (slotWords s u (4 * r.ctx + r.image)) }

/-- A stopped run or kept state goes to the unit of its row, and its record with it. -/
def moveRecord (s : State) (ctx u v : Nat) : State :=
  let b := s.bank u
  let carried (x : BankSaved) : BankSaved := { x with exec := { x.exec with run := x.exec.run.carry s u [] } }
  let w := s.bank v
  let s := s.setBank u { b with saved := Store.erase b.saved ctx, kept := Store.erase b.kept ctx }
  let w' : BankUnit := { w with
    saved := match Store.find b.saved ctx with | some x => Store.insert w.saved ctx (carried x) | none => w.saved
    kept := match Store.find b.kept ctx with | some x => Store.insert w.kept ctx x | none => w.kept }
  let s := s.setBank v w'
  match unitRecord s v ctx with
  | some (comp, ws) => (match hwWriteWords s ctx comp 66 (recordVa s ctx v) ws with | .ok s => s | .error _ => s)
  | none => s

/-- What a unit holds for a context follows the rows that have moved away: a running kernel whose row is closed, a stopped
run, kept state, and what is queued. -/
def relocateUnit (s : State) (ctx u : Nat) : State :=
  let s := match (s.bank u).exec with
    | some e =>
      if e.run.ctx == ctx && e.row.isNone && (movedTo s ctx u (passVa e)).isSome then stopBank s u { e with stalled := none } else s
    | none => s
  let b := s.bank u
  let holds := (Store.find b.saved ctx).or (Store.find b.kept ctx)
  let s := match holds.bind (fun x => movedTo s ctx u (passVa x.exec)) with
    | some v => moveRecord s ctx u v
    | none => s
  let gone (i : BankItem) : Option Nat := (itemRow i).bind (fun x => if x.1 == ctx then movedTo s ctx u x.2.2 else none)
  ((s.bank u).queue.filter (fun i => (gone i).isSome)).foldl (fun s i =>
    match gone i with
    | some v =>
      let i' := match i with
        | .run r => BankItem.run (r.carry s u ((s.bank u).queue.takeWhile (fun x => x != i)))
        | x => x
      let s := s.setBank u { s.bank u with queue := dropItem i (s.bank u).queue }
      serveIdle v (s.setBank v { s.bank v with queue := (s.bank v).queue ++ [i'] })
    | none => s) s

/-- The bank units follow the rows of a context. -/
def relocateBanks (s : State) (ctx : Nat) : State := (s.banks.map (·.1)).foldl (fun s u => relocateUnit s ctx u) s

-- ## admission (R242)

/-- A stopped run of a running context comes back before anything newer on its bank (R246), when there is room (R241). -/
def toRestore (s : State) (u : Nat) : Option Nat :=
  let b := s.bank u
  if b.exec.isSome || decide (4 ≤ channelRuns s (unitChannel u)) then none else (b.saved.find? (fun e => ctxActive s e.1)).map (·.1)

/-- BANK_RUN_ADMIT (R242, R246): a stopped run comes back; else, when it is this unit's turn, its run starts, the BKREAD lanes
that wait there served before it (R234); the TRAIN runs that a SERVE run has passed over are counted. -/
def execBankRunAdmit (u : Nat) (s : State) : Host.Outcome State Fault Refusal :=
  match toRestore s u, admitChoice s (unitChannel u) with
  | some ctx, _ => .next (restoreRun s ctx u)
  | none, none => .next s
  | none, some (v, r) =>
    if v != u then .next s
    else
      let passedOver := if isServe r then ((admissible s (unitChannel u)).filter (fun x => !isServe x.2)).map (·.1) else []
      let s : State := { s with banks := s.banks.map (fun e =>
        if passedOver.contains e.1 then
          (e.1, { e.2 with queue := match headRun s e.2 with
            | some x => e.2.queue.map (fun i => if i == .run x then .run { x with passed := x.passed + 1 } else i)
            | none => e.2.queue })
        else e) }
      let s := serveIdle u s
      .next (s.setBank u (startRun s (s.bank u) r))

end Sys2Proof.Machine
end

