-- ==== Sys2Proof/Machine/Sha.lean ====
section
/-! DEFINITION. SHA-256 (FIPS 180-4), which DIGEST applies to its source bytes (spec/10 R257) and the boot ROM to
its measurements (spec/14 R340). -/
namespace Sys2Proof.Machine

/-- The greatest r below lo + 2^n with r^k at most x, found bit by bit from lo. -/
def rootBits (k x : Nat) : Nat → Nat → Nat
  | 0, lo => lo
  | n + 1, lo => rootBits k x n (if (lo + 2 ^ n) ^ k ≤ x then lo + 2 ^ n else lo)

/-- n has no divisor from 2 up to the square root of the primes that are used here (the 64th is 311). -/
def smallPrime (n : Nat) : Bool := (List.range 18).all (fun d => decide (d < 2) || decide (n ≤ d) || n % d != 0)

/-- The first primes. -/
def shaPrimes : List Nat := ((List.range 312).drop 2).filter smallPrime

/-- The first 32 bits of the fraction of the k-th root of a prime, as FIPS 180-4 gives the constants. -/
def rootFraction (k p : Nat) : Word := BitVec.ofNat 32 (rootBits k (p * 2 ^ (32 * k)) 37 0)

/-- The round constants, from cube roots (FIPS 180-4, 4.2.2). -/
def shaK : List Word := shaPrimes.map (rootFraction 3)

/-- The initial hash value, from square roots (FIPS 180-4, 5.3.3). -/
def shaInit : List Word := (shaPrimes.take 8).map (rootFraction 2)

def rotr32 (x : Word) (n : Nat) : Word := (x >>> n) ||| (x <<< (32 - n))

/-- One schedule word from the last sixteen, newest first. -/
def shaNext (ws : List Word) : Word :=
  let w2 := ws.getD 1 0
  let w15 := ws.getD 14 0
  let s1 := rotr32 w2 17 ^^^ rotr32 w2 19 ^^^ (w2 >>> 10)
  let s0 := rotr32 w15 7 ^^^ rotr32 w15 18 ^^^ (w15 >>> 3)
  s1 + ws.getD 6 0 + s0 + ws.getD 15 0

/-- The message schedule, newest word first. -/
def shaSchedule : Nat → List Word → List Word
  | 0, ws => ws
  | n + 1, ws => shaSchedule n (shaNext ws :: ws)

/-- One compression round on (a, .., h). -/
def shaRound (s : List Word) (kw : Word × Word) : List Word :=
  match s with
  | [a, b, c, d, e, f, g, h] =>
    let t1 := h + (rotr32 e 6 ^^^ rotr32 e 11 ^^^ rotr32 e 25) + ((e &&& f) ^^^ (~~~e &&& g)) + kw.1 + kw.2
    let t2 := (rotr32 a 2 ^^^ rotr32 a 13 ^^^ rotr32 a 22) + ((a &&& b) ^^^ (a &&& c) ^^^ (b &&& c))
    [t1 + t2, a, b, c, d + t1, e, f, g]
  | _ => s

/-- Compress one block of sixteen words into the hash value. -/
def shaBlock (h : List Word) (ws : List Word) : List Word :=
  let sched := (shaSchedule 48 ws.reverse).reverse
  List.zipWith (· + ·) h ((List.zip shaK sched).foldl shaRound h)

/-- Big-endian words of a byte list. -/
def beWords : List Byte → List Word
  | a :: b :: c :: d :: r => (a ++ b ++ c ++ d) :: beWords r
  | _ => []

/-- The padded message: 0x80, zeros, and the 64-bit bit length. -/
def shaPad (msg : List Byte) : List Byte :=
  let n := msg.length
  let z := (119 - n % 64) % 64
  let len : BitVec 64 := BitVec.ofNat 64 (8 * n)
  msg ++ [0x80#8] ++ List.replicate z 0 ++ (List.range 8).map (fun i => len.extractLsb' (8 * (7 - i)) 8)

/-- Compress n blocks. -/
def shaBlocks : Nat → List Word → List Word → List Word
  | 0, h, _ => h
  | n + 1, h, ws => shaBlocks n (shaBlock h (ws.take 16)) (ws.drop 16)

/-- The digest, H0's most significant byte first (R257). -/
def sha256 (msg : List Byte) : List Byte :=
  let p := shaPad msg
  let h := shaBlocks (p.length / 64) shaInit (beWords p)
  h.flatMap (fun w => [w.extractLsb' 24 8, w.extractLsb' 16 8, w.extractLsb' 8 8, w.extractLsb' 0 8])

end Sys2Proof.Machine
end

