-- ==== Sys2Proof/Machine/Copy.lean ====
section
/-! DEFINITION. The copy engines (spec/10 R251 to R262; spec/06 R182, R183; spec/13 R315): issue of copy commands and
DIGEST, their address sequences, window destinations, gates, and the chunks of a dray. -/
namespace Sys2Proof.Machine

-- ## the command block (R253 to R255)

/-- Fields of a block of eight registers. -/
def blkPair (b : List Word) (i : Nat) : DWord := b.getD (i + 1) 0 ++ b.getD i 0
def blkLen (b : List Word) : Nat := (b.getD 4 0).toNat
def blkCount (b : List Word) : Nat := field (b.getD 7 0).toNat 31 8
def blkDkind (b : List Word) : Nat := field (b.getD 7 0).toNat 7 6
def blkSkind (b : List Word) : Nat := field (b.getD 7 0).toNat 5 4
def blkQueue (b : List Word) : Nat := field (b.getD 7 0).toNat 2 0
/-- W40 of a window destination (R253). -/
def blkW40 (b : List Word) : Nat := (b.getD 2 0).toNat + 2 ^ 32 * field (b.getD 3 0).toNat 7 0

/-- COUNT belongs to the function (R254). -/
def fnCounted (f : CopyFn) : Bool := match f with | .copy2 | .gath => true | _ => false

/-- R254 and R255 hold for the control word and the operands, alignment apart. -/
def blkLegal (f : CopyFn) (b : List Word) : Bool :=
  !(b.getD 7 0).getLsbD 3 && decide (blkDkind b < 3) && decide (blkSkind b < 2) &&
  (if fnCounted f then blkCount b != 0 else blkCount b == 0) &&
  (match f with
   | .fill => blkSkind b == 0
   | .gath => decide (4 ≤ blkLen b) && decide (blkLen b ≤ 65536)
   | .gate => blkSkind b == 0 && blkDkind b == 0 && field (b.getD 5 0).toNat 31 4 == 0 && b.getD 6 0 == 0
   | .digest => decide (blkDkind b < 2)
   | _ => true)

/-- The source as a number: a VA, or a scratchpad address. -/
def blkSrc (b : List Word) : Nat := if blkSkind b == 1 then (b.getD 0 0).toNat else (blkPair b 0).toNat
/-- The destination as a number. -/
def blkDst (b : List Word) : Nat :=
  match blkDkind b with | 0 => (blkPair b 2).toNat | 1 => (b.getD 2 0).toNat | _ => blkW40 b

/-- The values that must be multiples of 4 (R255), in the order of the block: of DGATE the length alone. -/
def blkAligned (f : CopyFn) (b : List Word) : List Nat :=
  (match f with | .fill | .digest | .gate => [] | _ => [blkSrc b]) ++ (match f with | .gate => [] | _ => [blkDst b]) ++
  (match f with | .digest => [] | _ => [blkLen b]) ++
  (match f with
   | .copy2 => [(b.getD 5 0).toNat, (b.getD 6 0).toNat]
   | .gath => [(blkPair b 5).toNat]
   | _ => [])

/-- Bytes of the destination sequence, or of the message of DIGEST (R252). -/
def blkTotal (f : CopyFn) (b : List Word) : Nat := if fnCounted f then blkCount b * blkLen b else blkLen b

/-- Source span (first, length) known at issue (R201): none for DFILL and for DGATH's table. -/
def srcSpan (f : CopyFn) (b : List Word) : Option (Nat × Nat) :=
  match f with
  | .fill | .gath => none
  | .copy2 => some (blkSrc b, (blkCount b - 1) * (b.getD 5 0).toNat + blkLen b)
  | _ => some (blkSrc b, blkLen b)
/-- The index array of DGATH. -/
def idxSpan (f : CopyFn) (b : List Word) : Option (Nat × Nat) :=
  if f == .gath then some ((blkPair b 5).toNat, 4 * blkCount b) else none
/-- Destination span. -/
def dstSpan (f : CopyFn) (b : List Word) : Nat × Nat :=
  match f with
  | .copy2 => (blkDst b, (blkCount b - 1) * (b.getD 6 0).toNat + blkLen b)
  | .digest => (blkDst b, 32)
  | _ => (blkDst b, blkTotal f b)

/-- The source, the index array of DGATH or the destination lies in the partition window: the release of the issue is at .PRT
(R198, R201). -/
def copyRemote (f : CopyFn) (b : List Word) : Bool :=
  (f == .gath && inWindow (blkPair b 5)) || (f != .fill && blkSkind b == 0 && inWindow (blkPair b 0)) || (blkDkind b == 0 && inWindow (blkPair b 2))

/-- Scratchpad handles that a block names as its source or destination (R260). -/
def blkHandles (f : CopyFn) (b : List Word) : List Nat :=
  (if blkSkind b == 1 then (srcSpan f b).toList.map (fun x => x.1 / 2 ^ 19)
    ++ (if f == .gath then [blkSrc b / 2 ^ 19] else []) else []) ++
  (if blkDkind b == 1 then [blkDst b / 2 ^ 19] else [])

-- ## issue (R256)

/-- Step 2 of R176 for the first and last byte of a VA span. -/
def vaSpanTrap (s : State) (ctx : Nat) (sp : Nat × Nat) : Option Res :=
  let lo : DWord := BitVec.ofNat 64 sp.1
  let hi : DWord := BitVec.ofNat 64 (sp.1 + sp.2 - 1)
  if sp.2 == 0 then none
  else if routeBad s ctx lo then some (.trap .protection 0 lo)
  else if routeBad s ctx hi then some (.trap .protection 0 hi)
  else none

/-- Step 3 of R176 over the whole of a scratchpad span. -/
def spadSpanTrap (s : State) (c : Issue) (sp : Nat × Nat) : Option Res :=
  if sp.2 == 0 then none
  else
    let sa : Word := BitVec.ofNat 32 sp.1
    match spadRegion s c.t.drove c.t.coach sa with
    | none => some (.trap .handle 0 (sa.setWidth 64))
    | some h =>
      if spadOffset sa + sp.2 ≤ h.size then none
      else some (.trap .handle 0 (BitVec.ofNat 64 (sp.1 - spadOffset sa + h.size)))

/-- Every span check of an issue. -/
def spanTrap (s : State) (c : Issue) (f : CopyFn) (b : List Word) : Option Res :=
  if blkTotal f b == 0 && f != .digest then none
  else
    let va := (if blkSkind b == 0 then (srcSpan f b).toList else []) ++ (idxSpan f b).toList ++
      (if blkDkind b == 0 then [dstSpan f b] else [])
    let sp := (if blkSkind b == 1 then (srcSpan f b).toList else []) ++ (if blkDkind b == 1 then [dstSpan f b] else [])
    match va.findSome? (vaSpanTrap s c.t.ctx) with
    | some r => some r
    | none => sp.findSome? (spadSpanTrap s c)

/-- Range-lock entries of a command (R201): none for windows and empty spans. -/
def copyLocks (c : Issue) (f : CopyFn) (b : List Word) (tag : Word) : List LockEntry :=
  let mk (spad : Bool) (dst : Bool) (sp : Nat × Nat) : LockEntry :=
    ⟨c.t.ctx, dieOf c.t.coach, if spad then some c.t.drove else none, sp.1, sp.2, dst, c.tid, .copy, tag⟩
  let all := (srcSpan f b).toList.map (mk (blkSkind b == 1) false) ++ (idxSpan f b).toList.map (mk false false) ++
    (if blkDkind b == 2 then [] else [mk (blkDkind b == 1) true (dstSpan f b)])
  all.filter (fun l => l.len != 0)

/-- The queue of a field Q in the dray of a team's coach (R251). -/
def drayQueueOf (coach q : Nat) : Nat := 8 * (coach / 8 % 2) + q

/-- A copy command or DIGEST (R256). -/
def copyIssue (i : Instr) (sw : Bool) (f : CopyFn) (d a : BitVec 6) (s : State) : Host.Outcome State Fault Refusal :=
  issueCtl i sw [d.toNat] s (fun c =>
    let b := (List.range 8).map (fun k => s.rs c.t (a.toNat + k))
    if !blkLegal f b then c.trapWord .illegalOp
    else match (blkAligned f b).find? (fun x => x % 4 != 0) with
      | some x => .trap .misalign 0x80000000 (BitVec.ofNat 64 x)
      | none =>
        match spanTrap s c f b with
        | some r => r
        | none =>
          let empty := blkTotal f b == 0 && f != .digest
          let dr := drayOf c.t.coach
          let q := drayQueueOf c.t.coach (blkQueue b)
          let tag := nextTag c.t.copyCtr
          let locks := if empty then [] else copyLocks c f b tag
          if !engineRoom s c.t.ctx .copy (16 * dr + q) (dieOf c.t.coach) locks.length then
            .hold (.engine .copy (16 * dr + q) (dieOf c.t.coach) locks.length)
          else if !released c.t c.uid (copyRemote f b) then .hold (.release (copyRemote f b))
          else
            let dst := if blkDkind b == 0 && !empty then [dstSpan f b] else []
            let t : Team := { c.t with copyCtr := tag, tags := c.t.tags ++ [⟨.copy, tag, empty, dst, blkHandles f b⟩] }
            let s := c.put s (t.setS d.toNat tag)
            let s : State := { s with locks := s.locks ++ locks }
            if empty then .next s
            else .next (s.setQueue dr q ((s.dray dr).queue q ++
              [⟨f, b, c.tid, c.t.ctx, c.t.comp, c.t.drove, c.t.coach, tag, 0, none, false, []⟩])))

/-- DCOPY (R256, R257). -/
def execDcopy (sw : Bool) (d a : BitVec 6) (s : State) : Host.Outcome State Fault Refusal :=
  copyIssue (.dcopy sw d a) sw .copy d a s
/-- DCOPY2 (R256, R257). -/
def execDcopy2 (sw : Bool) (d a : BitVec 6) (s : State) : Host.Outcome State Fault Refusal :=
  copyIssue (.dcopy2 sw d a) sw .copy2 d a s
/-- DFILL (R256, R257). -/
def execDfill (sw : Bool) (d a : BitVec 6) (s : State) : Host.Outcome State Fault Refusal :=
  copyIssue (.dfill sw d a) sw .fill d a s
/-- DGATH (R256, R257). -/
def execDgath (sw : Bool) (d a : BitVec 6) (s : State) : Host.Outcome State Fault Refusal :=
  copyIssue (.dgath sw d a) sw .gath d a s
/-- DGATE (R256, R259, R315). -/
def execDgate (sw : Bool) (d a : BitVec 6) (s : State) : Host.Outcome State Fault Refusal :=
  copyIssue (.dgate sw d a) sw .gate d a s
/-- DIGEST (R256, R257). -/
def execDigest (sw : Bool) (d a : BitVec 6) (s : State) : Host.Outcome State Fault Refusal :=
  copyIssue (.digest sw d a) sw .digest d a s

-- ## engine accesses (R257 to R259)

/-- Why an engine's access does not complete. -/
inductive EngStop
  /-- a page fault: the operation stalls (R258) -/
  | park (va : DWord)
  /-- an answer of another member is awaited (R159) -/
  | wait (s : State)
  /-- a cause that halts the context -/
  | halt (c : Cause) (tinfo : Word) (va : DWord)

/-- A cause at an address. -/
def engCause (c : Cause) (va : DWord) : EngStop := if causeParks c then .park va else .halt c 0 va

/-- Who an engine works for: the team, the context, the compartment, the gate number it reports, and the mark its
pending remote accesses carry in place of a split, and the unit that sends them. -/
structure EngAgent where
  tid : Nat
  ctx : Nat
  comp : Nat
  gate : Option Word
  mark : Nat
  unit : Nat

/-- TINFO of a GATE halt: the gate number, or a free value where no gate is concerned (R291, log 6). -/
def gateInfo (s : State) (g : Option Word) : Word := g.getD (Config.freeWord s.free 8 0 &&& 15)

/-- The mark of an operation: no split has this number. -/
def engMark (k : TagKind) (tag : Word) : Nat :=
  2 ^ 40 + (match k with | .copy => 0 | .coll => 1 | .bank => 2 | .mm => 3) * 2 ^ 32 + tag.toNat

/-- Send a request of an engine to another member (R159, R308). -/
def engSend (s : State) (g : EngAgent) (index : Nat) (va : DWord) (n : Nat) (op : MemOp) (d : Dest) : State :=
  let (id, s) := s.fresh
  let s := s.request g.unit id g.ctx g.comp g.tid index va n .wt op .n32 false
  s.modTeam g.tid (fun t => { t with pending := t.pending ++ [⟨[g.mark], [], d, [(0, [])], some id, false⟩] })

/-- The page of an address belongs to another compartment (R258). -/
def otherComp (s : State) (ctx comp va : Nat) : Bool :=
  match rawTrans s ctx va with | some t => pteCmp t.pte != comp && pteCmp t.pte != 15 | none => false

/-- Read or write n bytes, 1 or 4, at a VA. A word of another member that has come is given up with its last byte. -/
def engAccess (s : State) (g : EngAgent) (va : DWord) (n : Nat) (op : MemOp) : Except EngStop (State × DWord) :=
  match route s g.ctx va .wt with
  | .bad => .error (.halt .protection 0 va)
  | .away i =>
    if opWrites op then .ok (engSend s g i va n op .ack, 0)
    else
      let word : DWord := va &&& ~~~(3 : DWord)
      let t := s.team g.tid
      match t.bind (fun t => Store.find t.remoteWords word.toNat) with
      | some v =>
        let last := va.toNat % 4 + n == 4
        let s := if last then s.modTeam g.tid (fun t => { t with remoteWords := Store.erase t.remoteWords word.toNat }) else s
        .ok (s, (v >>> (8 * (va.toNat % 4))).setWidth 64)
      | none =>
        let asked := (t.map (fun t => t.pending.any (fun p => p.dest == .word word.toNat))).getD false
        .error (.wait (if asked then s else engSend s g i word 4 .read (.word word.toNat)))
  | .here a p _ =>
    if otherComp s g.ctx g.comp a then .error (.halt .gate (gateInfo s g.gate) va)
    else match perform s ⟨g.ctx, g.comp, noCoach⟩ a n p op .n32 false with
      | .error c => .error (engCause c va)
      | .ok (s, x) => .ok (s, x)

/-- ENGINE_FAULT of an engine: its TINFO is unit-specific (R291), a free value (log 6). -/
def engFault (s : State) : EngStop := .halt .engineFault (Config.freeWord s.free 6 0) 0

/-- A scratchpad access of an engine, within the region or buffer of the drove that the handle names (R258). -/
def engSpad (s : State) (drove : Nat) (sa : Nat) : Option Handle :=
  match (s.drove drove).bind (fun d => Store.find d.handles (sa / 2 ^ 19 % 8192)) with
  | some h => if decide (sa < 2 ^ 32) && decide (sa % 2 ^ 19 < h.size) then some h else none
  | none => none

-- ## window destinations (R182, R183, R216)

/-- Where a word of a window goes. -/
inductive WinTarget
  | lane (tid reg lane : Nat)
  | spad (drove sa : Nat)
  | bad

/-- The team in a slot of a train of the partition. -/
def windowTeam (s : State) (ctx w : Nat) : Option (Nat × Team) :=
  s.teams.find? (fun e => e.2.ctx == ctx && !e.2.sys && e.2.running && e.2.ptrain == field w 37 32 &&
    e.2.coach % 8 == field w 31 29 && e.2.slot == field w 28 25)

/-- Shape of an accumulator window. -/
def windowShape (w : Nat) : MShape := match field w 24 23 with | 0 => .mm128 | 1 => .mm256 | 2 => .mm512 | _ => .mm1024
/-- First accumulator register of a window. -/
def windowAcc (w : Nat) : Nat :=
  match field w 24 23 with | 0 => 16 * field w 22 19 | 1 => 32 | 2 => 64 | _ => 128

/-- The word that a window address names, for a command of a drove whose team is on this coach. -/
def windowTarget (s : State) (ctx drove coach w : Nat) : WinTarget :=
  if w ≥ 2 ^ 40 then .bad
  else match field w 39 38 with
    | 0 =>
      (match windowTeam s ctx w with
       | some (tid, t) =>
         if field w 16 12 != 0 || decide (field w 11 7 ≥ t.m) || !t.holds (field w 24 17) then .bad
         else .lane tid (field w 24 17) (32 * field w 11 7 + field w 6 2)
       | none => .bad)
    | 1 =>
      (match windowTeam s ctx w with
       | some (tid, t) =>
         let n := shapeN (windowShape w)
         let e := field w 18 0 / 4
         let f := 1024 / n
         let reg := windowAcc w + e / n / f
         if (field w 24 23 != 0 && field w 22 19 != 0) || decide (field w 18 0 ≥ 512 * n) || t.w != 1024 || !t.holds reg then .bad
         else .lane tid reg (e / n % f * n + e % n)
       | none => .bad)
    | 2 =>
      if field w 28 25 != 0 || field w 24 20 != 0 then .bad
      else match s.drove drove with
        | none => .bad
        | some d =>
          let mine := d.handles.find? (fun h =>
            h.2.coach % 8 == field w 31 29 && (h.1 == 0 || h.2.holder == coach) && decide (h.2.base ≤ field w 19 0) &&
              decide (field w 19 0 < h.2.base + h.2.size))
          match mine with
          | some h =>
            (match s.teams.find? (fun e => e.2.drove == drove && e.2.ptrain == field w 37 32) with
             | some _ => .spad drove (h.1 * 2 ^ 19 + (field w 19 0 - h.2.base))
             | none => .bad)
          | none => .bad
    | _ => .bad

/-- Write a word through a window; a FILLING line merges it when it arrives (R116, R183). An accumulator in flight gets an
unpredictable value (R9, R220, log 6). -/
def windowWrite (s : State) (mark : Nat) (x : WinTarget) (v : Word) : State :=
  match x with
  | .lane tid reg lane =>
    s.modTeam tid (fun t =>
      let v := if t.inFlight reg then Config.freeWord s.free (1024 + reg) lane else v
      if t.filling reg then { t with pending := t.pending ++ [⟨[mark], [], .vec reg 1, [(lane, [v])], none, false⟩] }
      else markDirty (t.setV reg lane v) [reg])
  | .spad drove sa => spadWrite s drove (BitVec.ofNat 32 sa) 4 v.toNat
  | .bad => s

-- ## commands (R252, R257)

/-- The agent of a command. -/
def cmdAgent (c : CopyCmd) (comp : Nat) : EngAgent :=
  ⟨c.tid, c.ctx, comp, if c.fn == .gate then some (BitVec.ofNat 32 (field (c.blk.getD 5 0).toNat 3 0)) else none, engMark .copy c.tag, drayUnit (drayOf c.coach)⟩

/-- The gate of a DGATE (R315). -/
def cmdGate (s : State) (c : CopyCmd) : Option Gate :=
  (s.ctx c.ctx).bind (fun x => x.gates[field (c.blk.getD 5 0).toNat 3 0]?)

/-- Compartments of the source and destination pages. -/
def cmdComps (s : State) (c : CopyCmd) : Nat × Nat :=
  match c.fn, cmdGate s c with
  | .gate, some g => (g.scmp, g.dcmp)
  | _, _ => (c.comp, c.comp)

/-- A gate is declared (R315): it is VALID, and its compartments differ. -/
def gateDeclared (g : Gate) : Bool := g.valid && g.scmp != g.dcmp

/-- R259, R315: the checks of a DGATE on its gate, its issuer and the two windows; the address that fails. -/
def gateFails (s : State) (c : CopyCmd) : Option DWord :=
  if c.fn != .gate then none
  else
    let src := blkPair c.blk 0
    let dst := blkPair c.blk 2
    let n := blkLen c.blk
    match cmdGate s c with
    | none => some src
    | some g =>
      let who := match g.issuer with
        | 0 => c.comp == g.scmp || c.comp == g.dcmp | 1 => c.comp == g.scmp | 2 => c.comp == g.dcmp | _ => false
      if !gateDeclared g || !who then some src
      else if src.toNat < g.swin.toNat || src.toNat + n > g.swin.toNat + 65536 * g.slen then some src
      else if dst.toNat < g.dwin.toNat || dst.toNat + n > g.dwin.toNat + 65536 * g.dlen then some dst
      else none

/-- The first address of each 64 KiB unit that a span touches. -/
def spanUnits (lo n : Nat) : List Nat :=
  if n == 0 then [] else lo :: (List.range ((lo + n - 1) / 65536 - lo / 65536)).map (fun i => (lo / 65536 + 1 + i) * 65536)

/-- R259, R315: every page of a span of a DGATE lies in its compartment, before the first byte is written. A page that is
not mapped stalls the command (R258, log 81); a page of another member is that member's to check. -/
def gatePages (s : State) (c : CopyCmd) (comp lo n : Nat) : Option EngStop :=
  (spanUnits lo n).findSome? (fun a =>
    match route s c.ctx (BitVec.ofNat 64 a) .wt with
    | .here va _ _ =>
      (match rawTrans s c.ctx va with
       | none => some (.park (BitVec.ofNat 64 a))
       | some _ => if otherComp s c.ctx comp va then some (.halt .gate (gateInfo s (cmdAgent c comp).gate) (BitVec.ofNat 64 a)) else none)
    | _ => none)

/-- R259, R315: every check of a DGATE that has moved no byte yet. -/
def gateStop (s : State) (c : CopyCmd) : Option EngStop :=
  if c.started || c.fn != .gate then none
  else match gateFails s c with
    | some va => some (.halt .gate (gateInfo s (cmdAgent c c.comp).gate) va)
    | none =>
      let (sc, dc) := cmdComps s c
      (gatePages s c sc (blkPair c.blk 0).toNat (blkLen c.blk)).or (gatePages s c dc (blkPair c.blk 2).toNat (blkLen c.blk))

-- ## a source that overlaps its own destination (R257)

/-- The byte x lies in one of `count` rows of `len` bytes. -/
def rowsHit (base stride count len x : Nat) : Bool :=
  let r := if stride == 0 then 0 else min (count - 1) ((x - base) / stride)
  decide (base ≤ x) && decide (x - base - r * stride < len) && count != 0

/-- The space of a command's source and its first byte there: scratchpad or VA. -/
def cmdSrc (s : State) (c : CopyCmd) : Bool × Nat :=
  if blkSkind c.blk == 1 then (true, blkSrc c.blk) else (false, localVa s c.ctx (blkPair c.blk 0))

/-- The space of an address of the destination and its number there; a register window has none. -/
def cmdDstAt (s : State) (c : CopyCmd) (a : Nat) : Option (Bool × Nat) :=
  match blkDkind c.blk with
  | 0 => some (false, localVa s c.ctx (BitVec.ofNat 64 a))
  | 1 => some (true, a)
  | _ => match windowTarget s c.ctx c.drove (((s.team c.tid).map (fun t => t.coach)).getD 0) a with
    | .spad _ sa => some (true, sa)
    | _ => none

/-- Index e of a DGATH, where this device holds it. -/
def cmdIndex (s : State) (c : CopyCmd) (e : Nat) : Option Nat :=
  match engAccess s (cmdAgent c c.comp) (blkPair c.blk 5 + BitVec.ofNat 64 (4 * e)) 4 .read with
  | .ok (_, x) => some (x.setWidth 32).toNat
  | .error _ => none

/-- The byte of this space is a byte of the command's source (R257). The index array of DGATH is a source too (R201); an
index that cannot be read might name any byte. -/
def inSource (s : State) (c : CopyCmd) (spad : Bool) (x : Nat) : Bool :=
  let (sp, base) := cmdSrc s c
  match c.fn with
  | .fill => false
  | .copy2 => sp == spad && rowsHit base (c.blk.getD 5 0).toNat (blkCount c.blk) (blkLen c.blk) x
  | .gath =>
    (!spad && rowsHit (localVa s c.ctx (blkPair c.blk 5)) 0 1 (4 * blkCount c.blk) x) ||
    (sp == spad && decide (base ≤ x) && (List.range (blkCount c.blk)).any (fun e =>
      match cmdIndex s c e with | some i => (x - base) / blkLen c.blk == i | none => true))
  | _ => sp == spad && rowsHit base 0 1 (blkLen c.blk) x

/-- R257: a destination byte that belongs to the source gets an unpredictable value (R9, log 6); a byte that is read later from
there has it too. -/
def blurByte (s : State) (c : CopyCmd) (a : Nat) (v : Byte) : Byte :=
  match cmdDstAt s c a with
  | none => v
  | some (spad, x) => if inSource s c spad x then (Config.freeWord s.free 5123 x).setWidth 8 else v

/-- The same for a word. -/
def blurWord (s : State) (c : CopyCmd) (a : Nat) (v : Word) : Word :=
  (List.range 4).foldr (fun i w => (w <<< 8) ||| (blurByte s c (a + i) ((v >>> (8 * i)).setWidth 8)).setWidth 32) 0

/-- Read a word of a command's source: VA or scratchpad. -/
def cmdRead (s : State) (c : CopyCmd) (comp : Nat) (spad : Bool) (a : Nat) (n : Nat) : Except EngStop (State × Word) :=
  if spad then
    match engSpad s c.drove a with
    | some h => .ok (s, BitVec.ofNat 32 (h.read (a % 2 ^ 19) n))
    | none => .error (engFault s)
  else match engAccess s (cmdAgent c comp) (BitVec.ofNat 64 a) n .read with
    | .ok (s, x) => .ok (s, x.setWidth 32)
    | .error e => .error e

/-- Write a word of a command's destination. -/
def cmdWrite (s : State) (c : CopyCmd) (comp : Nat) (a : Nat) (v : Word) : Except EngStop State :=
  let v := blurWord s c a v
  match blkDkind c.blk with
  | 0 =>
    (match engAccess s (cmdAgent c comp) (BitVec.ofNat 64 a) 4 (.write (v.setWidth 64)) with
     | .ok (s, _) => .ok s
     | .error e => .error e)
  | 1 =>
    (match engSpad s c.drove a with
     | some _ => .ok (spadWrite s c.drove (BitVec.ofNat 32 a) 4 v.toNat)
     | none => .error (engFault s))
  | _ =>
    let coach := ((s.team c.tid).map (fun t => t.coach)).getD 0
    match windowTarget s c.ctx c.drove coach a with
    | .bad => .error (engFault s)
    | x => .ok (windowWrite s (engMark .copy c.tag) x v)

/-- Copy the bytes of a word one after another: a DGATE between addresses that are no multiples of 4 (R255, R257). -/
def cmdBytes (s : State) (c : CopyCmd) (sc dc src dst : Nat) : Except EngStop State :=
  (List.range 4).foldl (fun acc i =>
    match acc with
    | .error e => .error e
    | .ok s =>
      match cmdRead s c sc false (src + i) 1 with
      | .error e => .error e
      | .ok (s, v) =>
        match engAccess s (cmdAgent c dc) (BitVec.ofNat 64 (dst + i)) 1 (.write ((blurByte s c (dst + i) (v.setWidth 8)).setWidth 64)) with
        | .error e => .error e
        | .ok (s, _) => .ok s) (.ok s)

/-- The word at offset b of the destination sequence (R257). -/
def cmdWord (s : State) (c : CopyCmd) (b : Nat) : Except EngStop State :=
  let spad := blkSkind c.blk == 1
  let (sc, dc) := cmdComps s c
  let len := blkLen c.blk
  let copy (s : State) (src dst : Nat) : Except EngStop State :=
    if src % 4 != 0 || dst % 4 != 0 then cmdBytes s c sc dc src dst
    else match cmdRead s c sc spad src 4 with
    | .error e => .error e
    | .ok (s, v) => cmdWrite s c dc dst v
  match c.fn with
  | .fill => cmdWrite s c dc (blkDst c.blk + b) (c.blk.getD 0 0)
  | .copy2 =>
    copy s (blkSrc c.blk + b / len * (c.blk.getD 5 0).toNat + b % len)
      (blkDst c.blk + b / len * (c.blk.getD 6 0).toNat + b % len)
  | .gath =>
    (match cmdRead s c sc false ((blkPair c.blk 5).toNat + 4 * (b / len)) 4 with
     | .error e => .error e
     | .ok (s, i) => copy s (blkSrc c.blk + i.toNat * len + b % len) (blkDst c.blk + b))
  | _ => copy s (blkSrc c.blk + b) (blkDst c.blk + b)

/-- Words from an offset, as far as they go: the state, the offset reached, and why it stopped. -/
def cmdWords (c : CopyCmd) : Nat → State → Nat → State × Nat × Option EngStop
  | 0, s, b => (s, b, none)
  | n + 1, s, b =>
    match cmdWord s c b with
    | .error e => (s, b, some e)
    | .ok s => cmdWords c n s (b + 4)

/-- Message bytes of a DIGEST from an offset (R252). -/
def digestBytes (c : CopyCmd) : Nat → State → List Byte → State × List Byte × Option EngStop
  | 0, s, m => (s, m, none)
  | n + 1, s, m =>
    match cmdRead s c c.comp (blkSkind c.blk == 1) (blkSrc c.blk + m.length) 1 with
    | .error e => (s, m, some e)
    | .ok (s, v) => digestBytes c n s (m ++ [v.setWidth 8])

/-- The eight words of a digest in memory order. -/
def digestWords (bs : List Byte) : List Word :=
  (List.range 8).map (fun i => bs.getD (4 * i + 3) 0 ++ bs.getD (4 * i + 2) 0 ++ bs.getD (4 * i + 1) 0 ++ bs.getD (4 * i) 0)

/-- Write the digest. -/
def writeDigest (s : State) (c : CopyCmd) (m : List Byte) : Except EngStop State :=
  ((digestWords (sha256 m)).zipIdx).foldl (fun acc e =>
    match acc with
    | .error x => .error x
    | .ok s => cmdWrite s c c.comp (blkDst c.blk + 4 * e.2) e.1) (Except.ok s)

/-- Answers that a command still awaits from other members. -/
def marksPending (s : State) (tid mark : Nat) : Bool :=
  ((s.team tid).map (fun t => t.pending.any (fun p => p.ownedBy mark))).getD false

/-- The command can go on: its context runs, and its drove is not pre-empted (R261, R289). -/
def cmdRuns (s : State) (c : CopyCmd) : Bool :=
  ctxActive s c.ctx && ((s.team c.tid).map (·.running)).getD true

/-- The head command of a queue among those that can go on, stalls apart (R252, R261). -/
def queueCommand (s : State) (xs : List CopyCmd) : Option CopyCmd :=
  (xs.find? (cmdRuns s)).bind (fun c => if c.stalled.isSome then none else some c)

/-- The queue whose turn it is: round robin over the queues that can go on (R252). -/
def drayTurn (s : State) (d : Dray) : Option Nat :=
  ((List.range 16).map (fun i => (d.turn + i) % 16)).find? (fun q => (queueCommand s (d.queue q)).isSome)

/-- Replace one command of a queue, or remove it. -/
def replaceCmd (c : CopyCmd) (n : Option CopyCmd) : List CopyCmd → List CopyCmd
  | [] => []
  | x :: r => if x == c then n.toList ++ r else x :: replaceCmd c n r

/-- Words of other members that a command that has ended has not used up are given up. -/
def dropWords (s : State) (c : CopyCmd) : State :=
  let src := (blkPair c.blk 0).toNat
  if blkSkind c.blk == 1 || !inWindow (blkPair c.blk 0) then s
  else s.modTeam c.tid (fun t => { t with remoteWords := t.remoteWords.filter (fun e =>
    !overlaps e.1 4 src (((srcSpan c.fn c.blk).map (·.2)).getD 0)) })

/-- What the end of a turn does with a command: it goes on, stalls, halts its context, or ends with its tag. -/
def endChunk (s : State) (dray q : Nat) (c c' : CopyCmd) (stop : Option EngStop) (finished : Bool) : State :=
  let put (s : State) (n : Option CopyCmd) : State := s.setQueue dray q (replaceCmd c n ((s.dray dray).queue q))
  match stop with
  | some (.park va) => put s (some { c' with stalled := some va })
  | some (.wait s') => put s' (some c')
  | some (.halt k i va) => haltContext (put s (some c')) ⟨c.ctx, k, 2, dray, i, va⟩
  | none => if finished && !marksPending s c.tid (engMark .copy c.tag) then endTag (put (dropWords s c) none) c.tid .copy c.tag else put s (some c')

/-- DRAY_CHUNK (R252, R257): the queue whose turn it is serves one 4 KiB chunk of its command. -/
def execDrayChunk (dray queue : Nat) (s : State) : Host.Outcome State Fault Refusal :=
  let d := s.dray dray
  if drayTurn s d != some queue then .next s
  else match queueCommand s (d.queue queue) with
    | none => .next s
    | some c =>
      let s : State := { s with drays := Store.insert s.drays dray { d with turn := (queue + 1) % 16 } }
      match gateStop s c with
      | some e => .next (endChunk s dray queue c c (some e) false)
      | none =>
        let total := blkTotal c.fn c.blk
        if c.fn == .digest then
          if c.off == total + 32 then .next (endChunk s dray queue c c none true)
          else
          let upto := min total ((c.msg.length / 4096 + 1) * 4096)
          let (s, m, stop) := digestBytes c (upto - c.msg.length) s c.msg
          let c' : CopyCmd := { c with started := true, msg := m, off := m.length }
          if stop.isNone && m.length == total then
            match writeDigest s c m with
            | .ok s => .next (endChunk s dray queue c { c' with off := total + 32 } none true)
            | .error e => .next (endChunk s dray queue c c' (some e) false)
          else .next (endChunk s dray queue c c' stop false)
        else
          let upto := min total ((c.off / 4096 + 1) * 4096)
          let (s, b, stop) := cmdWords c ((upto - c.off) / 4) s c.off
          .next (endChunk s dray queue c { c with started := true, off := b } stop (b == total))

end Sys2Proof.Machine
end

