-- ==== Sys2Proof/Machine/Coll.lean ====
section
/-! DEFINITION. Collectives and the tandems (spec/10 R265 to R269): issue, chunks between members, sequence numbers,
acknowledgements, reduction trees, and the receive region of a frozen tandem. -/
namespace Sys2Proof.Machine

-- ## issue (R265)

/-- Types that a reduction accepts (R265). -/
def collTypeOk (t : ET) : Bool :=
  match t with | .i32 | .n32 | .i64 | .n64 | .f32 | .f16 | .bf16 | .f64 => true | _ => false

/-- Element bytes of a collective. -/
def collUnit (d : CollDesc) : Nat :=
  match d.fn with | .red | .scat => etMemWidth (etOfCode d.ty) | _ => 4

/-- What a block asks for. -/
def collDesc (f : CollFn) (b : List Word) : CollDesc :=
  ⟨f, blkLen b, field (b.getD 7 0).toNat 7 4, field (b.getD 7 0).toNat 2 0⟩

/-- R265: the values that are legal, buffer addresses local. -/
def collLegal (d : CollDesc) (b : List Word) : Bool :=
  b.getD 5 0 == 0 && b.getD 6 0 == 0 && field (b.getD 7 0).toNat 31 8 == 0 && !(b.getD 7 0).getLsbD 3 &&
  !inWindow (blkPair b 0) && !inWindow (blkPair b 2) && d.len % collUnit d == 0 &&
  (match d.fn with
   | .red | .scat => collTypeOk (etOfCode d.ty) && decide (d.op ≤ 2)
   | _ => d.ty == 0 && d.op == 0)

/-- Bytes of the send and receive buffers (R267). -/
def sendBytes (d : CollDesc) (p : Nat) : Nat := match d.fn with | .scat | .xch => p * d.len | _ => d.len
def recvBytes (d : CollDesc) (p : Nat) : Nat := match d.fn with | .gath | .xch => p * d.len | _ => d.len

/-- Members and own index of a context's partition. -/
def ctxMembers (s : State) (ctx : Nat) : Nat := ((s.ctxPart ctx).map (fun p => p.members)).getD 1
def ctxMember (s : State) (ctx : Nat) : Nat := ((s.ctxPart ctx).map (fun p => p.member)).getD 0

/-- The link with a peer (R268): numbers start at zero (log 21). -/
def linkOf (s : State) (ctx peer : Nat) : PeerLink :=
  (s.links.find? (fun l => l.ctx == ctx && l.peer == peer)).getD ⟨ctx, peer, 0, 0, []⟩
/-- Replace a link. -/
def setLink (s : State) (l : PeerLink) : State :=
  { s with links := (s.links.filter (fun x => !(x.ctx == l.ctx && x.peer == l.peer))) ++ [l] }

/-- Put a chunk on the fabric (R268, R335). -/
def sendChunk (s : State) (ctx peer die : Nat) (ch : Chunk) : State :=
  s.send (s.partOf ctx) peer ctx (tandemUnit die) (tandemUnit die) (.chunk ctx peer ch)

/-- A chunk for a peer: numbered, and kept until it is acknowledged (R268). -/
def newChunk (s : State) (ctx peer die k : Nat) (d : CollDesc) (off : Nat) (bs : List Byte) : State :=
  let l := linkOf s ctx peer
  let ch : Chunk := ⟨l.next, k, d, off, bs⟩
  sendChunk (setLink s { l with next := l.next + 1, kept := l.kept ++ [ch] }) ctx peer die ch

/-- An empty collective moves no byte; a chunk of none tells each peer what it is, so that matched ones are compared (R266,
log 83). -/
def announceEmpty (s : State) (ctx die k : Nat) (d : CollDesc) : State :=
  ((List.range (ctxMembers s ctx)).filter (· != ctxMember s ctx)).foldl (fun s m => newChunk s ctx m die k d 0 []) s

/-- Issue of a collective (R265, R266): its release is at .PRT (R198). -/
def collIssue (i : Instr) (sw : Bool) (f : CollFn) (d a : BitVec 6) (s : State) : Host.Outcome State Fault Refusal :=
  issueCtl i sw [d.toNat] s (fun c =>
    let b := (List.range 8).map (fun k => s.rs c.t (a.toNat + k))
    let cd := collDesc f b
    if !collLegal cd b then c.trapWord .illegalOp
    else match [blkPair b 0, blkPair b 2].find? (fun x => x.toNat % collUnit cd != 0) with
      | some x => .trap .misalign 0x80000000 x
      | none =>
        let p := ctxMembers s c.t.ctx
        let send := ((blkPair b 0).toNat, sendBytes cd p)
        let recv := ((blkPair b 2).toNat, recvBytes cd p)
        match [send, recv].findSome? (vaSpanTrap s c.t.ctx) with
        | some r => r
        | none =>
          let die := dieOf c.t.coach
          let tag := nextTag c.t.collCtr
          let empty := cd.len == 0
          let rx := ((s.ctx c.t.ctx).map (fun x => (x.spec.rxreg.toNat, 65536 * x.spec.rxlen))).getD (0, 0)
          let mk (dst : Bool) (sp : Nat × Nat) : LockEntry := ⟨c.t.ctx, die, none, sp.1, sp.2, dst, c.tid, .coll, tag⟩
          let locks := if empty then [] else [mk false send, mk true recv, mk true rx].filter (fun l => l.len != 0)
          if !engineRoom s c.t.ctx .coll 0 die locks.length then .hold (.engine .coll 0 die locks.length)
          else if !released c.t c.uid true then .hold (.release true)
          else
            let k := ((s.ctx c.t.ctx).map (fun x => x.collNum)).getD 0 + 1
            let t : Team := { c.t with
              collCtr := tag
              tags := c.t.tags ++ [⟨.coll, tag, empty, if empty then [] else [recv, rx].filter (fun r => r.2 != 0), []⟩] }
            let s := c.put s (t.setS d.toNat tag)
            let s := s.modCtx c.t.ctx (fun x => { x with
              collNum := k, empties := if empty then x.empties ++ [(k, cd)] else x.empties })
            let s : State := { s with locks := s.locks ++ locks }
            if empty then .next (announceEmpty s c.t.ctx die k cd)
            else .next { s with colls := s.colls ++
              [⟨k, cd, blkPair b 0, blkPair b 2, c.tid, c.t.ctx, c.t.comp, tag, die, none, [], [], 0⟩] })

/-- CRED (R265). -/
def execCred (sw : Bool) (d a : BitVec 6) (s : State) : Host.Outcome State Fault Refusal :=
  collIssue (.cred sw d a) sw .red d a s
/-- CGATH (R265). -/
def execCgath (sw : Bool) (d a : BitVec 6) (s : State) : Host.Outcome State Fault Refusal :=
  collIssue (.cgath sw d a) sw .gath d a s
/-- CSCAT (R265). -/
def execCscat (sw : Bool) (d a : BitVec 6) (s : State) : Host.Outcome State Fault Refusal :=
  collIssue (.cscat sw d a) sw .scat d a s
/-- CXCH (R265). -/
def execCxch (sw : Bool) (d a : BitVec 6) (s : State) : Host.Outcome State Fault Refusal :=
  collIssue (.cxch sw d a) sw .xch d a s

-- ## tandem accesses

/-- The agent of a collective. -/
def collAgent (c : CollCmd) : EngAgent := ⟨c.tid, c.ctx, c.comp, none, engMark .coll c.tag, tandemUnit c.die⟩

/-- The send buffer of a collective overlaps its receive buffer, a program error (R265). -/
def collOverlaps (s : State) (c : CollCmd) : Bool :=
  let p := ctxMembers s c.ctx
  overlaps c.send.toNat (sendBytes c.desc p) c.recv.toNat (recvBytes c.desc p)

/-- A byte of a collective whose buffers overlap is unpredictable (R9, R265, log 6). -/
def collByte (s : State) (c : CollCmd) (a : Nat) (x : Byte) : Byte :=
  if collOverlaps s c then (Config.freeWord s.free 5125 a).setWidth 8 else x

/-- Bytes of the send buffer. -/
def collRead (s : State) (c : CollCmd) (a : Nat) : Nat → Except EngStop (State × List Byte)
  | 0 => .ok (s, [])
  | n + 1 =>
    match engAccess s (collAgent c) (BitVec.ofNat 64 a) 1 .read with
    | .error e => .error e
    | .ok (s, x) =>
      match collRead s c (a + 1) n with
      | .error e => .error e
      | .ok (s, r) => .ok (s, collByte s c a (x.setWidth 8) :: r)

/-- Write bytes of the receive buffer: the state, how many went, and why it stopped (R258). -/
def collWrite (c : CollCmd) : List Byte → State → Nat → State × Nat × Option EngStop
  | [], s, n => (s, n, none)
  | x :: r, s, n =>
    match engAccess s (collAgent c) (c.recv + BitVec.ofNat 64 n) 1 (.write ((collByte s c (c.recv.toNat + n) x).setWidth 64)) with
    | .error e => (s, n, some e)
    | .ok (s, _) => collWrite c r s (n + 1)

/-- Replace a collective. -/
def putColl (s : State) (c c' : CollCmd) : State :=
  { s with colls := s.colls.map (fun x => if x == c then c' else x) }

/-- A stop of a tandem (R258, R302): its die is the origin unit. -/
def collStop (s : State) (c : CollCmd) (e : EngStop) : State :=
  match e with
  | .park va => putColl s c { c with stalled := some va }
  | .wait s' => s'
  | .halt k i va => haltContext s ⟨c.ctx, k, 3, c.die, i, va⟩

/-- The collective of a context that a tandem works on: the first that is not finished, in matching order. -/
def collOf (s : State) (ctx k : Nat) : Option CollCmd := s.colls.find? (fun c => c.ctx == ctx && c.k == k)

/-- What this member sends to a peer: first byte of the send buffer, and bytes (R267). -/
def sendSpan (c : CollCmd) (peer : Nat) : Nat × Nat :=
  match c.desc.fn with
  | .scat | .xch => (c.send.toNat + peer * c.desc.len, c.desc.len)
  | _ => (c.send.toNat, c.desc.len)

/-- Bytes received from a member so far. -/
def gotFrom (c : CollCmd) (m : Nat) : List Byte := (Store.find c.got m).getD []
/-- Bytes sent to a peer so far. -/
def sentTo (c : CollCmd) (peer : Nat) : Nat := (Store.find c.sent peer).getD 0

-- ## results (R267)

/-- A number from bytes, little-endian. -/
def bytesNum : List Byte → Nat
  | [] => 0
  | b :: r => b.toNat + 256 * bytesNum r
/-- Its bytes. -/
def numBytes : Nat → Nat → List Byte
  | 0, _ => []
  | n + 1, v => BitVec.ofNat 8 v :: numBytes n (v / 256)

/-- Operator of a reduction. -/
def collOp (n : Nat) : RedOp := match n with | 0 => .add | 1 => .min | _ => .max

/-- One element of a reduction over the members' contributions (R267): fourteen levels, absent leaves the identity. -/
def reduceElem (d : CollDesc) (xs : List (List Byte)) (e : Nat) : List Byte :=
  let w := collUnit d
  let t := etOfCode d.ty
  let leaves := xs.map (fun bs => some (BitVec.ofNat 64 (bytesNum ((bs.drop (e * w)).take w))))
  match redTree (collOp d.op) ⟨t, .rne, false, false, []⟩ 14 leaves with
  | some v => numBytes w v.toNat
  | none => numBytes w 0

/-- What the receive buffer gets from every member's bytes. -/
def collResult (d : CollDesc) (xs : List (List Byte)) : List Byte :=
  match d.fn with
  | .red | .scat => (List.range (d.len / collUnit d)).flatMap (reduceElem d xs)
  | _ => xs.flatten

/-- Every member's bytes are there, and this member has sent its own. -/
def collGathered (s : State) (c : CollCmd) : Bool :=
  (List.range (ctxMembers s c.ctx)).all (fun m =>
    (gotFrom c m).length == c.desc.len && (m == ctxMember s c.ctx || sentTo c m == c.desc.len))

/-- A collective with every member's bytes writes its receive buffer, from where a page fault stopped it, and its tag
completes (R258, R268). -/
def finishColl (s : State) (ctx k : Nat) : State :=
  match collOf s ctx k with
  | none => s
  | some c =>
    if c.stalled.isSome || !collGathered s c then s
    else
      let bytes := collResult c.desc ((List.range (ctxMembers s ctx)).map (gotFrom c))
      match collWrite c (bytes.drop c.wrote) s c.wrote with
      | (s, n, some e) => collStop (putColl s c { c with wrote := n }) { c with wrote := n } e
      | (s, _, none) => endTag { s with colls := s.colls.filter (· != c) } c.tid .coll c.tag

/-- Every collective of a context that has its bytes finishes. -/
def finishReady (s : State) (ctx : Nat) : State :=
  ((s.colls.filter (fun c => c.ctx == ctx)).map (·.k)).foldl (fun s k => finishColl s ctx k) s

-- ## chunks (R268)

/-- Bytes of a chunk. -/
def chunkBytes : Nat := 65536

/-- The next collective of a context with bytes for a peer. -/
def collToSend (s : State) (ctx peer : Nat) : Option CollCmd :=
  s.colls.find? (fun c => c.ctx == ctx && c.stalled.isNone &&
    (if peer == ctxMember s ctx then decide ((gotFrom c peer).length < c.desc.len) else decide (sentTo c peer < c.desc.len)))

/-- What a collective of this member was called to do, its empty ones too (R266). -/
def descOf (s : State) (ctx k : Nat) : Option CollDesc :=
  ((collOf s ctx k).map (·.desc)).or ((s.ctx ctx).bind (fun x => Store.find x.empties k))

/-- Matched collectives that differ halt the context (R266); the tandem is that of the collective, or the first. -/
def collMismatch (s : State) (ctx k : Nat) : State :=
  haltContext s ⟨ctx, .engineFault, 3, ((collOf s ctx k).map (·.die)).getD 0, Config.freeWord s.free 6 1, 0⟩

/-- Apply a chunk that was the next one expected; one of a collective not issued here yet is held. -/
def applyChunk (s : State) (ctx peer : Nat) (ch : Chunk) : State :=
  match descOf s ctx ch.coll, collOf s ctx ch.coll with
  | none, _ => s.modCtx ctx (fun x => { x with rx := x.rx ++ [⟨peer, ch, none⟩] })
  | some d, c =>
    if d != ch.desc then collMismatch s ctx ch.coll
    else match c with
      | some c => finishColl (putColl s c { c with got := Store.insert c.got peer (gotFrom c peer ++ ch.data) }) ctx c.k
      | none => s

-- ## the receive region (R269, R303)

/-- 64 KiB units at the start of the region that hold the per-peer numbers (R303). -/
def rxHead (s : State) (ctx : Nat) : Nat := (8 * ctxMembers s ctx + 65535) / 65536

/-- The lowest unit of the region that holds no chunk. -/
def rxFree (s : State) (ctx : Nat) : Option Nat :=
  (s.ctx ctx).bind (fun x =>
    (List.range (x.spec.rxlen - rxHead s ctx)).find? (fun u => !x.rx.any (fun h => h.unit == some u)))

/-- Address of a unit. -/
def rxAddr (s : State) (ctx u : Nat) : Nat :=
  ((s.ctx ctx).map (fun x => x.spec.rxreg.toNat)).getD 0 + 65536 * (rxHead s ctx + u)

/-- Words of bytes, the last filled up with zeros. -/
def bytesWords (bs : List Byte) : List Word :=
  (List.range ((bs.length + 3) / 4)).map (fun i => BitVec.ofNat 32 (bytesNum ((bs.drop (4 * i)).take 4)))

/-- The numbers of a peer at the start of the region (R303). -/
def peerPair (s : State) (ctx peer : Nat) : List Word := [(linkOf s ctx peer).next, (linkOf s ctx peer).expect]

/-- Store a chunk of a frozen context in its receive region: the bytes from the start of a unit, the rest of what a flit
carries in the tandem (log 21); the peer's numbers follow. -/
def storeChunk (s : State) (ctx peer : Nat) (ch : Chunk) : Option State :=
  (rxFree s ctx).bind (fun u =>
    match hwWriteWords s ctx ownKey (ch.data.length / 128 + 1) (rxAddr s ctx u) (bytesWords ch.data) with
    | .ok s =>
      let numbers := ((s.ctx ctx).map (fun x => x.spec.rxreg.toNat)).getD 0 + 8 * peer
      (match hwWriteWords s ctx ownKey 2 numbers (peerPair s ctx peer) with
       | .ok s => some (s.modCtx ctx (fun x => { x with rx := x.rx ++ [⟨peer, ch, some u⟩] }))
       | .error _ => none)
    | .error _ => none)

/-- The bytes of a held chunk, read back from the region when they lie there. -/
def fetchChunk (s : State) (ctx : Nat) (h : HeldChunk) : Option (State × Chunk) :=
  match h.unit with
  | none => some (s, h.chunk)
  | some u =>
    match hwReadLines s ctx ownKey ((h.chunk.data.length + 127) / 128) (rxAddr s ctx u) with
    | .ok (s, ws) => some (s, { h.chunk with data := (ws.flatMap (fun w => numBytes 4 w.toNat)).take h.chunk.data.length })
    | .error _ => none

/-- Held chunks that can be applied are, in the order in which they came (R269, log 21). -/
def applyStored (s : State) (ctx : Nat) : State :=
  (((s.ctx ctx).map (fun x => x.rx)).getD []).foldl (fun s h =>
    if (descOf s ctx h.chunk.coll).isNone then s
    else match fetchChunk s ctx h with
      | none => s
      | some (s, ch) => applyChunk (s.modCtx ctx (fun x => { x with rx := x.rx.filter (· != h) })) ctx h.peer ch) s

/-- Chunks of a context that have not been acknowledged are sent again, to the peers that a test selects (R269, R350). -/
def resendKept (s : State) (ctx : Nat) (peer : Nat → Bool) : State :=
  (s.links.filter (fun l => l.ctx == ctx && peer l.peer)).foldl (fun s l =>
    l.kept.foldl (fun s ch => sendChunk s ctx l.peer (((collOf s ctx ch.coll).map (·.die)).getD 0) ch) s) s

/-- COLL_CHUNK_SEND (R268): the next chunk for a peer, numbered and kept until it is acknowledged; this member's own
contribution is taken in the same way. -/
def execCollChunkSend (ctx peer : Nat) (s : State) : Host.Outcome State Fault Refusal :=
  if !ctxActive s ctx || decide (peer ≥ ctxMembers s ctx) then .next s
  else
    let s := finishReady (applyStored s ctx) ctx
    match collToSend s ctx peer with
    | none => .next s
    | some c =>
      let own := peer == ctxMember s ctx
      let off := if own then (gotFrom c peer).length else sentTo c peer
      let sp := sendSpan c peer
      let n := min chunkBytes (c.desc.len - off)
      match collRead s c (sp.1 + off) n with
      | .error e => .next (collStop s c e)
      | .ok (s, bs) =>
        if own then .next (finishColl (putColl s c { c with got := Store.insert c.got peer (gotFrom c peer ++ bs) }) ctx c.k)
        else
          let s := putColl s c { c with sent := Store.insert c.sent peer (off + n) }
          .next (finishColl (newChunk s ctx peer c.die c.k c.desc off bs) ctx c.k)

/-- A sequence number comes before another: the numbers are 32 bits wide and wrap (R268, log 82). -/
def seqBefore (a b : Word) : Bool := a != b && decide ((b - a).toNat < 2 ^ 31)

/-- An answer to a peer's tandem. -/
def answerPeer (s : State) (ctx peer : Nat) (f : Flit) : State :=
  s.send (s.partOf ctx) peer ctx (tandemUnit 0) (tandemUnit 0) f

/-- The receive region of a frozen context takes flits: for 5 µs from the freeze (R269). -/
def rxTakes (s : State) (ctx : Nat) : Bool :=
  match (s.ctx ctx).bind (·.rxOpen) with
  | some t => !decide (t + 5000 ≤ s.clk.gtime)
  | none => false

/-- COLL_CHUNK_RECEIVE (R268, R269, R334): the expected number is applied, a lower one dropped and acknowledged, a higher
one refused; a frozen context's chunk is stored while its region takes flits. -/
def execCollChunkReceive (ctx peer : Nat) (c : Inbound Chunk) (s : State) : Host.Outcome State Fault Refusal :=
  if !s.ownsPort (s.partOf ctx) c.port then .next s.dropFlit
  else
    let ch := c.item
    let l := linkOf s ctx peer
    let taken := setLink s { l with expect := l.expect + 1 }
    if seqBefore ch.seq l.expect then .next (answerPeer s ctx peer (.ack ctx peer ch.seq))
    else if ch.seq != l.expect then .next (answerPeer s ctx peer (.nack ctx peer l.expect))
    else if ctxActive s ctx then .next (applyStored (applyChunk (answerPeer taken ctx peer (.ack ctx peer ch.seq)) ctx peer ch) ctx)
    else if !rxTakes s ctx then .next (answerPeer s ctx peer (.nack ctx peer l.expect))
    else match storeChunk taken ctx peer ch with
      | some s => .next (answerPeer s ctx peer (.ack ctx peer ch.seq))
      | none => .next (answerPeer s ctx peer (.nack ctx peer l.expect))

/-- COLL_ACK (R268): the kept chunk is released. -/
def execCollAck (ctx peer : Nat) (n : Inbound Word) (s : State) : Host.Outcome State Fault Refusal :=
  if !s.ownsPort (s.partOf ctx) n.port then .next s.dropFlit
  else
    let l := linkOf s ctx peer
    .next (setLink s { l with kept := l.kept.filter (fun ch => ch.seq != n.item) })

/-- COLL_NACK (R268): every kept chunk from that number on is sent again, unless the context is frozen: it sends them when it
resumes (R269). -/
def execCollNack (ctx peer : Nat) (n : Inbound Word) (s : State) : Host.Outcome State Fault Refusal :=
  if !s.ownsPort (s.partOf ctx) n.port then .next s.dropFlit
  else if !ctxActive s ctx then .next s
  else .next (((linkOf s ctx peer).kept.filter (fun ch => !seqBefore ch.seq n.item)).foldl (fun s ch =>
    sendChunk s ctx peer (((collOf s ctx ch.coll).map (·.die)).getD 0) ch) s)

/-- RX_REGION_EXPIRY (R269): from 5 µs after the freeze, flits of the context are refused. -/
def execRxRegionExpiry (ctx : Nat) (s : State) : Host.Outcome State Fault Refusal :=
  match (s.ctx ctx).bind (·.rxOpen) with
  | some t => if t + 5000 ≤ s.clk.gtime then .next (s.modCtx ctx (fun x => { x with rxOpen := none })) else .next s
  | none => .next s

end Sys2Proof.Machine
end

