-- ==== Sys2Proof/Machine/Priv.lean ====
section
/-! DEFINITION. The PRIV family (spec/16 R387 to R390; spec/17 R414, R415; spec/15 R361, R362; spec/13 R321, R323 to
R325), which only system coaches run (R77), and the steps of keys and scrubs that it starts. -/
namespace Sys2Proof.Machine

/-- s[D] := v and on. -/
def privSet (s : State) (c : Issue) (d : BitVec 6) (v : Word) : Res :=
  .next (s.modTeam c.tid (fun t => t.setS d.toNat v))

/-- Issue of a PRIV function that reads `n` registers from s[A]: A even where pairs are read (R361, R387, R414). -/
def issuePriv (i : Instr) (sw : Bool) (d a : BitVec 6) (even : Bool) (n : Nat) (s : State) (body : Issue → Res) :
    Host.Outcome State Fault Refusal :=
  issueAs true i sw (fun _ =>
    { sw := [d.toNat], regOk := (!even || evenReg a) && decide (a.toNat + n ≤ 64) && (!even || decide (a.toNat ≤ 60)) })
    oneCycle s body

-- ## what was parked or stalled on a page goes on (R177, R258)

/-- Every parked team, stalled engine and stalled bank unit of a context tries again. -/
def resumeCtx (s : State) (ctx : Nat) : State :=
  let teams := s.teams.map (fun (e : Nat × Team) => if e.2.ctx == ctx && !e.2.sys then (e.1, { e.2 with parked := false, fault := none }) else e)
  let mine (tid : Nat) : Bool := ((s.team tid).map (fun t => t.ctx == ctx && !t.sys)).getD false
  let s : State := { s with
    teams := teams
    drays := s.drays.map (fun (e : Nat × Dray) => (e.1, { e.2 with queues := e.2.queues.map (fun q =>
      (q.1, q.2.map (fun c => if c.ctx == ctx then { c with stalled := none } else c))) }))
    colls := s.colls.map (fun c => if c.ctx == ctx then { c with stalled := none } else c)
    coaches := s.coaches.map (fun (e : Nat × Coach) => (e.1, { e.2 with tensor := e.2.tensor.map (fun h =>
      if mine h.tid then { h with stalled := none } else h) }))
    banks := s.banks.map (fun (e : Nat × BankUnit) =>
      match e.2.exec with
      | some x => if x.run.ctx == ctx && x.stalled.isSome then
          (e.1, { e.2 with exec := some { x with stalled := none }, busy := max e.2.busy (bankCycle s) }) else e
      | none => e) }
  s.modCtx ctx (fun c => { c with schedFault := none })

-- ## page migration (R388, R389)

/-- The present leaves of an address in the sixteen copies: stack, level, entry key, entry. -/
def pageCopies (s : State) (ctx va : Nat) : List (Nat × Nat × Nat × Nat) :=
  if (s.ctx ctx).isNone then []
  else (List.range 16).filterMap (fun st =>
    match walkTable s ctx st va with | .leaf l k e => some (st, l, k, e) | _ => none)

/-- The context named in s[A+2], or an ILLEGAL_OP for a bit that must be zero. -/
def privCtx (w : Word) : Option Nat := if field w.toNat 31 4 != 0 then none else some (field w.toNat 3 0)

/-- Write back the dirty lines and registered words of a page; DK := 0 (R172, R388). -/
def harvestLines (s : State) (asid lo len : Nat) : State :=
  (s.l2.filter (fun l => l.asid == asid && lineOverlaps l.line lo len)).foldl (fun s l =>
    let s := recallLine s asid l.line
    let s := match l2Find s asid l.line with | some x => l2WriteBack s x | none => s
    modL2 s asid l.line (fun x => { x with dk := false })) s

/-- An open kernel row of a page is precharged (R240, R388). -/
def harvestRow (ctx lo len : Nat) (s : State) (u : Nat) : State :=
  match (s.bank u).exec with
  | none => s
  | some x =>
    let va := (openVa x).toNat
    if x.row.isSome && x.run.ctx == ctx && decide (lo ≤ va) && decide (va < lo + len) then
      match closeRow s x with
      | (s, x', live) =>
        let s := s.setBank u { s.bank u with exec := some x' }
        if live then s else bankCause s u .keyEnded (openVa x)
    else s

/-- Every open kernel row of a page is. -/
def harvestRows (s : State) (ctx lo len : Nat) : State := (s.banks.map (·.1)).foldl (harvestRow ctx lo len) s

/-- PGHARV (R387, R388). -/
def execPgharv (sw : Bool) (d a : BitVec 6) (s : State) : Host.Outcome State Fault Refusal :=
  issuePriv (.pgharv sw d a) sw d a true 3 s (fun c =>
    match privCtx (s.rs c.t (a.toNat + 2)) with
    | none => c.trapWord .illegalOp
    | some ctx =>
      let va := (s.rpair c.t a.toNat).toNat
      let copies := pageCopies s ctx va
      match copies with
      | [] => privSet s c d 0x80000000
      | (_, level, _, _) :: _ =>
        if copies.any (fun x => pteMig x.2.2.2) then privSet s c d (BitVec.ofNat 32 (16 * level + 4))
        else
          let dd := copies.any (fun x => pteD x.2.2.2)
          let ac := copies.any (fun x => pteAc x.2.2.2)
          let asid := s.asid ctx
          let lo := va / pageSize level * pageSize level
          let s := copies.foldl (fun s x =>
            updateLeaf s x.1 asid va x.2.1 x.2.2.1 (fun e => setBitTo (setBitTo e 62 false) 63 true)) s
          let s := harvestRows (harvestLines s asid lo (pageSize level)) ctx lo (pageSize level)
          privSet s c d (BitVec.ofNat 32 (16 * level + (if ac then 2 else 0) + (if dd then 1 else 0))))

/-- An entry without AC and D (R389). -/
def withoutAcD (e : Nat) : Nat := setBitTo (setBitTo e 61 false) 62 false

/-- PGSET (R387, R389): the migration of the page, if blocks of it were moved, is over, and bank units follow its rows
(R326). -/
def execPgset (sw : Bool) (d a : BitVec 6) (s : State) : Host.Outcome State Fault Refusal :=
  issuePriv (.pgset sw d a) sw d a true 3 s (fun c =>
    match privCtx (s.rs c.t (a.toNat + 2)) with
    | none => c.trapWord .illegalOp
    | some ctx =>
      let va := (s.rpair c.t a.toNat).toNat
      let copies := pageCopies s ctx va
      if copies.all (fun x => !pteMig x.2.2.2) then privSet s c d 1
      else if copies.length != 16 || (copies.map (fun x => (x.2.1, withoutAcD x.2.2.2))).eraseDups.length != 1 then
        privSet s c d 2
      else
        let asid := s.asid ctx
        let s : State := { s with tlb := s.tlb.filter (fun t => !(t.asid == asid && t.page == va / pageSize t.level)) }
        let s := copies.foldl (fun s x => updateLeaf s x.1 asid va x.2.1 x.2.2.1 (fun e => setBitTo e 63 false)) s
        let s : State := { s with moving := s.moving.filter (fun m => !(m.1 == ctx && copies.any (fun x => m.2 == va / pageSize x.2.1 * pageSize x.2.1))) }
        privSet (resumeCtx (relocateBanks s ctx) ctx) c d 0)

-- ## TLBINV (R414, R415)

/-- The operand word is legal (R414). -/
def tlbinvLegal (w : Word) : Bool :=
  let x := w.toNat
  field x 31 13 == 0 && field x 11 10 == 0 && decide (field x 9 8 < 2) && field x 7 6 == 0 && decide (field x 5 4 < 3) &&
  !(field x 9 8 == 1 && (w.getLsbD 12 || field x 5 4 != 0))

/-- Two ranges overlap. -/
def rangesMeet (a n b m : Nat) : Bool := decide (a < b + m) && decide (b < a + n)

/-- A word of an L2 line is registered; a LOST one is not (R197). -/
def isOwned : WordState → Bool
  | .o _ _ => true
  | _ => false

/-- Effect of TLBINV over a range of a context: the result, and the state. -/
def tlbinvEffect (s : State) (ctx lo len : Nat) (all drop : Bool) : State × Word :=
  let asid := s.asid ctx
  let hits (line : Nat) : Bool := rangesMeet (line * 128) 128 lo len
  let held := s.l2.any (fun l => l.asid == asid && hits l.line && (l.dirty || l.st.any isOwned)) ||
    s.l1.any (fun l => l.asid == asid && hits l.line && l.words.any isReg)
  if drop && held then (s, 2)
  else
    let s : State := { s with tlb := s.tlb.filter (fun t =>
      !(t.asid == asid && (all || rangesMeet (t.page * pageSize t.level) (pageSize t.level) lo len))) }
    if drop then
      let s : State := { s with
        l2 := s.l2.filter (fun l => !(l.asid == asid && hits l.line))
        l1 := s.l1.filter (fun l => !(l.asid == asid && hits l.line))
        icache := s.icache.filter (fun l => !(l.asid == asid && hits l.line)) }
      (resumeCtx s ctx, 0)
    else (s, 0)

/-- The common part of TLBINV; `kind` is the operand's KIND for this row of the table (log 10). -/
def tlbinv (i : Instr) (sw : Bool) (d a : BitVec 6) (kind : Nat) (s : State) : Host.Outcome State Fault Refusal :=
  issuePriv i sw d a true 3 s (fun c =>
    let w := s.rs c.t (a.toNat + 2)
    if !tlbinvLegal w || field w.toNat 9 8 != kind then c.trapWord .illegalOp
    else
      let ctx := field w.toNat 3 0
      if (s.ctx ctx).isNone then privSet s c d 1
      else
        let size := pageSize (field w.toNat 5 4)
        let lo := (s.rpair c.t a.toNat).toNat / size * size
        let (s', r) := tlbinvEffect s ctx lo size (kind == 1) (w.getLsbD 12)
        privSet s' c d r)

/-- TLBINV with KIND = PAGE (R415). -/
def execTlbinvPage (sw : Bool) (d a : BitVec 6) (s : State) : Host.Outcome State Fault Refusal :=
  tlbinv (.tlbinvPage sw d a) sw d a 0 s
/-- TLBINV with KIND = CONTEXT (R415). -/
def execTlbinvContext (sw : Bool) (d a : BitVec 6) (s : State) : Host.Outcome State Fault Refusal :=
  tlbinv (.tlbinvContext sw d a) sw d a 1 s

-- ## keys (R316, R321, R323, R324)

/-- The lowest FREE slot (R319, R323); slot 0 is never allocated. -/
def freeSlot (s : State) : Option Nat := ((List.range 4096).drop 1).find? (fun k => (s.key k).st == .free)

/-- A FREE slot becomes LIVE with a fresh key set; its generation rises (R319, R323). -/
def makeLive (s : State) (slot ctx comp : Nat) : State :=
  { s.setKey slot ⟨.live, s.nextKeySet, 0, ctx, comp, (s.key slot).gen + 1, []⟩ with nextKeySet := s.nextKeySet + 1 }

/-- E of R321: the slot is ENDED, its lines stop hitting everywhere, its keys and TLB entries are gone, the region of
its sequence is ENDED. -/
def endSlot (s : State) (slot : Nat) : State :=
  let gone (asid line : Nat) : Bool := s.l2.any (fun l => l.asid == asid && l.line == line && l.slot == slot)
  { s.setKey slot { s.key slot with st := .ended, keys := 0, old := 0, sweep := [] } with
    ctxs := s.ctxs.map (fun (e : Nat × Context) => (e.1, { e.2 with seqs := e.2.seqs.map (fun q =>
      if q.slot == slot then { q with ended := true } else q) }))
    l1 := s.l1.filter (fun l => l.slot != slot && !gone l.asid l.line)
    l2 := s.l2.filter (fun l => l.slot != slot)
    icache := s.icache.filter (fun l => l.slot != slot)
    nmuBuf := s.nmuBuf.filter (fun l => l.slot != slot)
    tlb := s.tlb.filter (fun t => pteKsel t.pte.toNat != slot) }

/-- Entries of the page tables that are present leaves: the key and the entry of each (R169). -/
def leafEntries (m : List (Nat × Byte)) : List (Nat × Nat) :=
  (m.filterMap (fun e =>
    if e.1 % 8 == 0 && decide (4 * 2 ^ 48 ≤ e.1) && decide (e.1 < 20 * 2 ^ 48) then some (e.1, readBytes m e.1 8) else none)).filter
    (fun x => pteP x.2 && pteLeaf x.2)

/-- Some present leaf names the slot. -/
def slotMapped (s : State) (slot : Nat) : Bool :=
  (leafEntries s.mem).any (fun x => pteKsel x.2 == slot && pteTier x.2 != .host)
/-- Some present leaf lies in the memory slice (R312). -/
def sliceMapped (s : State) (slice : Nat) : Bool :=
  (leafEntries s.mem).any (fun x => pteTier x.2 == .hbm && (pteFrame x.2 * 4096) >>> 32 == slice)

/-- Common part of KEYOP; `op` is the operation of this row of the table (log 10); `arg` tests s[A + 1]. -/
def keyop (i : Instr) (sw : Bool) (d a : BitVec 6) (op : Nat) (arg : Word → Bool) (s : State)
    (body : Issue → Nat → Word → Res) : Host.Outcome State Fault Refusal :=
  issuePriv i sw d a false 2 s (fun c =>
    let w := s.rs c.t a.toNat
    let x := s.rs c.t (a.toNat + 1)
    if field w.toNat 3 0 != op || field w.toNat 15 4 != 0 || field w.toNat 31 28 != 0 || !arg x then c.trapWord .illegalOp
    else body c (field w.toNat 27 16) x)

/-- KEYOP ALLOC (R323). -/
def execKeyopAlloc (sw : Bool) (d a : BitVec 6) (s : State) : Host.Outcome State Fault Refusal :=
  keyop (.keyopAlloc sw d a) sw d a 0 (fun x => field x.toNat 31 8 == 0) s (fun c _ x =>
    match freeSlot s with
    | none => privSet s c d 0
    | some k => privSet (makeLive s k (field x.toNat 3 0) (field x.toNat 7 4)) c d (BitVec.ofNat 32 k))

/-- KEYOP DESTROY (R323). -/
def execKeyopDestroy (sw : Bool) (d a : BitVec 6) (s : State) : Host.Outcome State Fault Refusal :=
  keyop (.keyopDestroy sw d a) sw d a 1 (fun x => x == 0) s (fun c k _ =>
    match (s.key k).st with
    | .live | .rotating => privSet (endSlot s k) c d 0
    | _ => privSet s c d 1)

/-- A slice is being scrubbed, or waits for its scrub's turn (R324, R325, log 84). -/
def scrubBusy (s : State) : Bool := s.slices.any (fun e => match e.2 with | .scrubbing _ => true | _ => false)

/-- A base die sweeps already (R324). -/
def sweepBusy (s : State) : Bool := s.keys.any (fun e => !e.2.sweep.isEmpty)

/-- The migration engines move a page (R324, R326). -/
def moveBusy (s : State) : Bool := !s.moving.isEmpty

/-- KEYOP ROTATE (R323, R324). -/
def execKeyopRotate (sw : Bool) (d a : BitVec 6) (s : State) : Host.Outcome State Fault Refusal :=
  keyop (.keyopRotate sw d a) sw d a 2 (fun x => x == 0) s (fun c k _ =>
    let v := s.key k
    if v.st != .live then privSet s c d 2
    else if sweepBusy s || moveBusy s || scrubBusy s then privSet s c d 1
    else
      let s' : State := { s.setKey k { v with st := .rotating, keys := s.nextKeySet, old := v.keys, sweep := List.range 16 } with
        nextKeySet := s.nextKeySet + 1 }
      privSet s' c d 0)

/-- State code of KEYOP STATUS (R323). -/
def slotCode (x : SlotState) : Word := match x with | .free => 0 | .live => 1 | .rotating => 2 | .ended => 3

/-- KEYOP STATUS (R323). -/
def execKeyopStatus (sw : Bool) (d a : BitVec 6) (s : State) : Host.Outcome State Fault Refusal :=
  keyop (.keyopStatus sw d a) sw d a 3 (fun x => x == 0) s (fun c k _ => privSet s c d (slotCode (s.key k).st))

/-- An ENDED slot becomes FREE. -/
def releaseSlot (s : State) (k : Nat) : State := s.setKey k { s.key k with st := .free, ctx := 0, comp := 0 }

/-- KEYOP RELEASE (R323). -/
def execKeyopRelease (sw : Bool) (d a : BitVec 6) (s : State) : Host.Outcome State Fault Refusal :=
  keyop (.keyopRelease sw d a) sw d a 4 (fun x => x == 0) s (fun c k _ =>
    if (s.key k).st == .ended && !slotMapped s k then privSet (releaseSlot s k) c d 0 else privSet s c d 1)

/-- REENCRYPT_BLOCK (R324): the engine reseals the block at its pointer, the lowest still under the old keys; with
none left it is done, and when all are done the old keys are erased. -/
def execReencryptBlock (slot engine : Nat) (s : State) : Host.Outcome State Fault Refusal :=
  let k := s.key slot
  if k.st != .rotating || !k.sweep.contains engine then .next s
  else match s.seals.find? (fun e => e.2 == k.old && sweepUnit s k.ctx e.1 == engine) with
    | some e => .next { s with seals := Store.put 0 s.seals e.1 k.keys }
    | none =>
      let left := k.sweep.filter (· != engine)
      if left.isEmpty then .next (s.setKey slot { k with st := .live, old := 0, sweep := [] })
      else .next (s.setKey slot { k with sweep := left })

/-- The page still has a leaf. -/
def stillMapped (s : State) (asid va : Nat) : Bool := (rawTrans s (ctxOfAsid s asid) va).isSome

/-- The reverse-map entry still belongs to a mapped page: its leaf, of the same size, on the same frame (R175). -/
def rmapLive (s : State) (r : RmapEntry) : Bool :=
  match rawTrans s (ctxOfAsid s r.asid) r.page with
  | some t =>
    !pteUncached t.pte && r.page % pageSize t.level == 0 && r.num == rmapCount t &&
    (if pteTier t.pte == .hbm then decide (r.frame < 2 ^ 48) && r.frame % 2 ^ 24 == pteFrame t.pte
     else r.frame == rmapFrame t)
  | none => false

/-- What the memory manager clears when a page is unmapped: its reverse-map entries (R175), its poison (R309), its
LOST words, which then hold a free value (R200, R10). -/
def forgetUnmapped (s : State) : State :=
  let clear (l : L2Line) : L2Line :=
    if stillMapped s l.asid (l.line * 128) then l
    else { l with
      data := (List.range 32).map (fun i => match l.st.getD i (.u 0) with
        | .lost _ => Config.freeWord s.free 11 (32 * l.line + i)
        | _ => l.data.getD i 0)
      st := l.st.map (fun w => match w with | .lost n => .u n | w => w) }
  { s with
    rmap := s.rmap.filter (rmapLive s)
    poison := s.poison.filter (fun p => match p with | .page a base _ => stillMapped s a base)
    l2 := s.l2.map clear }

/-- Clear the present leaves of a key slot in every copy (R321): the entries of the page tables become zero, no translation
unit keeps one, and the reverse map forgets their pages (R175). -/
def clearLeaves (s : State) (slot : Nat) : State :=
  forgetUnmapped { s with
    mem := (leafEntries s.mem).foldl (fun m x =>
      if pteKsel x.2 == slot && pteTier x.2 != .host then clearBytes m x.1 (x.1 + 8) else m) s.mem
    tlb := s.tlb.filter (fun t => pteKsel t.pte.toNat != slot) }

/-- KEY_SLOT_FREE (R321): the memory manager clears an ended sequence's leaves; its slot becomes FREE. -/
def execKeySlotFree (slot : Nat) (s : State) : Host.Outcome State Fault Refusal :=
  if (s.key slot).st != .ended then .next s else .next (releaseSlot (clearLeaves s slot) slot)

-- ## gang switches (R361, R362)

/-- The answer of firmware to a waiting PRIV function: s[D] is written and the split goes on. -/
def answerFirmware (s : State) (w : Option (Nat × Nat × BitVec 6)) (v : Word) : State :=
  match w with
  | none => s
  | some (tid, uid, d) =>
    s.modTeam tid (fun t => (t.setS d.toNat v).modSplit uid (fun x => { x with waits := x.waits.filter (· != .firmware d) }))

/-- The armed switch of a partition is gone on this member; a CTXSW that still waits for the others' acknowledgements is
answered `v` (R362). -/
def disarm (s : State) (part : Nat) (v : Word) : State :=
  match (s.part part).bind (fun p => p.armed) with
  | none => s
  | some x => answerFirmware (s.modPart part (fun p => { p with armed := none })) x.split v

/-- Withdraw the armed switch of a partition on every member; a CTXSW that waits for it is answered `v` (R362). -/
def withdrawSwitch (s : State) (part : Nat) (v : Word) : State :=
  match s.part part with
  | none => s
  | some p =>
    let s := disarm s part v
    ((List.range p.members).filter (· != p.member)).foldl (fun s m => s.send part m 0 switchUnit switchUnit (.withdraw part m)) s

/-- The incoming context is resident in the partition. -/
def inPartition (s : State) (ctx part : Nat) : Bool := match s.ctx ctx with | some c => c.part == part | none => false

/-- The operand word of CTXSW is legal (R361). -/
def ctxswLegal (w : Word) : Bool := field w.toNat 30 12 == 0 && field w.toNat 7 4 == 0

/-- CTXSW with cancel = 0 (R362): the split waits for the acknowledgements of the other members. -/
def execCtxswArm (sw : Bool) (d a : BitVec 6) (s : State) : Host.Outcome State Fault Refusal :=
  issuePriv (.ctxswArm sw d a) sw d a true 3 s (fun c =>
    let w := s.rs c.t (a.toNat + 2)
    let t := s.rpair c.t a.toNat
    if !ctxswLegal w || w.getLsbD 31 then c.trapWord .illegalOp
    else
      let part := field w.toNat 3 0
      let ctx := field w.toNat 11 8
      let armed := (s.part part).bind (fun p => p.armed)
      if armed.isSome then privSet s c d 3
      else if t.toNat < s.clk.gtime.toNat + 20000 then privSet s c d 1
      else if !inPartition s ctx part then privSet s c d 2
      else match s.part part with
        | none => privSet s c d 2
        | some p =>
          let others := (List.range p.members).filter (· != p.member)
          let sw' : ArmedSwitch := ⟨ctx, t.toNat, others, if others.isEmpty then none else some (c.tid, c.uid, d), s.clk.gtime⟩
          let s := s.modPart part (fun p => { p with armed := some sw' })
          let s := others.foldl (fun s m => s.send part m ctx switchUnit switchUnit (.arm part m t ctx)) s
          if others.isEmpty then privSet s c d 0 else .park s [.firmware d])

/-- CTXSW with cancel = 1 (R362). -/
def execCtxswCancel (sw : Bool) (d a : BitVec 6) (s : State) : Host.Outcome State Fault Refusal :=
  issuePriv (.ctxswCancel sw d a) sw d a true 3 s (fun c =>
    let w := s.rs c.t (a.toNat + 2)
    if !ctxswLegal w || !w.getLsbD 31 then c.trapWord .illegalOp
    else
      let part := field w.toNat 3 0
      match (s.part part).bind (fun p => p.armed) with
      | some x => if x.time > s.clk.gtime.toNat then privSet (withdrawSwitch s part 4) c d 0 else privSet s c d 5
      | none => privSet s c d 5)

/-- SWITCH_ARM_RECEIVED (R334, R362): an arm from another member is kept and acknowledged; where its context is not resident
the acknowledgement says so and nothing is armed (log 96); a withdrawal removes it, and a CTXSW of this member that waits for
acknowledgements of it answers 4. -/
def execSwitchArmReceived (f : Inbound SwitchArm) (s : State) : Host.Outcome State Fault Refusal :=
  let a := f.item
  match s.part a.part with
  | none => .next s.dropFlit
  | some p =>
    if !s.ownsPort a.part f.port then .next s.dropFlit
    else if a.withdraw then .next (disarm s a.part 4)
    else if !inPartition s a.ctx a.part then
      .next (s.send a.part a.sender a.ctx switchUnit switchUnit (.armAck a.part a.sender false))
    else if p.armed.isSome then .next s
    else
      let s := s.modPart a.part (fun p => { p with armed := some ⟨a.ctx, a.time.toNat, [], none, s.clk.gtime⟩ })
      .next (s.send a.part a.sender a.ctx switchUnit switchUnit (.armAck a.part a.sender true))

/-- SWITCH_ARM_ACKNOWLEDGEMENT (R334, R362): with the last one, s[D] := 0; one from a member that does not hold the context
withdraws the arm, and s[D] := 2. -/
def execSwitchArmAcknowledgement (part : Nat) (mem : Inbound SwitchAck) (s : State) : Host.Outcome State Fault Refusal :=
  if !s.ownsPort part mem.port then .next s.dropFlit
  else match (s.part part).bind (fun p => p.armed) with
    | none => .next s
    | some x =>
      if !mem.item.resident then .next (if x.waiting.contains mem.item.member then withdrawSwitch s part 2 else s)
      else
      let left := x.waiting.filter (· != mem.item.member)
      let x' : ArmedSwitch := { x with waiting := left, split := if left.isEmpty then none else x.split }
      let s := s.modPart part (fun p => { p with armed := some x' })
      .next (if left.isEmpty then answerFirmware s x.split 0 else s)

/-- SWITCH_ARM_TIMEOUT (R362): 1 ms without every acknowledgement withdraws the arm; s[D] := 4. -/
def execSwitchArmTimeout (part : Nat) (s : State) : Host.Outcome State Fault Refusal :=
  match (s.part part).bind (fun p => p.armed) with
  | none => .next s
  | some x =>
    if x.waiting.isEmpty || s.clk.gtime.toNat < x.at_.toNat + 1000000 then .next s
    else .next (withdrawSwitch s part 4)

-- ## scrubbing (R312, R325)

/-- State of a slice; one that is not listed is FREE (R312). -/
def State.slice (s : State) (j : Nat) : SliceState := (Store.find s.slices j).getD (.free)
def State.setSlice (s : State) (j : Nat) (x : SliceState) : State := { s with slices := Store.insert s.slices j x }

/-- The scrub of a slice begins (R325): the kernel slots and q registers of its bank units are cleared, and its NMU
buffer lines are dropped. -/
def startScrub (s : State) (j : Nat) : State :=
  let s : State := { s with
    banks := s.banks.map (fun (e : Nat × BankUnit) =>
      if unitSlice e.1 == j then (e.1, { e.2 with slots := [], q := List.replicate 4 zeroRow, kept := [] }) else e)
    nmuBuf := s.nmuBuf.filter (fun l => decide (2 ^ 40 ≤ l.key) || field l.key 35 32 != j) }
  s.setSlice j (.scrubbing 0)

/-- SCRUB without the poll flag (R325). -/
def execScrub (sw : Bool) (d a : BitVec 6) (s : State) : Host.Outcome State Fault Refusal :=
  issuePriv (.scrub sw d a) sw d a false 1 s (fun c =>
    let w := s.rs c.t a.toNat
    if field w.toNat 30 4 != 0 || w.getLsbD 31 then c.trapWord .illegalOp
    else
      let j := field w.toNat 3 0
      match s.slice j with
      | .draining p =>
        if sliceMapped s j then privSet s c d 1
        else
          let s := s.modPart p (fun p => { p with slices := p.slices.filter (· != j) })
          privSet (startScrub s j) c d 0
      | _ => privSet s c d 1)

/-- SCRUB with the poll flag (R325). -/
def execScrubPoll (sw : Bool) (d a : BitVec 6) (s : State) : Host.Outcome State Fault Refusal :=
  issuePriv (.scrubPoll sw d a) sw d a false 1 s (fun c =>
    let w := s.rs c.t a.toNat
    if field w.toNat 30 4 != 0 || !w.getLsbD 31 then c.trapWord .illegalOp
    else privSet s c d (match s.slice (field w.toNat 3 0) with | .scrubbing _ => 1 | _ => 0))

/-- Rows of a slice in one stack. -/
def sliceRows : Nat := 2 ^ 22

/-- A scrub waits for its turn: the base dies run one sweep or migration job at a time (R324, log 84). -/
def scrubWaits (s : State) (slice : Nat) : Bool :=
  sweepBusy s || moveBusy s ||
    s.slices.any (fun e => e.1 != slice && (match e.2 with | .scrubbing row => decide (0 < row) | _ => false))

/-- SCRUB_ROW (R325): the next row of the slice gets zero data and a zero tag in every stack; after the last one the
slice is FREE, or back with its partition after a hot reset (R329). No other job of the base dies runs meanwhile (R324). -/
def execScrubRow (slice : Nat) (s : State) : Host.Outcome State Fault Refusal :=
  match s.slice slice with
  | .scrubbing row =>
    if scrubWaits s slice then .next s
    else
    let a := slice * 2 ^ 32 + row * 1024
    let s : State := { s with
      mem := (List.range 16).foldl (fun m st => clearBytes m (hbmKey st a) (hbmKey st a + 1024)) s.mem
      seals := (List.range 16).foldl (fun m st => Store.put 0 m (hbmBlock st a true) 0) s.seals }
    let owner := s.parts.find? (fun p => p.2.slices.contains slice)
    if row + 1 < sliceRows then .next (s.setSlice slice (.scrubbing (row + 1)))
    else .next (s.setSlice slice (match owner with | some p => .assigned p.1 | none => .free))
  | _ => .next s

end Sys2Proof.Machine
end

