-- ==== Sys2Proof/Machine/Slots.lean ====
section
/-! DEFINITION. What the issue slots and register stores of the coaches do (spec/02 R56; spec/04 R107, R113, R116,
R118, R121 to R123; spec/11 R284 to R287; spec/12 R292, R296): choosing a split, restoring a spilled one, demoting a
spinner, clearing and filling register lines, and landing long-latency returns. -/
namespace Sys2Proof.Machine

/-- The coach cycle as a number. -/
def State.now (s : State) : Nat := s.clk.cycle.toNat

/-- The first of the elements with the smallest key. -/
def minBy {α : Type} (key : α → Nat) (xs : List α) : Option α :=
  xs.foldl (fun b x => match b with | none => some x | some y => if key x < key y then some x else b) none

-- ## choosing a split (R284, R285)

/-- A split is ready (R41). -/
def splitReady (s : State) (tid : Nat) (t : Team) (x : Split) : Bool :=
  x.phase != .joinWait && waitsOver s tid t x

/-- A split is eligible (R284): a team with a replay, or with a posted update that waits on a page fault, issues nothing
else (R177, R398), and RFLUSH and HSAVE stop every other split (R117, R370), but for the end of an HPASS or HFREE (R260). -/
def splitEligible (s : State) (tid : Nat) (t : Team) (x : Split) : Bool :=
  x.onChip && splitReady s tid t x && s.posted.all (fun p => p.tid != tid || !p.faulted) &&
  (match t.replay with | some r => r.split == x.uid | none => true) &&
  (match t.flushing with | some u => u == x.uid || x.waits.any Wait.finishes | none => true) &&
  (match x.demoted with | some _ => decide (x.lastIssue + 16 ≤ s.now) | none => true)

/-- A split is due (R284). -/
def splitDue (x : Split) : Bool := x.demoted.isNone && decide (x.passed ≥ 7)

/-- The team's choice among its eligible splits, oldest first (R284). -/
def chooseSplit (es : List Split) : Option Split :=
  match minBy (·.dueAt) (es.filter splitDue) with
  | some x => some x
  | none =>
    match es.find? (fun x => x.demoted.isNone) with
    | some x => some x
    | none => es.head?

/-- The team may issue: it runs, its first lines are cleared, and no page fault parks it. -/
def teamMayIssue (s : State) (t : Team) : Bool :=
  t.running && t.started && !t.parked && !t.retiring && !(s.coach t.coach).failed && (t.sys || ctxActive s t.ctx)

/-- The teams of an issue slot (R285), with their eligible splits: a team that may not issue has none. -/
def slotTeams (s : State) (slot : Nat) : List (Nat × Team × List Split) :=
  (s.teams.filter (fun e => e.2.coach == slot / 4 && e.2.slot % 4 == slot % 4)).map (fun e =>
    (e.1, e.2, if teamMayIssue s e.2 then e.2.splits.filter (splitEligible s e.1 e.2) else []))

/-- Class of a team in its slot's choice (R285). -/
def teamClass (t : Team) (x : Split) : Nat := if t.age ≥ 60 then 0 else if x.demoted.isNone then 1 else 2

/-- A number that orders the teams of a slot: class, then the highest age, then the lowest team slot (R285). -/
def teamKey (t : Team) (x : Split) : Nat := (teamClass t x * 2 ^ 64 + (2 ^ 63 - t.age)) * 16 + t.slot

/-- The slot's choice. -/
def chooseTeam (s : State) (slot : Nat) : Option (Nat × Team × Split) :=
  minBy (fun e => teamKey e.2.1 e.2.2) ((slotTeams s slot).filterMap (fun e =>
    (chooseSplit e.2.2).map (fun x => (e.1, e.2.1, x))))

/-- The counts of R284, and the split's issue in its entry (R56), after an issue of the chosen team at a coach cycle; `es` were eligible when it was chosen. -/
def countSplits (cycle : Nat) (t : Team) (es : List Nat) (uid : Nat) : Team :=
  let n := t.issues + 1
  { t with
    issues := n
    age := 0
    splits := t.splits.map (fun x =>
      if x.uid == uid then { x with passed := 0, lastIssue := cycle, issuedHere := true }
      else if x.onChip && es.contains x.uid then
        { x with passed := x.passed + 1, dueAt := if x.passed + 1 == 7 && x.demoted.isNone then n else x.dueAt }
      else x) }

/-- R285: at an opportunity with no eligible split every age count of the slot is 0. -/
def idleSlot (s : State) (slot : Nat) : State :=
  (slotTeams s slot).foldl (fun s e => s.modTeam e.1 (fun t => { t with age := 0 })) s

/-- The age counts of R285 over the teams of a slot, and the counts of the chosen one; who was eligible is read in the state
in which the split was chosen. `held` tells which splits have a wait that they have not met yet: their next instruction
would be held (R41). -/
def countSlot (held : Nat → Nat → Bool) (before after : State) (slot tid uid : Nat) : State :=
  (slotTeams before slot).foldl (fun s e =>
    let es := (e.2.2.map (·.uid)).filter (fun u => !held e.1 u)
    s.modTeam e.1 (fun t =>
      if e.1 == tid then countSplits before.now t es uid
      else { t with age := if es.isEmpty then 0 else t.age + 1 })) after

/-- A pending advisory is taken in place of an instruction (R292, R296): not while a split runs the handler or waits
to retry, and not in place of a replay. -/
def eventDue (t : Team) : Bool :=
  t.events.getLsbD 0 && t.evmask.getLsbD 0 && t.tvec != 0 && !t.inHandler && t.replay.isNone &&
  t.splits.all (fun x => !x.waits.contains .handler)

/-- R288: every split of the drove's teams is demoted, waits at a barrier or a join, and one is demoted. A demotion that its
timer has ended counts on while its loop goes round unchanged (log 74). -/
def droveStalled (s : State) (d : Drove) : Bool :=
  let ts := d.teams.filterMap s.team
  let spins (x : Split) : Bool := x.demoted.isSome || ((x.spin.map (·.lapsed)).getD false)
  ts.all (fun t => t.splits.all (fun x => spins x || x.phase == .joinWait ||
    x.waits.any (fun w => match w with | .barrier _ => true | _ => false))) &&
  ts.any (fun t => t.splits.any spins)

/-- Keep the time since which a drove has been stalled without a break (R288). -/
def noteStall (s : State) (drove : Nat) : State :=
  s.modDrove drove (fun d => { d with stalled := if droveStalled s d then some (d.stalled.getD s.now) else none })

/-- The instruction that the chosen split tried has not issued: it is held, or its team parks on a FILLING line or
on a page fault of the fetch, and the split was not ready (R41, R53). -/
def heldBack (before after : State) (tid uid : Nat) : Bool :=
  match before.team tid, after.team tid with
  | some t, some t' =>
    (match t.split uid, t'.split uid with
     | some x, some y =>
       x.pc == y.pc && x.icount == y.icount &&
       ((!y.waits.isEmpty && y.waits.all (fun w => w != .handler && w != .latch)) || (t'.parked && (t'.fault.isNone || t'.replay.isNone)))
     | _, _ => false)
  | _, _ => false

/-- What follows the chosen split's turn: an issue is counted (R284, R285), and the drove's stall is noted (R288). -/
def concludeIssue (held : Nat → Nat → Bool) (before after : State) (tid uid : Nat) : State :=
  match before.team tid with
  | none => after
  | some t =>
    let s := if heldBack before after tid uid then after else countSlot held before after (4 * t.coach + t.slot % 4) tid uid
    noteStall s t.drove

-- ## spilled splits (R56)

/-- The split whose instruction alone may issue: of a replay, an RFLUSH or an HSAVE (R117, R177, R370). -/
def Team.sole (t : Team) : Option Nat := (t.replay.map (·.split)).or t.flushing

/-- The split that gives its entry to a spilled one: one that is not ready, in the order of R56, else the ready one that has
held its entry longest, once it has issued there or been demoted (R56, R66, log 94). -/
def restoreVictim (s : State) (tid : Nat) (t : Team) : Option Split :=
  let on := t.splits.filter (fun y => y.onChip && t.sole != some y.uid)
  let idle := on.filter (fun y => !splitReady s tid t y)
  let u := spillChoice (splitParked s tid t) idle t.nextUid
  match idle.find? (·.uid == u) with
  | some y => some y
  | none => (minBy (·.entryAt) idle).orElse (fun _ =>
      (minBy (·.entryAt) on).filter (fun y => y.issuedHere || y.demoted.isSome))

/-- A spilled split that is ready comes back on chip (R56). -/
def restoreSplit (s : State) (tid sp : Nat) : State :=
  match s.team tid with
  | none => s
  | some t =>
    match t.split sp with
    | none => s
    | some x =>
      if x.onChip || !splitReady s tid t x then s
      else match freeEntry t.splits, restoreVictim s tid t with
        | some n, _ => s.setTeam tid (t.modSplit sp (fun y => y.placed (some n) t.issues))
        | none, some v => s.setTeam tid ((t.modSplit v.uid Split.spilled).modSplit sp (fun y => y.placed v.entry t.issues))
        | none, none => s

/-- Since when each spilled split has been ready, in issues of its team. -/
def noteReady (s : State) (tid : Nat) (t : Team) : Team :=
  { t with splits := t.splits.map (fun x =>
      { x with readySince := if !x.onChip && splitReady s tid t x then some (x.readySince.getD t.issues) else none }) }

/-- The spilled split of a team that comes back next: the one ready longest. Each of the eight entries is given up within 15
issues, so that 120 splits that are ready are back within 256 issues (R56, R66, log 94). -/
def restoreNext (t : Team) : Option Split :=
  minBy (fun x => x.readySince.getD 0) (t.splits.filter (fun x => x.readySince.isSome))

/-- Bring back up to n spilled splits of a team. -/
def restoreTeam (tid : Nat) : Nat → State → State
  | 0, s => s
  | n + 1, s =>
    match (s.team tid).bind restoreNext with
    | some x => restoreTeam tid n (restoreSplit s tid x.uid)
    | none => s

/-- The bound of R56, kept at each opportunity of a slot. -/
def restoreDue (s : State) (slot : Nat) : State :=
  (slotTeams s slot).foldl (fun s e =>
    if e.2.1.splits.all (·.onChip) || !teamMayIssue s e.2.1 then s
    else restoreTeam e.1 8 (s.modTeam e.1 (noteReady s e.1))) s

/-- SPLIT_RESTORE (R56): the turn of the split that has been ready longest. -/
def execSplitRestore (tid sp : Nat) (s : State) : Host.Outcome State Fault Refusal :=
  let s' := s.modTeam tid (noteReady s tid)
  match (s'.team tid).bind restoreNext with
  | some x => .next (if x.uid == sp then restoreSplit s' tid sp else s')
  | none => .next s'

/-- The pending advisory of the chosen split's team is taken in place of its instruction (R292, R296). -/
def takeEvent (s : State) (tid uid : Nat) : State :=
  match s.team tid with
  | none => s
  | some t =>
    ((enterHandler s tid uid ⟨.ckptAdvise, t.advisory, 0⟩).modTeam tid (fun t =>
      { t with events := t.events &&& 0xFFFFFFFE, advisory := 0 })).tick 1

/-- ISSUE_OPPORTUNITY (R41, R284, R285): the slot chooses a team and a split, whose instruction, or pending event, is the next
step. -/
def execIssueOpportunity (slot : Nat) (s : State) : Host.Outcome State Fault Refusal :=
  if s.clk.stopped then .next s
  else
    let s := restoreDue s slot
    match chooseTeam s slot with
    | none => .next (idleSlot s slot)
    | some (tid, _, x) => .next { wake s tid x with cur := .split tid x.uid }

-- ## spinners (R286, R287)

/-- SPIN_DEMOTION (R286): 32 unchanged iterations demote the split, in the loop that it watches. -/
def execSpinDemotion (tid sp : Nat) (s : State) : Host.Outcome State Fault Refusal :=
  match (s.team tid).bind (fun t => (t.split sp).map (fun x => (t.drove, x))) with
  | none => .next s
  | some (drove, x) =>
    match x.spin with
    | none => .next s
    | some w =>
      if w.count < 32 || x.demoted.isSome then .next s
      else
        .next (noteStall (s.modTeam tid (fun t => t.modSplit sp (fun x =>
          { x with demoted := some ⟨s.now, w.target, w.branch⟩, spin := some { w with lapsed := false } }))) drove)

/-- DEMOTION_END (R287): 4,096 cycles after the demotion began; the count starts again from zero. A loop that is still
going round unchanged keeps its drove's stall unbroken (R288, log 74). -/
def execDemotionEnd (tid sp : Nat) (s : State) : Host.Outcome State Fault Refusal :=
  match (s.team tid).bind (fun t => (t.split sp).map (fun x => (t.drove, x))) with
  | none => .next s
  | some (drove, x) =>
    match x.demoted with
    | none => .next s
    | some d =>
      if s.now < d.since + 4096 then .next s
      else
        .next (noteStall (s.modTeam tid (fun t => t.modSplit sp (fun x =>
          { undemote t.issues x with spin := x.spin.map (fun w => { w with count := 0, lapsed := decide (w.count ≠ 0) }) }))) drove)

-- ## register lines (R105 to R118)

/-- Lines of a coach's store, with their teams. -/
def coachLines (s : State) (coach : Nat) : List (Nat × RegLine) :=
  s.teams.flatMap (fun e => (e.2.lines.filter (fun l => l.coach == coach)).map (fun l => (e.1, l)))

/-- Lines of a block set of a team (R105, R109). -/
def linesOfBlocks (t : Team) (blk : BitVec 3) : List Nat :=
  (List.range (8 * t.m)).filter (fun j => lineBlock t.m j &&& blk != 0)

/-- Lines a team holds: its base block and its extended blocks (R105). -/
def heldLines (t : Team) : List Nat := List.range t.m ++ linesOfBlocks t t.xblk

/-- The team is placed, its context runs, and it waits to go on, on a page fault (R113): its slot and its lines are reserved
for it. -/
def waitsToResume (s : State) (t : Team) : Bool :=
  !t.running && ctxActive s t.ctx && ((s.drove t.drove).map (fun d => d.train.isSome)).getD false

/-- The teams that wait to go on, on a coach, but for some. -/
def reservingTeams (s : State) (coach : Nat) (but : List Nat) : List (Nat × Team) :=
  s.teams.filter (fun e => e.2.coach == coach && !but.contains e.1 && waitsToResume s e.2)

/-- Lines of a coach that are reserved (R113), beyond those of a class that their teams have there. -/
def reservedLines (s : State) (coach : Nat) (but : List Nat) (has : RegLine → Bool) : Nat :=
  ((reservingTeams s coach but).flatMap (fun e =>
    (heldLines e.2).filter (fun j => !e.2.lines.any (fun l => l.line == j && l.coach == coach && has l)))).length

/-- Lines of a coach that are available to some teams (R107, R113): those neither HELD nor FILLING by others, nor reserved for
others. -/
def availableBut (s : State) (coach : Nat) (own : List Nat) : Nat :=
  Config.registerLines - ((coachLines s coach).filter (fun l => l.2.st != .evictable && !own.contains l.1)).length -
    reservedLines s coach own (fun l => l.st != .evictable)

/-- Lines that count as available (R107): those neither HELD nor FILLING, nor reserved (R113). -/
def availableLines (s : State) (coach : Nat) : Nat := availableBut s coach []

/-- Drop a line of a team from a coach. -/
def dropLine (s : State) (tid : Nat) (l : RegLine) : State :=
  s.modTeam tid (fun t => { t with lines := t.lines.filter (fun x => !(x.line == l.line && x.coach == l.coach)) })

/-- Write back an EVICTABLE line when it is dirty, and drop it (R113). -/
def evictLine (s : State) (tid : Nat) (l : RegLine) : Except (Cause × Nat) State :=
  match s.team tid with
  | none => .ok s
  | some t =>
    if !l.dirty then .ok (dropLine s tid l)
    else match writeImageLine s t l.line with
      | .error c => .error c
      | .ok s => .ok (dropLine s tid l)

/-- Why something cannot be placed now. -/
inductive Blocked
  /-- there is no room for it -/
  | noRoom
  /-- a cause met by an access on behalf of a team -/
  | cause (tid : Nat) (c : Cause) (va : Nat)

/-- Evict lines of a coach, least recently held first, while the store is too full for n more (R113); the lines of some
teams stay. -/
def evictLines (coach n : Nat) (keep : List Nat) : Nat → State → Except Blocked State
  | 0, s => .ok s
  | k + 1, s =>
    let ls := coachLines s coach
    if ls.length + n ≤ Config.registerLines then .ok s
    else match minBy (fun l => l.2.stamp) (ls.filter (fun l => l.2.st == .evictable && !keep.contains l.1)) with
      | none => .error .noRoom
      | some (tid, l) =>
        match evictLine s tid l with
        | .error (c, va) => .error (.cause tid c va)
        | .ok s => evictLines coach n keep k s

/-- Room for n more lines of a coach, for the teams `own`: their lines and those that are reserved for others stay (R113). -/
def makeRoom (coach n : Nat) (own : List Nat) (s : State) : Except Blocked State :=
  evictLines coach (n + reservedLines s coach own (fun _ => true)) (own ++ (reservingTeams s coach own).map (·.1))
    Config.registerLines s

/-- What an error of this kind does: it waits for room or on a page fault; any other cause halts the team's context
(R110). -/
def blockedState (s : State) (e : Blocked) : State :=
  match e with
  | .noRoom => s
  | .cause tid c va => if causeParks c then s else haltTeam s tid 0 ⟨c, 0, BitVec.ofNat 64 va⟩

/-- The clear engine of a coach has zeroed the allocation at the head of its list (R118); a later allocation of the same team
is still to come. -/
def clearedHead (s : State) (coach tid : Nat) : State :=
  let rest := (s.coach coach).clears.drop 1
  let s := s.modCoach coach (fun k => { k with clears := rest })
  if rest.contains tid then s
  else s.modTeam tid (fun t =>
    if !t.clearing || t.coach != coach then t
    else { t with clearing := false, started := true, xblk := t.xblk ||| t.pend, pend := 0 })

/-- LINE_CLEAR_DONE (R118): the last line of a team's allocation is zero. The clear engine serves allocations in arrival
order. -/
def execLineClearDone (tid : Nat) (s : State) : Host.Outcome State Fault Refusal :=
  match s.coaches.find? (fun e => e.2.clears.head? == some tid) with
  | none => .next s
  | some (coach, _) => .next (clearedHead s coach tid)

/-- An allocation of a team enters its coach's clear engine (R118). -/
def clearLater (s : State) (tid coach : Nat) : State := s.modCoach coach (fun k => { k with clears := k.clears ++ [tid] })

/-- XACQ_GRANT (R107): the head of a coach's acquire queue gets its lines when there are enough; each is cleared. -/
def execXacqGrant (coach : Nat) (s : State) : Host.Outcome State Fault Refusal :=
  match (s.coach coach).acquire with
  | [] => .next s
  | (tid, n, _) :: rest =>
    match s.team tid with
    | none => .next (s.modCoach coach (fun k => { k with acquire := rest }))
    | some t =>
      if !ctxActive s t.ctx || !t.running || availableLines s coach < n then .next s
      else match makeRoom coach n [] s with
        | .error e => .next (blockedState s e)
        | .ok s =>
          let s := clearLater (s.modCoach coach (fun k => { k with acquire := rest })) tid coach
          .next (s.modTeam tid (fun t =>
            let js := linesOfBlocks t t.pend
            { t with
              clearing := true
              vregs := t.vregs.filter (fun e => !(blockRegs t.pend).contains (e.1 / 1024))
              lines := t.lines ++ js.map (fun j => ⟨j, coach, .held, true, s.now⟩) }))

/-- A long-latency write whose value is here and whose registers all lie in lines that have arrived. -/
def landable (t : Team) (p : Pending) : Bool :=
  p.remote.isNone && !p.bk &&
  (match p.dest with | .vec r n => !(regGroup r n).any t.filling | _ => true)

/-- The image line holds a part of the destination. -/
def pendingOnLine (t : Team) (line : Nat) (p : Pending) : Bool :=
  match p.dest with | .vec r n => (regGroup r n).any (fun k => (t.linesOfReg k).contains line) | _ => false

/-- Land every lane of the writes that waited for a line (R116). -/
def landLine (t : Team) (line : Nat) : Team :=
  let go := t.pending.filter (fun p => landable t p && pendingOnLine t line p)
  let t := go.foldl (fun t p => p.lanes.foldl (fun t v => landLane t p.dest v.1 v.2) t) t
  let regs := go.flatMap (fun p => match p.dest with | .vec r n => regGroup r n | _ => [])
  markDirty { t with pending := t.pending.filter (fun p => !go.contains p) } regs

/-- A line that arrives is HELD, or, when its team does not run, EVICTABLE at once; another coach's copy of it is gone
(R113, R115). -/
def arrivedLine (t : Team) (line now : Nat) : List RegLine :=
  (t.lines.filter (fun l => l.line != line || l.st == .filling)).map (fun l =>
    if l.line == line then { l with st := if t.running then .held else .evictable, dirty := false, stamp := now } else l)

/-- REGISTER_LINE_FILL (R113, R115, R116): a FILLING line arrives from the image, a dirty copy on another coach
written back first; the results that waited for it merge. -/
def execRegisterLineFill (tid line : Nat) (s : State) : Host.Outcome State Fault Refusal :=
  match s.team tid with
  | none => .next s
  | some t =>
    if ((s.ctx t.ctx).map (fun c => c.halt.isSome)).getD false || !t.lines.any (fun l => l.line == line && l.st == .filling) then
      .next s
    else
      let va := imageBase s t + 4096 * line
      let old := t.lines.any (fun l => l.line == line && l.st != .filling && l.dirty)
      let back := if old then writeImageLine s t line else .ok s
      let got : Except (Cause × Nat) (State × List Word) :=
        match back with | .error c => .error c | .ok s => hwReadLines s t.ctx t.comp 32 va
      match got with
      | .error (c, _) =>
        if causeParks c then .next (s.setTeam tid { t with fault := some (0, BitVec.ofNat 64 va) })
        else .next (haltTeam s tid 0 ⟨c, 0, BitVec.ofNat 64 va⟩)
      | .ok (s, ws) =>
        let t := t.setImageLine line ws
        .next (s.setTeam tid (landLine { t with lines := arrivedLine t line s.now, parked := t.parked && t.fault.isSome } line))

/-- Words of a value from another member, lowest register first. -/
def extWords (d : Dest) (x : BitVec 128) : List Word :=
  let n := match d with | .vec _ n => n | .scal _ n => n | .word _ => 1 | .ack => 0
  (List.range n).map (fun k => (x >>> (32 * k)).setWidth 32)

/-- A line of a team that is pre-empted stays HELD while a long-latency write to it is in flight (R115). -/
def unpinLines (now : Nat) (t : Team) : Team :=
  if t.running then t
  else { t with lines := t.lines.map (fun l =>
    if l.st == .held && !t.pending.any (pendingOnLine t l.line) then { l with st := .evictable, stamp := now } else l) }

/-- A reply that comes after its request has been given up is discarded and logged (R308). -/
def discardReply (s : State) (r : RemoteOut) : State :=
  { s with remote := s.remote.filter (fun x => x.id != r.id)
           mgmt := { s.mgmt with log := s.mgmt.log ++ [(r.ctx, r.va, r.member, none)] } }

/-- A request of this device has been answered. -/
def answered (s : State) (r : RemoteOut) : State :=
  if r.dead then discardReply s r else { s with remote := s.remote.filter (fun x => x.id != r.id) }

/-- A lane of a pending write lands: the registers, the lines that hold them, and the detectors that await its values
(R123, R286). -/
def landReturn (s : State) (tid idx lane : Nat) (t : Team) (p : Pending) (vals : List Word) : State :=
  let t := landLane t p.dest lane vals
  let left := Store.erase p.lanes lane
  let t : Team := { t with
    pending := if left.isEmpty then t.pending.eraseIdx idx else t.pending.set idx { p with lanes := left }
    splits := match p.remote with
      | some id => t.splits.map (fun x => { x with spin := x.spin.map (spinLand id lane vals) })
      | none => t.splits }
  let regs := match p.dest with | .vec r n => regGroup r n | _ => []
  let t := unpinLines s.now (markDirty t regs)
  s.setTeam tid (match p.dest with | .scal _ _ => t.touchFrame | _ => t)

/-- A return for an initiator that is no team, the scheduler: its idx-th request is answered. -/
def schedReturn (s : State) (tid idx port : Nat) : State :=
  match (s.remote.filter (fun r => r.tid == tid))[idx]? with
  | none => s
  | some r => if s.ownsPort (s.partOf r.ctx) port then answered s r else s.dropFlit

/-- Every lane of a remote request's destination lands: the lanes that name its address are served by the one read (R380). -/
def landReply (s : State) (tid idx : Nat) (vals : List Word) : List Nat → State
  | [] => s
  | lane :: rest =>
    match s.team tid with
    | none => s
    | some t =>
      match t.pending[idx]? with
      | none => s
      | some p => landReply (landReturn s tid idx lane t p vals) tid idx vals rest

/-- A context has halted and its stop records are written (R299): its registers are in no coach any more. -/
def haltedForGood (s : State) (ctx : Nat) : Bool :=
  (((s.ctx ctx).bind (·.halt)).map (·.finished)).getD false

/-- The reply to a remote request of a team (R159): it comes on a port of the partition; one after a timeout is discarded and
logged (R308), and one for a context whose halt is over finds no register to land in. -/
def remoteReturn (s : State) (tid idx port : Nat) (ext : BitVec 128) (t : Team) (p : Pending) (blocked : Bool) : State :=
  if !s.ownsPort (s.partOf t.ctx) port then s.dropFlit
  else match s.remote.find? (fun r => some r.id == p.remote) with
    | none => s
    | some r =>
      if r.dead then discardReply s r
      else if blocked then if haltedForGood s t.ctx then answered s r else s
      else answered (landReply s tid idx (extWords p.dest ext) (p.lanes.map (·.1))) r

/-- A posted update of a team that another member performs, by its place after the team's pending writes: its acknowledgement
has come (R159, R196, R308). -/
def postedReturn (s : State) (tid idx port : Nat) (t : Team) : State :=
  match (s.posted.filter (fun p => p.tid == tid && p.remote))[idx]? with
  | none => s
  | some p =>
    if !s.ownsPort (s.partOf t.ctx) port then s.dropFlit
    else match s.remote.find? (fun r => r.id == p.id) with
      | none => s
      | some r => { answered s r with posted := s.posted.filter (·.id != p.id) }

/-- LONG_LATENCY_RETURN (R121 to R123): one lane of a write in flight lands, for all registers of its group; past the team's
writes `idx` names its posted updates at other members, whose acknowledgement comes in the same way. A value
of another member comes with the event (R159); a value that a bank unit still holds has not arrived (R234). A line or a frame
that is only in the image takes it once it is back. -/
def execLongLatencyReturn (tid idx lane : Nat) (ext : Inbound (BitVec 128)) (s : State) :
    Host.Outcome State Fault Refusal :=
  match s.team tid with
  | none => .next (schedReturn s tid idx ext.port)
  | some t =>
    match t.pending[idx]? with
    | none => .next (postedReturn s tid (idx - t.pending.length) ext.port t)
    | some p =>
      match Store.find p.lanes lane with
      | none => .next s
      | some vals =>
        let away (k : Nat) : Bool := !t.running && !(t.linesOfReg k).all (fun j => t.lines.any (fun l => l.line == j))
        let blocked : Bool := match p.dest with
          | .vec r n => (regGroup r n).any (fun k => t.filling k || away k)
          | .scal _ _ => t.frame == .image
          | .word _ | .ack => false
        if p.bk && vals.isEmpty then .next s
        else if p.remote.isSome && !p.bk then .next (remoteReturn s tid idx ext.port ext.item t p blocked)
        else if blocked then .next s
        else .next (landReturn s tid idx lane t p vals)

end Sys2Proof.Machine
end

