-- ==== Sys2Proof/Machine/Sched.lean ====
section
/-! DEFINITION. The scheduler and the distributor (spec/11 R271 to R283, R288; spec/02 R43, R45 to R50, R68, R69):
entries and node records, releases, opening nodes, placing droves, retiring teams, completing nodes, the watchdog, and
pre-empting and evicting droves. -/
namespace Sys2Proof.Machine

-- ## scheduler accesses (R272, R273, R277)

/-- The post number of the host's node-release window: no team has it. -/
def hostPost : Nat := 2 ^ 18
/-- The initiator number of a context's scheduler, for an entry (R308). -/
def schedTid (ctx entry : Nat) : Nat := 2 ^ 18 + 1 + 16 * entry + ctx

/-- The compartment of a node (R272). -/
def nodeComp (s : State) (ctx e : Nat) : Nat :=
  match (s.ctx ctx).bind (fun c => Store.find c.nodes e) with | some n => n.comp | none => 0

/-- One access of the scheduler, under the compartment of the page it names (R272). A read of another member's memory, for
which the spec names no initiator, is PROTECTION (log 95). -/
def schedAccess (s : State) (ctx entry : Nat) (va : DWord) (w : Nat) (pol : Pol) (op : MemOp) : Except Cause (State × DWord) :=
  match route s ctx va pol with
  | .bad => .error .protection
  | .away i =>
    if opWrites op then
      let (id, s) := s.fresh
      let comp := (nodeComp s ctx entry)
      .ok (s.request schedUnit id ctx comp (schedTid ctx entry) i va w pol op .n64 false, 0)
    else .error .protection
  | .here a p _ =>
    let comp := match rawTrans s ctx a with | some t => pteCmp t.pte | none => 0
    perform s ⟨ctx, comp, noCoach⟩ a w p op .n64 false

/-- n words at their places of effect (R186). -/
def schedRead (s : State) (ctx : Nat) (va : DWord) : Nat → Except Cause (State × List Word)
  | 0 => .ok (s, [])
  | n + 1 =>
    match schedAccess s ctx 0 va 4 .wt .read with
    | .error c => .error c
    | .ok (s, x) =>
      match schedRead s ctx (va + 4) n with
      | .error c => .error c
      | .ok (s, ws) => .ok (s, x.setWidth 32 :: ws)

/-- A cause of a scheduler access: it waits on a page fault, or halts the context with the entry as origin unit
(R258, R302). -/
def schedCause (s : State) (ctx entry : Nat) (c : Cause) (va : DWord) : State :=
  if causeParks c then s.modCtx ctx (fun x => { x with schedFault := some (entry, va) })
  else haltContext s ⟨ctx, c, 4, entry, 0, va⟩

/-- The scheduler halts a context with ENGINE_FAULT (R273, R274): reason 1 invalid record, 2 arm of a busy entry, 3 P
overflow (R303). Its TINFO is unit-specific, a free value (R291, log 6). -/
def schedStop (s : State) (ctx entry reason : Nat) : State :=
  haltContext (s.modCtx ctx (fun x => { x with schedStop := some (entry, reason) }))
    ⟨ctx, .engineFault, 4, entry, Config.freeWord s.free 7 entry, 0⟩

-- ## node records and entries (R271 to R274)

/-- The allowed set of a role (R44). -/
def roleBlocks (role : Nat) : BitVec 3 := match role with | 1 => 0 | 2 => 7 | _ => 3

/-- Role of team t (R272). -/
def rolemapRole (m : BitVec 128) (t : Nat) : Nat := field m.toNat (2 * t + 1) (2 * t)

/-- The fields of a node record (R272). -/
def recordOf (ws : List Word) : NodeRec :=
  let g (i : Nat) : Nat := (ws.getD i 0).toNat
  let pair (i : Nat) : DWord := ws.getD (i + 1) 0 ++ ws.getD i 0
  { entry := pair 0, args := pair 2, droves := field (g 4) 20 0, w := field (g 5) 10 0, teams := field (g 5) 22 16,
    event := field (g 5) 25 24 == 1, iq := (g 5).testBit 26, intr := (g 5).testBit 27,
    regs := (ws.getD 5 0).extractLsb' 28 3, wdog := g 6, dps := field (g 7) 20 0, tvec := ws.getD 8 0,
    common := field (g 9) 8 0, readyq := field (g 9) 19 16, pred := field (g 10) 15 0, seed := ws.getD 11 0,
    rolemap := ws.getD 15 0 ++ ws.getD 14 0 ++ ws.getD 13 0 ++ ws.getD 12 0, cwva := pair 16, cwval := pair 18,
    succ := ((ws.drop 20).take (field (g 10) 19 16)).map (·.toNat) }

/-- The checks that hold for every node (R273). -/
def recordBase (ncount : Nat) (ws : List Word) (r : NodeRec) : Bool :=
  let f := ws.getD 5 0
  decide (field f.toNat 25 24 ≤ 1) && field f.toNat 15 11 == 0 && !f.getLsbD 23 && !f.getLsbD 31 && r.pred != 0 &&
  decide (field (ws.getD 10 0).toNat 19 16 ≤ 12) && r.cwva.toNat % 8 == 0 && r.succ.all (fun e => decide (e < ncount ∧ e < 2 ^ 18))

/-- The further checks of a LAUNCH (R273). -/
def recordLaunch (ws : List Word) (r : NodeRec) : Bool :=
  r.entry.toNat % 4 == 0 && field (ws.getD 4 0).toNat 31 21 == 0 && decide (1 ≤ r.droves ∧ r.droves ≤ 2 ^ 20) &&
  decide (32 ≤ r.w ∧ r.w ≤ 1024) && r.w % 32 == 0 && decide (1 ≤ r.teams ∧ r.teams ≤ 64) && decide (r.common ≤ 341) &&
  (r.dps == 0 || decide ((r.droves - 1) / r.dps ≤ 15)) &&
  (List.range r.teams).all (fun t => r.regs &&& ~~~roleBlocks (rolemapRole r.rolemap t) == 0)

/-- The record, or none when it is invalid (R273). -/
def parseRecord (ncount : Nat) (ws : List Word) : Option NodeRec :=
  let r := recordOf ws
  if recordBase ncount ws r && (r.event || recordLaunch ws r) then some r else none

/-- A scheduler entry; one that has not been touched is IDLE with P = 0 (R271). -/
def nodeAt (s : State) (ctx e : Nat) : Node := ((s.ctx ctx).bind (fun c => Store.find c.nodes e)).getD Node.idle
/-- Replace an entry. -/
def setNode (s : State) (ctx e : Nat) (n : Node) : State :=
  s.modCtx ctx (fun c => { c with nodes := Store.insert c.nodes e n })

/-- A queue of the context (R280). -/
def readyQueue (c : Context) (q : Nat) : List Nat := (Store.find c.ready q).getD []

/-- A node enters its ready queue: at the end, but nodes that became ready in the same cycle stand in ascending order
(R280). -/
def enterReady (s : State) (ctx e : Nat) (q : List Nat) : List Nat :=
  let later := (q.reverse.takeWhile (fun x => decide (e < x) && (nodeAt s ctx x).readyAt == s.now)).length
  q.take (q.length - later) ++ [e] ++ q.drop (q.length - later)

/-- The node becomes READY; a LAUNCH enters its ready queue (R280). -/
def makeReady (s : State) (ctx e : Nat) (n : Node) : State :=
  let s := setNode s ctx e { n with st := .ready, c := 0, readyAt := s.now }
  match n.recd with
  | some r =>
    if r.event then s
    else s.modCtx ctx (fun c => { c with ready := Store.insert c.ready r.readyq (enterReady s ctx e (readyQueue c r.readyq)) })
  | none => s

/-- An arm (R273, R274). The flag says whether the operation has been taken, or waits on a page fault. -/
def armEntry (s : State) (ctx e : Nat) : State × Bool :=
  match s.ctx ctx with
  | none => (s, true)
  | some c =>
    let n := nodeAt s ctx e
    if n.st != .idle then (schedStop s ctx e 2, true)
    else
      let va := c.spec.nodetab + BitVec.ofNat 64 (128 * e)
      match schedRead s ctx va 32 with
      | .error k => (schedCause s ctx e k va, !causeParks k)
      | .ok (s, ws) =>
        match parseRecord c.spec.ncount ws with
        | none => (schedStop s ctx e 1, true)
        | some r =>
          let comp := match rawTrans s ctx va.toNat with | some t => pteCmp t.pte | none => 0
          let k := r.pred - 1
          let n' : Node := { Node.idle with recd := some r, comp := comp }
          if n.p ≥ k then (makeReady s ctx e { n' with p := n.p - k }, true)
          else (setNode s ctx e { n' with st := .waiting, c := k - n.p }, true)

/-- A decrement by n (R274). -/
def decEntry (s : State) (ctx e n : Nat) : State :=
  let x := nodeAt s ctx e
  let y : Node :=
    if x.st == .waiting then
      if n ≥ x.c then { x with st := .ready, p := n - x.c } else { x with c := x.c - n }
    else { x with p := x.p + n }
  let s := if x.st == .waiting && decide (n ≥ x.c) then makeReady s ctx e y else setNode s ctx e y
  if y.p > 65535 then schedStop s ctx e 3 else s

-- ## releases (R275, R276)

/-- Who posted. -/
def postTid (p : Post) : Nat := match p with | .arm t _ => t | .dec t _ _ => t

/-- The first post of a kind that no earlier post of its team precedes (R276). -/
def findPost (ps : List Post) (f : Post → Bool) : Option Nat :=
  (List.range ps.length).find? (fun i =>
    match ps[i]? with
    | some p => f p && (postTid p == hostPost || (ps.take i).all (fun q => postTid q != postTid p))
    | none => false)

/-- The context takes scheduler operations: it runs, or the operation comes from the host, and it has not halted. -/
def schedOpen (s : State) (ctx : Nat) : Bool := match s.ctx ctx with | some c => c.halt.isNone | none => false

/-- ENTRY_ARM (R273, R274, R276): an arm that a team, or the host's window, has posted reaches the scheduler. -/
def execEntryArm (ctx entry : Nat) (s : State) : Host.Outcome State Fault Refusal :=
  let ps := ((s.ctx ctx).map (·.posts)).getD []
  match findPost ps (fun p => match p with
      | .arm t e => e == entry && (t == hostPost || ctxActive s ctx) | .dec _ _ _ => false) with
  | none => .next s
  | some i =>
    if !schedOpen s ctx then .next s
    else
      let (s, taken) := armEntry s ctx entry
      .next (if taken then s.modCtx ctx (fun c => { c with posts := c.posts.eraseIdx i }) else s)

/-- ENTRY_DECREMENT (R274, R276): a decrement that a team has posted reaches the scheduler. -/
def execEntryDecrement (ctx entry n : Nat) (s : State) : Host.Outcome State Fault Refusal :=
  let ps := ((s.ctx ctx).map (·.posts)).getD []
  match findPost ps (fun p => match p with | .dec _ e k => e == entry && k == n | .arm _ _ => false) with
  | none => .next s
  | some i =>
    if !ctxActive s ctx then .next s
    else .next (decEntry (s.modCtx ctx (fun c => { c with posts := c.posts.eraseIdx i })) ctx entry n)

-- ## the policy table (R280)

/-- Read the policy table; it must lie on pages of compartment 0 (R272). While it cannot be read no queue is
enabled. -/
def readPolicy (s : State) (ctx : Nat) : State :=
  match s.ctx ctx with
  | none => s
  | some c =>
    let s := s.modCtx ctx (fun c => { c with policy := [] })
    match rawTrans s ctx c.spec.poltab.toNat with
    | some t =>
      if pteCmp t.pte != 0 then haltContext s ⟨ctx, .protection, 4, 0, 0, c.spec.poltab⟩
      else (match schedRead s ctx c.spec.poltab 16 with
        | .error k => schedCause s ctx 0 k c.spec.poltab
        | .ok (s, ws) => s.modCtx ctx (fun c => { c with policy := ws }))
    | none =>
      match schedRead s ctx c.spec.poltab 16 with
      | .error k => schedCause s ctx 0 k c.spec.poltab
      | .ok (s, ws) => s.modCtx ctx (fun c => { c with policy := ws })

-- ## opening nodes (R280, R281)

/-- The running context of a partition. -/
def runningCtx (s : State) (part : Nat) : Option Nat :=
  (s.ctxs.find? (fun e => decide (e.1 < 16) && e.2.part == part && e.2.running && e.2.halt.isNone)).map (·.1)

/-- Weight and priority of a queue; a word with a reserved bit counts as weight 0 (R280). -/
def queueWeight (c : Context) (q : Nat) : Nat :=
  let w := (c.policy.getD q 0).toNat
  if field w 31 24 != 0 || field w 15 4 != 0 then 0 else field w 23 16
def queuePrio (c : Context) (q : Nat) : Nat := field (c.policy.getD q 0).toNat 3 0

/-- The queue that opens the next node, and its priority and use in this turn (R281). -/
def nextQueue (c : Context) : Option (Nat × Nat × Nat) :=
  let live := (List.range 16).filter (fun q => !(readyQueue c q).isEmpty && decide (queueWeight c q ≠ 0))
  match minBy (queuePrio c) live with
  | none => none
  | some best =>
    let prio := queuePrio c best
    let qs := live.filter (fun q => queuePrio c q == prio)
    let pass (q0 : Option Nat) : Option Nat :=
      match q0 with
      | some q => (match qs.find? (fun x => decide (q < x)) with | some x => some x | none => qs.head?)
      | none => qs.head?
    match Store.find c.turns prio with
    | some (q, used) =>
      if qs.contains q && decide (used < queueWeight c q) then some (q, prio, used + 1)
      else (pass (some q)).map (fun x => (x, prio, 1))
    | none => (pass none).map (fun x => (x, prio, 1))

/-- NODE_OPEN (R281): the head node of the next queue becomes ACTIVE, while fewer than 8 are open. A policy table that
a page fault has kept from being read is read first. -/
def execNodeOpen (part : Nat) (s : State) : Host.Outcome State Fault Refusal :=
  match (runningCtx s part).bind (fun k => (s.ctx k).map (fun c => (k, c))) with
  | none => .next s
  | some (k, c) =>
    if c.policy.isEmpty then .next (if c.schedFault.isNone then readPolicy s k else s)
    else if c.opens.length ≥ 8 then .next s
    else match nextQueue c with
      | none => .next s
      | some (q, prio, used) =>
        match readyQueue c q with
        | [] => .next s
        | e :: rest =>
          let s := s.modCtx k (fun c => { c with
            ready := Store.insert c.ready q rest, turns := Store.insert c.turns prio (q, used), opens := c.opens ++ [e] })
          .next (setNode s k e { nodeAt s k e with st := .active })

-- ## which train a drove fits on (R282)

/-- Trains of a partition, in the order of their partition train indices (R282). -/
def partTrains (p : Partition) : List Nat := p.owned ++ p.borrowed

/-- The train may take droves: it is there, and not being reclaimed. -/
def trainOpen (s : State) (train : Nat) : Bool := !s.absentTrains.contains train && !s.reclaims.any (·.train == train)

/-- Team slots of a coach that no placed team of its running context holds, ascending (R45, R282). -/
def freeSlots (s : State) (coach : Nat) : List Nat :=
  let used := (s.teams.filter (fun e => e.2.coach == coach && (e.2.running || waitsToResume s e.2))).map (·.2.slot)
  (List.range Config.teamSlots).filter (fun j => !used.contains j)

/-- No drove that lives, of whatever context, holds the item queues of a train (R49, R282); a context that has halted runs no
more. -/
def queuesFree (s : State) (train : Nat) : Bool :=
  !s.droves.any (fun e => e.2.iq && e.2.train == some train && ((s.ctx e.2.ctx).map (fun c => c.halt.isNone)).getD false)

/-- Indices of the teams at a coach position (R45). -/
def teamsAt (teams pos : Nat) : List Nat := (List.range teams).filter (fun t => t % 8 == pos)

/-- A new drove of a node fits on a train (R282). -/
def newFits (s : State) (train : Nat) (r : NodeRec) : Bool :=
  trainOpen s train && (!r.iq || queuesFree s train) &&
  (r.common == 0 || (freeRun s (8 * train) (1536 * r.common)).isSome) &&
  (List.range 8).all (fun pos =>
    let n := (teamsAt r.teams pos).length
    n == 0 || (!(s.coach (8 * train + pos)).failed && decide (n ≤ (freeSlots s (8 * train + pos)).length) &&
      decide (n * (r.w / 32) ≤ availableLines s (8 * train + pos))))

/-- Teams of a drove that have not retired. -/
def droveTeams (s : State) (d : Drove) : List (Nat × Team) :=
  d.teams.filterMap (fun tid => (s.team tid).map (fun t => (tid, t)))

/-- Give the handles of a drove free places on a train's coaches, one after another; their data comes along (log 23). -/
def moveHandles (train : Nat) (did : Nat) : State → List (Nat × Handle) → Option State
  | s, [] => some s
  | s, (n, h) :: r =>
    let coach := 8 * train + h.coach % 8
    match freeRun s coach h.size with
    | none => none
    | some b =>
      let h' : Handle := { h with coach := coach, base := b, holder := 8 * train + h.holder % 8 }
      moveHandles train did (s.modDrove did (fun d => { d with handles := Store.insert d.handles n h' })) r

/-- A requeued drove with its handles on a train, if it fits there: every team's own slot, the lines it held, the
handles' room, the item queues (R113, R282). -/
def requeuedFits (s : State) (did train : Nat) : Option State :=
  match s.drove did with
  | none => none
  | some d =>
    let ts := droveTeams s d
    let posOk (pos : Nat) : Bool :=
      let here := ts.filter (fun e => e.2.teamId % 8 == pos)
      let coach := 8 * train + pos
      here.isEmpty || (!(s.coach coach).failed && here.all (fun e => (freeSlots s coach).contains e.2.slot) &&
        decide ((here.flatMap (fun e => heldLines e.2)).length ≤ availableBut s coach (here.map (·.1))))
    if trainOpen s train && (!d.iq || queuesFree s train) && (List.range 8).all posOk then
      moveHandles train did (s.modDrove did (fun d => { d with train := some train, handles := [] })) d.handles
    else none

-- ## the queue image (R50)

/-- Write the queue image of a drove. -/
def writeQueues (s : State) (did : Nat) : Except (Cause × Nat) State :=
  match s.drove did with
  | none => .ok s
  | some d =>
    if !d.iq then .ok s
    else
      let comp := ((droveTeams s d).head?.map (fun e => e.2.comp)).getD 0
      let base := (((s.ctx d.ctx).map (fun c => c.spec.qsave.toNat)).getD 0) + 2 ^ 20 * d.k
      let q (i : Nat) : Nat × List Word := (Store.find d.queues i).getD (0, [])
      let head : List Word := (List.range 32).flatMap (fun i =>
        [BitVec.ofNat 32 (q i).1, BitVec.ofNat 32 (q i).2.length, 0, 0]) ++ zeros 896
      let put (acc : Except (Cause × Nat) State) (va : Nat) (ws : List Word) : Except (Cause × Nat) State :=
        match acc with | .error c => .error c | .ok s => hwWriteWords s d.ctx comp 160 va ws
      (List.range 32).foldl (fun acc i =>
        let h := (q i).1
        let xs := (q i).2
        let area := base + 4096 + 16384 * i
        put (put acc (area + 4 * h) (xs.take (4096 - h))) area (xs.drop (4096 - h))) (put (.ok s) base head)

/-- n words from an address, as the hardware reads its images. -/
def hwReadWords (s : State) (ctx comp va n : Nat) : Except (Cause × Nat) (State × List Word) :=
  if n == 0 then .ok (s, [])
  else
    let first := va / 128
    match hwReadLines s ctx comp ((va + 4 * n - 1) / 128 - first + 1) (128 * first) with
    | .error c => .error c
    | .ok (s, ws) => .ok (s, (ws.drop (va % 128 / 4)).take n)

/-- Read the queue image back (R50). -/
def readQueues (s : State) (did : Nat) : Except (Cause × Nat) State :=
  match s.drove did with
  | none => .ok s
  | some d =>
    if !d.iq then .ok s
    else
      let comp := ((droveTeams s d).head?.map (fun e => e.2.comp)).getD 0
      let base := (((s.ctx d.ctx).map (fun c => c.spec.qsave.toNat)).getD 0) + 2 ^ 20 * d.k
      match hwReadWords s d.ctx comp base 128 with
      | .error c => .error c
      | .ok (s, head) =>
        (List.range 32).foldl (fun acc i =>
          match acc with
          | .error c => .error c
          | .ok s =>
            let h := field (head.getD (4 * i) 0).toNat 11 0
            let n := min (field (head.getD (4 * i + 1) 0).toNat 12 0) 4096
            let area := base + 4096 + 16384 * i
            let n1 := min n (4096 - h)
            match hwReadWords s d.ctx comp (area + 4 * h) n1 with
            | .error c => .error c
            | .ok (s, a) =>
              match hwReadWords s d.ctx comp area (n - n1) with
              | .error c => .error c
              | .ok (s, b) =>
                let qs (d : Drove) := if n == 0 && h == 0 then Store.erase d.queues i else Store.insert d.queues i (h, a ++ b)
                .ok (s.modDrove did (fun d => { d with queues := qs d })))
          (.ok s)

-- ## pre-emption of a drove's teams (R69, R113 to R115, R304)

/-- Tile pins of a team's shares are given up; what was fetched is fetched again (R213, R221). -/
def unpinTeam (s : State) (tid : Nat) : State :=
  match s.team tid with
  | none => s
  | some t =>
    let s := ((s.coach t.coach).tensor.filter (·.tid == tid)).foldl (fun s h => unpinTiles s (s.asid t.ctx) h.pins) s
    s.modCoach t.coach (fun k => { k with tensor := k.tensor.map (fun h =>
      if h.tid == tid then { h with fetched := 0, pins := [], eaten := [] } else h) })

/-- Lines of a team that stops: HELD ones are EVICTABLE, but for those with a write in flight; FILLING ones still arrive
(R115). Lines granted to an XACQ whose clearing is not done are given back (log 85). -/
def stoppedLines (t : Team) (granted : Bool) (now : Nat) : List RegLine :=
  (t.lines.filter (fun l => !(granted && lineBlock t.m l.line &&& t.pend != 0))).map (fun l =>
    if l.st == .held && !t.pending.any (pendingOnLine t l.line) then { l with st := .evictable, stamp := now } else l)

/-- The state block and the split records of a team that has stopped are written as a set (R112): its frame is clean. A page
fault leaves it dirty, to be written when it is evicted; any other cause halts the context (R110). -/
def saveFrame (s : State) (tid : Nat) : State :=
  match s.team tid with
  | none => s
  | some t =>
    match t.frame with
    | .evictable c true stamp =>
      (match writeFrame s tid t with
       | .ok s => s.modTeam tid (fun t => { t with frame := .evictable c false stamp })
       | .error (k, va) => blockedState s (.cause tid k va))
    | _ => s

/-- A team that stops: its lines and its state frame are EVICTABLE, it leaves the acquire queue, no split of it is demoted
any longer, and its split records are written (R107, R112 to R115, R287). -/
def stopTeam (s : State) (tid : Nat) : State :=
  match s.team tid with
  | none => s
  | some t =>
    if !t.running then s
    else
      let granted := t.started && t.clearing && t.pend != 0
      let s := unpinTeam s tid
      let s := s.setTeam tid { t with
        running := false
        age := 0
        clearing := t.clearing && !granted
        frame := .evictable t.coach true s.now
        lines := stoppedLines t granted s.now
        splits := t.splits.map (fun x => { undemote t.issues x with spin := none }) }
      saveFrame (s.modCoach t.coach (fun k => { k with acquire := k.acquire.filter (fun a => a.1 != tid) })) tid

/-- Save the item queues of a drove (R50). A page fault leaves them with the drove, to be written when it is resolved; any
other cause halts the context (R306). -/
def saveQueues (s : State) (did : Nat) : State :=
  match s.drove did with
  | none => s
  | some d =>
    match writeQueues s did with
    | .ok s => s.modDrove did (fun d => { d with unsaved := false })
    | .error (c, va) =>
      if causeParks c then s.modDrove did (fun d => { d with unsaved := true })
      else haltContext s ⟨d.ctx, c, 4, d.node, 0, BitVec.ofNat 64 va⟩

/-- Pre-empt every team of a drove at instruction boundaries (R304). -/
def stopDrove (s : State) (did : Nat) : State :=
  match s.drove did with
  | none => s
  | some d =>
    if !d.teams.any (fun tid => ((s.team tid).map (·.running)).getD false) then s
    else (saveQueues (d.teams.foldl stopTeam s) did).modDrove did (fun d => { d with stalled := none })

-- ## state frames (R114)

/-- An EVICTABLE state frame of a team is written back when it is dirty, with the split records, and is in the image only; an
advisory that comes later is kept until the frame is back (R296). -/
def evictFrame (s : State) (tid : Nat) : Except (Cause × Nat) State :=
  match s.team tid with
  | none => .ok s
  | some t =>
    let out (s : State) : State := s.modTeam tid (fun t => { t with frame := .image, events := 0, advisory := 0 })
    match t.frame with
    | .evictable _ true _ => (match writeFrame s tid t with | .ok s => .ok (out s) | .error e => .error e)
    | .evictable _ false _ => .ok (out s)
    | _ => .ok s

/-- The other teams whose EVICTABLE frames a slot holds, with the time each was left there. -/
def otherFrames (s : State) (coach slot tid : Nat) : List (Nat × Nat) :=
  s.teams.filterMap (fun e =>
    match e.2.frame with
    | .evictable c _ stamp => if e.1 != tid && e.2.slot == slot && c == coach then some (e.1, stamp) else none
    | _ => none)

/-- A slot has two frames: of the EVICTABLE ones of other teams at most one stays, and the oldest goes (R114, R282). -/
def frameRoom (coach slot tid : Nat) : Nat → State → Except Blocked State
  | 0, s => .ok s
  | n + 1, s =>
    let others := otherFrames s coach slot tid
    if others.length ≤ 1 then .ok s
    else match minBy (·.2) others with
      | none => .ok s
      | some (o, _) =>
        match evictFrame s o with
        | .error (c, va) => .error (.cause o c va)
        | .ok s => frameRoom coach slot tid n s

/-- The frame of a team is in use again: on the coach where it was left with no traffic, else from the image (R114). -/
def takeFrame (s : State) (tid coach : Nat) : Except (Cause × Nat) State :=
  match s.team tid with
  | none => .ok s
  | some t =>
    match t.frame with
    | .inUse => .ok s
    | .image => loadFrame s tid
    | .evictable c _ _ =>
      if c == coach then .ok (s.setTeam tid { t with frame := .inUse })
      else match evictFrame s tid with
        | .error e => .error e
        | .ok s => loadFrame s tid

-- ## resumption (R107, R113 to R115, R304)

/-- Register lines of a team that goes on, on a coach: those there are HELD again, the missing ones are FILLING, and what
another coach was still filling is not (R113 to R115). -/
def startLines (t : Team) (coach now : Nat) : List RegLine :=
  let here := t.lines.filter (fun l => (l.coach == coach || l.st != .filling) && (heldLines t).contains l.line)
  here.map (fun l => if l.coach == coach && l.st == .evictable then { l with st := .held } else l) ++
    ((heldLines t).filter (fun j => !here.any (fun l => l.line == j && l.coach == coach))).map (fun j =>
      RegLine.mk j coach .filling false now)

/-- The answers that came while the team was not running are written to their scalars (R402). -/
def Team.takeAnswers (t : Team) : Team :=
  let ws := t.splits.flatMap (·.waits)
  let t := ws.foldl (fun (t : Team) w => match w with | .answer d v => t.setS d v | _ => t) t
  { t with splits := t.splits.map (fun x =>
      { x with waits := x.waits.filter (fun w => match w with | .answer _ _ => false | _ => true) }) }

/-- A team goes on, on a coach: its frame first, then its lines; a pending XACQ enters the queue again at its tail (R107),
and a base block not yet clear the clear engine (R118). -/
def startTeam (s : State) (tid coach ptrain : Nat) : Except Blocked State :=
  match s.team tid with
  | none => .ok s
  | some t0 =>
    match frameRoom coach t0.slot tid 16 s with
    | .error e => .error e
    | .ok s =>
      match takeFrame s tid coach with
      | .error (c, va) => .error (.cause tid c va)
      | .ok s =>
        match (s.team tid).map Team.takeAnswers with
        | none => .ok s
        | some t =>
          let s := s.setTeam tid { t with running := true, coach := coach, ptrain := ptrain, lines := startLines t coach s.now }
          let s := acquireRemoval s coach t.asid
          let s := if t.clearing then clearLater s tid coach else s
          if t.pend == 0 then .ok s
          else match t.splits.find? (fun x => x.waits.contains .xacq) with
            | some x => .ok (s.modCoach coach (fun k => { k with acquire := k.acquire ++ [(tid, blockLines t t.pend, x.uid)] }))
            | none => .ok s

/-- Shares of a drove's teams follow them to the coaches of another train (R221). -/
def moveShares (s : State) (tid coach : Nat) : State :=
  let shares := s.coaches.flatMap (fun e => if e.1 == coach then [] else e.2.tensor.filter (·.tid == tid))
  if shares.isEmpty then s
  else
    let s : State := { s with coaches := s.coaches.map (fun e =>
      if e.1 == coach then e else (e.1, { e.2 with tensor := e.2.tensor.filter (·.tid != tid) })) }
    s.modCoach coach (fun k => { k with tensor := k.tensor ++ shares })

-- ## placement (R43, R45, R46, R278, R281 to R283)

/-- The lowest n numbers that are not in use. -/
def lowestFree (used : List Nat) (n : Nat) : List Nat :=
  ((List.range (used.length + n)).filter (fun i => !used.contains i)).take n

/-- A team as its launch starts it (R42, R46, R118), in the compartment of its ENTRY page (R314). -/
def newTeam (s : State) (ctx did train ptrain slot image teamIdx comp : Nat) (e : Nat) (n : Node) (r : NodeRec) : Team :=
  let pos := teamIdx % 8
  let role := rolemapRole r.rolemap teamIdx
  let drove := n.placed
  { Team.blank with
    ctx := ctx, image := image, drove := did, coach := 8 * train + pos, slot := slot,
    comp := comp, role := role, w := r.w, teamId := teamIdx, droveId := drove,
    stage := if r.dps == 0 then 0 else drove / r.dps, droves := r.droves, teams := r.teams, node := e,
    asid := s.asid ctx, member := ctxMember s ctx, ptrain := ptrain, codeHi := r.entry.extractLsb' 32 32,
    allowed := roleBlocks role &&& r.regs,
    scalars := Store.put 0 (Store.put 0 [] 2 (r.args.extractLsb' 0 32)) 3 (r.args.extractLsb' 32 32),
    tvec := codeAligned r.tvec, seed := r.seed, splits := [Split.fresh 0 (r.entry.extractLsb' 0 32) (allLanes r.w)], nextUid := 1,
    clearing := true, started := false,
    lines := (List.range (r.w / 32)).map (fun j => ⟨j, 8 * train + pos, .held, true, s.now⟩) }

/-- Make room for a drove's lines on every coach it uses; the lines of its own teams stay. -/
def roomForDrove (s : State) (train : Nat) (keep : List Nat) (need : Nat → Nat) : Except Blocked State :=
  (List.range 8).foldl (fun acc pos =>
    match acc with
    | .error c => .error c
    | .ok s => makeRoom (8 * train + pos) (need pos) keep s) (.ok s)

/-- A free frame in the slots that a drove takes. -/
def framesForDrove (s : State) (slots : List (Nat × Nat × Nat)) : Except Blocked State :=
  slots.foldl (fun acc e =>
    match acc with
    | .error c => .error c
    | .ok s => frameRoom e.1 e.2.1 e.2.2 16 s) (.ok s)

/-- Place the next drove of a node on a train, all its teams at once (R45, R46, R282, R283). -/
def placeNew (s : State) (ctx e train ptrain comp : Nat) (n : Node) (r : NodeRec) : Except Blocked State :=
  let slotOf (t : Nat) : Nat := (freeSlots s (8 * train + t % 8)).getD (t / 8) 0
  let room : Except Blocked State := match roomForDrove s train [] (fun pos => (teamsAt r.teams pos).length * (r.w / 32)) with
    | .error c => .error c
    | .ok s => framesForDrove s ((List.range r.teams).map (fun t => (8 * train + t % 8, slotOf t, 2 ^ 18)))
  match room with
  | .error c => .error c
  | .ok s =>
    let used := ((s.ctx ctx).map (·.images)).getD []
    let images := lowestFree used r.teams
    let qs := ((s.ctx ctx).map (·.qsaves)).getD []
    let k := (lowestFree qs 1).getD 0 0
    let (did, s) := s.fresh
    let (seed, s) := s.fresh
    let handles := if r.common == 0 then []
      else [(0, Handle.mk (8 * train) ((freeRun s (8 * train) (1536 * r.common)).getD 0) (1536 * r.common) (8 * train) seed [])]
    let teams := (List.range r.teams).map (fun t =>
      (8192 * ctx + images.getD t 0, newTeam s ctx did train ptrain (slotOf t) (images.getD t 0) t comp e n r))
    let s := teams.foldl (fun s x => clearLater (acquireRemoval (s.setTeam x.1 x.2) x.2.coach x.2.asid) x.1 x.2.coach) s
    let drove : Drove :=
      { ctx := ctx, node := e, idx := n.placed, part := ((s.ctx ctx).map (·.part)).getD 0, train := some train,
        alive := r.teams, teams := teams.map (·.1), iq := r.iq, k := k, queues := [], handles := handles,
        stalled := none, started := true, unsaved := false }
    let s : State := { s with droves := Store.insert s.droves did drove }
    let s := s.modCtx ctx (fun c => { c with
      images := c.images ++ images
      qsaves := if r.iq then c.qsaves ++ [k] else c.qsaves
      opens := if n.placed + 1 == r.droves then c.opens.filter (· != e) else c.opens })
    .ok (setNode s ctx e { n with placed := n.placed + 1, wdog := if n.placed == 0 then s.now else n.wdog })

/-- The item queues come back from their image, which is written first when a page fault has kept it from being written
(R50). -/
def restoreQueues (s : State) (did : Nat) : Except (Cause × Nat) State :=
  match s.drove did with
  | none => .ok s
  | some d =>
    let back := if d.unsaved then writeQueues s did else .ok s
    match back with
    | .error e => .error e
    | .ok s => readQueues (s.modDrove did (fun d => { d with unsaved := false })) did

/-- The teams of a drove go on at a train (R50, R113 to R115): room for the lines they miss there, the item queues, then each
team and its shares. -/
def startDrove (s : State) (did train ptrain : Nat) : Except Blocked State :=
  match s.drove did with
  | none => .ok s
  | some d =>
    let ts := droveTeams s d
    let need (pos : Nat) : Nat := ((ts.filter (fun e => e.2.teamId % 8 == pos)).flatMap (fun e =>
      (heldLines e.2).filter (fun j => !e.2.lines.any (fun l => l.line == j && l.coach == 8 * train + pos)))).length
    match roomForDrove s train (ts.map (·.1)) need with
    | .error e => .error e
    | .ok s =>
      match restoreQueues s did with
      | .error (k, va) => .error (.cause ((ts.head?.map (·.1)).getD 0) k va)
      | .ok s =>
        let started := ts.foldl (fun acc e =>
          let coach := 8 * train + e.2.teamId % 8
          match acc with
          | .error c => .error c
          | .ok s => (match startTeam s e.1 coach ptrain with
            | .error c => .error c
            | .ok s => .ok (moveShares s e.1 coach))) (Except.ok s)
        match started with
        | .error c => .error c
        | .ok s => .ok (settleLatches s)

/-- The page fault that keeps a drove from going on is its first team's, until it is resolved. -/
def noteBlocked (s : State) (did : Nat) (e : Blocked) : State :=
  match e with
  | .noRoom => s
  | .cause _ c va =>
    if !causeParks c then blockedState s e
    else match (s.drove did).bind (fun d => (droveTeams s d).head?) with
      | some (tid, _) => s.modTeam tid (fun t => if t.fault.isSome then t else { t with fault := some (0, BitVec.ofNat 64 va) })
      | none => s

/-- A placed drove of a context that has started to run goes on at its train (R114, R115); on a page fault it waits, and tries
again. -/
def resumeDrove (s : State) (did : Nat) : State :=
  match s.drove did with
  | none => s
  | some d =>
    match d.train with
    | none => s
    | some train =>
      let ts := droveTeams s d
      if s.reclaims.any (·.train == train) || ts.all (fun e => e.2.running) then s
      else match startDrove s did train ((ts.head?.map (fun e => e.2.ptrain)).getD 0) with
        | .ok s => s
        | .error e => noteBlocked s did e

/-- Placed droves of a context. -/
def placedDroves (s : State) (ctx : Nat) : List Nat :=
  (s.droves.filter (fun e => e.2.ctx == ctx && e.2.train.isSome)).map (·.1)

/-- Place a requeued drove (R281, R288): none where it does not fit. -/
def placeRequeued (s : State) (ctx did train ptrain : Nat) : Option (Except Blocked State) :=
  (requeuedFits s did train).map (fun s =>
    match startDrove s did train ptrain with
    | .error e => .error e
    | .ok s => .ok (s.modCtx ctx (fun c => { c with requeue := c.requeue.filter (· != did) })))

/-- Trains with their partition train indices (R282). -/
def Partition.zipTrains (p : Partition) : List (Nat × Nat) := (partTrains p).zipIdx
/-- A train that another partition has borrowed (R289). -/
def lentOut (s : State) (part train : Nat) : Bool := s.parts.any (fun e => e.1 != part && e.2.borrowed.contains train)

/-- Trains of the context's partition with their indices; those lent away are not there. -/
def indexedTrains (s : State) (ctx : Nat) : List (Nat × Nat) :=
  match s.ctx ctx with
  | none => []
  | some c =>
    match s.part c.part with
    | some p => p.zipTrains.filter (fun e => !lentOut s c.part e.1)
    | none => []

/-- A requeued drove on the first train where it fits (R281, R282). -/
def requeuedPlace (s : State) (ctx did : Nat) : Option (Except Blocked State) :=
  (indexedTrains s ctx).findSome? (fun e => placeRequeued s ctx did e.1 e.2)

/-- The first requeued drove that fits somewhere, placed (R281); one whose images a page fault keeps away is passed over, and
any other cause halts the context (R306). -/
def tryRequeued (s : State) (ctx : Nat) : List Nat → Option State
  | [] => none
  | did :: rest =>
    match requeuedPlace s ctx did with
    | some (.ok s') => some s'
    | some (.error (.cause tid c va)) =>
      if causeParks c then tryRequeued s ctx rest else some (blockedState s (.cause tid c va))
    | _ => tryRequeued s ctx rest

/-- The page faults that keep requeued droves from being placed. -/
def noteRequeued (s : State) (ctx : Nat) (ds : List Nat) : State :=
  ds.foldl (fun s did => match requeuedPlace s ctx did with | some (.error e) => noteBlocked s did e | _ => s) s

/-- The compartment of a launch's ENTRY page (R314). An address that no page can have keeps the node's: the first fetch then
raises its cause. -/
def entryPage (s : State) (ctx : Nat) (n : Node) (r : NodeRec) : Except Cause Nat :=
  if !canonical r.entry || inWindow r.entry then .ok n.comp
  else match rawTrans s ctx r.entry.toNat with
    | some t => .ok (pteCmp t.pte)
    | none => .error .pageNotPresent

/-- The ENTRY page lies in the node's compartment, or the launch's first placement halts (R272); the instruction cache
forgets the context's code, so that the launch runs what is in memory now (R72). -/
def firstPlacement (s : State) (ctx e comp : Nat) (n : Node) (r : NodeRec) : State × Node × Bool :=
  if n.entryComp.isSome then (s, n, true)
  else if comp != n.comp then
    (haltContext s ⟨ctx, .gate, 4, e, gateInfo s none, r.entry⟩, n, false)
  else
    let s : State := { s with icache := s.icache.filter (fun l => l.asid != s.asid ctx) }
    (s, { n with entryComp := some comp }, true)

/-- The next drove of the first open node that fits somewhere, placed (R281). While a page fault keeps its ENTRY page away the
scheduler waits for it, and later nodes go on (R258, R281). -/
def tryOpen (s : State) (ctx : Nat) : List Nat → State
  | [] => s
  | e :: rest =>
    let n := nodeAt s ctx e
    match n.recd with
    | none => tryOpen s ctx rest
    | some r =>
      match (indexedTrains s ctx).find? (fun x => newFits s x.1 r) with
      | none => tryOpen s ctx rest
      | some (train, ptrain) =>
        match entryPage s ctx n r with
        | .error c => tryOpen (schedCause s ctx e c r.entry) ctx rest
        | .ok comp =>
          match firstPlacement s ctx e comp n r with
          | (s, _, false) => s
          | (s, n, true) =>
            match placeNew s ctx e train ptrain comp n r with
            | .ok s => s
            | .error b => blockedState s b

/-- DROVE_PLACEMENT (R281): the droves that still wait at their trains, the requeue list, then the open nodes in order. -/
def execDrovePlacement (part : Nat) (s : State) : Host.Outcome State Fault Refusal :=
  match runningCtx s part with
  | none => .next s
  | some k =>
    let s := (placedDroves s k).foldl resumeDrove s
    match s.ctx k with
    | none => .next s
    | some c =>
      match tryRequeued s k c.requeue with
      | some s' => .next s'
      | none => .next (tryOpen (noteRequeued s k c.requeue) k c.opens)

-- ## retirement and completion (R47, R48, R277)

/-- Everything a RETIRING team waits for has happened (R47). -/
def mayRetire (s : State) (tid : Nat) (t : Team) : Bool :=
  t.retiring && t.running && !t.clearing && t.pending.isEmpty && s.posted.all (fun p => p.tid != tid) &&
  t.tags.all (·.done) && t.latch.isNone && t.batches.all (fun b => b.left == 0) &&
  (s.coach t.coach).tensor.all (fun h => h.tid != tid)

/-- A drove whose teams have all retired releases its handles, barrier words and queues (R48). -/
def retireDrove (s : State) (did : Nat) (d : Drove) : State :=
  let n := nodeAt s d.ctx d.node
  let s := setNode s d.ctx d.node { n with retired := n.retired + 1 }
  let s := s.modCtx d.ctx (fun c => { c with qsaves := if d.iq then c.qsaves.filter (· != d.k) else c.qsaves })
  { s with droves := Store.erase s.droves did }

/-- TEAM_RETIRE (R47, R48): the team's written lines of HOST and CXL pages go back first (R277); its slot, lines and
image index are free, and what its image holds of its registers is free (R108). -/
def execTeamRetire (tid : Nat) (s : State) : Host.Outcome State Fault Refusal :=
  match s.team tid with
  | none => .next s
  | some t =>
    if !mayRetire s tid t then .next s
    else
      let s := releaseLines (t.sysLines.foldl (fun s l => lineToTier s l.1 l.2) s) t (heldLines t)
      let s : State := { s with teams := Store.erase s.teams tid }
      let s := s.modCtx t.ctx (fun c => { c with images := c.images.filter (· != t.image) })
      match s.drove t.drove with
      | none => .next s
      | some d =>
        let d' : Drove := { d with alive := d.alive - 1 }
        if d'.alive == 0 then .next (retireDrove s t.drove d')
        else .next { s with droves := Store.insert s.droves t.drove d' }

/-- Step 2 of R277: the completion word, in the node's compartment (R272). The flag says whether the steps go on: a store to
another member has been acknowledged first. -/
def storeCompletion (s : State) (ctx e : Nat) (n : Node) (r : NodeRec) : State × Bool :=
  if r.cwva == 0 then (s, true)
  else if n.cwSent then (s, !s.remote.any (fun x => x.tid == schedTid ctx e))
  else
    let away := match route s ctx r.cwva .nc with | .away _ => true | _ => false
    let other := match route s ctx r.cwva .nc with
      | .here a _ _ => (match rawTrans s ctx a with | some t => pteCmp t.pte != n.comp | none => false)
      | _ => false
    if other then (haltContext s ⟨ctx, .gate, 4, e, gateInfo s none, r.cwva⟩, false)
    else match schedAccess s ctx e r.cwva 8 .nc (.write r.cwval) with
      | .ok (s, _) => if away then (setNode s ctx e { n with cwSent := true }, false) else (s, true)
      | .error k => (schedCause s ctx e k r.cwva, false)

/-- The node is to complete: an EVENT that is READY, a LAUNCH whose last drove has retired (R277). -/
def nodeDone (n : Node) : Bool :=
  match n.recd with
  | some r => if r.event then n.st == .ready else n.st == .active && n.placed == r.droves && n.retired == r.droves
  | none => false

/-- NODE_COMPLETION (R277): the completion word, the successors in order, the interrupt, IDLE. -/
def execNodeCompletion (ctx entry : Nat) (s : State) : Host.Outcome State Fault Refusal :=
  let n := nodeAt s ctx entry
  match n.recd with
  | none => .next s
  | some r =>
    if !nodeDone n || !ctxActive s ctx then .next s
    else
      let (s, ok) := storeCompletion s ctx entry n r
      if !ok then .next s
      else
        let s := r.succ.foldl (fun s e => decEntry s ctx e 1) s
        let s := if r.intr then s.interrupt ctx else s
        .next (setNode s ctx entry { Node.idle with p := (nodeAt s ctx entry).p })

-- ## the watchdog (R68)

/-- WATCHDOG (R68): the count of a launch has reached its budget before its last drove has retired; the whole context
halts. -/
def execWatchdog (ctx entry : Nat) (s : State) : Host.Outcome State Fault Refusal :=
  let n := nodeAt s ctx entry
  match n.recd with
  | none => .next s
  | some r =>
    if n.st != .active || r.wdog == 0 || n.placed == 0 || n.retired == r.droves || !ctxActive s ctx || s.now < n.wdog + 4096 * r.wdog then .next s
    else
      .next (haltContext (s.modCtx ctx (fun c => { c with schedStop := some (entry, 4) }))
        ⟨ctx, .watchdog, 4, entry, BitVec.ofNat 32 entry, 0⟩)

-- ## eviction (R69, R288)

/-- Partition train index of a train of a context's partition (R282). -/
def trainIndex (s : State) (ctx train : Nat) : Nat :=
  (((s.ctxPart ctx).map partTrains).getD []).findIdx (· == train)

/-- The droves of a context stalled for 95,000 cycles (R288). -/
def evictable (s : State) (ctx : Nat) : List (Nat × Drove) :=
  s.droves.filter (fun e => e.2.ctx == ctx && e.2.train.isSome && droveStalled s e.2 &&
    (match e.2.stalled with | some c => decide (c + 95000 ≤ s.now) | none => false))

/-- Pre-empt a drove and free its slots and lines: it has no train (R288). -/
def evictDrove (s : State) (did : Nat) : State :=
  settleLatches ((stopDrove s did).modDrove did (fun d => { d with train := none }))

/-- DROVE_EVICTION (R288): the drove stalled longest gives way to the oldest requeued drove that then fits, which is
placed at once; it joins the tail of the requeue list. Ties go to the lowest partition train index (R282). -/
def execDroveEviction (drove : Nat) (s : State) : Host.Outcome State Fault Refusal :=
  match s.drove drove with
  | none => .next s
  | some d =>
    match s.ctx d.ctx with
    | none => .next s
    | some c =>
      let waiting := c.requeue
      if !ctxActive s d.ctx || waiting.isEmpty || (tryRequeued s d.ctx waiting).isSome then .next s
      else
        let fits (e : Nat × Drove) : Option State := tryRequeued (evictDrove s e.1) d.ctx waiting
        let able := (evictable s d.ctx).filter (fun e => (fits e).isSome)
        match minBy (fun e => (e.2.stalled.getD 0) * 64 + trainIndex s d.ctx (e.2.train.getD 0)) able with
        | none => .next s
        | some e =>
          if e.1 != drove then .next s
          else match fits e with
            | none => .next s
            | some s' => .next (s'.modCtx d.ctx (fun c => { c with requeue := c.requeue ++ [drove] }))

end Sys2Proof.Machine
end

