-- ==== Sys2Proof/Machine/Switch.lean ====
section
/-! DEFINITION. Gang switches, context halts and their records, halts of other members, lent and reclaimed trains
(spec/12 R298 to R306; spec/11 R279, R289; spec/07 R200; spec/09 R246; spec/10 R261, R269; spec/15 R362). -/
namespace Sys2Proof.Machine

-- ## writing records (R301)

/-- Records written so far: team stop records and engine records counted, the VAs of those that are not written, whether one
stays so, and whether a page fault makes one wait. `only` names the records that are to be written, where not all are. -/
structure Records where
  s : State
  teams : Nat
  engines : Nat
  unwritten : List Nat
  lost : Bool
  waiting : Bool
  only : Option (List Nat)

/-- No record written yet. -/
def Records.start (s : State) : Records := ⟨s, 0, 0, [], false, false, none⟩

/-- Some 64 KiB page of a record has been given up by the memory manager (R301). -/
def gaveUp (s : State) (ctx va n : Nat) : Bool :=
  match (s.ctx ctx).bind (·.halt) with
  | some h => h.lost.any (fun p => decide (va / 65536 ≤ p) && decide (p ≤ (va + 4 * n - 1) / 65536) &&
      (rawTrans s ctx (65536 * p)).isNone)
  | none => false

/-- Write one record; `t` and `e` count it as a team stop record or an engine record. One that cannot be written keeps no other
from it. -/
def writeRecord (ctx comp t e va : Nat) (ws : List Word) (r : Records) : Records :=
  let failed (parks : Bool) : Records :=
    { r with unwritten := va :: r.unwritten, lost := r.lost || !parks, waiting := r.waiting || parks }
  if (r.only.map (fun l => !l.contains va)).getD false then r
  else if gaveUp r.s ctx va ws.length then failed false
  else match hwWriteWords r.s ctx comp (ws.length / 32 + 2) va ws with
    | .ok s => { r with s := s, teams := r.teams + t, engines := r.engines + e }
    | .error (c, _) => failed (causeParks c)

-- ## engine records (R303)

/-- A share entry. -/
def shareEntry (h : Share) : List Word :=
  [h.mm.word, h.batch] ++ pairWords h.mm.a ++ pairWords h.mm.b ++ [h.mm.tsa, h.mm.tsb, h.mm.tsca, h.mm.tscb] ++
  [BitVec.ofNat 32 h.mm.modeHi, BitVec.ofNat 32 (h.tid % 8192),
   BitVec.ofNat 32 (h.mm.rank % 8 + 256 * h.steps + 2 ^ 31), 0, 0, 0]

/-- The tensor-core record of a coach for a context. -/
def tensorRecord (s : State) (ctx coach : Nat) : List Word :=
  padWords 128 ((((s.coach coach).tensor.filter (fun h => h.tid / 8192 == ctx)).take 8).flatMap shareEntry)

/-- The function byte of a copy command: B of its encoding; for DIGEST the spec gives none, a free value (log 6). -/
def fnByte (f : CopyFn) : Word :=
  match f with
  | .copy => 0 | .copy2 => 1 | .fill => 2 | .gath => 3 | .gate => 4 | .digest => (Config.freeByte 9 0).setWidth 32

/-- An entry of a dray queue image. -/
def queueEntry (c : CopyCmd) : List Word :=
  padWords 8 (c.blk.take 8) ++ [fnByte c.fn, c.tag] ++ pairWords (BitVec.ofNat 64 c.off)

/-- The queue image of a dray for a context. -/
def drayImage (s : State) (ctx d : Nat) : List Word :=
  (List.range 16).flatMap (fun q =>
    padWords 768 (((((s.dray d).queue q).filter (fun c => c.ctx == ctx)).take 64).flatMap queueEntry))

/-- The collective of a die for a context that its record names: the first that has not ended. -/
def tandemColl (s : State) (ctx die : Nat) : Option CollCmd := s.colls.find? (fun c => c.ctx == ctx && c.die == die)

/-- The tandem record of a die for a context, frozen, with the offset written in the receive buffer. -/
def tandemRecord (s : State) (ctx die : Nat) : List Word :=
  match tandemColl s ctx die with
  | none => zeros 32
  | some c =>
    padWords 32 (pairWords c.send ++ pairWords c.recv ++
      [BitVec.ofNat 32 c.desc.len, 0, 0, BitVec.ofNat 32 (16 * c.desc.ty + c.desc.op), c.tag, BitVec.ofNat 32 c.k] ++
      pairWords (BitVec.ofNat 64 c.wrote) ++ [2])

/-- The per-peer numbers at the start of the receive region (R269, R303). -/
def peerWords (s : State) (ctx : Nat) : List Word := (List.range (ctxMembers s ctx)).flatMap (peerPair s ctx)

/-- Trains on which the context may have teams. -/
def ctxTrains (s : State) (ctx : Nat) : List Nat := (indexedTrains s ctx).map (·.1)

/-- Write the tensor-core records, dray queue images, tandem records and per-peer numbers of a context (R303,
R304). -/
def engineRecords (ctx : Nat) (r : Records) : Records :=
  match r.s.ctx ctx with
  | none => r
  | some c =>
    let base := c.spec.stoparea.toNat
    let trains := ctxTrains r.s ctx
    let coaches := trains.flatMap (fun t => (List.range 8).map (fun i => 8 * t + i))
    let r := coaches.foldl (fun r k =>
      writeRecord ctx ownKey 0 1 (base + 0x1000 + 512 * k) (tensorRecord r.s ctx k) r) r
    let r := (trains.map (· / 2)).eraseDups.foldl (fun r d =>
      writeRecord ctx ownKey 0 1 (base + 0x80000 + 49152 * d) (drayImage r.s ctx d) r) r
    let r := (List.range 4).foldl (fun r n =>
      writeRecord ctx ownKey 0 1 (base + 0x280000 + 128 * n) (tandemRecord r.s ctx n) r) r
    if c.spec.rxlen == 0 then r else writeRecord ctx ownKey 0 0 c.spec.rxreg.toNat (peerWords r.s ctx) r

-- ## engine records read back (R301, R304)

/-- A share with what its entry holds. -/
def Share.setEntry (h : Share) (ws : List Word) : Share :=
  let pair (i : Nat) : DWord := ws.getD (i + 1) 0 ++ ws.getD i 0
  if !(ws.getD 12 0).getLsbD 31 then h
  else { h with
    batch := ws.getD 1 0
    steps := field (ws.getD 12 0).toNat 9 8
    mm := { h.mm with
      word := ws.getD 0 0, a := pair 2, b := pair 4, tsa := ws.getD 6 0, tsb := ws.getD 7 0, tsca := ws.getD 8 0,
      tscb := ws.getD 9 0, modeHi := field (ws.getD 10 0).toNat 15 0, rank := field (ws.getD 12 0).toNat 2 0 } }

/-- The shares of a context in a queue, each with its entry. -/
def setShares (ctx : Nat) (ws : List Word) : Nat → List Share → List Share
  | _, [] => []
  | i, h :: r =>
    if h.tid / 8192 == ctx && decide (i < 8) then h.setEntry ((ws.drop (16 * i)).take 16) :: setShares ctx ws (i + 1) r
    else h :: setShares ctx ws i r

/-- The function of a command image; DIGEST has no code of its own (log 6). -/
def fnOf (old : CopyFn) (w : Word) : CopyFn :=
  if old == .digest then .digest
  else match field w.toNat 7 0 with | 0 => .copy | 1 => .copy2 | 2 => .fill | 3 => .gath | 4 => .gate | _ => old

/-- The commands of a context in a queue, each with its entry. -/
def setCommands (ctx : Nat) (ws : List Word) : Nat → List CopyCmd → List CopyCmd
  | _, [] => []
  | i, c :: r =>
    if c.ctx == ctx && decide (i < 64) then
      let e := (ws.drop (12 * i)).take 12
      { c with blk := e.take 8, fn := fnOf c.fn (e.getD 8 0), tag := e.getD 9 0, off := (e.getD 10 0).toNat + 2 ^ 32 * (e.getD 11 0).toNat } ::
        setCommands ctx ws (i + 1) r
    else c :: setCommands ctx ws i r

/-- A collective with what its record holds. -/
def CollCmd.setRecord (c : CollCmd) (ws : List Word) : CollCmd :=
  let pair (i : Nat) : DWord := ws.getD (i + 1) 0 ++ ws.getD i 0
  if (ws.getD 12 0) == 0 then c
  else { c with
    send := pair 0, recv := pair 2, tag := ws.getD 8 0, k := (ws.getD 9 0).toNat, wrote := (pair 10).toNat
    desc := { c.desc with len := (ws.getD 4 0).toNat, ty := field (ws.getD 7 0).toNat 7 4, op := field (ws.getD 7 0).toNat 3 0 } }

/-- Read words of a record and apply them; a record that was not written, or that a page fault or another cause keeps away,
leaves what the unit holds (log 49). -/
def readRecordAt (ctx record off n : Nat) (f : State → List Word → State) (s : State) : State :=
  if recordUnwritten s ctx record then s
  else match hwReadLines s ctx ownKey n (record + off) with
    | .ok (s, ws) => f s ws
    | .error _ => s

/-- The engine records of a context come back to its units (R301, R304). -/
def readEngines (s : State) (ctx : Nat) : State :=
  match s.ctx ctx with
  | none => s
  | some c =>
    let base := c.spec.stoparea.toNat
    let trains := ctxTrains s ctx
    let coaches := trains.flatMap (fun t => (List.range 8).map (fun i => 8 * t + i))
    let s := (coaches.filter (fun k => (s.coach k).tensor.any (fun h => h.tid / 8192 == ctx))).foldl (fun s k =>
      readRecordAt ctx (base + 0x1000 + 512 * k) 0 4 (fun s ws =>
        s.modCoach k (fun x => { x with tensor := setShares ctx ws 0 x.tensor })) s) s
    let s := (trains.map (· / 2)).eraseDups.foldl (fun s d =>
      (List.range 16).foldl (fun s q =>
        if ((s.dray d).queue q).any (fun x => x.ctx == ctx) then
          readRecordAt ctx (base + 0x80000 + 49152 * d) (3072 * q) 24 (fun s ws =>
            s.setQueue d q (setCommands ctx ws 0 ((s.dray d).queue q))) s
        else s) s) s
    let s := (List.range 4).foldl (fun s n =>
      match tandemColl s ctx n with
      | none => s
      | some x => readRecordAt ctx (base + 0x280000 + 128 * n) 0 1 (fun s ws => putColl s x (x.setRecord ws)) s) s
    if c.spec.rxlen == 0 then s
    else readRecordAt ctx c.spec.rxreg.toNat 0 ((8 * ctxMembers s ctx + 127) / 128) (fun s ws =>
      (List.range (ctxMembers s ctx)).foldl (fun s m =>
        setLink s { linkOf s ctx m with next := ws.getD (2 * m) 0, expect := ws.getD (2 * m + 1) 0 }) s) s

-- ## bank units (R246)

/-- Write the BKSAVE records of a context, each under the key of its run's compartment. -/
def bankRecords (ctx : Nat) (r : Records) : Records :=
  match r.s.ctx ctx with
  | none => r
  | some _ => r.s.banks.foldl (fun r e =>
      match unitRecord r.s e.1 ctx with
      | some (comp, ws) => writeRecord ctx comp 0 0 (recordVa r.s ctx e.1) ws r
      | none => r) r

-- ## the gang switch (R279, R305, R362)

/-- The watchdog's count is kept while the context does not run, and goes on when it does (R68). -/
def turnWatchdogs (s : State) (ctx : Nat) : State :=
  s.modCtx ctx (fun c => { c with nodes := c.nodes.map (fun e => (e.1, { e.2 with wdog := s.now - e.2.wdog })) })

/-- The records of a pre-emption (R301, R304), or only some of them: those that a page fault keeps from being written are
written when it is resolved. -/
def writeStopRecords (s : State) (ctx : Nat) (only : Option (List Nat)) : State :=
  let r := bankRecords ctx (engineRecords ctx { Records.start s with only := only })
  r.s.modCtx ctx (fun c => { c with recordsDue := r.unwritten })

/-- Records that have not been written are tried again. -/
def retryRecords (s : State) (ctx : Nat) : State :=
  match s.ctx ctx with
  | some c =>
    if !c.recordsDue.isEmpty && !c.running && c.halt.isNone then writeStopRecords s ctx (some c.recordsDue) else s
  | none => s

/-- Every unit of the outgoing context stops under R304; its records are written. -/
def stopContext (s : State) (ctx : Nat) : State :=
  let s := (placedDroves s ctx).foldl stopDrove s
  let s := turnWatchdogs (stopBanks s ctx) ctx
  writeStopRecords (s.modCtx ctx (fun c => { c with running := false, rxOpen := some s.clk.gtime })) ctx none

/-- The incoming context runs: its records and frames are loaded, its kernel slots are restored (R225), its runs and
collectives go on, chunks that have not been acknowledged are sent again, its policy table is read (R269, R280, R305). A
record that has not been written is not read back: its unit goes on as it stopped (R304, log 49). -/
def startContext (s : State) (ctx : Nat) : State :=
  let s := readEngines (retryRecords s ctx) ctx
  let s := s.modCtx ctx (fun c => { c with running := true, started := true, rxOpen := none })
  let s : State := { s with blankSlots := s.blankSlots.filter (fun x => x.2 / 4 != ctx) }
  let s := (placedDroves s ctx).foldl resumeDrove s
  let s := readPolicy (turnWatchdogs (restoreBanks s ctx) ctx) ctx
  resendKept (applyStored s ctx) ctx (fun _ => true)

/-- Sum of a schedule's lengths in ns. -/
def scheduleLength (p : Partition) : Nat := (p.schedule.map (fun e => 1000 * e.2)).sum

/-- The place of a global time in the schedule (R279). -/
def schedulePlace (p : Partition) (t : Nat) : Nat := (((t : Int) - (p.epoch.toNat : Int)) % (scheduleLength p : Int)).toNat

/-- The entry that covers a place: its context and how much of it is left. -/
def scheduleEntry : List (Nat × Nat) → Nat → Option (Nat × Nat)
  | [], _ => none
  | (c, len) :: r, x => if x < 1000 * len then some (c, 1000 * len - x) else scheduleEntry r (x - 1000 * len)

/-- The scheduled context at a time, and the next boundary (R279). -/
def scheduledAt (p : Partition) (t : Nat) : Option (Nat × Nat) :=
  (scheduleEntry p.schedule (schedulePlace p t)).map (fun e => (e.1, t + e.2))

/-- Which context the partition is to run now, with the partition after an armed switch is consumed (R362). -/
def switchTarget (p : Partition) (now : Nat) : Option (Option Nat × Partition) :=
  let due := match p.armed with | some a => decide (a.time ≤ now) && a.waiting.isEmpty | none => false
  match p.armed with
  | some a =>
    if due then some (some a.ctx, { p with armed := none, until_ := (scheduledAt p a.time).map (·.2) })
    else scheduled
  | none => scheduled
where
  /-- The schedule's own choice, unless a switch of CTXSW still holds. -/
  scheduled : Option (Option Nat × Partition) :=
    match p.until_ with
    | some b => if now < b then none else some ((scheduledAt p now).map (·.1), { p with until_ := none })
    | none => some ((scheduledAt p now).map (·.1), p)

/-- A context that may run in a partition: resident there, and not halted (R299). -/
def mayRun (s : State) (part ctx : Nat) : Bool :=
  match s.ctx ctx with | some c => decide (ctx < 16) && c.part == part && c.halt.isNone | none => false

/-- Runs of contexts that have halted are stopped as well (R306). -/
def stopHaltedBanks (s : State) (part ctx : Nat) : State :=
  s.ctxs.foldl (fun s e => if e.2.part == part && e.1 != ctx then stopBanks s e.1 else s) s

/-- GANG_SWITCH (R279, R305, R362): at a boundary of the schedule, or at the time of an armed switch, the partition
passes from the running context to the incoming one. A slot of a halted context stays idle (R299). -/
def execGangSwitch (part : Nat) (s : State) : Host.Outcome State Fault Refusal :=
  match s.part part with
  | none => .next s
  | some p =>
    match switchTarget p s.clk.gtime.toNat with
    | none => .next s
    | some (want, p') =>
      let out := runningCtx s part
      let target := want.filter (mayRun s part)
      let s : State := { s with parts := Store.insert s.parts part p' }
      if out.isSome && out == target then .next s
      else
        let s := match out with | some c => stopContext s c | none => s
        match target with
        | none => .next s
        | some c => .next (startContext (stopHaltedBanks s part c) c)

-- ## the context halt (R298 to R303)

/-- CONTEXT_HALT (R298): a halt-delivered cause reaches the halt unit. -/
def execContextHalt (h : HaltCause) (s : State) : Host.Outcome State Fault Refusal :=
  if h.ctx < 16 then .next (haltContext s h) else .next s

/-- REMOTE_HALT_FLIT (R298): another member has halted the context. A halt flit carries no address, so TADDR is a free
value (R291, log 6). -/
def execRemoteHaltFlit (ctx : Nat) (mem : Inbound Nat) (s : State) : Host.Outcome State Fault Refusal :=
  if !s.ownsPort (s.partOf ctx) mem.port then .next s.dropFlit
  else if ctx < 16 then
    .next (haltContext s ⟨ctx, .remoteFault, 7, mem.item, BitVec.ofNat 32 (mem.item % 2 ^ 14),
      Config.freeWord s.free 10 0 ++ Config.freeWord s.free 10 1⟩)
  else .next s

/-- The dirty lines and the frame of a team, where it is not in the image already, go to its image window (R109, R114, R299);
they are then free. -/
def imageRecords (r : Records) (e : Nat × Team) : Records :=
  let t := e.2
  let base := imageBase r.s t
  let r := (t.lines.filter (fun l => l.dirty && l.st != .filling)).foldl (fun r l =>
    writeRecord t.ctx t.comp 0 0 (base + 4096 * l.line) (imageLine t l.line) r) r
  let held := match t.frame with | .inUse => true | .evictable _ dirty _ => dirty | .image => false
  let r := if held then
      writeRecord t.ctx t.comp 0 0 (base + 2 ^ 20 + 2048) (splitRecords r.s e.1 t).flatten
        (writeRecord t.ctx t.comp 0 0 (base + 2 ^ 20) (stateBlock t) r)
    else r
  if r.waiting then r else { r with s := r.s.modTeam e.1 (fun t => { t with lines := [], frame := .image }) }

/-- Splits in the order of a stop record: the one that raised the cause, then the others by age (R302). -/
def stopOrder (t : Team) : List Split :=
  match t.cause with
  | some (_, u) => t.splits.filter (·.uid == u) ++ t.splits.filter (·.uid != u)
  | none => t.splits

/-- A split entry of a stop record (R302). -/
def splitEntry (s : State) (tid : Nat) (t : Team) (x : Split) : List Word :=
  [x.pc, maskSummary x.mask, BitVec.ofNat 32 (splitStateCode s tid t x + 256 * x.cdepth + 65536 * x.jdepth)]

/-- A team stop record (R302). -/
def stopRecord (s : State) (tid : Nat) (t : Team) (primary : Bool) : List Word :=
  let code := match t.cause with | some (k, _) => causeCode k.cause | none => 0
  let flags := (if primary then 1 else 0) + (if t.inHandler then 2 else 0) + (if t.replay.isSome then 4 else 0) +
    (if t.splits.length > 3 then 8 else 0)
  [BitVec.ofNat 32 (code + 256 * flags + 65536 * t.splits.length),
   match t.cause with | some (k, _) => k.tinfo | none => 0] ++
  pairWords (match t.cause with | some (k, _) => k.taddr | none => 0) ++
  [BitVec.ofNat 32 (t.droveId + 2 ^ 20 * t.teamId + 2 ^ 26 * t.slot), BitVec.ofNat 32 (t.node + 2 ^ 18 * t.coach),
   BitVec.ofNat 32 (tid % 8192)] ++
  padWords 9 (((stopOrder t).take 3).flatMap (splitEntry s tid t))

/-- The records that name the scheduler's and a bank unit's fault, primary or not (R300, R303). -/
def faultRecords (ctx : Nat) (c : Context) (h : HaltRec) (r : Records) : Records :=
  let base := c.spec.stoparea.toNat + 0x280000
  let r := match c.schedStop with
    | some (e, reason) => writeRecord ctx ownKey 0 1 (base + 512) (padWords 32 [BitVec.ofNat 32 e, BitVec.ofNat 32 reason]) r
    | none => r
  match h.bank.bind (fun u => (Store.find (r.s.bank u).saved ctx).map (fun x => (u, x.exec))) with
  | none => r
  | some (u, e) =>
    writeRecord ctx ownKey 0 1 (base + 640) (padWords 32
      [BitVec.ofNat 32 u, BitVec.ofNat 32 e.upc, BitVec.ofNat 32 e.pass, kernelWord r.s u e]) r

/-- The stop header (R302), 4 KiB. -/
def stopHeader (h : HaltRec) (teams engines : Nat) (lost : Bool) : List Word :=
  padWords 1024 ([BitVec.ofNat 32 (causeCode h.h.cause), BitVec.ofNat 32 h.h.origin] ++ pairWords h.time ++
    [BitVec.ofNat 32 h.h.unit, h.h.tinfo] ++ pairWords h.h.taddr ++
    [BitVec.ofNat 32 teams, BitVec.ofNat 32 engines, if lost then 3 else 1])

/-- Teams of a context that hold a slot. -/
def placedTeams (s : State) (ctx : Nat) : List (Nat × Team) :=
  s.teams.filter (fun e => e.2.ctx == ctx && !e.2.sys &&
    (match s.drove e.2.drove with | some d => d.train.isSome | none => false))

/-- What the halted context leaves on the device's units: its shares and acquire requests are gone (R299). -/
def clearUnits (s : State) (ctx : Nat) : State :=
  { s with coaches := s.coaches.map (fun (e : Nat × Coach) => (e.1, { e.2 with
      acquire := e.2.acquire.filter (fun a => a.1 / 8192 != ctx), clears := e.2.clears.filter (fun a => a / 8192 != ctx)
      tensor := e.2.tensor.filter (fun h => h.tid / 8192 != ctx) })) }

/-- Steps 1 to 3 of R299: images, engine records, stop records, and the header with STATUS. -/
def haltRecords (s : State) (ctx : Nat) (c : Context) (h : HaltRec) : Records :=
  let placed := placedTeams s ctx
  let all := s.teams.filter (fun e => e.2.ctx == ctx && !e.2.sys)
  let s := (all.map (·.1)).foldl unpinTeam (stopBanks s ctx)
  let all := s.teams.filter (fun e => e.2.ctx == ctx && !e.2.sys)
  let h := ((s.ctx ctx).bind (·.halt)).getD h
  let r := all.foldl imageRecords (Records.start s)
  let r := faultRecords ctx c h (bankRecords ctx (engineRecords ctx r))
  let r := placed.foldl (fun r e =>
    writeRecord ctx ownKey 1 0 (c.spec.stoparea.toNat + 0x200000 + 64 * (16 * e.2.coach + e.2.slot))
      (stopRecord r.s e.1 e.2 (h.team == some e.1)) r) r
  writeRecord ctx ownKey 0 0 c.spec.stoparea.toNat (stopHeader h r.teams r.engines r.lost) r

/-- HALT_FINISH (R299): the records, STATUS, and the host's interrupt; while a page fault on them is being resolved
it waits (R301). -/
def execHaltFinish (ctx : Nat) (s : State) : Host.Outcome State Fault Refusal :=
  match s.ctx ctx with
  | none => .next s
  | some c =>
    match c.halt with
    | none => .next s
    | some h =>
      if h.finished then .next s
      else
        let r := haltRecords s ctx c h
        if r.waiting then .next s
        else
          let s := (clearUnits r.s ctx).modCtx ctx (fun c => { c with
            halt := c.halt.map (fun h => { h with finished := true, unwritten := r.lost }) })
          .next (s.interrupt (16 + ctx))

-- ## borrowed trains (R289, R200)

/-- A partition's resources can no longer be vouched for: a TDI that has been locked or started is in ERROR
(R328). -/
def tdiChanged (s : State) (part : Nat) : State :=
  match Store.find s.host.tdi part with
  | some .locked | some .run => { s with host := { s.host with tdi := Store.insert s.host.tdi part .error } }
  | _ => s

/-- The partition that owns a train, and the one that borrows it. -/
def trainOwner (s : State) (train : Nat) : Option Nat := (s.parts.find? (fun e => e.2.owned.contains train)).map (·.1)
def trainBorrower (s : State) (train : Nat) : Option Nat := (s.parts.find? (fun e => e.2.borrowed.contains train)).map (·.1)

/-- The registered words of a train's coaches are written back and deregistered (R200). -/
def drainWords (s : State) (train : Nat) : State :=
  (s.l1.filter (fun l => l.coach / 8 == train)).foldl evictL1 s

/-- TRAIN_LEND (R289): firmware lends an idle owned train within the borrower's limit. Its coaches leave their partition, and
the words registered to them are drained (R200). -/
def execTrainLend (train part : Nat) (s : State) : Host.Outcome State Fault Refusal :=
  match trainOwner s train, s.part part with
  | some a, some b =>
    if a == part || (trainBorrower s train).isSome || !trainOpen s train ||
        s.droves.any (fun e => e.2.train == some train) || decide (b.borrowLimit ≤ b.borrowed.length) then .next s
    else
      let s := (drainWords s train).modPart part (fun p => { p with borrowed := p.borrowed ++ [train] })
      .next (tdiChanged (tdiChanged s a) part)
  | _, _ => .next s

/-- The borrower's droves on a train. -/
def borrowedDroves (s : State) (part train : Nat) : List (Nat × Drove) :=
  s.droves.filter (fun e => e.2.train == some train && e.2.part == part)

/-- Step 1 of a reclaim (R289); a second command may add FORCE. -/
def reclaimTrain (s : State) (train : Nat) (force : Bool) : State :=
  match trainOwner s train, trainBorrower s train with
  | some a, some b =>
    if s.reclaims.any (·.train == train) then
      { s with reclaims := s.reclaims.map (fun r => if r.train == train then { r with force := r.force || force } else r) }
    else
      let s := (borrowedDroves s b train).foldl (fun s e => stopDrove s e.1) s
      { s with reclaims := s.reclaims ++ [⟨train, a, b, s.now, force⟩] }
  | _, _ => s

/-- TRAIN_RECLAIM (R289). -/
def execTrainReclaim (train : Nat) (force : Bool) (s : State) : Host.Outcome State Fault Refusal :=
  .next (reclaimTrain s train force)

/-- The coach is one of a train's. -/
def onTrain (train coach : Nat) : Bool := coach / 8 == train

/-- A write-back of the drain: it waits on a page fault; any other cause halts the context, and the data is lost
(R306). -/
def drained (tid : Nat) (without : State) (w : Except (Cause × Nat) State) : Option State :=
  match w with
  | .ok s => some s
  | .error (c, va) => if causeParks c then none else some (haltTeam without tid 0 ⟨c, 0, BitVec.ofNat 64 va⟩)

/-- Every line of the borrower's teams that the train's coaches still hold is written back and gone (R289). -/
def drainLines (s : State) (part train : Nat) : Option State :=
  (s.teams.filter (fun e => ((s.ctx e.2.ctx).map (·.part)) == some part && !e.2.sys)).foldl
    (fun acc e => (e.2.lines.filter (fun l => onTrain train l.coach)).foldl (fun acc l =>
      acc.bind (fun s => drained e.1 (dropLine s e.1 l) (evictLine s e.1 l))) acc) (some s)

/-- The state frames and split records of the borrower's teams that the train's slots still hold (R114, R289). -/
def drainFrames (s : State) (part train : Nat) : Option State :=
  (s.teams.filter (fun e => ((s.ctx e.2.ctx).map (·.part)) == some part && !e.2.sys &&
      (match e.2.frame with | .evictable c _ _ => onTrain train c | _ => false))).foldl
    (fun acc e => acc.bind (fun s => drained e.1 (s.modTeam e.1 (fun t => { t with frame := .image })) (evictFrame s e.1))) (some s)

/-- The queue images of the droves that leave, where a page fault kept them from being written. -/
def drainQueues (s : State) (ds : List (Nat × Drove)) : Option State :=
  let s := (ds.filter (fun e => e.2.unsaved)).foldl (fun s e => saveQueues s e.1) s
  if ds.any (fun e => ((s.drove e.1).map (·.unsaved)).getD false) then none else some s

/-- A halted context's records are not yet written, and need the droves where they are (R299). -/
def haltPending (s : State) (ctx : Nat) : Bool :=
  match (s.ctx ctx).bind (·.halt) with | some h => !h.finished | none => false

/-- RECLAIM_DRAIN_DONE (R289): the write-back is complete; the pre-empted droves head their contexts' requeue lists,
and the train passes back. Several of one context keep the ascending order of their numbers (DESIGN CHOICE, log 103). -/
def execReclaimDrainDone (train : Nat) (s : State) : Host.Outcome State Fault Refusal :=
  match s.reclaims.find? (·.train == train) with
  | none => .next s
  | some r =>
    let ds := borrowedDroves s r.borrower train
    if ds.any (fun e => haltPending s e.2.ctx) then .next s
    else match (drainQueues s ds).bind (fun s => (drainFrames s r.borrower train).bind (fun s => drainLines s r.borrower train)) with
      | none => .next s
      | some s =>
        let s := drainWords s train
        let s := ds.foldr (fun e s =>
          (s.modDrove e.1 (fun d => { d with train := none })).modCtx e.2.ctx (fun c => { c with requeue := e.1 :: c.requeue })) s
        let s := s.modPart r.borrower (fun p => { p with borrowed := p.borrowed.filter (· != train) })
        let s := tdiChanged (tdiChanged s r.lender) r.borrower
        .next { s with reclaims := s.reclaims.filter (·.train != train) }

/-- The state once the borrower has left a train. -/
def trainReturned (s : State) (train : Nat) : State :=
  let s := reclaimTrain s train false
  match execReclaimDrainDone train s with | .next s' => s' | _ => s

/-- The owner's distributor holds a drove that fits on the lent train alone (R289). -/
def reclaimDue (s : State) (train : Nat) : Bool :=
  match (trainOwner s train).bind (fun a => (runningCtx s a).bind (fun k => (s.ctx k).map (fun c => (k, c)))) with
  | none => false
  | some (k, c) =>
    (trainBorrower s train).isSome && trainOpen s train &&
    (let s' := trainReturned s train
     c.requeue.any (fun d =>
       (indexedTrains s k).all (fun e => (requeuedFits s d e.1).isNone) && (requeuedFits s' d train).isSome) ||
     c.opens.any (fun e => match (nodeAt s k e).recd with
       | some r => (indexedTrains s k).all (fun x => !newFits s x.1 r) && newFits s' train r
       | none => false))

/-- Words registered to some coaches become LOST at their home slices (R197, R200). -/
def loseWords (s : State) (sel : Nat → Bool) : State :=
  { s with
    l2 := s.l2.map (fun (l : L2Line) => { l with st := l.st.map (fun w =>
      match w with | .o c n => if sel c then .lost n else .o c n | w => w) })
    l1 := s.l1.filter (fun l => !sel l.coach) }

/-- RECLAIM_DEADLINE (R289): with FORCE, the words still registered 190,000 cycles after the start become LOST. -/
def execReclaimDeadline (train : Nat) (s : State) : Host.Outcome State Fault Refusal :=
  match s.reclaims.find? (·.train == train) with
  | none => .next s
  | some r => if r.force && decide (r.start + 190000 ≤ s.now) then .next (loseWords s (onTrain train)) else .next s

end Sys2Proof.Machine
end

