-- ==== Sys2Proof/Machine/Faults.lean ====
section
/-! DEFINITION. The memory manager's answer to a page fault, walks, posted updates at their places, registration events,
requests between members, advisories, and errors found in service (spec/06 R172 to R177; spec/07 R186, R196, R197,
R200; spec/09 R249; spec/12 R297, R307 to R310). -/
namespace Sys2Proof.Machine

-- ## the page of a memory key

/-- The memory key lies in the frame of a leaf. -/
def frameCovers (level pte key : Nat) : Bool :=
  let base := pteFrame pte * 4096
  match pteTier pte with
  | .hbm => decide (key < 2 ^ 40) && decide (base ≤ key % 2 ^ 36) && decide (key % 2 ^ 36 < base + pageSize level / 16)
  | _ => decide (tierKey (pteTierCode pte) base ≤ key) && decide (key < tierKey (pteTierCode pte) base + pageSize level)

/-- The page that a memory key belongs to: context, VA, level, entry. -/
def pageOfKey (s : State) (key : Nat) : Option (Nat × Nat × Nat × Nat) :=
  (s.ctxs.filter (fun c => decide (c.1 < 16))).findSome? (fun c =>
    ((ctxLeaves s c.1).find? (fun l => frameCovers l.2.1 l.2.2 key)).map (fun l => (c.1, l)))

-- ## frames (R175, R309, R318)

/-- The sealed block lies in a leaf's frame (R317). -/
def blockCovers (level pte block : Nat) : Bool :=
  let base := pteFrame pte * 4096
  match pteTier pte with
  | .hbm =>
    let len := pageSize level / 16
    let g := block % 2 ^ 26 / 32
    let c := block % 32
    decide (block < 2 ^ 30) && decide (base / 32768 ≤ g) && decide (g ≤ (base + len - 1) / 32768) &&
      (!pteLinear pte || decide (32768 ≤ len) ||
        (decide (base % 32768 / 1024 ≤ c) && decide (c < (base % 32768 + len) / 1024)))
  | _ =>
    let first := tierBlock (pteTierCode pte) base
    decide (first ≤ block) && decide (block < first + pageSize level / 1024)

/-- The bytes of a sealed block, as runs of memory keys (R166, R317): a striped row is eight runs of 128 bytes. -/
def blockRuns (linear : Bool) (block : Nat) : List (Nat × Nat) :=
  if block < 2 ^ 30 then
    let st := block / 2 ^ 26
    let g := block % 2 ^ 26 / 32 * 32768
    let c := block % 32
    if linear then [(hbmKey st (g + 1024 * c), 1024)]
    else (List.range 8).map (fun i => (hbmKey st (g + 4096 * i + 128 * c), 128))
  else [(tierKey (block / 2 ^ 40) (block % 2 ^ 40 * 1024), 1024)]

/-- A frame is fresh before it is mapped: its blocks read as zeros, and no buffered line of them is left (R318). A row that
a striped page shares with neighbours under the same keys keeps its seal and their bytes; under other keys the whole row is
fresh (R166, log 9). -/
def freshenFrame (s : State) (level pte : Nat) : State :=
  if pteTier pte == .host then s
  else
    let set := (s.key (pteKsel pte)).keys
    let gone := (s.seals.filter (fun e => blockCovers level pte e.1 && e.2 != set)).map (·.1)
    let runs := gone.flatMap (blockRuns (pteLinear pte))
    let wiped (key : Nat) : Bool := frameCovers level pte key || runs.any (fun r => decide (r.1 ≤ key) && decide (key < r.1 + r.2))
    { s with
      mem := s.mem.filter (fun e => !wiped e.1)
      nmuBuf := s.nmuBuf.filter (fun l => !wiped l.key)
      seals := s.seals.filter (fun e => !gone.contains e.1) }

-- ## resolving a page fault (R177, R258, R301, R307, R321)

/-- Write the memory manager's entries, in all sixteen copies (R169). -/
def writeEntries (s : State) (fix : PageFix) : State :=
  { s with mem := (fix.ptes.filter (fun e => e.1 % 8 == 0 && decide (e.1 < 2 ^ 48))).foldl (fun m e =>
      (List.range 16).foldl (fun m st => writeBytes m (privKey st e.1) 8 e.2.toNat) m) s.mem }

/-- Leaves of every context: context, VA, level, entry. -/
def allLeaves (s : State) : List (Nat × Nat × Nat × Nat) :=
  (s.ctxs.filter (fun c => decide (c.1 < 16))).flatMap (fun c => (ctxLeaves s c.1).map (fun l => (c.1, l)))

/-- Bytes that a leaf takes in its frame's address space. -/
def frameLen (level pte : Nat) : Nat := if pteTier pte == .hbm then pageSize level / 16 else pageSize level

/-- The frames of two leaves share a byte. -/
def framesMeet (l1 p1 l2 p2 : Nat) : Bool :=
  pteTierCode p1 == pteTierCode p2 && rangesMeet (pteFrame p1 * 4096) (frameLen l1 p1) (pteFrame p2 * 4096) (frameLen l2 p2)

/-- What the memory manager keeps when it maps a page: no new frame in a DRAINING slice (R312), none that is retired (R309),
none outside the CXL decoder's range (R333), none in an ENDED region (R321),
and in the region of a LIVE sequence CACHEABLE pages under its slot and compartment, inside the boundary (R320). -/
def leafLegal (s : State) (l : Nat × Nat × Nat × Nat) : Bool :=
  let va := l.2.1
  let size := pageSize l.2.2.1
  let pte := l.2.2.2
  (pteTier pte != .cxl || inHdm s l.2.2.1 pte) &&
  (pteTier pte != .hbm || (match s.slice ((pteFrame pte * 4096) >>> 32) with | .draining _ => false | _ => true)) &&
  s.retired.all (fun r => !framesMeet r.2.2.1 r.2.2.2 l.2.2.1 pte) &&
  (match s.ctx l.1 with
   | some c => c.seqs.all (fun q =>
      !rangesMeet q.base (65536 * q.units) va size ||
      (!q.ended && decide (q.base ≤ va) && decide (va + size ≤ q.base + 65536 * q.units) && !pteUncached pte && pteKsel pte == q.slot &&
        pteCmp pte == q.comp))
   | none => true)

/-- The leaf puts a page on a frame of its own: it was not mapped to it before, and no migration moved it there. -/
def newFrame (old : List (Nat × Nat × Nat × Nat)) (l : Nat × Nat × Nat × Nat) : Bool :=
  !old.any (fun x => x.1 == l.1 && x.2.1 == l.2.1 && x.2.2.1 == l.2.2.1 &&
    (pteMig x.2.2.2 || (pteTierCode x.2.2.2 == pteTierCode l.2.2.2 && pteFrame x.2.2.2 == pteFrame l.2.2.2 &&
      pteLinear x.2.2.2 == pteLinear l.2.2.2)))

/-- One line of a retired page at its new place; a fresh block stays fresh (R309). -/
def restoreLine (ctx level pte : Nat) (s : State) (va : Nat) : State :=
  let old := placement va (s.asid ctx) level pte
  match rawTrans s ctx va with
  | some t =>
    if pteTier pte != .host && Store.get 0 s.seals old.block == 0 then s
    else sealBlock { s with mem := writeWords s.mem t.key (readWords s.mem old.key 32) } t
  | none => s

/-- A retired page that is mapped again has its contents: the memory manager holds a copy of them (R309). -/
def restoreRetired (s : State) (l : Nat × Nat × Nat × Nat) : State :=
  match s.retired.find? (fun r => r.1 == l.1 && r.2.1 == l.2.1 && r.2.2.1 == l.2.2.1) with
  | none => s
  | some r =>
    let s := ((List.range (pageSize r.2.2.1 / 128)).map (fun i => r.2.1 + 128 * i)).foldl (restoreLine r.1 r.2.2.1 r.2.2.2) s
    { s with retired := s.retired.filter (· != r) }

/-- The memory manager's entries take effect: the new frames are fresh (R318), retired pages have their contents again, and the
pages that the entries unmap are forgotten (R175); none when they break a rule that it keeps (log 72). -/
def applyFix (s : State) (fix : PageFix) : Option State :=
  let old := allLeaves s
  let s' := forgetUnmapped (writeEntries (forgetUnmapped s) fix)
  let changed := (allLeaves s').filter (fun l => !old.contains l)
  if !changed.all (leafLegal s) then none
  else
    let fresh := changed.filter (newFrame old)
    some (fresh.foldl restoreRetired (fresh.foldl (fun s l => freshenFrame s l.2.2.1 l.2.2.2) s'))

/-- A clean page leaves its failed frame: its leaves are cleared, and accesses to it wait until it is mapped again (R309); that
they wait is the model's choice (log 90). -/
def retirePage (s : State) (ctx va : Nat) : State :=
  match pageCopies s ctx va with
  | [] => s
  | (st, level, k, e) :: rest =>
    let page := va / pageSize level
    forgetUnmapped { s with
      mem := ((st, level, k, e) :: rest).foldl (fun m x => clearBytes m x.2.2.1 (x.2.2.1 + 8)) s.mem
      tlb := s.tlb.filter (fun t => !(t.asid == s.asid ctx && t.page == va / pageSize t.level))
      retired := s.retired ++ [(ctx, page * pageSize level, level, e)] }

/-- The address lies in a region whose sequence has ended, and no new one covers it (R321). -/
def inEndedRegion (s : State) (ctx va : Nat) : Bool :=
  match s.ctx ctx with
  | some c =>
    let covers (q : Seq) : Bool := decide (q.base ≤ va) && decide (va < q.base + 65536 * q.units)
    c.seqs.any (fun q => q.ended && covers q) && !c.seqs.any (fun q => !q.ended && covers q)
  | none => false

/-- 64 KiB page of an address. -/
def page64 (va : DWord) : Nat := va.toNat / 65536
/-- A stall of a unit of a context on a page, through its own window too (R158). -/
def stalledOn (s : State) (ctx page : Nat) (st : Option DWord) : Bool :=
  match st with | some va => localVa s ctx va / 65536 == page | none => false

/-- The first unit of a context that waits for a page, in the order of R300, halts it. -/
def haltWaiter (s : State) (ctx page : Nat) (k : Cause) : State :=
  match s.teams.find? (fun e => e.2.ctx == ctx && !e.2.sys && stalledOn s ctx page (e.2.fault.map (·.2))) with
  | some (tid, t) =>
    let f := t.fault.getD (0, 0)
    haltTeam s tid ((t.replay.map (·.split)).getD 0) ⟨k, BitVec.ofNat 32 (f.1 % 1024), f.2⟩
  | none =>
    match s.coaches.findSome? (fun e => (e.2.tensor.find? (fun h => h.tid / 8192 == ctx && stalledOn s ctx page h.stalled)).map
        (fun h => (e.1, h.stalled.getD 0))) with
    | some (c, va) => haltContext s ⟨ctx, k, 1, c, 0, va⟩
    | none =>
      match s.drays.findSome? (fun e => (e.2.queues.flatMap (·.2)).findSome? (fun c =>
          if c.ctx == ctx && stalledOn s ctx page c.stalled then some (e.1, c.stalled.getD 0) else none)) with
      | some (d, va) => haltContext s ⟨ctx, k, 2, d, 0, va⟩
      | none =>
        match s.colls.find? (fun c => c.ctx == ctx && stalledOn s ctx page c.stalled) with
        | some c => haltContext s ⟨ctx, k, 3, c.die, 0, c.stalled.getD 0⟩
        | none =>
          match (s.ctx ctx).bind (·.schedFault) with
          | some (e, va) => if localVa s ctx va / 65536 == page then haltContext s ⟨ctx, k, 4, e, 0, va⟩ else haltBank
          | none => haltBank
where
  /-- A bank unit that waits, last of all. -/
  haltBank : State :=
    match s.banks.find? (fun e => match e.2.exec with | some x => x.run.ctx == ctx && stalledOn s ctx page x.stalled | none => false) with
    | some (u, b) => haltContext s ⟨ctx, k, 5, u, 0, (b.exec.bind (·.stalled)).getD 0⟩
    | none =>
      match s.bankFlight.findSome? (fun i => (itemVa i).filter (fun v => v.1 == ctx && localVa s ctx v.2 / 65536 == page)) with
      | some v => haltContext s ⟨ctx, k, 5, freeUnit s, 0, v.2⟩
      | none => s

/-- The local VA of an inbound request (R159). -/
def inboundVa (s : State) (r : RemoteReq) : Nat := ((s.ctx r.ctx).map (fun c => c.spec.pwbase.toNat)).getD 0 + r.off

/-- An answer to a member's request, from the slice that serves it (R335). -/
def answerRemote (s : State) (r : RemoteReq) (f : Flit) : State :=
  let unit := sliceUnit (homeSlice (inboundVa s r) (s.asid r.ctx))
  s.send (s.partOf r.ctx) r.initiator r.ctx unit unit f

/-- An inbound request cannot be served: a fault completion goes back, and cause, VA and initiator are logged (R307). -/
def refuseInbound (s : State) (r : RemoteReq) (k : Cause) : State :=
  let va : DWord := BitVec.ofNat 64 (inboundVa s r)
  let s := answerRemote s r (.fault r.id r.initiator va k)
  { s with inbound := s.inbound.filter (· != r)
           mgmt := { s.mgmt with log := s.mgmt.log ++ [(r.ctx, va, r.initiator, some k)] } }

/-- No mapping exists: who waits for the page halts the context; a halted context's record stays unwritten (R301); an
inbound request is answered with a fault (R307). -/
def unresolvable (s : State) (ctx page : Nat) (k : Cause) : State :=
  let s := (s.inbound.filter (fun r => r.ctx == ctx && inboundVa s r / 65536 == page)).foldl (fun s r => refuseInbound s r k) s
  match (s.ctx ctx).bind (·.halt) with
  | some h => s.modCtx ctx (fun c => { c with halt := some { h with lost := page :: h.lost } })
  | none => haltWaiter s ctx page k

/-- PAGE_FAULT_SERVICE (R177, R258, R301): the memory manager maps the page, and what waits is tried again; or there is no
mapping, and the context halts with PAGE_NOTPRESENT. In an ended region nothing is mapped: KEY_ENDED (R321). -/
def execPageFaultService (ctx : Nat) (va : DWord) (fix : Option PageFix) (s : State) : Host.Outcome State Fault Refusal :=
  if (s.ctx ctx).isNone || !canonical va || inWindow va then .next s
  else match (if inEndedRegion s ctx va.toNat then none else fix) with
    | some f =>
      (match applyFix s f with
       | some s => .next (((s.ctxs.map (·.1)).foldl retryRecords) (resumeCtx s ctx))
       | none => .next s)
    | none =>
      if (rawTrans s ctx va.toNat).isSome then .next (resumeCtx s ctx)
      else .next (unresolvable s ctx (page64 va) (if inEndedRegion s ctx va.toNat then .keyEnded else .pageNotPresent))

/-- TRANSLATION_WALK (R171, R172, R175): AC or D and the reverse map; a walk that fails changes nothing here: its cause
is taken by the access that waits for it. -/
def execTranslationWalk (ctx comp : Nat) (va : DWord) (write : Bool) (s : State) : Host.Outcome State Fault Refusal :=
  match translate s ctx comp va.toNat write with
  | .ok (s, _) => .next s
  | .error _ => .next s

-- ## posted updates at their places (R186, R196, R249)

/-- An update that no earlier one of its team to the same words precedes, by whatever address, of a context that has not halted
(R158, R196, R298). -/
def postedAt (s : State) (k : Nat) : Option PostedOp :=
  match s.posted[k]? with
  | none => none
  | some p =>
    let halted := match s.ctx p.ctx with | some c => c.halt.isSome | none => true
    let behind := (s.posted.take k).any (fun q => q.tid == p.tid &&
      rangesMeet (localVa s q.ctx q.va) (etMemWidth q.et) (localVa s p.ctx p.va) (etMemWidth p.et))
    if halted || behind then none else some p

/-- The update's place is an NMU (R186). -/
def postedAtNmu (s : State) (p : PostedOp) : Bool :=
  match route s p.ctx p.va p.pol with
  | .here a pol _ => pol == .nc || (match rawTrans s p.ctx a with | some t => pteUncached t.pte | none => false)
  | _ => false

/-- The instruction that posted an update, as a replay record names it. -/
def PostedOp.replays (p : PostedOp) (r : Replay) : Bool := r.word == p.word && r.pc == p.pc && r.split == p.split

/-- The replay record without a lane that is finished; with none left it is clear (R398). -/
def Replay.without (r : Replay) (L : Nat) : Option Replay :=
  let left := r.lanes &&& ~~~(1#1024 <<< L)
  if left == 0 then none else some { r with lanes := left }

/-- The update is done; one of an instruction that a page fault had stopped leaves the replay record (R398). -/
def dropPosted (s : State) (p : PostedOp) : State :=
  let s : State := { s with posted := s.posted.filter (·.id != p.id) }
  if p.faulted then
    s.modTeam p.tid (fun t => { t with replay := t.replay.bind (fun r => if p.replays r then r.without p.lane else some r) })
  else s

/-- A lane of a posted update meets a page fault (R398): the update, its PC and its unfinished lanes go to the replay record,
and the team parks. -/
def faultPosted (s : State) (p : PostedOp) : State :=
  let mine (q : PostedOp) : Bool := q.group == p.group && !q.remote
  let lanes : LaneMask := (s.posted.filter mine).foldl (fun m q => m ||| (1#1024 <<< q.lane)) 0
  let s : State := { s with posted := s.posted.map (fun q => if mine q then { q with faulted := true } else q) }
  s.modTeam p.tid (fun t =>
    let r := match t.replay with | some r => if p.replays r then { r with lanes := lanes } else r | none => ⟨p.word, p.pc, p.split, lanes⟩
    { t with parked := true, fault := some (p.lane, p.va), replay := some r })

/-- The update takes effect at its place on this device; one that another member performs waits for its acknowledgement (R159,
R308). A page fault parks the team; any other cause halts (R177). -/
def performPosted (s : State) (p : PostedOp) : State :=
  match route s p.ctx p.va p.pol with
  | .bad => dropPosted (haltTeam s p.tid 0 ⟨.protection, BitVec.ofNat 32 p.lane, p.va⟩) p
  | .away _ => s
  | .here a pol l1 =>
    match perform s ⟨p.ctx, p.comp, if l1 then p.coach else noCoach⟩ a (etMemWidth p.et) pol (.atomic p.op p.x 0) p.et p.ftz with
    | .ok (s, _) => dropPosted (noteSysLine s p.tid p.ctx a) p
    | .error c =>
      if causeParks c then faultPosted s p
      else dropPosted (haltTeam s p.tid 0 ⟨c, BitVec.ofNat 32 p.lane, p.va⟩) p

/-- PLACE_OF_EFFECT_ACCESS (R186): a posted update reaches its home slice, the L1 that holds the word, or its
target. -/
def execPlaceOfEffectAccess (k : Nat) (s : State) : Host.Outcome State Fault Refusal :=
  match postedAt s k with
  | some p => if postedAtNmu s p then .next s else .next (performPosted s p)
  | none => .next s

/-- NMU_UPDATE (R249): a posted update is applied by the NMU of its word. -/
def execNmuUpdate (k : Nat) (s : State) : Host.Outcome State Fault Refusal :=
  match postedAt s k with
  | some p => if postedAtNmu s p then .next (performPosted s p) else .next s
  | none => .next s

-- ## registration (R197)

/-- The compartment of the page of an address. -/
def compOf (s : State) (ctx va : Nat) : Nat := match rawTrans s ctx va with | some t => pteCmp t.pte | none => 0

/-- OWN_REGISTRATION (R197): the home slice registers a word to a coach of the context's, recalling it from another
owner. -/
def execOwnRegistration (coach ctx : Nat) (va : DWord) (s : State) : Host.Outcome State Fault Refusal :=
  if !canonical va || inWindow va || !s.teams.any (fun e => e.2.coach == coach && e.2.ctx == ctx && !e.2.sys) then .next s
  else match homeLine s ctx (compOf s ctx va.toNat) va.toNat true with
    | .ok (s, none) => .next (registerWord s ctx coach (s.asid ctx) (va.toNat / 128) (wordIndex va.toNat))
    | _ => .next s

/-- A coach keeps an unregistered copy of a word (R197). -/
def keepCopy (s : State) (coach asid line i : Nat) (v : Word) : State :=
  match l2Find s asid line, l1Find s coach asid line with
  | some l, none => l1Put s ⟨coach, asid, line, l.slot, l.w, l.cmp, (List.replicate 32 .none).set i (.copy v), s.free⟩
  | some _, some _ =>
    (match l1Word s coach asid line i with | .reg _ _ _ => s | _ => setL1Word s coach asid line i (.copy v))
  | none, _ => s

/-- FORWARDED_READ (R197): the read is performed in the owner's L1; the reader keeps a copy of what it read. -/
def execForwardedRead (coach ctx : Nat) (va : DWord) (s : State) : Host.Outcome State Fault Refusal :=
  let asid := s.asid ctx
  let line := va.toNat / 128
  let i := wordIndex va.toNat
  match l2Find s asid line with
  | none => .next s
  | some l =>
    match l.st.getD i (.u 0), placeWord s asid line i with
    | .o d _, .ok v =>
      if d == coach || !s.teams.any (fun e => e.2.coach == coach && e.2.ctx == ctx && e.2.comp == l.cmp && !e.2.sys) then .next s
      else .next (keepCopy s coach asid line i v)
    | _, _ => .next s

/-- The word's home slice still counts on the coach for it. -/
def awaitsWriteback (s : State) (asid line i coach : Nat) (n : BitVec 16) : Bool :=
  match l2Find s asid line with | some l => l.st.getD i (.u 0) == WordState.o coach n | none => false

/-- REGISTERED_WRITEBACK (R197): a write-back or deregistration from a coach carrying n; one that does not match is
dropped and counted. -/
def execRegisteredWriteback (coach ctx : Nat) (va : DWord) (n : BitVec 16) (s : State) : Host.Outcome State Fault Refusal :=
  let asid := s.asid ctx
  let line := va.toNat / 128
  let i := wordIndex va.toNat
  match l1Word s coach asid line i with
  | .reg v m d =>
    if m == n then
      .next (setL1Word (acceptWriteback s asid line i coach n (if d then some v else none)) coach asid line i .none)
    else .next (acceptWriteback s asid line i coach n none)
  | _ =>
    if awaitsWriteback s asid line i coach n then .next s else .next (acceptWriteback s asid line i coach n none)

-- ## requests between members (R159, R307, R308)

/-- Perform an inbound request: what its reply carries. A read of 16 bytes is four aligned words (R185); a narrower
value is extended as the initiator's register takes it (R379). -/
def inboundAccess (s : State) (r : RemoteReq) : Except Cause (State × BitVec 128) :=
  let va := inboundVa s r
  let pol := match r.pol with | .nc => Pol.nc | _ => .wt
  let ag : Agent := ⟨r.ctx, r.comp, noCoach⟩
  if r.width == 16 then
    (List.range 4).foldl (fun acc k =>
      match acc with
      | .error c => .error c
      | .ok (s, x) =>
        match perform s ag (va + 4 * k) 4 pol .read .n32 false with
        | .error c => .error c
        | .ok (s, v) => .ok (s, x ||| ((v.setWidth 128) <<< (32 * k)))) (.ok (s, 0))
  else
    match perform s ag va r.width pol r.op r.et r.ftz with
    | .error c => .error c
    | .ok (s, v) =>
      .ok (s, (match r.op with | .read => extendLoad r.et v.toNat | _ => v).setWidth 128)

/-- A request of another member is performed here as a local one would be; a page fault is resolved first; what cannot be
resolved is answered with a fault (R159, R307). -/
def serveRemote (r : RemoteReq) (s : State) : State :=
  if ((s.ctx r.ctx).map (fun c => c.halt.isSome)).getD true then refuseInbound s r .protection
  else match inboundAccess s r with
    | .ok (s, v) => answerRemote { s with inbound := s.inbound.filter (· != r) } r (.reply r.id r.initiator v)
    | .error k =>
      if causeParks k then { s with inbound := if s.inbound.contains r then s.inbound else s.inbound ++ [r] }
      else refuseInbound s r k

/-- REMOTE_REQUEST (R159, R307, R334): a request arrives on a port of its context's partition; on any other port, or for a
context that is not resident, it is dropped and counted. -/
def execRemoteRequest (r : Inbound RemoteReq) (s : State) : Host.Outcome State Fault Refusal :=
  if s.ownsPort (s.partOf r.item.ctx) r.port then .next (serveRemote r.item s) else .next s.dropFlit

/-- The initiator's context halts, its waiting unit as origin (R302): a dray or tandem by the mark of its pending
access, the scheduler by its number, else the team. -/
def remoteHalt (s : State) (r : RemoteOut) (k : Cause) : State :=
  let s : State := { s with remote := s.remote.map (fun x => if x.id == r.id then { x with dead := true } else x) }
  let info : Word := BitVec.ofNat 32 (r.member % 2 ^ 14)
  match s.team r.tid with
  | none =>
    if r.tid > hostPost then haltContext s ⟨r.ctx, k, 4, (r.tid - hostPost - 1) / 16, info, r.va⟩
    else haltContext s ⟨r.ctx, k, 0, 0, info, r.va⟩
  | some t =>
    let mark := ((t.pending.find? (fun p => p.remote == some r.id)).bind (·.owners.head?)).getD 0
    if mark < 2 ^ 40 then haltTeam s r.tid mark ⟨k, info, r.va⟩
    else if (mark - 2 ^ 40) / 2 ^ 32 == 0 then haltContext s ⟨r.ctx, k, 2, drayOf t.coach, info, r.va⟩
    else haltContext s ⟨r.ctx, k, 3, dieOf t.coach, info, r.va⟩

/-- REMOTE_FAULT_COMPLETION (R307, R308, R334). -/
def execRemoteFaultCompletion (id : Inbound Nat) (s : State) : Host.Outcome State Fault Refusal :=
  match s.remote.find? (fun r => r.id == id.item) with
  | some r =>
    if !s.ownsPort (s.partOf r.ctx) id.port then .next s.dropFlit
    else if r.dead then .next (discardReply s r)
    else .next (remoteHalt s r .remoteFault)
  | none => .next s

/-- REMOTE_TIMEOUT (R308): 1 ms of global time after its sending. -/
def execRemoteTimeout (id : Nat) (s : State) : Host.Outcome State Fault Refusal :=
  match s.remote.find? (fun r => r.id == id && !r.dead) with
  | some r => if s.clk.gtime.toNat < r.sent.toNat + 1000000 then .next s else .next (remoteHalt s r .remoteTimeout)
  | none => .next s

-- ## advisories (R297)

/-- Source kinds of R291. -/
def advCode (k : AdvKind) : Nat := match k with | .slice => 0 | .port => 1 | .lpddr => 2 | .cxl => 3 | .hostLink => 4

/-- The context gets an advisory (R297). -/
def advises (s : State) (k : AdvKind) (idx ctx : Nat) : Bool :=
  let part := s.ctxPart ctx
  let tier (t : Tier) : Bool := (ctxLeaves s ctx).any (fun l => pteTier l.2.2 == t)
  decide (ctx < 16) &&
  (match k with
   | .slice => (part.map (fun p => p.slices.contains idx)).getD false
   | .port => (part.map (fun p => p.ports.contains idx)).getD false
   | .lpddr => tier .lpddr
   | .cxl => tier .cxl
   | .hostLink => true)

/-- CKPT_ADVISORY (R297): a threshold has been crossed: EVENTS.CKPT in every placed or requeued team of the contexts
concerned, and the host is told. -/
def execCkptAdvisory (kind : AdvKind) (idx : Nat) (s : State) : Host.Outcome State Fault Refusal :=
  let key := (advCode kind, idx)
  if !s.mgmt.crossed.contains key then .next s
  else
    let hit := (s.ctxs.filter (fun c => advises s kind idx c.1)).map (·.1)
    let s : State := { s with
      mgmt := { s.mgmt with crossed := s.mgmt.crossed.erase key }
      teams := s.teams.map (fun (e : Nat × Team) =>
        if hit.contains e.2.ctx && !e.2.sys && !e.2.events.getLsbD 0 then
          (e.1, ({ e.2 with events := e.2.events ||| 1, advisory := BitVec.ofNat 32 (256 * advCode kind + idx % 256) } : Team).touchFrame)
        else e) }
    .next (s.interrupt 32)

-- ## errors (R309, R310)

/-- The counter of a site: a kind (R291's, then 5 a die, 6 a coach, 7 the key table, 8 the scheduler) and an index. -/
def errorUnit (s : State) (e : ErrSite) : Nat × Nat :=
  match e with
  | .block key => if key < 2 ^ 40 then (0, field key 35 32) else if key / 2 ^ 48 == 1 then (2, 0) else (3, 0)
  | .l2Line asid line => (5, homeSlice (line * 128) asid / 64)
  | .l1Line coach _ _ => (5, dieOf coach)
  | .icacheLine coach _ _ => (5, dieOf coach)
  | .regLine tid _ => (6, ((s.team tid).map (·.coach)).getD 0)
  | .stateFrame tid => (6, ((s.team tid).map (·.coach)).getD 0)
  | .scratchpad d h => (6, (((s.drove d).bind (fun d => Store.find d.handles h)).map (·.coach)).getD 0)
  | .keyTable => (7, 0)
  | .scheduler _ => (8, 0)
  | .port n => (1, n)
  | .hostLink => (4, 0)

/-- The number under which a counter and its threshold are kept. -/
def counterKey (u : Nat × Nat) : Nat := 1024 * u.1 + u.2

/-- CORRECTED_ERROR (R297, R309): counted; a count that crosses its threshold calls for an advisory. -/
def execCorrectedError (site : ErrSite) (s : State) : Host.Outcome State Fault Refusal :=
  let u := errorUnit s site
  let n := Store.get 0 s.mgmt.corrected (counterKey u) + 1
  let crosses := match Store.find s.mgmt.thresholds (counterKey u) with | some t => n == t | none => false
  .next { s with mgmt := { s.mgmt with
    corrected := Store.insert s.mgmt.corrected (counterKey u) n
    crossed := if crosses && decide (u.1 < 5) && !s.mgmt.crossed.contains u then s.mgmt.crossed ++ [u] else s.mgmt.crossed } }

/-- Poison the page of an address. -/
def poisonPage (s : State) (asid va : Nat) : State :=
  let size := match rawTrans s (ctxOfAsid s asid) va with | some t => pageSize t.level | none => 65536
  let p : Poison := .page asid (va / size * size) size
  if s.poison.contains p then s else { s with poison := s.poison ++ [p] }

/-- A memory block is lost (R309): a clean page (D = 0, and a backing copy that only the memory manager knows of, log 63) is
retired and remapped; any other is poisoned. -/
def loseBlock (s : State) (key : Nat) : State :=
  match pageOfKey s key with
  | none => s
  | some (ctx, va, _, _) =>
    let dirty := (pageCopies s ctx va).any (fun x => pteD x.2.2.2)
    if !dirty && Config.freeBit s.free 0 then retirePage s ctx va else poisonPage s (s.asid ctx) va

/-- POISON of a coach's store: the address is not a lane's, a free value (log 6). -/
def storeLost (s : State) (tid : Nat) : State :=
  haltTeam s tid 0 ⟨.poison, Config.freeWord s.free 12 0 &&& 1023, Config.freeWord s.free 12 1 ++ Config.freeWord s.free 12 2⟩

/-- The frame that a running team uses is clean: what the image holds is what it holds (R114, R309). The comparison stands
for a dirty bit (log 90). -/
def frameClean (s : State) (tid : Nat) (t : Team) : Bool :=
  let words := stateBlock t ++ (splitRecords s tid t).flatten
  match hwReadLines s t.ctx t.comp ((words.length + 31) / 32) (imageBase s t + 2 ^ 20) with
  | .ok (_, ws) => ws.take words.length == words
  | .error _ => false

/-- A state frame is lost (R309): a clean one is refilled from the image, at once for a team that runs and at its resumption
for one that does not; a dirty one halts its context. -/
def loseFrame (s : State) (tid : Nat) (t : Team) : State :=
  match t.frame with
  | .inUse => if frameClean s tid t then s else storeLost s tid
  | .evictable _ true _ => storeLost s tid
  | .evictable _ false _ => s.modTeam tid (fun t => { t with frame := .image })
  | .image => s

/-- UNCORRECTABLE_ERROR (R309). -/
def execUncorrectableError (site : ErrSite) (s : State) : Host.Outcome State Fault Refusal :=
  match site with
  | .block key => .next (loseBlock s key)
  | .l2Line asid line =>
    match l2Find s asid line with
    | none => .next s
    | some l => if l.dirty || regPinned l then .next (poisonPage s asid (line * 128)) else .next (dropL2 s asid line)
  | .l1Line coach asid line =>
    match l1Find s coach asid line with
    | none => .next s
    | some l =>
      if l.words.any isReg then .next (poisonPage s asid (line * 128))
      else .next { s with l1 := s.l1.filter (fun x => !(x.coach == coach && x.asid == asid && x.line == line)) }
  | .icacheLine coach asid line =>
    .next { s with icache := s.icache.filter (fun x => !(x.coach == coach && x.asid == asid && x.line == line)) }
  | .regLine tid line =>
    match (s.team tid).bind (fun t => t.lines.find? (fun l => l.line == line && l.st != .filling)) with
    | none => .next s
    | some l =>
      if l.dirty then .next (storeLost s tid)
      else if l.st == .held then
        .next (s.modTeam tid (fun t => { t with lines := t.lines.map (fun x =>
          if x.line == line && x.coach == l.coach then { x with st := .filling } else x) }))
      else .next (dropLine s tid l)
  | .stateFrame tid =>
    match s.team tid with
    | none => .next s
    | some t => .next (loseFrame s tid t)
  | .scratchpad d h =>
    match s.drove d with
    | none => .next s
    | some dr =>
      match Store.find dr.handles h with
      | none => .next s
      | some x =>
        .next (haltContext s ⟨dr.ctx, .poison, 0, x.coach, Config.freeWord s.free 12 0 &&& 1023,
          Config.freeWord s.free 12 1 ++ Config.freeWord s.free 12 2⟩)
  | .scheduler ctx =>
    if ctx < 16 then .next (haltContext s ⟨ctx, .engineFault, 4, Config.freeNat s.free 262144 % 262144, Config.freeWord s.free 7 0, 0⟩)
    else .next s
  | .keyTable => .next s
  | .port _ => .next s
  | .hostLink => .next s

/-- Halt some contexts with ENGINE_FAULT (R310); TINFO is unit-specific, a free value (R291, log 6). -/
def failContexts (s : State) (cs : List Nat) (origin unit : Nat) : State :=
  cs.eraseDups.foldl (fun s c =>
    if c < 16 then haltContext s ⟨c, .engineFault, origin, unit, Config.freeWord s.free 13 unit, 0⟩ else s) s

/-- The contexts that occupy a failed coach (R28): those with a placed team there. That a scratchpad buffer or evictable
lines left on the coach do not occupy it is the model's choice (log 99). -/
def coachContexts (s : State) (coach : Nat) : List Nat :=
  (s.teams.filter (fun e => e.2.coach == coach && !e.2.sys &&
    (match s.drove e.2.drove with | some d => d.train.isSome | none => false))).map (·.2.ctx)

/-- COACH_FAILURE (R28, R200, R310): its contexts halt, its registered words are LOST. -/
def execCoachFailure (coach : Nat) (s : State) : Host.Outcome State Fault Refusal :=
  if coach ≥ 512 then .next s
  else
    let cs := coachContexts s coach
    let s := loseWords (s.modCoach coach (fun k => { k with failed := true })) (· == coach)
    .next (failContexts s cs 0 coach)

/-- Contexts that occupy an engine: their commands, shares or runs are there; for an NMU, their partition holds its
slice. -/
def engineContexts (s : State) (e : EngineUnit) : List Nat :=
  match e with
  | .dray n => (((s.dray n).queues.flatMap (·.2)).map (·.ctx))
  | .tandem die => (s.colls.filter (fun c => c.die == die)).map (·.ctx)
  | .tensor coach => (s.coach coach).tensor.map (fun h => h.tid / 8192)
  | .bank u =>
    (match (s.bank u).exec with | some x => [x.run.ctx] | none => []) ++ ((s.bank u).queue.map itemCtx) ++
      ((s.bank u).kept.map (·.1)) ++ ((s.bank u).saved.map (·.1))
  | .nmu n => (s.ctxs.filter (fun c => match s.part c.2.part with | some p => p.slices.contains (n % 16) | none => false)).map (·.1)

/-- Origin kind and unit of a failed engine (R302). -/
def engineOrigin (e : EngineUnit) : Nat × Nat :=
  match e with | .tensor c => (1, c) | .dray n => (2, n) | .tandem d => (3, d) | .bank u => (5, u) | .nmu _ => (6, 0)

/-- ENGINE_FAILURE (R310). -/
def execEngineFailure (e : EngineUnit) (s : State) : Host.Outcome State Fault Refusal :=
  .next (failContexts s (engineContexts s e) (engineOrigin e).1 (engineOrigin e).2)

end Sys2Proof.Machine
end

