-- ==== Sys2Proof/Machine/Tenancy.lean ====
section
/-! DEFINITION. Sequences, migration, memory slices, and the creation and destruction of contexts (spec/13 R311 to R327;
spec/11 R270; spec/12 R299). -/
namespace Sys2Proof.Machine

-- ## sequences (R319, R321)

/-- A sequence's region meets a span. -/
def seqMeets (q : Seq) (lo len : Nat) : Bool := rangesMeet q.base (65536 * q.units) lo len

/-- Some present leaf of the context lies in a span. -/
def leafIn (s : State) (ctx lo len : Nat) : Bool :=
  (ctxLeaves s ctx).any (fun l => rangesMeet l.1 (pageSize l.2.1) lo len)

/-- The split's wait is over, and s[D] has its value; a team that does not run receives it when it goes on (R402). -/
def endWait (s : State) (tid uid : Nat) (w : Wait) (d : Nat) (v : Word) : State :=
  s.modTeam tid (fun t =>
    if t.running then (t.setS d v).modSplit uid (fun x => { x with waits := x.waits.filter (· != w) })
    else t.modSplit uid (fun x => { x with waits := x.waits.map (fun y => if y == w then .answer d v else y) }))

/-- A handle (R319): bit 31, the slot's generation, the slot. -/
def seqHandle (gen : BitVec 19) (slot : Nat) : Word := BitVec.ofNat 32 (2 ^ 31 + 4096 * gen.toNat + slot)

/-- What is left of an ENDED region when a new sequence takes a span: its mark is dropped there (R319). -/
def Seq.without (q : Seq) (lo len : Nat) : List Seq :=
  let e := q.base + 65536 * q.units
  let piece (a b : Nat) : List Seq := if a < b then [{ q with base := a, units := (b - a) / 65536 }] else []
  if q.ended && seqMeets q lo len then piece q.base lo ++ piece (lo + len) e else [q]

/-- What SEQOPEN answers (R319), once no ENDED region that the span meets still has a leaf. -/
def seqopenAnswer (s : State) (ctx comp base n : Nat) (c : Context) : State × Word :=
  let len := 65536 * n
  let live := c.seqs.filter (fun q => !q.ended)
  if live.any (fun q => seqMeets q base len) then (s, 1)
  else if leafIn s ctx base len then (s, 2)
  else if decide (c.seqmax ≤ live.length) then (s, 0)
  else match freeSlot s with
    | none => (s, 0)
    | some k =>
      let s := makeLive s k ctx comp
      let h := seqHandle (s.key k).gen k
      (s.modCtx ctx (fun c => { c with seqs := c.seqs.flatMap (fun q => q.without base len) ++ [⟨h, k, base, n, comp, false⟩] }), h)

/-- The region ended, and the memory manager has not yet cleared its leaves and freed its slot (R319, R321). -/
def stillEnding (s : State) (ctx : Nat) (q : Seq) : Bool :=
  leafIn s ctx q.base (65536 * q.units) ||
    ((s.key q.slot).st == .ended && seqHandle (s.key q.slot).gen q.slot == q.handle)

/-- SEQOPEN_SERVICE (R319, R402): the memory manager's answer to a parked SEQOPEN. -/
def execSeqopenService (tid sp : Nat) (s : State) : Host.Outcome State Fault Refusal :=
  match s.team tid with
  | none => .next s
  | some t =>
    match (t.split sp).bind (fun x => x.waits.findSome? (fun w => match w with | .seqopen d b n => some (d, b, n) | _ => none)),
        s.ctx t.ctx with
    | some (d, base, n), some c =>
      if c.seqs.any (fun q => q.ended && seqMeets q base (65536 * n) && stillEnding s t.ctx q) then .next s
      else
        let (s, v) := seqopenAnswer s t.ctx t.comp base n c
        .next (endWait s tid sp (.seqopen d base n) d.toNat v)
    | _, _ => .next s

/-- SEQEND_END_INSTANT (R321): once no range lock of the context meets the region, E; the split goes on. -/
def execSeqendEndInstant (tid sp : Nat) (s : State) : Host.Outcome State Fault Refusal :=
  match s.team tid with
  | none => .next s
  | some t =>
    match (t.split sp).bind (fun x => x.waits.findSome? (fun w => match w with | .seqend h => some h | _ => none)),
        s.ctx t.ctx with
    | some h, some c =>
      match c.seqs.find? (fun q => q.handle == h && !q.ended) with
      | none => .next (endWait s tid sp (.seqend h) 0 0)
      | some q =>
        if s.locks.any (fun l => l.ctx == t.ctx && l.spad.isNone && seqMeets q l.lo l.len) then .next s
        else .next (endWait (endSlot s q.slot) tid sp (.seqend h) 0 0)
    | _, _ => .next s

-- ## migration (R326, R327)

/-- The bytes of a block in order. -/
def blockBytes (s : State) (linear : Bool) (block : Nat) : List Byte :=
  (blockRuns linear block).flatMap (fun r => (List.range r.2).map (fun i => Store.get 0 s.mem (r.1 + i)))

/-- Put bytes into a block. -/
def putBlock (s : State) (linear : Bool) (block : Nat) (bs : List Byte) : State :=
  let keys := (blockRuns linear block).flatMap (fun r => (List.range r.2).map (fun i => r.1 + i))
  { s with mem := (keys.zip bs).foldl (fun m e => Store.put 0 m e.1 e.2) s.mem }

/-- What the engine reads: the block checked under its slot's keys, none for a fresh one (R317, R318). -/
def readBlock (s : State) (k : KeySlot) (linear : Bool) (block : Nat) : Except Cause (Option (List Byte)) :=
  let tag := Store.get 0 s.seals block
  if tag == 0 then .ok none
  else if tag == k.keys || (k.st == .rotating && tag == k.old) then .ok (some (blockBytes s linear block))
  else .error .integrity

/-- Write a block under the slot's keys; a fresh one stays fresh. No buffered line of what stood there is left. -/
def writeBlock (s : State) (k : KeySlot) (linear : Bool) (block : Nat) (data : Option (List Byte)) : State :=
  let s := putBlock s linear block (data.getD (List.replicate 1024 0))
  { s with nmuBuf := s.nmuBuf.filter (fun l => l.sealId != block), seals := Store.put 0 s.seals block (if data.isSome then k.keys else 0) }

/-- The harvested page of a context that holds a block, and whether its leaf says the linear layout (R326): the leaf migrates,
under this slot. -/
def movingPage (s : State) (ctx slot block : Nat) : Option (Nat × Bool) :=
  ((ctxLeaves s ctx).find? (fun l => pteMig l.2.2 && pteKsel l.2.2 == slot && blockCovers l.2.1 l.2.2 block)).map
    (fun l => (l.1, pteLinear l.2.2))

/-- A block may be written for a partition: an HBM one lies in a slice ASSIGNED to it (R312, R326). -/
def blockOpen (s : State) (part block : Nat) : Bool :=
  decide (2 ^ 30 ≤ block) || s.slice (block % 2 ^ 26 / 2 ^ 22) == .assigned part

/-- Blocks go between devices over an established session, on a port of the partition (R327, R334, log 84). -/
def transferOpen (s : State) (part : Nat) (m : Migration) : Bool :=
  s.host.sessions.any (fun x => x.id == m.session && x.established) && s.ownsPort part m.port

/-- A block leaves its place: what its NMU still buffers is written back first. -/
def settleBlock (s : State) (block : Nat) : State :=
  let s := (s.nmuBuf.filter (fun l => l.sealId == block)).foldl nmuWriteBack s
  { s with nmuBuf := s.nmuBuf.filter (fun l => l.sealId != block) }

/-- A block of a harvested page goes to another place of its partition, or to another device (R326, R327), laid out as its
leaf says (R165). A page whose move has not begun waits for the scrubs (R324). -/
def moveBlock (s : State) (m : Migration) (a : Nat) : State :=
  let k := s.key m.slot
  let part := s.partOf k.ctx
  match movingPage s k.ctx m.slot a with
  | none => s
  | some (page, linear) =>
    if scrubBusy s && !s.moving.contains (k.ctx, page) then s
    else
    let s := settleBlock s a
    let s : State := { s with moving := if s.moving.contains (k.ctx, page) then s.moving else s.moving ++ [(k.ctx, page)] }
    match readBlock s k linear a with
    | .error c => haltContext s ⟨k.ctx, c, 6, 0, 0, 0⟩
    | .ok data =>
      match m.dst with
      | some b => if blockOpen s part b then writeBlock s k linear b data else s
      | none =>
        if transferOpen s part m then s.send part m.peer k.ctx (sliceUnit 0) (sliceUnit 0) (.block a data) else s

/-- A block arrives from another device, and is sealed under the slot's keys (R327). -/
def arriveBlock (s : State) (m : Migration) (b : Nat) : State :=
  let k := s.key m.slot
  let part := s.partOf k.ctx
  if !s.ownsPort part m.port then s.dropFlit
  else if transferOpen s part m && blockOpen s part b && !scrubBusy s then writeBlock s k m.linear b m.data
  else s

/-- MIGRATION_BLOCK_MOVE (R326, R327): one block of a harvested page is copied and re-sealed elsewhere. No slot of the base
dies rotates meanwhile (R324). -/
def execMigrationBlockMove (m : Migration) (s : State) : Host.Outcome State Fault Refusal :=
  let k := s.key m.slot
  if !(k.st == .live || k.st == .rotating) || sweepBusy s then .next s
  else match m.src, m.dst with
    | some a, _ => .next (moveBlock s m a)
    | none, some b => .next (arriveBlock s m b)
    | none, none => .next s

-- ## memory slices (R311, R312)

/-- The kernel slots of a scrubbed slice's units read zero for a context that already runs (R225, R325). -/
def blankedSlots (s : State) (slice part : Nat) : List (Nat × Nat) :=
  (s.ctxs.filter (fun c => c.2.part == part && c.2.running)).flatMap (fun c => (List.range 4).map (fun n => (slice, 4 * c.1 + n)))

/-- SLICE_ASSIGNMENT (R312): a FREE slice becomes part of a partition. -/
def execSliceAssignment (slice part : Nat) (s : State) : Host.Outcome State Fault Refusal :=
  match s.part part with
  | none => .next s
  | some _ =>
    if slice ≥ 16 || s.slice slice != .free then .next s
    else
      let s := (s.setSlice slice (.assigned part)).modPart part (fun p => { p with slices := p.slices ++ [slice] })
      let s : State := { s with blankSlots := s.blankSlots ++ blankedSlots s slice part }
      .next (tdiChanged s part)

/-- SLICE_DRAIN_START (R312, R326): firmware removes a slice from its partition, which keeps at least one (R311). -/
def execSliceDrainStart (slice : Nat) (s : State) : Host.Outcome State Fault Refusal :=
  match s.slice slice with
  | .assigned p =>
    let others := (((s.part p).map (fun p => p.slices)).getD []).filter (fun j => j != slice && s.slice j == .assigned p)
    if others.isEmpty then .next s else .next (tdiChanged (s.setSlice slice (.draining p)) p)
  | _ => .next s

-- ## contexts (R270, R311, R313)

/-- A list has no repeats. -/
def noRepeats : List Nat → Bool
  | [] => true
  | x :: r => !r.contains x && noRepeats r

/-- Routes (R311, R335): one entry per member, route ids of 12 bits that no other entry of the device has, masks of the
partition's own ports. -/
def routesLegal (s : State) (g : PartCfg) : Bool :=
  let used := s.parts.flatMap (fun p => p.2.routes.map (fun r => r.2.1))
  noRepeats (g.routes.map (·.1)) && noRepeats (g.routes.map (fun r => r.2.1)) &&
  g.routes.all (fun r => decide (r.1 < g.members) && decide (r.2.1 < 4096) && !used.contains r.2.1 &&
    r.2.2.all g.ports.contains)

/-- What firmware gives a new partition is free and legal (R279, R311). -/
def cfgLegal (s : State) (g : PartCfg) : Bool :=
  let used := s.parts.flatMap (fun p => p.2.owned)
  let usedPorts := s.parts.flatMap (fun p => p.2.ports)
  noRepeats g.owned && g.owned.all (fun t => decide (t < Config.trains) && !s.absentTrains.contains t && !used.contains t) &&
  noRepeats g.slices && !g.slices.isEmpty && g.slices.all (fun j => decide (j < 16) && s.slice j == .free) &&
  noRepeats g.ports && g.ports.all (fun n => decide (n < 18) && !usedPorts.contains n) &&
  routesLegal s g &&
  decide (1 ≤ g.members) && decide (g.members ≤ Config.maxMembers) && decide (g.member < g.members) &&
  decide (1 ≤ g.schedule.length) && decide (g.schedule.length ≤ 16) &&
  g.schedule.all (fun e => decide (e.1 < 16) && decide (1 ≤ e.2) && decide (e.2 ≤ 2 ^ 24))

/-- A partition as firmware makes it. -/
def newPartition (g : PartCfg) : Partition :=
  { owned := g.owned, borrowed := [], borrowLimit := g.borrowLimit, slices := g.slices, ports := g.ports,
    member := g.member, members := g.members, schedule := g.schedule, epoch := g.epoch, until_ := none,
    routes := g.routes, armed := none }

/-- The fields of a context record have the alignment and ranges of R270. -/
def recordLegal (r : CtxRecord) : Bool :=
  decide (r.ctxid < 16) && decide (r.asid < 65536) && decide (r.rxlen < 2 ^ 32) && r.rimg.toNat % 2 ^ 21 == 0 && r.pwbase.toNat % 2 ^ 42 == 0 &&
  r.bksave.toNat % 2 ^ 30 == 0 && r.rxreg.toNat % 65536 == 0 && r.nodetab.toNat % 128 == 0 &&
  decide (1 ≤ r.ncount) && decide (r.ncount ≤ 262144) && r.stoparea.toNat % 65536 == 0 && r.poltab.toNat % 64 == 0 &&
  r.qsave.toNat % 2 ^ 20 == 0 && decide (r.slotimg.length ≤ 256)

/-- The first n FREE key slots, ascending. -/
def freeSlotsN (s : State) : Nat → List Nat
  | 0 => []
  | n + 1 =>
    match freeSlot s with
    | none => []
    | some k => k :: freeSlotsN (s.setKey k { s.key k with st := .live }) n

/-- Load bytes into a new context's pages, sealed under the pages' keys. -/
def loadBytes (s : State) (ctx : Nat) (bs : List (Nat × Byte)) : State :=
  bs.foldl (fun s e =>
    match rawTrans s ctx e.1 with
    | some t => { sealBlock s t with mem := Store.put 0 s.mem t.key e.2 }
    | none => s) s

/-- No slice of a partition is still being scrubbed (R329). -/
def scrubbed (s : State) (p : Partition) : Bool :=
  p.slices.all (fun j => match s.slice j with | .scrubbing _ => false | _ => true)

/-- The context may be created (R270, R311, R313, R329): firmware runs, its number and ASID are free, its entries and key
slots can be had, its slices are scrubbed, and a partition across devices has its time (R336). -/
def creationLegal (s : State) (x : CtxSpec) : Bool :=
  let p := s.part x.part
  let members := match p, x.cfg with | some p, _ => p.members | none, some g => g.members | none, none => 1
  s.boot.st == .ready && recordLegal x.record && (s.ctx x.record.ctxid).isNone && decide (x.part < 16) &&
  !s.ctxs.any (fun c => c.2.spec.asid == x.record.asid) &&
  (match p, x.cfg with | some p, _ => scrubbed s p | none, some g => cfgLegal s g | none, none => false) &&
  decide (x.record.ncount + (s.ctxs.map (fun c => if c.1 < 16 then c.2.spec.ncount else 0)).sum ≤ 262144) &&
  decide (1 ≤ x.nc) && decide (x.nc ≤ 15) && decide (x.seqmax ≤ 4095) && decide (x.gates.length ≤ 16) &&
  (freeSlotsN s x.nc).length == x.nc && !(s.clk.tsyncLost && decide (1 < members))

/-- A new context: the partition that firmware makes for it, key slots for its compartments, every entry IDLE, not running
(R270, R271, R311, R313). -/
def newContext (s : State) (spec : CtxSpec) : State :=
  let s : State := match s.part spec.part, spec.cfg with
    | none, some g =>
      { s with
        parts := Store.insert s.parts spec.part (newPartition g)
        slices := g.slices.foldl (fun m j => Store.insert m j (.assigned spec.part)) s.slices }
    | _, _ => s
  let slots := freeSlotsN s spec.nc
  let s := slots.zipIdx.foldl (fun s e => makeLive s e.1 spec.record.ctxid e.2) s
  let record : CtxRecord := { spec.record with kslot := slots.getD 0 0 }
  let c : Context := { Context.blank with
    spec := record, part := spec.part, nc := spec.nc, seqmax := spec.seqmax, slots := slots, gates := spec.gates,
    running := false, started := false }
  { s with ctxs := Store.insert s.ctxs spec.record.ctxid c }

/-- CONTEXT_CREATION (R270, R271, R311 to R313): a new context, its page tables and its bytes. -/
def execContextCreation (spec : CtxSpec) (s : State) : Host.Outcome State Fault Refusal :=
  if !creationLegal s spec then .next s
  else match applyFix (newContext s spec) ⟨spec.ptes⟩ with
    | some s' => .next (loadBytes s' spec.record.ctxid spec.load)
    | none => .next s

/-- A bank operation of a context. -/
def dropBankItems (ctx : Nat) (b : BankUnit) : BankUnit :=
  { b with
    slots := b.slots.filter (fun e => e.1 / 4 != ctx)
    exec := b.exec.filter (fun x => x.run.ctx != ctx)
    kept := Store.erase b.kept ctx
    saved := Store.erase b.saved ctx
    queue := b.queue.filter (fun i => itemCtx i != ctx) }

/-- Everything of a context on the device's units, caches and queues is gone. -/
def eraseContext (s : State) (ctx asid : Nat) : State :=
  { s with
    l2 := s.l2.filter (fun l => l.asid != asid)
    l1 := s.l1.filter (fun l => l.asid != asid)
    icache := s.icache.filter (fun l => l.asid != asid)
    tlb := s.tlb.filter (fun t => t.asid != asid)
    rmap := s.rmap.filter (fun r => r.asid != asid)
    poison := s.poison.filter (fun p => match p with | .page a _ _ => a != asid)
    posted := s.posted.filter (fun p => p.ctx != ctx)
    locks := s.locks.filter (fun l => l.ctx != ctx)
    teams := s.teams.filter (fun e => e.2.sys || e.2.ctx != ctx)
    droves := s.droves.filter (fun e => e.2.ctx != ctx)
    coaches := s.coaches.map (fun (e : Nat × Coach) => (e.1, { e.2 with
      acquire := e.2.acquire.filter (fun a => a.1 / 8192 != ctx), clears := e.2.clears.filter (fun a => a / 8192 != ctx)
      tensor := e.2.tensor.filter (fun h => h.tid / 8192 != ctx) }))
    drays := s.drays.map (fun (e : Nat × Dray) => (e.1, { e.2 with queues := e.2.queues.map (fun q =>
      (q.1, q.2.filter (fun c => c.ctx != ctx))) }))
    colls := s.colls.filter (fun c => c.ctx != ctx)
    links := s.links.filter (fun l => l.ctx != ctx)
    banks := s.banks.map (fun e => (e.1, dropBankItems ctx e.2))
    bankFlight := s.bankFlight.filter (fun i => itemCtx i != ctx)
    remote := s.remote.filter (fun r => r.ctx != ctx)
    inbound := s.inbound.filter (fun r => r.ctx != ctx)
    moving := s.moving.filter (fun m => m.1 != ctx)
    retired := s.retired.filter (fun r => r.1 != ctx)
    ctxs := Store.erase s.ctxs ctx }

/-- CONTEXT_DESTRUCTION (R299, R313): a resident context that does not run, its halt finished if it has halted; its
key slots end, its leaves are cleared, and the slots are FREE; a gang switch armed for it finds it not resident (R362). -/
def execContextDestruction (ctx : Nat) (s : State) : Host.Outcome State Fault Refusal :=
  match s.ctx ctx with
  | none => .next s
  | some c =>
    let busy := c.running || (match c.halt with | some h => !h.finished | none => false)
    if busy || decide (16 ≤ ctx) then .next s
    else
      let slots := (c.slots ++ (c.seqs.filter (fun q => !q.ended)).map (·.slot)).eraseDups
      let s := slots.foldl (fun s k => releaseSlot (clearLeaves (endSlot s k) k) k) s
      let armed := s.parts.filter (fun p => p.2.armed.any (fun a => a.ctx == ctx))
      .next (eraseContext (armed.foldl (fun s p => disarm s p.1 2) s) ctx c.spec.asid)

end Sys2Proof.Machine
end

