-- ==== Sys2Proof/Machine/Platform.lean ====
section
/-! DEFINITION. The host link, boot, management, security messages, clocks and fabric ports (spec/13 R328, R329; spec/14
R330 to R350; spec/11 R275). -/
namespace Sys2Proof.Machine

-- ## node-release windows (R275, R330)

/-- A host write that is ignored and counted (R275, R330). -/
def badRelease (s : State) : State := { s with mgmt := { s.mgmt with badrel := s.mgmt.badrel + 1 } }

/-- State of a partition's TDI; it starts unlocked (R328). -/
def tdiOf (s : State) (part : Nat) : TdiState := (Store.find s.host.tdi part).getD .unlocked

/-- The context's window takes writes: it is resident and its TDI is in RUN (R328, R330). -/
def windowOpen (s : State) (ctx : Nat) : Option Context :=
  match s.ctx ctx with
  | some c => if decide (ctx < 16) && tdiOf s c.part == .run then some c else none
  | none => none

/-- A write of offset 0x000 (R275). -/
def releaseNode (s : State) (ctx : Nat) (v : DWord) : State :=
  match windowOpen s ctx with
  | none => badRelease s
  | some c =>
    let arm := v.getLsbD 63
    let cnt := field v.toNat 47 32
    let e := field v.toNat 17 0
    if field v.toNat 62 48 != 0 || field v.toNat 31 18 != 0 || decide (c.spec.ncount ≤ e) || (!arm && cnt == 0) then badRelease s
    else if !schedOpen s ctx then s
    else if arm then
      let (s, taken) := armEntry s ctx e
      if taken then s else s.modCtx ctx (fun c => { c with posts := c.posts ++ [.arm hostPost e] })
    else decEntry s ctx e cnt

/-- A write of offset 0x008 (R275, R280). -/
def reloadPolicy (s : State) (ctx : Nat) : State :=
  match windowOpen s ctx with
  | none => badRelease s
  | some _ => if schedOpen s ctx then readPolicy s ctx else s

/-- NODE_RELEASE_ARM (R275). -/
def execNodeReleaseArm (ctx : Nat) (value : DWord) (s : State) : Host.Outcome State Fault Refusal :=
  if value.getLsbD 63 && s.host.linkUp then .next (releaseNode s ctx value) else .next s

/-- NODE_RELEASE_DECREMENT (R275). -/
def execNodeReleaseDecrement (ctx : Nat) (value : DWord) (s : State) : Host.Outcome State Fault Refusal :=
  if !value.getLsbD 63 && s.host.linkUp then .next (releaseNode s ctx value) else .next s

/-- POLICY_RELOAD (R275, R280). -/
def execPolicyReload (ctx : Nat) (s : State) : Host.Outcome State Fault Refusal :=
  if s.host.linkUp then .next (reloadPolicy s ctx) else .next s

-- ## boot (R338 to R342)

/-- The boot state changes: vector 34 (R331). -/
def bootTo (s : State) (st : BootState) : State := ({ s with boot := { s.boot with st := st } } : State).interrupt 34

/-- GO written 1 (R338): verification starts in ROM_WAIT, hardware clearing GO; in FAILED the device goes back to
ROM_WAIT; elsewhere the bit is only stored. -/
def writeGo (s : State) : State :=
  match s.boot.st with
  | .romWait => bootTo { s with boot := { s.boot with cmd := s.boot.cmd &&& 0xFFFFFFFE, err := 0 } } .verify
  | .failed => bootTo { s with boot := { s.boot with cmd := s.boot.cmd &&& 0xFFFFFFFE } } .romWait
  | _ => { s with boot := { s.boot with cmd := s.boot.cmd ||| 1 } }

/-- Code of a boot state (R338). -/
def bootCode : BootState → Nat | .romWait => 0 | .verify => 1 | .derive_ => 2 | .ready => 3 | .failed => 4

/-- BOOTSTS (R338): the state, and the error. -/
def bootsts (s : State) : Word := BitVec.ofNat 32 (bootCode s.boot.st + s.boot.err % 256 * 65536)

/-- Byte i of a number, the lowest first. -/
def nthByte (n i : Nat) : Byte := BitVec.ofNat 8 (n / 256 ^ i)

/-- A byte of BAR0 (R330, R338): the boot registers; the mailbox, each number in 8 bytes (log 25); the rest reads zero. -/
def bar0Byte (s : State) (off : Nat) : Byte :=
  if off < 4 then nthByte (bootsts s).toNat off
  else if 8 ≤ off ∧ off < 12 then nthByte s.boot.cmd.toNat (off - 8)
  else if 0x10000 ≤ off then nthByte (s.mgmt.mailbox.getD ((off - 0x10000) / 8) 0) ((off - 0x10000) % 8)
  else 0

/-- What the host reads from a BAR (R275, R330): BAR0; zero from BAR2; the staged bytes from BAR4 while it is open. A read
changes nothing. -/
def hostRead (s : State) (bar off n : Nat) : List Byte :=
  (List.range n).map (fun i =>
    match bar with
    | 0 => if s.boot.powered then bar0Byte s (off + i) else 0
    | 4 => if s.boot.powered && s.boot.st == .romWait && decide (off + i < 2 ^ 28) then
        Store.get 0 s.mem (stagingKey (off + i)) else 0
    | _ => 0)

/-- Bytes into the staging window, while it is open (R330, R338). -/
def stageBytes (s : State) (off : Nat) (bytes : List Byte) : State :=
  if s.boot.powered && s.boot.st == .romWait && decide (off + bytes.length ≤ 2 ^ 28) then
    { s with mem := bytes.zipIdx.foldl (fun m e => Store.put 0 m (stagingKey (off + e.2)) e.1) s.mem }
  else s

/-- One byte written into BOOTCMD (R338). -/
def cmdByte (w : Word) (i : Nat) (b : Byte) : Word :=
  (w &&& ~~~((0xFF : Word) <<< (8 * i))) ||| ((b.setWidth 32) <<< (8 * i))

/-- A write to BAR0: BOOTCMD takes GO, and its reserved bits stay zero (R6); the boot status, the mailbox and the reserved space take none. In FAILED
any write of GO counts (R338). -/
def writeBar0 (s : State) (off : Nat) (bytes : List Byte) : State :=
  let hits := bytes.zipIdx.filter (fun e => decide (8 ≤ off + e.2) && decide (off + e.2 < 12))
  let w := hits.foldl (fun w e => cmdByte w (off + e.2 - 8) e.1) s.boot.cmd &&& 1
  if !s.boot.powered || hits.isEmpty then s
  else
    let s : State := { s with boot := { s.boot with cmd := w } }
    if (w.getLsbD 0 || s.boot.st == .failed) && hits.any (fun e => off + e.2 == 8) then writeGo s else s

/-- Little-endian value of some bytes. -/
def bytesValue (bs : List Byte) : DWord := BitVec.ofNat 64 (bytesNum bs)

/-- A write to BAR2: an aligned 8-byte write of offset 0x000 or 0x008 of a window is its release or reload; any other is
counted in BADREL (R275). -/
def writeBar2 (s : State) (off : Nat) (bytes : List Byte) : State :=
  if off ≥ 65536 then s
  else if bytes.length != 8 then badRelease s
  else match off % 4096 with
    | 0 => releaseNode s (off / 4096) (bytesValue bytes)
    | 8 => reloadPolicy s (off / 4096)
    | _ => badRelease s

/-- HOST_REGISTER_WRITE (R275, R330): a host write to any place of the BARs. -/
def execHostRegisterWrite (bar off : Nat) (bytes : List Byte) (s : State) : Host.Outcome State Fault Refusal :=
  if !s.host.linkUp then .next s
  else match bar with
    | 0 => .next (writeBar0 s off bytes)
    | 2 => .next (writeBar2 s off bytes)
    | 4 => .next (stageBytes s off bytes)
    | _ => .next s

/-- FIRMWARE_STAGING_WRITE (R330). -/
def execFirmwareStagingWrite (off : Nat) (bytes : List Byte) (s : State) : Host.Outcome State Fault Refusal :=
  if s.host.linkUp then .next (stageBytes s off bytes) else .next s

/-- BOOT_GO (R338): the host writes GO. -/
def execBootGo (s : State) : Host.Outcome State Fault Refusal :=
  if s.boot.powered && s.host.linkUp then .next (writeGo s) else .next s

/-- Memory that outlives a power cycle: the host's own (log 4). -/
def hostBytes (m : List (Nat × Byte)) : List (Nat × Byte) :=
  m.filter (fun e => decide (tierKey 3 0 ≤ e.1) && decide (e.1 < tierKey 4 0))

/-- POWER_UP (R338): a cold start; the fuses and the cold-boot counter stay (R341), and so does the host's memory. -/
def execPowerUp (s : State) : Host.Outcome State Fault Refusal :=
  .next { State.reset with
    agenda := s.agenda, free := s.free, nextId := s.nextId, nextKeySet := s.nextKeySet, mem := hostBytes s.mem
    boot := { Boot.reset with powered := true, counter := s.boot.counter, fuses := s.boot.fuses } }

/-- A byte, a word or a pair of the staged image. -/
def imageByte (s : State) (i : Nat) : Byte := Store.get 0 s.mem (stagingKey i)
def imageNum (s : State) (off n : Nat) : Nat := readBytes s.mem (stagingKey off) n
/-- The first n bytes of the image. -/
def imageBytes (s : State) (n : Nat) : List Byte := (List.range n).map (imageByte s)

/-- A repair entry (R339), or none when it is malformed. -/
def repairEntry (w : Nat) : Option (Nat × Nat × Nat) :=
  if field w 31 10 != 0 || field w 3 0 > 8 then none else some (field w 9 8, field w 7 4, field w 3 0)

/-- The image's repair list, or none. -/
def repairList (s : State) : Option (List (Nat × Nat × Nat)) :=
  let off := imageNum s 0x18 4
  let n := imageNum s 0x1C 4
  (List.range n).foldr (fun i acc =>
    match acc, repairEntry (imageNum s (off + 4 * i) 4) with | some r, some e => some (e :: r) | _, _ => none) (some [])

/-- What VERIFY finds wrong (R338 to R340), checked in this order (log 24): header, length, signature, repair list. An
image too short for its header, or whose repair list or signature lies beyond its end, has the wrong length, by the model's
choice (log 24). -/
def verifyError (s : State) : Nat :=
  let len := imageNum s 8 8
  let sig := imageNum s 0x20 4
  let n := imageNum s 0x1C 4
  if imageNum s 0 4 != 0x4B583946 || imageNum s 4 4 != 1 then 1
  else if len < 0x28 || len > 2 ^ 28 || sig + imageNum s 0x24 4 > len || imageNum s 0x18 4 + 4 * n > len then 3
  else if !Config.signatureValid (imageBytes s len) then 2
  else if n > 64 || (repairList s).isNone then 4
  else 0

/-- The repair entries of train t's row (R27). -/
def rowEntries (xs : List (Nat × Nat × Nat)) (t : Nat) : List (Nat × Nat × Nat) := xs.filter (fun e => 16 * e.1 + e.2.1 == t)

/-- Trains that are absent: two entries of the image name their row (R339), or two coaches of it are bad (R28). -/
def absentOf (fuses image : List (Nat × Nat × Nat)) : List Nat :=
  (List.range Config.trains).filter (fun t =>
    decide (2 ≤ (rowEntries image t).length) || decide (2 ≤ (rowEntries (fuses ++ image).eraseDups t).length))

/-- The position of a train's row that is unused: that of its entry; with none it holds the spare, which the model puts at
position 8 (R27, log 87). -/
def unusedPosition (s : State) (train : Nat) : Nat :=
  match rowEntries s.boot.repair train with
  | e :: _ => e.2.2
  | [] => 8

/-- Where a logical position stands in its row (R27). -/
def physicalPosition (s : State) (train c : Nat) : Nat := if c < unusedPosition s train then c else c + 1

/-- Cycles of a message between two positions of a train: 2 cc a step, and a skipped unit adds 2 (R29). Remapping changes
nothing else. -/
def trainRoute (s : State) (train a b : Nat) : Nat :=
  let p := physicalPosition s train a
  let q := physicalPosition s train b
  2 * (max p q - min p q)

/-- The per-boot tree's public key has a value of its own at every boot (R341, log 6). -/
def treeDigest (s : State) : List Byte := (List.range 32).map (fun i => Config.freeByte (1024 * s.free + 3) i)

/-- BOOT_VERIFY_DONE (R338 to R341): FAILED with its ERR; or the measurements, the repair list in effect, and DERIVE,
which burns the next position of the cold-boot counter. What the boot ROM and a repair list measure to are free values
(log 6). -/
def execBootVerifyDone (s : State) : Host.Outcome State Fault Refusal :=
  if s.boot.st != .verify then .next s
  else
    let e := verifyError s
    if e != 0 then .next (bootTo { s with boot := { s.boot with err := e } } .failed)
    else
      let image := (repairList s).getD []
      let list := (s.boot.fuses ++ image).eraseDups
      let b : Boot := { s.boot with
        repair := list
        certified := decide (s.boot.counter < 8192)
        counter := min 8192 (s.boot.counter + 1)
        measurements := [(List.range 32).map Config.romDigest, sha256 (imageBytes s (imageNum s 8 8)),
          (List.range 32).map (Config.repairDigest list)] }
      .next (bootTo { s with boot := b, absentTrains := absentOf s.boot.fuses image } .derive_)

/-- A team of a system coach, at the first word after the header of the image (log 12). -/
def firmwareTeam (n : Nat) : Team :=
  { Team.blank with
    sys := true, ctx := systemCtx, coach := Config.coaches + n, asid := 65536,
    splits := [Split.fresh 0 0x28 (allLanes 32)], nextUid := 1 }

/-- BOOT_DERIVE_DONE (R341, R342): the per-boot tree; READY, with ERR 5 when no position was left to certify it; the
firmware's teams start on the system coaches, and firmware programs the HDM decoder (R333). -/
def execBootDeriveDone (s : State) : Host.Outcome State Fault Refusal :=
  if s.boot.st != .derive_ then .next s
  else
    let b : Boot := { s.boot with
      err := if s.boot.certified then 0 else 5
      leaves := 0
      measurements := s.boot.measurements ++ [treeDigest s]
      hdm := Config.hdmSize % (2 ^ 42 + 1) }
    let sys : Context := { Context.blank with spec := { CtxRecord.zero with asid := 65536 }, part := 99 }
    .next (bootTo { s with
      boot := b
      ctxs := Store.insert s.ctxs systemCtx sys
      teams := (List.range 8).foldl (fun m n => Store.insert m (systemTeam + n) (firmwareTeam n)) s.teams } .ready)

-- ## hot reset and the links (R329, R333 to R335)

/-- Halt flits for every context (R329). -/
def haltFlits (s : State) : State :=
  (s.ctxs.filter (fun c => decide (c.1 < 16))).foldl (fun s c =>
    match s.part c.2.part with
    | some p => ((List.range p.members).filter (· != p.member)).foldl (fun s m =>
        s.send c.2.part m c.1 haltUnit haltUnit (.halt c.1 m)) s
    | none => s) s

/-- What a hot reset or link-down of the host link destroys (R329); in VERIFY and DERIVE the boot starts again
(R341). -/
def loseTenants (s : State) : State :=
  let s := haltFlits s
  let s : State := { s with
    cur := .idle
    mem := s.mem.filter (fun e => decide (e.1 < 4 * 2 ^ 48) || decide (20 * 2 ^ 48 ≤ e.1))
    poison := [], l2 := [], l1 := [], icache := [], nmuBuf := [], tlb := [], rmap := [], posted := [], locks := []
    teams := s.teams.filter (fun e => e.2.sys)
    droves := []
    coaches := s.coaches.map (fun e => (e.1, { Coach.empty with failed := e.2.failed }))
    drays := [], colls := [], links := [], banks := [], bankFlight := [], remote := [], inbound := []
    ctxs := s.ctxs.filter (fun c => decide (16 ≤ c.1))
    parts := s.parts.map (fun (p : Nat × Partition) => (p.1, { p.2 with armed := none, until_ := none }))
    keys := [], moving := [], retired := []
    host := { s.host with
      spdmVersion := false, spdmCaps := false, spdmAlgs := false, sessions := [], reply := .none, ide := [],
      tdi := s.parts.map (fun p => (p.1, TdiState.error)), tdiReport := none, linkUp := false } }
  let s := s.slices.foldl (fun s e => match e.2 with | .assigned _ => startScrub s e.1 | _ => s) s
  if s.boot.st == .verify || s.boot.st == .derive_ then bootTo { s with boot := { s.boot with cmd := 0 } } .romWait else s

/-- HOST_HOT_RESET (R329, R341, R350). -/
def execHostHotReset (s : State) : Host.Outcome State Fault Refusal := .next (loseTenants s)

/-- HOST_LINK_DOWN (R329). -/
def execHostLinkDown (s : State) : Host.Outcome State Fault Refusal :=
  if s.host.linkUp then .next (loseTenants s) else .next s

/-- HOST_LINK_UP (R329): the link trains again; every tenant key has been erased. -/
def execHostLinkUp (s : State) : Host.Outcome State Fault Refusal := .next { s with host := { s.host with linkUp := true } }

/-- CXL_LINK_DOWN (R309, R333): every CXL-tier block is uncorrectable; clean pages are retired, dirty ones poisoned. -/
def execCxlLinkDown (s : State) : Host.Outcome State Fault Refusal :=
  let s : State := { s with cxlDown := true }
  let pages := (s.ctxs.filter (fun c => decide (c.1 < 16))).flatMap (fun c =>
    ((ctxLeaves s c.1).filter (fun l => pteTier l.2.2 == .cxl)).map (fun l => (c.1, l.1)))
  .next (pages.zipIdx.foldl (fun s p =>
    let dirty := (pageCopies s p.1.1 p.1.2).any (fun x => pteD x.2.2.2)
    if !dirty && Config.freeBit s.free p.2 then retirePage s p.1.1 p.1.2 else poisonPage s (s.asid p.1.1) p.1.2) s)

/-- The peers of a context whose route lists a port. -/
def usesPort (s : State) (ctx port peer : Nat) : Bool :=
  (((s.part (s.partOf ctx)).bind (fun p => Store.find p.routes peer)).map (fun r => r.2.contains port)).getD false

/-- ECTOUP_PORT_DOWN (R335, R350): the port's traffic is hashed over those that remain, and chunks of running contexts that
no acknowledgement has released are sent again on them. -/
def execEctoupPortDown (port : Nat) (s : State) : Host.Outcome State Fault Refusal :=
  if port ≥ 18 || s.portsDown.contains port then .next s
  else
    let s' : State := { s with portsDown := s.portsDown ++ [port] }
    .next ((s.ctxs.filter (fun c => ctxActive s c.1)).foldl (fun a c => resendKept a c.1 (usesPort s c.1 port)) s')

/-- ECTOUP_PORT_UP (R335). -/
def execEctoupPortUp (port : Nat) (s : State) : Host.Outcome State Fault Refusal :=
  .next { s with portsDown := s.portsDown.filter (· != port) }

-- ## global time and clocks (R336, R337, R348)

/-- Units of `frac` and `slew` in a nanosecond. -/
def nsUnit (s : State) : Nat := 10000 * s.clk.mhz
/-- The estimated error is above 20 ns (R337). -/
def timeOff (s : State) : Bool := decide (20 * nsUnit s < s.clk.slew.natAbs)
/-- No time-sync flit for 10 ms (R337). -/
def timeQuiet (s : State) : Bool := decide (s.clk.lastSync.toNat + 10000000 ≤ s.clk.gtime.toNat)

/-- TIME_SYNC_FLIT (R336, R337): the count is slewed towards the source, never stepped; good sync begins again after a
gap or a large error. -/
def execTimeSyncFlit (t : DWord) (s : State) : Host.Outcome State Fault Refusal :=
  let slew : Int := ((t.toNat : Int) - (s.clk.gtime.toNat : Int)) * (nsUnit s : Int)
  let bad := timeQuiet s || timeOff s || decide (20 * nsUnit s < slew.natAbs)
  .next { s with clk := { s.clk with
    slew := slew, lastSync := s.clk.gtime, goodSince := if bad then s.clk.gtime else s.clk.goodSince } }

/-- Halt contexts with ENGINE_FAULT, origin kind 6 (R337, R348). -/
def haltAll (s : State) (info : Word) (sel : Context → Bool) : State :=
  (s.ctxs.filter (fun c => decide (c.1 < 16) && sel c.2)).foldl (fun s c =>
    haltContext s ⟨c.1, .engineFault, 6, 0, info, 0⟩) s

/-- TSYNC_LOST (R337). -/
def execTsyncLost (s : State) : Host.Outcome State Fault Refusal :=
  if s.clk.tsyncLost || !(timeQuiet s || timeOff s) then .next s
  else
    let s : State := { s with clk := { s.clk with tsyncLost := true } }
    .next (haltAll s 1 (fun c => match s.part c.part with | some p => decide (1 < p.members) | none => false))

/-- TSYNC_RECOVERED (R337): after 1 s of good sync. -/
def execTsyncRecovered (s : State) : Host.Outcome State Fault Refusal :=
  if !s.clk.tsyncLost || timeQuiet s || timeOff s || decide (s.clk.gtime.toNat < s.clk.goodSince.toNat + 1000000000) then .next s
  else .next { s with clk := { s.clk with tsyncLost := false } }

/-- CLOCK_STEP (R348): 50 MHz down, or up to 1.9 GHz at most; global time goes on at its own rate. -/
def execClockStep (up : Bool) (s : State) : Host.Outcome State Fault Refusal :=
  let m := if up then s.clk.mhz + 50 else s.clk.mhz - 50
  if m > 1900 || m < 50 then .next s
  else .next { s with clk := { s.clk with
    mhz := m, frac := s.clk.frac * m / s.clk.mhz, slew := s.clk.slew * (m : Int) / (s.clk.mhz : Int) } }

/-- THERMAL_HALT (R348): at 115 °C every context halts, and the coach clock stops. -/
def execThermalHalt (s : State) : Host.Outcome State Fault Refusal :=
  if s.clk.stopped then .next s
  else .next { haltAll s 2 (fun _ => true) with clk := { s.clk with stopped := true } }

/-- THERMAL_RECOVERY (R348): below 95 °C the coach clock runs again. -/
def execThermalRecovery (s : State) : Host.Outcome State Fault Refusal :=
  .next { s with clk := { s.clk with stopped := false } }

-- ## management (R289, R349)

/-- A reply in the management mailbox: vector 33 (R331). Its form is the model's (log 25). -/
def mgmtReply (s : State) (xs : List Nat) : State :=
  ({ s with mgmt := { s.mgmt with mailbox := xs } } : State).interrupt 33

/-- A table as a list of numbers. -/
def flatten2 (xs : List (Nat × Nat)) : List Nat := xs.flatMap (fun e => [e.1, e.2])

/-- MGMT_READ_COUNTERS (R349). -/
def execMgmtReadCounters (s : State) : Host.Outcome State Fault Refusal :=
  let m := s.mgmt
  let perCtx := (s.ctxs.filter (fun c => decide (c.1 < 16))).map (fun c => (c.1, c.2.ownfall))
  .next (mgmtReply s ([m.badrel, m.portdrop, m.stalewb, m.ownfall] ++ flatten2 perCtx ++ flatten2 m.corrected))

/-- MGMT_CLEAR_COUNTERS (R349). -/
def execMgmtClearCounters (s : State) : Host.Outcome State Fault Refusal :=
  let s : State := { s with
    mgmt := { s.mgmt with corrected := [], badrel := 0, portdrop := 0, stalewb := 0, ownfall := 0 }
    ctxs := s.ctxs.map (fun (c : Nat × Context) => (c.1, { c.2 with ownfall := 0 })) }
  .next (mgmtReply s [])

/-- MGMT_READ_THRESHOLDS (R349). -/
def execMgmtReadThresholds (s : State) : Host.Outcome State Fault Refusal :=
  .next (mgmtReply s (flatten2 s.mgmt.thresholds))

/-- The unit exists (R297). -/
def advUnitOk (k : AdvKind) (idx : Nat) : Bool :=
  match k with | .slice => decide (idx < 16) | .port => decide (idx < 18) | _ => idx == 0

/-- MGMT_WRITE_THRESHOLDS (R349). -/
def execMgmtWriteThresholds (kind : AdvKind) (idx value : Nat) (s : State) : Host.Outcome State Fault Refusal :=
  if !advUnitOk kind idx then .next s
  else .next (mgmtReply { s with mgmt := { s.mgmt with
    thresholds := Store.insert s.mgmt.thresholds (counterKey (advCode kind, idx)) value } } [])

/-- MGMT_READ_POWER (R347, R349): the cap, the clock, then temperatures and five rails, which are free values
(log 6). -/
def execMgmtReadPower (s : State) : Host.Outcome State Fault Refusal :=
  .next (mgmtReply s ([s.clk.powerCap, s.clk.mhz] ++ (List.range 6).map (fun i => (Config.freeWord s.free 14 i).toNat)))

/-- MGMT_SET_POWER_CAP (R348): 1,400 W to 2,800 W. -/
def execMgmtSetPowerCap (watts : Nat) (s : State) : Host.Outcome State Fault Refusal :=
  if watts < 1400 || watts > 2800 then .next s
  else .next (mgmtReply { s with clk := { s.clk with powerCap := watts } } [])

/-- MGMT_READ_STATUS (R349): trains, repair list, counter positions left, per-boot leaves left, TSYNC_LOST, ports. -/
def execMgmtReadStatus (s : State) : Host.Outcome State Fault Refusal :=
  let b := s.boot
  .next (mgmtReply s ([Config.trains - s.absentTrains.length, 8192 - b.counter, 32768 - b.leaves,
      if s.clk.tsyncLost then 1 else 0] ++
    (List.range 18).map (fun p => if s.portsDown.contains p then 0 else 1) ++ b.repair.flatMap (fun e => [e.1, e.2.1, e.2.2])))

/-- MGMT_RECLAIM (R289). -/
def execMgmtReclaim (train : Nat) (s : State) : Host.Outcome State Fault Refusal :=
  .next (mgmtReply (reclaimTrain s train false) [])
/-- MGMT_RECLAIM_FORCE (R289). -/
def execMgmtReclaimForce (train : Nat) (s : State) : Host.Outcome State Fault Refusal :=
  .next (mgmtReply (reclaimTrain s train true) [])

-- ## SPDM (R328, R341, R342)

/-- The responder's answer. -/
def answerSpdm (s : State) (r : SpdmReply) : State := { s with host := { s.host with reply := r } }
/-- A request that comes too early (log 26). -/
def spdmIf (s : State) (ok : Bool) (f : State) : Host.Outcome State Fault Refusal :=
  if !s.host.linkUp then .next s else if ok then .next f else .next (answerSpdm s .unexpected)

/-- The responder runs with the device's firmware. -/
def spdmUp (s : State) : Bool := s.boot.st == .ready

/-- SPDM_GET_VERSION (R328): the connection starts anew (log 26). -/
def execSpdmGetVersion (s : State) : Host.Outcome State Fault Refusal :=
  spdmIf s (spdmUp s) (answerSpdm { s with host := { s.host with spdmVersion := true, spdmCaps := false, spdmAlgs := false } } .version)

/-- SPDM_GET_CAPABILITIES (R328). -/
def execSpdmGetCapabilities (s : State) : Host.Outcome State Fault Refusal :=
  spdmIf s (spdmUp s && s.host.spdmVersion) (answerSpdm { s with host := { s.host with spdmCaps := true } } .capabilities)

/-- SPDM_NEGOTIATE_ALGORITHMS (R328). -/
def execSpdmNegotiateAlgorithms (s : State) : Host.Outcome State Fault Refusal :=
  spdmIf s (spdmUp s && s.host.spdmCaps) (answerSpdm { s with host := { s.host with spdmAlgs := true } } .algorithms)

/-- The connection is negotiated. -/
def spdmReady (s : State) : Bool := spdmUp s && s.host.spdmAlgs

/-- SPDM_GET_DIGESTS (R328). -/
def execSpdmGetDigests (s : State) : Host.Outcome State Fault Refusal := spdmIf s (spdmReady s) (answerSpdm s .digests)
/-- SPDM_GET_CERTIFICATE (R328, R341). -/
def execSpdmGetCertificate (s : State) : Host.Outcome State Fault Refusal :=
  spdmIf s (spdmReady s) (answerSpdm s .certificate)

/-- A per-boot leaf signs (R342): the next one, or none when all 32,768 are spent. -/
def signLeaf (s : State) : Option (Nat × State) :=
  if s.boot.leaves < 32768 then some (s.boot.leaves, { s with boot := { s.boot with leaves := s.boot.leaves + 1 } }) else none

/-- SPDM_GET_MEASUREMENTS (R328, R340, R342). -/
def execSpdmGetMeasurements (s : State) : Host.Outcome State Fault Refusal :=
  spdmIf s (spdmReady s) (match signLeaf s with
    | some (l, s) => answerSpdm s (.measurements s.boot.measurements l)
    | none => answerSpdm s .unspecified)

/-- The lowest session number that is free, of four (R328). -/
def freeSession (s : State) : Option Nat := (List.range 4).find? (fun n => !s.host.sessions.any (·.id == n))

/-- SPDM_KEY_EXCHANGE (R328, R342): an error when no per-boot key is certified, no session is free, or no leaf is
left. -/
def execSpdmKeyExchange (s : State) : Host.Outcome State Fault Refusal :=
  spdmIf s (spdmReady s) (match freeSession s with
    | none => answerSpdm s .unspecified
    | some n =>
      if !s.boot.certified then answerSpdm s .unspecified
      else match signLeaf s with
        | some (l, s) =>
          answerSpdm { s with host := { s.host with sessions := s.host.sessions ++ [⟨n, false, 0⟩] } } (.keyExchange n l)
        | none => answerSpdm s .unspecified)

/-- Whether a session exists, and whether it is established. -/
def hasSession (s : State) (n : Nat) (e : Bool) : Bool := s.host.sessions.any (fun x => x.id == n && x.established == e)
/-- Change a session. -/
def modSession (s : State) (n : Nat) (f : Session → Session) : State :=
  { s with host := { s.host with sessions := s.host.sessions.map (fun x => if x.id == n then f x else x) } }

/-- Set the keys of an IDE stream through a session (R328); one that has keys keeps them. -/
def setIde (s : State) (stream session : Nat) : State :=
  if s.host.ide.any (·.1 == stream) then s else { s with host := { s.host with ide := s.host.ide ++ [(stream, session)] } }

/-- Number of the link IDE stream; the selective ones have their TDI's. -/
def linkStream : Nat := 16

/-- SPDM_FINISH (R328): the session is established; the link IDE stream gets its keys through the first (log 26). -/
def execSpdmFinish (session : Nat) (s : State) : Host.Outcome State Fault Refusal :=
  spdmIf s (spdmReady s && hasSession s session false)
    (answerSpdm (setIde (modSession s session (fun x => { x with established := true })) linkStream session) (.finished session))

/-- SPDM_HEARTBEAT (R328). -/
def execSpdmHeartbeat (session : Nat) (s : State) : Host.Outcome State Fault Refusal :=
  spdmIf s (spdmReady s && hasSession s session true) (answerSpdm s (.heartbeat session))

/-- SPDM_KEY_UPDATE (R328). -/
def execSpdmKeyUpdate (session : Nat) (s : State) : Host.Outcome State Fault Refusal :=
  spdmIf s (spdmReady s && hasSession s session true)
    (answerSpdm (modSession s session (fun x => { x with keyUpdates := x.keyUpdates + 1 })) (.keyUpdate session))

/-- SPDM_END_SESSION (R328). -/
def execSpdmEndSession (session : Nat) (s : State) : Host.Outcome State Fault Refusal :=
  spdmIf s (spdmReady s && hasSession s session true)
    (answerSpdm { s with host := { s.host with sessions := s.host.sessions.filter (·.id != session) } } (.ended session))

-- ## TDISP (R328)

/-- TDISP messages come over an established session. -/
def secured (s : State) : Bool := s.host.linkUp && s.host.sessions.any (·.established)
/-- Move a partition's TDI. -/
def setTdi (s : State) (part : Nat) (x : TdiState) : State :=
  { s with host := { s.host with tdi := Store.insert s.host.tdi part x } }

/-- The established session with the lowest place: the one that TDISP messages use (log 26). -/
def openSession (s : State) : Option Nat := (s.host.sessions.find? (·.established)).map (·.id)

/-- TDISP_LOCK (R328): CONFIG_UNLOCKED to CONFIG_LOCKED, with the TDI's selective IDE stream. -/
def execTdispLock (part : Nat) (s : State) : Host.Outcome State Fault Refusal :=
  if !secured s || (s.part part).isNone || tdiOf s part != .unlocked then .next s
  else .next (setIde (setTdi s part .locked) part ((openSession s).getD 0))

/-- TDISP_REPORT (R328): the TDI's report: the node-release windows of its contexts. -/
def execTdispReport (part : Nat) (s : State) : Host.Outcome State Fault Refusal :=
  if !secured s || !(tdiOf s part == .locked || tdiOf s part == .run) then .next s
  else
    let cs := (s.ctxs.filter (fun c => decide (c.1 < 16) && c.2.part == part)).map (·.1)
    .next { s with host := { s.host with tdiReport := some (part, cs) } }

/-- TDISP_START (R328): CONFIG_LOCKED to RUN. -/
def execTdispStart (part : Nat) (s : State) : Host.Outcome State Fault Refusal :=
  if !secured s || tdiOf s part != .locked then .next s else .next (setTdi s part .run)

/-- TDISP_STOP (R328, R329): back to CONFIG_UNLOCKED, from any state. -/
def execTdispStop (part : Nat) (s : State) : Host.Outcome State Fault Refusal :=
  if !secured s || (s.part part).isNone then .next s
  else
    let s := setTdi s part .unlocked
    .next { s with host := { s.host with ide := s.host.ide.filter (·.1 != part) } }

end Sys2Proof.Machine
end

