-- ==== Sys2Proof/Machine/Agenda.lean ====
section
/-! DEFINITION. Whose turn it is (log 1): the steps of the device are taken one after another; outside inputs come
from the agenda, and the device's own units take turns when no one has been chosen. -/
namespace Sys2Proof.Machine

/-- The counter that names free values moves on with every step. -/
def State.countStep (s : State) : State := { s with free := s.free + 1 }

/-- The chosen unit has had its step. -/
def State.endTurn (s : State) : State := { s.countStep with cur := .idle }

/-- Apply to the next state. -/
def mapNext (f : State → State) (o : Host.Outcome State Fault Refusal) : Host.Outcome State Fault Refusal :=
  match o with | .next s => .next (f s) | .fault e => .fault e | .refused r => .refused r

/-- An input of the agenda is a step without an encoding; an instruction that a coach or a bank unit fetches has no
place there. -/
def agendaStep (i : Instr) : Bool :=
  match i with | .bankSubsetInstruction _ => false | _ => (encode i).isNone

/-- What the device does of itself: its own events, each under the name of its instruction, or a bank unit's next
word. -/
inductive Own
  | issueOpportunity (slot : Nat)
  | splitRestore (tid sp : Nat)
  | spinDemotion (tid sp : Nat)
  | demotionEnd (tid sp : Nat)
  | seqopenService (tid sp : Nat)
  | seqendEndInstant (tid sp : Nat)
  | lineClearDone (tid : Nat)
  | teamRetire (tid : Nat)
  | registerLineFill (tid line : Nat)
  | longLatencyReturn (tid idx lane : Nat)
  | xacqGrant (coach : Nat)
  | tileFetchLine (coach : Nat)
  | tensorStep (coach : Nat)
  | entryArm (ctx entry : Nat)
  | entryDecrement (ctx entry n : Nat)
  | nodeCompletion (ctx entry : Nat)
  | watchdog (ctx entry : Nat)
  | haltFinish (ctx : Nat)
  | gangSwitch (part : Nat)
  | nodeOpen (part : Nat)
  | drovePlacement (part : Nat)
  | switchArmTimeout (part : Nat)
  | droveEviction (drove : Nat)
  | reclaimDrainDone (train : Nat)
  | reclaimDeadline (train : Nat)
  | trainReclaim (train : Nat)
  | drayChunk (dray queue : Nat)
  | collChunkSend (ctx peer : Nat)
  | bkloadDelivery (unit : Nat)
  | bankRunArrival (unit : Nat)
  | bankRunAdmit (unit : Nat)
  | bankRowBoundary (unit : Nat)
  | placeOfEffectAccess (k : Nat)
  | nmuUpdate (k : Nat)
  | remoteRequest (r : RemoteReq)
  | rxRegionExpiry (ctx : Nat)
  | remoteTimeout (id : Nat)
  | reencryptBlock (slot engine : Nat)
  | keySlotFree (slot : Nat)
  | scrubRow (slice : Nat)
  | ckptAdvisory (kind : AdvKind) (idx : Nat)
  | bootVerifyDone
  | bootDeriveDone
  | tsyncLost
  | tsyncRecovered
  | bank (unit : Nat)
deriving DecidableEq, Repr

/-- The meaning of the device's own event. What comes from another member is none of them, but for a request that has
come and waits (R307). -/
def runOwn (o : Own) (s : State) : Host.Outcome State Fault Refusal :=
  match o with
  | .issueOpportunity slot => execIssueOpportunity slot s
  | .splitRestore tid sp => execSplitRestore tid sp s
  | .spinDemotion tid sp => execSpinDemotion tid sp s
  | .demotionEnd tid sp => execDemotionEnd tid sp s
  | .seqopenService tid sp => execSeqopenService tid sp s
  | .seqendEndInstant tid sp => execSeqendEndInstant tid sp s
  | .lineClearDone tid => execLineClearDone tid s
  | .teamRetire tid => execTeamRetire tid s
  | .registerLineFill tid line => execRegisterLineFill tid line s
  | .longLatencyReturn tid idx lane => execLongLatencyReturn tid idx lane ⟨0, 0⟩ s
  | .xacqGrant coach => execXacqGrant coach s
  | .tileFetchLine coach => execTileFetchLine coach s
  | .tensorStep coach => execTensorStep coach s
  | .entryArm ctx entry => execEntryArm ctx entry s
  | .entryDecrement ctx entry n => execEntryDecrement ctx entry n s
  | .nodeCompletion ctx entry => execNodeCompletion ctx entry s
  | .watchdog ctx entry => execWatchdog ctx entry s
  | .haltFinish ctx => execHaltFinish ctx s
  | .gangSwitch part => execGangSwitch part s
  | .nodeOpen part => execNodeOpen part s
  | .drovePlacement part => execDrovePlacement part s
  | .switchArmTimeout part => execSwitchArmTimeout part s
  | .droveEviction drove => execDroveEviction drove s
  | .reclaimDrainDone train => execReclaimDrainDone train s
  | .reclaimDeadline train => execReclaimDeadline train s
  | .trainReclaim train => execTrainReclaim train false s
  | .drayChunk dray queue => execDrayChunk dray queue s
  | .collChunkSend ctx peer => execCollChunkSend ctx peer s
  | .bkloadDelivery unit => execBkloadDelivery unit s
  | .bankRunArrival unit => execBankRunArrival unit s
  | .bankRunAdmit unit => execBankRunAdmit unit s
  | .bankRowBoundary unit => execBankRowBoundary unit s
  | .placeOfEffectAccess k => execPlaceOfEffectAccess k s
  | .nmuUpdate k => execNmuUpdate k s
  | .remoteRequest r => .next (serveRemote r s)
  | .rxRegionExpiry ctx => execRxRegionExpiry ctx s
  | .remoteTimeout id => execRemoteTimeout id s
  | .reencryptBlock slot engine => execReencryptBlock slot engine s
  | .keySlotFree slot => execKeySlotFree slot s
  | .scrubRow slice => execScrubRow slice s
  | .ckptAdvisory kind idx => execCkptAdvisory kind idx s
  | .bootVerifyDone => execBootVerifyDone s
  | .bootDeriveDone => execBootDeriveDone s
  | .tsyncLost => execTsyncLost s
  | .tsyncRecovered => execTsyncRecovered s
  | .bank unit => .next { s with cur := .bank unit }

/-- A cycle passes while no instruction executes; with the coach clock stopped only global time goes on, by a nanosecond
and its correction (R336, R348). -/
def State.passTime (s : State) : State :=
  let s : State := { s with turn := s.turn + 1 }
  if s.clk.stopped then s.elapse 0 s.clk.mhz else s.tick 1

-- ## what may be waiting to be done

/-- Of the coaches: slots, splits, lines, landings, retirement (spec/02, spec/04, spec/11). -/
def coachWork (s : State) : List Own :=
  (s.teams.map (fun e => 4 * e.2.coach + e.2.slot % 4)).eraseDups.map .issueOpportunity ++
  s.teams.flatMap (fun e =>
    (e.2.splits.filter (fun x => !x.onChip)).map (fun x => Own.splitRestore e.1 x.uid) ++
    (e.2.splits.filter (fun x => x.demoted.isNone && x.spin.any (fun w => decide (32 ≤ w.count)))).map (fun x => Own.spinDemotion e.1 x.uid) ++
    (e.2.splits.filter (fun x => x.demoted.isSome)).map (fun x => Own.demotionEnd e.1 x.uid) ++
    (e.2.splits.flatMap (fun x => x.waits.filterMap (fun w =>
      match w with
      | .seqopen _ _ _ => some (Own.seqopenService e.1 x.uid)
      | .seqend _ => some (Own.seqendEndInstant e.1 x.uid)
      | _ => none))) ++
    (if e.2.retiring then [Own.teamRetire e.1] else []) ++
    (e.2.lines.filter (fun l => l.st == .filling)).map (fun l => Own.registerLineFill e.1 l.line) ++
    e.2.pending.zipIdx.flatMap (fun p =>
      if p.1.remote.isSome && !p.1.bk then [] else p.1.lanes.map (fun l => Own.longLatencyReturn e.1 p.2 l.1))) ++
  s.coaches.flatMap (fun e =>
    (match e.2.clears with | tid :: _ => [Own.lineClearDone tid] | [] => []) ++
    (if e.2.acquire.isEmpty then [] else [Own.xacqGrant e.1]) ++
    (if e.2.tensor.isEmpty then [] else [Own.tileFetchLine e.1, .tensorStep e.1]))

/-- Of the scheduler and the distributor (spec/11). -/
def schedWork (s : State) : List Own :=
  (s.ctxs.filter (fun c => decide (c.1 < 16))).flatMap (fun c =>
    c.2.posts.map (fun p => match p with | .arm _ e => Own.entryArm c.1 e | .dec _ e n => Own.entryDecrement c.1 e n) ++
    (c.2.nodes.filter (fun n => nodeDone n.2)).map (fun n => Own.nodeCompletion c.1 n.1) ++
    (c.2.nodes.filter (fun n => n.2.st == .active)).map (fun n => Own.watchdog c.1 n.1) ++
    (match c.2.halt with | some h => if h.finished then [] else [Own.haltFinish c.1] | none => [])) ++
  s.parts.flatMap (fun p => [Own.gangSwitch p.1, .nodeOpen p.1, .drovePlacement p.1] ++
    (if p.2.armed.isSome then [Own.switchArmTimeout p.1] else [])) ++
  (s.droves.filter (fun d => d.2.stalled.isSome)).map (fun d => Own.droveEviction d.1) ++
  s.reclaims.flatMap (fun r => [Own.reclaimDrainDone r.train, .reclaimDeadline r.train]) ++
  ((s.parts.flatMap (fun p => p.2.borrowed)).filter (reclaimDue s)).map Own.trainReclaim

/-- The bank unit that an operation in flight is bound for. -/
def itemUnit (s : State) (i : BankItem) : Nat :=
  match itemRow i with
  | some (ctx, _, va) => (match rawTrans s ctx va.toNat with | some t => unitOf t | none => 0)
  | none => Config.bankUnits

/-- Of the engines and the memory system (spec/07, spec/09, spec/10, spec/13). -/
def engineWork (s : State) : List Own :=
  s.drays.flatMap (fun d => (d.2.queues.filter (fun q => !q.2.isEmpty)).map (fun q => Own.drayChunk d.1 q.1)) ++
  (s.colls.map (·.ctx) ++ (s.ctxs.filter (fun c => !c.2.rx.isEmpty)).map (·.1)).eraseDups.flatMap (fun c => (List.range (ctxMembers s c)).map (fun m => Own.collChunkSend c m)) ++
  (s.bankFlight.map (itemUnit s)).eraseDups.map (fun u =>
    if u == Config.bankUnits then Own.bkloadDelivery u else .bankRunArrival u) ++
  s.banks.flatMap (fun b =>
    (if b.2.queue.isEmpty && b.2.saved.isEmpty then [] else [Own.bankRunAdmit b.1, .bkloadDelivery b.1]) ++
    (if b.2.queue.isEmpty && b.2.reqs.isEmpty && !b.2.refresh then [] else [Own.bankRowBoundary b.1])) ++
  (s.posted.zipIdx.filter (fun p => !p.1.remote)).flatMap (fun p => [Own.placeOfEffectAccess p.2, .nmuUpdate p.2]) ++
  s.inbound.map .remoteRequest ++
  (s.ctxs.filter (fun c => c.2.rxOpen.isSome)).map (fun c => Own.rxRegionExpiry c.1) ++
  s.remote.map (fun r => Own.remoteTimeout r.id) ++
  s.keys.flatMap (fun k => k.2.sweep.map (fun e => Own.reencryptBlock k.1 e)) ++
  s.ctxs.flatMap (fun c => (c.2.seqs.filter (fun q => q.ended && (s.key q.slot).st == .ended)).map (fun q => Own.keySlotFree q.slot)) ++
  s.slices.filterMap (fun j => match j.2 with | .scrubbing _ => some (Own.scrubRow j.1) | _ => none)

/-- Of firmware and the boot ROM (spec/12 R297; spec/14). -/
def advKinds : List AdvKind := [.slice, .port, .lpddr, .cxl, .hostLink]
def firmwareWork (s : State) : List Own :=
  s.mgmt.crossed.filterMap (fun u => (advKinds.find? (fun k => advCode k == u.1)).map (fun k => Own.ckptAdvisory k u.2)) ++
  (match s.boot.st with | .verify => [Own.bootVerifyDone] | .derive_ => [Own.bootDeriveDone] | _ => []) ++
  (if s.clk.tsyncLost then [Own.tsyncRecovered] else [Own.tsyncLost])

/-- Bank units with a kernel to run, their bank cycles in hand passed (R231, R235). -/
def bankWork (s : State) : List Own :=
  (s.banks.filter (fun b => match b.2.exec with | some e => e.stalled.isNone && ctxActive s e.run.ctx && decide (b.2.busy ≤ bankCycle s) | none => false)).map
    (fun b => Own.bank b.1)

/-- Everything that may be waiting; what is not due changes nothing when its turn comes (log 11). -/
def ownWork (s : State) : List Own :=
  coachWork s ++ schedWork s ++ engineWork s ++ firmwareWork s ++ bankWork s

/-- The device's next step of its own: all of its units take turns. -/
def idleChoice (s : State) : Own :=
  let ws := ownWork s
  ws.getD (s.turn % ws.length) (.issueOpportunity s.turn)

end Sys2Proof.Machine
end

