-- ==== Sys2Proof/Machine/Scalar.lean ====
section
/-! DEFINITION. Scalar instructions (spec/03 R87; entries R403 to R405): they ignore the guard and use no MODE
field. -/
namespace Sys2Proof.Machine

/-- A scalar instruction of two sources: s[D] := f s[A] s[B] (R403). -/
def scalarOp (i : Instr) (sw : Bool) (d a b : BitVec 6) (f : Word → Word → Word) (s : State) :
    Host.Outcome State Fault Refusal :=
  issueCtl i sw [d.toNat] s (fun c =>
    .next (c.put s (c.t.setS d.toNat (f (s.rs c.t a.toNat) (s.rs c.t b.toNat)))))

/-- A shift by less than 32, else `far` (R403). -/
def shiftOr (far : Word) (f : Word → Nat → Word) (a b : Word) : Word := if b.toNat < 32 then f a b.toNat else far

/-- The high 32 bits of a signed product (R403). -/
def mulHigh (a b : Word) : Word := ((a.signExtend 64 * b.signExtend 64) >>> 32).setWidth 32

/-- SADD (R403). -/
def execSadd (sw : Bool) (d a b : BitVec 6) (s : State) : Host.Outcome State Fault Refusal :=
  scalarOp (.sadd sw d a b) sw d a b (· + ·) s

/-- SSUB (R403). -/
def execSsub (sw : Bool) (d a b : BitVec 6) (s : State) : Host.Outcome State Fault Refusal :=
  scalarOp (.ssub sw d a b) sw d a b (· - ·) s

/-- SMUL (R403). -/
def execSmul (sw : Bool) (d a b : BitVec 6) (s : State) : Host.Outcome State Fault Refusal :=
  scalarOp (.smul sw d a b) sw d a b (· * ·) s

/-- SMULH (R403). -/
def execSmulh (sw : Bool) (d a b : BitVec 6) (s : State) : Host.Outcome State Fault Refusal :=
  scalarOp (.smulh sw d a b) sw d a b mulHigh s

/-- SAND (R403). -/
def execSand (sw : Bool) (d a b : BitVec 6) (s : State) : Host.Outcome State Fault Refusal :=
  scalarOp (.sand sw d a b) sw d a b (· &&& ·) s

/-- SOR (R403). -/
def execSor (sw : Bool) (d a b : BitVec 6) (s : State) : Host.Outcome State Fault Refusal :=
  scalarOp (.sor sw d a b) sw d a b (· ||| ·) s

/-- SXOR (R403). -/
def execSxor (sw : Bool) (d a b : BitVec 6) (s : State) : Host.Outcome State Fault Refusal :=
  scalarOp (.sxor sw d a b) sw d a b (· ^^^ ·) s

/-- SSHL (R403). -/
def execSshl (sw : Bool) (d a b : BitVec 6) (s : State) : Host.Outcome State Fault Refusal :=
  scalarOp (.sshl sw d a b) sw d a b (shiftOr 0 (fun x n => x <<< n)) s

/-- SSHR (R403). -/
def execSshr (sw : Bool) (d a b : BitVec 6) (s : State) : Host.Outcome State Fault Refusal :=
  scalarOp (.sshr sw d a b) sw d a b (shiftOr 0 (fun x n => x >>> n)) s

/-- SSRA (R403). -/
def execSsra (sw : Bool) (d a b : BitVec 6) (s : State) : Host.Outcome State Fault Refusal :=
  scalarOp (.ssra sw d a b) sw d a b (fun x y => x.sshiftRight (min y.toNat 31)) s

/-- SMIN (R403). -/
def execSmin (sw : Bool) (d a b : BitVec 6) (s : State) : Host.Outcome State Fault Refusal :=
  scalarOp (.smin sw d a b) sw d a b (fun x y => if x.toInt ≤ y.toInt then x else y) s

/-- SMAX (R403). -/
def execSmax (sw : Bool) (d a b : BitVec 6) (s : State) : Host.Outcome State Fault Refusal :=
  scalarOp (.smax sw d a b) sw d a b (fun x y => if x.toInt ≤ y.toInt then y else x) s

/-- SADDP (R403): 64-bit pairs; with D = 0 only s1 is written. -/
def execSaddp (sw : Bool) (d a b : BitVec 6) (s : State) : Host.Outcome State Fault Refusal :=
  issueCtl (.saddp sw d a b) sw [d.toNat, d.toNat + 1] s (fun c =>
    .next (c.put s (c.t.setPair d.toNat (s.rpair c.t a.toNat + s.rpair c.t b.toNat))))

/-- A scalar comparison into a predicate, in every active lane (R404). -/
def scalarCmp (i : Instr) (sw : Bool) (k : SCond) (p : BitVec 3) (a b : BitVec 6) (s : State) :
    Host.Outcome State Fault Refusal :=
  issueAs false i sw (fun _ => { pw := [p.toNat] }) oneCycle s (fun c =>
    .next (c.put s (c.t.mergeP p.toNat c.x.mask
      (if scond k (s.rs c.t a.toNat) (s.rs c.t b.toNat) then BitVec.allOnes 1024 else 0))))

/-- SCMP.EQ (R404). -/
def execScmpEq (sw : Bool) (p : BitVec 3) (a b : BitVec 6) (s : State) : Host.Outcome State Fault Refusal :=
  scalarCmp (.scmpEq sw p a b) sw .eq p a b s

/-- SCMP.NE (R404). -/
def execScmpNe (sw : Bool) (p : BitVec 3) (a b : BitVec 6) (s : State) : Host.Outcome State Fault Refusal :=
  scalarCmp (.scmpNe sw p a b) sw .ne p a b s

/-- SCMP.LT (R404). -/
def execScmpLt (sw : Bool) (p : BitVec 3) (a b : BitVec 6) (s : State) : Host.Outcome State Fault Refusal :=
  scalarCmp (.scmpLt sw p a b) sw .lt p a b s

/-- SCMP.LE (R404). -/
def execScmpLe (sw : Bool) (p : BitVec 3) (a b : BitVec 6) (s : State) : Host.Outcome State Fault Refusal :=
  scalarCmp (.scmpLe sw p a b) sw .le p a b s

/-- SCMP.LTN (R404). -/
def execScmpLtn (sw : Bool) (p : BitVec 3) (a b : BitVec 6) (s : State) : Host.Outcome State Fault Refusal :=
  scalarCmp (.scmpLtn sw p a b) sw .ltn p a b s

/-- SCMP.LEN (R404). -/
def execScmpLen (sw : Bool) (p : BitVec 3) (a b : BitVec 6) (s : State) : Host.Outcome State Fault Refusal :=
  scalarCmp (.scmpLen sw p a b) sw .len p a b s

/-- SADDI (R405). -/
def execSaddi (sw : Bool) (d : BitVec 6) (imm : BitVec 16) (s : State) : Host.Outcome State Fault Refusal :=
  issueCtl (.saddi sw d imm) sw [d.toNat] s (fun c =>
    .next (c.put s (c.t.setS d.toNat (s.rs c.t d.toNat + imm.signExtend 32))))

/-- SLI (R405). -/
def execSli (sw : Bool) (d : BitVec 6) (imm : BitVec 16) (s : State) : Host.Outcome State Fault Refusal :=
  issueCtl (.sli sw d imm) sw [d.toNat] s (fun c => .next (c.put s (c.t.setS d.toNat (imm.signExtend 32))))

/-- SLIH (R405): bits 15:0 are kept. -/
def execSlih (sw : Bool) (d : BitVec 6) (imm : BitVec 16) (s : State) : Host.Outcome State Fault Refusal :=
  issueCtl (.slih sw d imm) sw [d.toNat] s (fun c =>
    .next (c.put s (c.t.setS d.toNat (imm ++ (s.rs c.t d.toNat).extractLsb' 0 16))))

end Sys2Proof.Machine
end

