-- ==== Sys2Proof/Machine/Vector.lean ====
section
/-! DEFINITION. Vector and predicate instructions (spec/03 R88; spec/05 R137 to R143, R151, R152; entries R391, R392,
R416 to R428). -/
namespace Sys2Proof.Machine

/-- Write a register group in the given lanes; every value is taken before any is written. -/
def writeLanes (t : Team) (et : ET) (d : Nat) (lanes : List Nat) (f : Nat → DWord) : Team :=
  (lanes.map (fun L => (L, f L))).foldl (fun t e => t.setGroup et d e.1 e.2) t

/-- Write a predicate in the lanes that pass the guard. -/
def writePred (c : Issue) (p : Nat) (f : Nat → Bool) : Team := c.t.mergeP p c.guarded (maskOf c.t.w f)

/-- D and A, or D, A and B, as register groups of ET (R75, R127). -/
def uses2 (i : Instr) (ok : ET → Bool) (d a : Nat) (et : ET) : Uses :=
  { vr := etRegs et a, vw := etRegs et d, mode := .num ok, regOk := wellFormed i && etEven et d && etEven et a }
def uses3 (i : Instr) (ok : ET → Bool) (acc : Bool) (d a b : Nat) (et : ET) : Uses :=
  { vr := etRegs et a ++ etRegs et b ++ (if acc then etRegs et d else []), vw := etRegs et d, mode := .num ok,
    regOk := wellFormed i && etEven et d && etEven et a && etEven et b }

/-- Any element type (R418). -/
def etAny (_ : ET) : Bool := true

/-- A two-source vector operation (R419); VMAD reads D too. -/
def vecOp (i : Instr) (sw : Bool) (op : VOp) (ok : ET → Bool) (acc : Bool) (d a b : BitVec 8) (s : State) :
    Host.Outcome State Fault Refusal :=
  issueVec i sw (uses3 i ok acc d.toNat a.toNat b.toNat) s (fun c =>
    .next (c.put s (writeLanes c.t c.et d.toNat c.lanes (fun L =>
      vop op (c.num L) (s.rgroup c.t c.et a.toNat L) (s.rgroup c.t c.et b.toNat L) (s.rgroup c.t c.et d.toNat L)))))

/-- VADD (R419). -/
def execVadd (sw : Bool) (d a b : BitVec 8) (s : State) : Host.Outcome State Fault Refusal :=
  vecOp (.vadd sw d a b) sw .add etAny false d a b s

/-- VSUB (R419). -/
def execVsub (sw : Bool) (d a b : BitVec 8) (s : State) : Host.Outcome State Fault Refusal :=
  vecOp (.vsub sw d a b) sw .sub etAny false d a b s

/-- VMUL (R419). -/
def execVmul (sw : Bool) (d a b : BitVec 8) (s : State) : Host.Outcome State Fault Refusal :=
  vecOp (.vmul sw d a b) sw .mul etAny false d a b s

/-- VMULH (R419). -/
def execVmulh (sw : Bool) (d a b : BitVec 8) (s : State) : Host.Outcome State Fault Refusal :=
  vecOp (.vmulh sw d a b) sw .mulh etIntOp false d a b s

/-- VMAD (R419). -/
def execVmad (sw : Bool) (d a b : BitVec 8) (s : State) : Host.Outcome State Fault Refusal :=
  vecOp (.vmad sw d a b) sw .mad etAny true d a b s

/-- VMIN (R419). -/
def execVmin (sw : Bool) (d a b : BitVec 8) (s : State) : Host.Outcome State Fault Refusal :=
  vecOp (.vmin sw d a b) sw .min etAny false d a b s

/-- VMAX (R419). -/
def execVmax (sw : Bool) (d a b : BitVec 8) (s : State) : Host.Outcome State Fault Refusal :=
  vecOp (.vmax sw d a b) sw .max etAny false d a b s

/-- VAND (R419). -/
def execVand (sw : Bool) (d a b : BitVec 8) (s : State) : Host.Outcome State Fault Refusal :=
  vecOp (.vand sw d a b) sw .and etAny false d a b s

/-- VOR (R419). -/
def execVor (sw : Bool) (d a b : BitVec 8) (s : State) : Host.Outcome State Fault Refusal :=
  vecOp (.vor sw d a b) sw .or etAny false d a b s

/-- VXOR (R419). -/
def execVxor (sw : Bool) (d a b : BitVec 8) (s : State) : Host.Outcome State Fault Refusal :=
  vecOp (.vxor sw d a b) sw .xor etAny false d a b s

/-- VSHL (R419). -/
def execVshl (sw : Bool) (d a b : BitVec 8) (s : State) : Host.Outcome State Fault Refusal :=
  vecOp (.vshl sw d a b) sw .shl etIntOp false d a b s

/-- VSHR (R419). -/
def execVshr (sw : Bool) (d a b : BitVec 8) (s : State) : Host.Outcome State Fault Refusal :=
  vecOp (.vshr sw d a b) sw .shr etIntOp false d a b s

/-- VSRA (R419). -/
def execVsra (sw : Bool) (d a b : BitVec 8) (s : State) : Host.Outcome State Fault Refusal :=
  vecOp (.vsra sw d a b) sw .sra etIntOp false d a b s

/-- VSEL (R420): every active lane is written; the guard selects. -/
def execVsel (sw : Bool) (d a b : BitVec 8) (s : State) : Host.Outcome State Fault Refusal :=
  let i := Instr.vsel sw d a b
  issueVec i sw (fun et =>
      { uses3 i etAny false d.toNat a.toNat b.toNat et with wrote := some (BitVec.allOnes 1024) }) s (fun c =>
    .next (c.put s (writeLanes c.t c.et d.toNat c.active (fun L =>
      if (guardMask c.t c.mode).getLsbD L then s.rgroup c.t c.et a.toNat L else s.rgroup c.t c.et b.toNat L))))

/-- A comparison into a predicate (R421). -/
def vecCmp (i : Instr) (sw : Bool) (comb : Comb) (k : Cond) (p : BitVec 3) (a b : BitVec 8) (s : State) :
    Host.Outcome State Fault Refusal :=
  issueVec i sw (fun et =>
      { vr := etRegs et a.toNat ++ etRegs et b.toNat, pw := [p.toNat], mode := .num (fun t => !etPacked t),
        regOk := etEven et a.toNat && etEven et b.toNat }) s (fun c =>
    .next (c.put s (writePred c p.toNat (fun L =>
      combine comb ((c.t.p p.toNat).getLsbD L)
        (elemCond k c.et (modeFtz c.mode) (elem c.et 0 (s.rgroup c.t c.et a.toNat L))
          (elem c.et 0 (s.rgroup c.t c.et b.toNat L)))))))

/-- VCMP.EQ (R421). -/
def execVcmpEq (sw : Bool) (comb : Comb) (p : BitVec 3) (a b : BitVec 8) (s : State) :
    Host.Outcome State Fault Refusal :=
  vecCmp (.vcmpEq sw comb p a b) sw comb .eq p a b s

/-- VCMP.NE (R421). -/
def execVcmpNe (sw : Bool) (comb : Comb) (p : BitVec 3) (a b : BitVec 8) (s : State) :
    Host.Outcome State Fault Refusal :=
  vecCmp (.vcmpNe sw comb p a b) sw comb .ne p a b s

/-- VCMP.LT (R421). -/
def execVcmpLt (sw : Bool) (comb : Comb) (p : BitVec 3) (a b : BitVec 8) (s : State) :
    Host.Outcome State Fault Refusal :=
  vecCmp (.vcmpLt sw comb p a b) sw comb .lt p a b s

/-- VCMP.LE (R421). -/
def execVcmpLe (sw : Bool) (comb : Comb) (p : BitVec 3) (a b : BitVec 8) (s : State) :
    Host.Outcome State Fault Refusal :=
  vecCmp (.vcmpLe sw comb p a b) sw comb .le p a b s

/-- VCMP.GT (R421). -/
def execVcmpGt (sw : Bool) (comb : Comb) (p : BitVec 3) (a b : BitVec 8) (s : State) :
    Host.Outcome State Fault Refusal :=
  vecCmp (.vcmpGt sw comb p a b) sw comb .gt p a b s

/-- VCMP.GE (R421). -/
def execVcmpGe (sw : Bool) (comb : Comb) (p : BitVec 3) (a b : BitVec 8) (s : State) :
    Host.Outcome State Fault Refusal :=
  vecCmp (.vcmpGe sw comb p a b) sw comb .ge p a b s

/-- VCVT (R137, R422): a 64-bit CVS needs an even A, a 64-bit ET an even D. -/
def execVcvt (sw : Bool) (d a : BitVec 8) (s : State) : Host.Outcome State Fault Refusal :=
  issueAs false (.vcvt sw d a) sw (fun c =>
      let src := modeCvs c.mode
      { vr := etRegs src a.toNat, vw := etRegs c.et d.toNat, mode := .cvt,
        regOk := etEven c.et d.toNat && etEven src a.toNat }) passCost s (fun c =>
    let src := modeCvs c.mode
    .next (c.put s (writeLanes c.t c.et d.toNat c.lanes (fun L =>
      cvt src (c.num L) (s.rgroup c.t src a.toNat L)))))

/-- A fixed-latency VFN function (R422). -/
def vecFn (i : Instr) (sw : Bool) (fn : VFn) (ok : ET → Bool) (d a : BitVec 8) (s : State) :
    Host.Outcome State Fault Refusal :=
  issueVec i sw (uses2 i ok d.toNat a.toNat) s (fun c =>
    .next (c.put s (writeLanes c.t c.et d.toNat c.lanes (fun L => vfn fn (c.num L) (s.rgroup c.t c.et a.toNat L)))))

/-- The words of a group value, lowest register first. -/
def groupWords (et : ET) (x : DWord) : List Word :=
  if et64 et then [x.setWidth 32, (x >>> 32).setWidth 32] else [x.setWidth 32]

/-- Start a long-latency write (R121). -/
def startWrite (s : State) (c : Issue) (d : Dest) (vals : List (Nat × List Word)) : State :=
  if vals.isEmpty then s else c.put s { c.t with pending := c.t.pending ++ [⟨[c.uid], [], d, vals, none, false⟩] }

/-- A special function: long-latency, its lanes land in any order (R121, R141, R422). -/
def vecSpecial (i : Instr) (sw : Bool) (fn : VFn) (ok : ET → Bool) (d a : BitVec 8) (s : State) :
    Host.Outcome State Fault Refusal :=
  issueVec i sw (fun et => { uses2 i ok d.toNat a.toNat et with wrote := some 0 }) s (fun c =>
    .next (startWrite s c (.vec d.toNat (etRegs c.et d.toNat).length)
      (c.lanes.map (fun L => (L, groupWords c.et (vfn fn (c.num L) (s.rgroup c.t c.et a.toNat L)))))))

/-- VABS (R422). -/
def execVabs (sw : Bool) (d a : BitVec 8) (s : State) : Host.Outcome State Fault Refusal :=
  vecFn (.vabs sw d a) sw .abs etAny d a s

/-- VNEG (R422). -/
def execVneg (sw : Bool) (d a : BitVec 8) (s : State) : Host.Outcome State Fault Refusal :=
  vecFn (.vneg sw d a) sw .neg etAny d a s

/-- VNOT (R422). -/
def execVnot (sw : Bool) (d a : BitVec 8) (s : State) : Host.Outcome State Fault Refusal :=
  vecFn (.vnot sw d a) sw .not etAny d a s

/-- VCLZ (R422). -/
def execVclz (sw : Bool) (d a : BitVec 8) (s : State) : Host.Outcome State Fault Refusal :=
  vecFn (.vclz sw d a) sw .clz etIntOp d a s

/-- VPOPC (R422). -/
def execVpopc (sw : Bool) (d a : BitVec 8) (s : State) : Host.Outcome State Fault Refusal :=
  vecFn (.vpopc sw d a) sw .popc etIntOp d a s

/-- VRCP (R141, R422). -/
def execVrcp (sw : Bool) (d a : BitVec 8) (s : State) : Host.Outcome State Fault Refusal :=
  vecSpecial (.vrcp sw d a) sw .rcp etSpecial d a s

/-- VRSQ (R141, R422). -/
def execVrsq (sw : Bool) (d a : BitVec 8) (s : State) : Host.Outcome State Fault Refusal :=
  vecSpecial (.vrsq sw d a) sw .rsq etSpecial d a s

/-- VSQRT (R141, R422). -/
def execVsqrt (sw : Bool) (d a : BitVec 8) (s : State) : Host.Outcome State Fault Refusal :=
  vecSpecial (.vsqrt sw d a) sw .sqrt (fun t => etSpecial t || t == .f64) d a s

/-- VEXP2 (R141, R422). -/
def execVexp2 (sw : Bool) (d a : BitVec 8) (s : State) : Host.Outcome State Fault Refusal :=
  vecSpecial (.vexp2 sw d a) sw .exp2 etSpecial d a s

/-- VLOG2 (R141, R422). -/
def execVlog2 (sw : Bool) (d a : BitVec 8) (s : State) : Host.Outcome State Fault Refusal :=
  vecSpecial (.vlog2 sw d a) sw .log2 etSpecial d a s

/-- VTANH (R141, R422). -/
def execVtanh (sw : Bool) (d a : BitVec 8) (s : State) : Host.Outcome State Fault Refusal :=
  vecSpecial (.vtanh sw d a) sw .tanh etSpecial d a s

/-- The guard-only forms that write one vector register (R423). -/
def usesImm (d : Nat) (et : ET) : Uses := { vw := [d], mode := .guard, regOk := etEven et d }

/-- Write one 32-bit register in the lanes that pass the guard, whatever ET holds (R423). -/
def writeWord (c : Issue) (d : Nat) (f : Nat → Word) : Team :=
  writeLanes c.t .n32 d c.lanes (fun L => (f L).setWidth 64)

/-- VLI (R423). -/
def execVli (sw : Bool) (d : BitVec 8) (imm : BitVec 16) (s : State) : Host.Outcome State Fault Refusal :=
  issueVec (.vli sw d imm) sw (usesImm d.toNat) s (fun c =>
    .next (c.put s (writeWord c d.toNat (fun _ => imm.signExtend 32))))

/-- VLIH (R423): bits 15:0 are kept. -/
def execVlih (sw : Bool) (d : BitVec 8) (imm : BitVec 16) (s : State) : Host.Outcome State Fault Refusal :=
  issueVec (.vlih sw d imm) sw (fun et => { usesImm d.toNat et with vr := [d.toNat] }) s (fun c =>
    .next (c.put s (writeWord c d.toNat (fun L => imm ++ (s.rv c.t d.toNat L).extractLsb' 0 16))))

/-- VBCAST (R423): a 64-bit ET moves a scalar pair. -/
def execVbcast (sw : Bool) (d : BitVec 8) (a : BitVec 6) (s : State) : Host.Outcome State Fault Refusal :=
  issueVec (.vbcast sw d a) sw (fun et =>
      { vw := etRegs et d.toNat, mode := .num etAny, regOk := etEven et d.toNat && etEven et a.toNat }) s (fun c =>
    .next (c.put s (writeLanes c.t c.et d.toNat c.lanes (fun _ =>
      if et64 c.et then s.rpair c.t a.toNat else (s.rs c.t a.toNat).setWidth 64))))

/-- VIDX (R423). -/
def execVidx (sw : Bool) (d : BitVec 8) (s : State) : Host.Outcome State Fault Refusal :=
  issueVec (.vidx sw d) sw (usesImm d.toNat) s (fun c =>
    .next (c.put s (writeWord c d.toNat (fun L => BitVec.ofNat 32 L))))

/-- VSETP (R423). -/
def execVsetp (sw : Bool) (p : BitVec 3) (a : BitVec 8) (s : State) : Host.Outcome State Fault Refusal :=
  issueVec (.vsetp sw p a) sw (fun et =>
      { vr := etRegs et a.toNat, pw := [p.toNat], mode := .num (fun t => !etPacked t), regOk := etEven et a.toNat }) s
    (fun c => .next (c.put s (writePred c p.toNat (fun L =>
      elemNonZero c.et (modeFtz c.mode) (elem c.et 0 (s.rgroup c.t c.et a.toNat L))))))

/-- Whole registers of a lane, for the moves (R418). -/
def moveWords (s : State) (c : Issue) (a L : Nat) : List Word := groupWords c.et (s.rgroup c.t c.et a L)

/-- VEXTR (R424): the guard is taken at lane j, which need not be active; long-latency. -/
def execVextr (sw : Bool) (d : BitVec 6) (a : BitVec 8) (b : BitVec 6) (s : State) :
    Host.Outcome State Fault Refusal :=
  issueVec (.vextr sw d a b) sw (fun et =>
      { vr := etRegs et a.toNat, sw := etRegs et d.toNat, mode := .num etAny,
        regOk := etEven et d.toNat && etEven et a.toNat }) s (fun c =>
    let j := s.rs c.t b.toNat
    if j.toNat ≥ c.t.w then c.trapInfo .tableRange j
    else if (guardMask c.t c.mode).getLsbD j.toNat then
      .next (startWrite s c (.scal d.toNat (etRegs c.et d.toNat).length) [(0, moveWords s c a.toNat j.toNat)])
    else .next s)

/-- VPERM (R425). -/
def execVperm (sw : Bool) (d a b : BitVec 8) (s : State) : Host.Outcome State Fault Refusal :=
  issueVec (.vperm sw d a b) sw (fun et =>
      { vr := etRegs et a.toNat ++ [b.toNat], vw := etRegs et d.toNat, mode := .num etAny,
        regOk := etEven et d.toNat && etEven et a.toNat && etEven et b.toNat }) s (fun c =>
    match c.lanes.find? (fun L => decide ((s.rv c.t b.toNat L).toNat ≥ c.t.w)) with
    | some L => c.trapInfo .tableRange (BitVec.ofNat 32 L)
    | none => .next (c.put s (writeLanes c.t c.et d.toNat c.lanes (fun L =>
        s.rgroup c.t c.et a.toNat (s.rv c.t b.toNat L).toNat))))

/-- The leaves of VRED and VSCAN: contributing lanes up to `top`, by element (R151, R152). -/
def redLeaves (s : State) (c : Issue) (a top : Nat) : List (Option DWord) :=
  (List.range c.t.w).map (fun L =>
    if c.guarded.getLsbD L && decide (L ≤ top) then
      some (mapElems c.et (fun e => elem c.et e (s.rgroup c.t c.et a L)))
    else none)

/-- The types of a reduction operator (R418). -/
def redTypes (op : RedOp) (t : ET) : Bool :=
  match op with | .and | .or | .xor => !etFloat t | _ => true

/-- VRED (R151, R426). -/
def vecRed (i : Instr) (sw : Bool) (op : RedOp) (d : BitVec 6) (a : BitVec 8) (s : State) :
    Host.Outcome State Fault Refusal :=
  issueVec i sw (fun et =>
      { vr := etRegs et a.toNat, sw := etRegs et d.toNat, mode := .num (redTypes op),
        regOk := etEven et d.toNat && etEven et a.toNat }) s (fun c =>
    .next (c.put s (c.t.setSGroup c.et d.toNat (reduce op (c.num 0) (redLeaves s c a.toNat 1023)))))

/-- VSCAN (R152, R426). -/
def vecScan (i : Instr) (sw : Bool) (op : RedOp) (d a : BitVec 8) (s : State) :
    Host.Outcome State Fault Refusal :=
  issueVec i sw (uses2 i (redTypes op) d.toNat a.toNat) s (fun c =>
    .next (c.put s (writeLanes c.t c.et d.toNat c.lanes (fun L => reduce op (c.num 0) (redLeaves s c a.toNat L)))))

/-- VRED.ADD (R151, R426). -/
def execVredAdd (sw : Bool) (d : BitVec 6) (a : BitVec 8) (s : State) : Host.Outcome State Fault Refusal :=
  vecRed (.vredAdd sw d a) sw .add d a s
/-- VSCAN.ADD (R152, R426). -/
def execVscanAdd (sw : Bool) (d a : BitVec 8) (s : State) : Host.Outcome State Fault Refusal :=
  vecScan (.vscanAdd sw d a) sw .add d a s

/-- VRED.MIN (R151, R426). -/
def execVredMin (sw : Bool) (d : BitVec 6) (a : BitVec 8) (s : State) : Host.Outcome State Fault Refusal :=
  vecRed (.vredMin sw d a) sw .min d a s
/-- VSCAN.MIN (R152, R426). -/
def execVscanMin (sw : Bool) (d a : BitVec 8) (s : State) : Host.Outcome State Fault Refusal :=
  vecScan (.vscanMin sw d a) sw .min d a s

/-- VRED.MAX (R151, R426). -/
def execVredMax (sw : Bool) (d : BitVec 6) (a : BitVec 8) (s : State) : Host.Outcome State Fault Refusal :=
  vecRed (.vredMax sw d a) sw .max d a s
/-- VSCAN.MAX (R152, R426). -/
def execVscanMax (sw : Bool) (d a : BitVec 8) (s : State) : Host.Outcome State Fault Refusal :=
  vecScan (.vscanMax sw d a) sw .max d a s

/-- VRED.AND (R151, R426). -/
def execVredAnd (sw : Bool) (d : BitVec 6) (a : BitVec 8) (s : State) : Host.Outcome State Fault Refusal :=
  vecRed (.vredAnd sw d a) sw .and d a s
/-- VSCAN.AND (R152, R426). -/
def execVscanAnd (sw : Bool) (d a : BitVec 8) (s : State) : Host.Outcome State Fault Refusal :=
  vecScan (.vscanAnd sw d a) sw .and d a s

/-- VRED.OR (R151, R426). -/
def execVredOr (sw : Bool) (d : BitVec 6) (a : BitVec 8) (s : State) : Host.Outcome State Fault Refusal :=
  vecRed (.vredOr sw d a) sw .or d a s
/-- VSCAN.OR (R152, R426). -/
def execVscanOr (sw : Bool) (d a : BitVec 8) (s : State) : Host.Outcome State Fault Refusal :=
  vecScan (.vscanOr sw d a) sw .or d a s

/-- VRED.XOR (R151, R426). -/
def execVredXor (sw : Bool) (d : BitVec 6) (a : BitVec 8) (s : State) : Host.Outcome State Fault Refusal :=
  vecRed (.vredXor sw d a) sw .xor d a s
/-- VSCAN.XOR (R152, R426). -/
def execVscanXor (sw : Bool) (d a : BitVec 8) (s : State) : Host.Outcome State Fault Refusal :=
  vecScan (.vscanXor sw d a) sw .xor d a s

/-- VBAL (R427). -/
def execVbal (sw : Bool) (d : BitVec 6) (p : BitVec 3) (b : BitVec 6) (s : State) :
    Host.Outcome State Fault Refusal :=
  issueVec (.vbal sw d p b) sw (fun _ => { sw := [d.toNat], mode := .guard }) s (fun c =>
    let j := s.rs c.t b.toNat
    if j.toNat ≥ c.t.m then c.trapInfo .tableRange j
    else .next (c.put s (c.t.setS d.toNat (maskWord (c.guarded &&& c.t.p p.toNat) j.toNat))))

/-- VDOT4 (R143, R428). -/
def execVdot4 (sw : Bool) (d a b : BitVec 8) (s : State) : Host.Outcome State Fault Refusal :=
  let i := Instr.vdot4 sw d a b
  issueVec i sw (uses3 i (fun t => t == .i8x4 || t == .n8x4) true d.toNat a.toNat b.toNat) s (fun c =>
    .next (c.put s (writeLanes c.t .n32 d.toNat c.lanes (fun L =>
      dot4 c.et (modeSat c.mode) (s.rgroup c.t .n32 a.toNat L) (s.rgroup c.t .n32 b.toNat L)
        (s.rgroup c.t .n32 d.toNat L)))))

/-- VDOT2 (R143, R428). -/
def execVdot2 (sw : Bool) (d a b : BitVec 8) (s : State) : Host.Outcome State Fault Refusal :=
  let i := Instr.vdot2 sw d a b
  issueVec i sw (uses3 i (fun t => t == .f16x2 || t == .bf16x2) true d.toNat a.toNat b.toNat) s (fun c =>
    .next (c.put s (writeLanes c.t .n32 d.toNat c.lanes (fun L =>
      dot2 (c.num L) (s.rgroup c.t .n32 a.toNat L) (s.rgroup c.t .n32 b.toNat L) (s.rgroup c.t .n32 d.toNat L)))))

/-- Predicate logic in the lanes that pass the guard (R392). -/
def predOp (i : Instr) (sw : Bool) (d : BitVec 3) (f : Team → LaneMask) (s : State) :
    Host.Outcome State Fault Refusal :=
  issueVec i sw (fun _ => { pw := [d.toNat], mode := .guard }) s (fun c =>
    .next (c.put s (c.t.mergeP d.toNat c.guarded (f c.t))))

/-- PLAND (R392). -/
def execPland (sw : Bool) (d a b : BitVec 3) (s : State) : Host.Outcome State Fault Refusal :=
  predOp (.pland sw d a b) sw d (fun t => t.p a.toNat &&& t.p b.toNat) s
/-- PLOR (R392). -/
def execPlor (sw : Bool) (d a b : BitVec 3) (s : State) : Host.Outcome State Fault Refusal :=
  predOp (.plor sw d a b) sw d (fun t => t.p a.toNat ||| t.p b.toNat) s
/-- PLXOR (R392). -/
def execPlxor (sw : Bool) (d a b : BitVec 3) (s : State) : Host.Outcome State Fault Refusal :=
  predOp (.plxor sw d a b) sw d (fun t => t.p a.toNat ^^^ t.p b.toNat) s
/-- PLNOT (R392). -/
def execPlnot (sw : Bool) (d a : BitVec 3) (s : State) : Host.Outcome State Fault Refusal :=
  predOp (.plnot sw d a) sw d (fun t => ~~~(t.p a.toNat)) s

/-- PSETV (R392). -/
def execPsetv (sw : Bool) (d : BitVec 8) (p : BitVec 3) (s : State) : Host.Outcome State Fault Refusal :=
  issueVec (.psetv sw d p) sw (usesImm d.toNat) s (fun c =>
    .next (c.put s (writeWord c d.toNat (fun L => if (c.t.p p.toNat).getLsbD L then 1 else 0))))

/-- PCNT (R392). -/
def execPcnt (sw : Bool) (d : BitVec 6) (p : BitVec 3) (s : State) : Host.Outcome State Fault Refusal :=
  issueVec (.pcnt sw d p) sw (fun _ => { sw := [d.toNat], mode := .guard }) s (fun c =>
    .next (c.put s (c.t.setS d.toNat
      (BitVec.ofNat 32 (lanesOf c.t.w (c.guarded &&& c.t.p p.toNat)).length))))

end Sys2Proof.Machine
end

