-- ==== Sys2Proof/Machine/Dispatch.lean ====
section
/-! DEFINITION. One arm for each constructor of Instr, each a direct call of its meaning. -/
namespace Sys2Proof.Machine

/-- The meaning of an instruction. -/
def exec (i : Instr) (s : State) : Host.Outcome State Fault Refusal :=
  match i with
  | .nop sw => Sys2Proof.Machine.execNop sw s
  | .modeiLo sw imm => Sys2Proof.Machine.execModeiLo sw imm s
  | .modeiHi sw imm => Sys2Proof.Machine.execModeiHi sw imm s
  | .mfs sw d a => Sys2Proof.Machine.execMfs sw d a s
  | .mts sw d a => Sys2Proof.Machine.execMts sw d a s
  | .bra sw off => Sys2Proof.Machine.execBra sw off s
  | .brpDiv sw neg p imm => Sys2Proof.Machine.execBrpDiv sw neg p imm s
  | .brpAny sw neg p imm => Sys2Proof.Machine.execBrpAny sw neg p imm s
  | .brpAll sw neg p imm => Sys2Proof.Machine.execBrpAll sw neg p imm s
  | .brpNone sw neg p imm => Sys2Proof.Machine.execBrpNone sw neg p imm s
  | .joinat sw imm => Sys2Proof.Machine.execJoinat sw imm s
  | .jtab sw d a b => Sys2Proof.Machine.execJtab sw d a b s
  | .call sw off => Sys2Proof.Machine.execCall sw off s
  | .calli sw a => Sys2Proof.Machine.execCalli sw a s
  | .ret sw => Sys2Proof.Machine.execRet sw s
  | .refill sw d p q => Sys2Proof.Machine.execRefill sw d p q s
  | .exit sw => Sys2Proof.Machine.execExit sw s
  | .trapi sw imm => Sys2Proof.Machine.execTrapi sw imm s
  | .rett sw => Sys2Proof.Machine.execRett sw s
  | .yieldcCopy sw t imm => Sys2Proof.Machine.execYieldcCopy sw t imm s
  | .yieldcColl sw t imm => Sys2Proof.Machine.execYieldcColl sw t imm s
  | .yieldcBank sw t imm => Sys2Proof.Machine.execYieldcBank sw t imm s
  | .yieldcMm sw t imm => Sys2Proof.Machine.execYieldcMm sw t imm s
  | .arrive sw d a => Sys2Proof.Machine.execArrive sw d a s
  | .pwait sw a b => Sys2Proof.Machine.execPwait sw a b s
  | .dbar sw imm => Sys2Proof.Machine.execDbar sw imm s
  | .gangset sw a => Sys2Proof.Machine.execGangset sw a s
  | .xacq sw blk => Sys2Proof.Machine.execXacq sw blk s
  | .xrel sw blk => Sys2Proof.Machine.execXrel sw blk s
  | .hsave sw base pol => Sys2Proof.Machine.execHsave sw base pol s
  | .hload sw base pol => Sys2Proof.Machine.execHload sw base pol s
  | .rflush sw => Sys2Proof.Machine.execRflush sw s
  | .seqopen sw d a b => Sys2Proof.Machine.execSeqopen sw d a b s
  | .seqend sw a => Sys2Proof.Machine.execSeqend sw a s
  | .launch sw a => Sys2Proof.Machine.execLaunch sw a s
  | .signal sw a b => Sys2Proof.Machine.execSignal sw a b s
  | .ipush sw a q pos => Sys2Proof.Machine.execIpush sw a q pos s
  | .digest sw d a => Sys2Proof.Machine.execDigest sw d a s
  | .sadd sw d a b => Sys2Proof.Machine.execSadd sw d a b s
  | .ssub sw d a b => Sys2Proof.Machine.execSsub sw d a b s
  | .smul sw d a b => Sys2Proof.Machine.execSmul sw d a b s
  | .smulh sw d a b => Sys2Proof.Machine.execSmulh sw d a b s
  | .sand sw d a b => Sys2Proof.Machine.execSand sw d a b s
  | .sor sw d a b => Sys2Proof.Machine.execSor sw d a b s
  | .sxor sw d a b => Sys2Proof.Machine.execSxor sw d a b s
  | .sshl sw d a b => Sys2Proof.Machine.execSshl sw d a b s
  | .sshr sw d a b => Sys2Proof.Machine.execSshr sw d a b s
  | .ssra sw d a b => Sys2Proof.Machine.execSsra sw d a b s
  | .smin sw d a b => Sys2Proof.Machine.execSmin sw d a b s
  | .smax sw d a b => Sys2Proof.Machine.execSmax sw d a b s
  | .saddp sw d a b => Sys2Proof.Machine.execSaddp sw d a b s
  | .scmpEq sw p a b => Sys2Proof.Machine.execScmpEq sw p a b s
  | .scmpNe sw p a b => Sys2Proof.Machine.execScmpNe sw p a b s
  | .scmpLt sw p a b => Sys2Proof.Machine.execScmpLt sw p a b s
  | .scmpLe sw p a b => Sys2Proof.Machine.execScmpLe sw p a b s
  | .scmpLtn sw p a b => Sys2Proof.Machine.execScmpLtn sw p a b s
  | .scmpLen sw p a b => Sys2Proof.Machine.execScmpLen sw p a b s
  | .saddi sw d imm => Sys2Proof.Machine.execSaddi sw d imm s
  | .sli sw d imm => Sys2Proof.Machine.execSli sw d imm s
  | .slih sw d imm => Sys2Proof.Machine.execSlih sw d imm s
  | .vadd sw d a b => Sys2Proof.Machine.execVadd sw d a b s
  | .vsub sw d a b => Sys2Proof.Machine.execVsub sw d a b s
  | .vmul sw d a b => Sys2Proof.Machine.execVmul sw d a b s
  | .vmulh sw d a b => Sys2Proof.Machine.execVmulh sw d a b s
  | .vmad sw d a b => Sys2Proof.Machine.execVmad sw d a b s
  | .vmin sw d a b => Sys2Proof.Machine.execVmin sw d a b s
  | .vmax sw d a b => Sys2Proof.Machine.execVmax sw d a b s
  | .vand sw d a b => Sys2Proof.Machine.execVand sw d a b s
  | .vor sw d a b => Sys2Proof.Machine.execVor sw d a b s
  | .vxor sw d a b => Sys2Proof.Machine.execVxor sw d a b s
  | .vshl sw d a b => Sys2Proof.Machine.execVshl sw d a b s
  | .vshr sw d a b => Sys2Proof.Machine.execVshr sw d a b s
  | .vsra sw d a b => Sys2Proof.Machine.execVsra sw d a b s
  | .vsel sw d a b => Sys2Proof.Machine.execVsel sw d a b s
  | .vcmpEq sw comb p a b => Sys2Proof.Machine.execVcmpEq sw comb p a b s
  | .vcmpNe sw comb p a b => Sys2Proof.Machine.execVcmpNe sw comb p a b s
  | .vcmpLt sw comb p a b => Sys2Proof.Machine.execVcmpLt sw comb p a b s
  | .vcmpLe sw comb p a b => Sys2Proof.Machine.execVcmpLe sw comb p a b s
  | .vcmpGt sw comb p a b => Sys2Proof.Machine.execVcmpGt sw comb p a b s
  | .vcmpGe sw comb p a b => Sys2Proof.Machine.execVcmpGe sw comb p a b s
  | .vcvt sw d a => Sys2Proof.Machine.execVcvt sw d a s
  | .vabs sw d a => Sys2Proof.Machine.execVabs sw d a s
  | .vneg sw d a => Sys2Proof.Machine.execVneg sw d a s
  | .vnot sw d a => Sys2Proof.Machine.execVnot sw d a s
  | .vclz sw d a => Sys2Proof.Machine.execVclz sw d a s
  | .vpopc sw d a => Sys2Proof.Machine.execVpopc sw d a s
  | .vrcp sw d a => Sys2Proof.Machine.execVrcp sw d a s
  | .vrsq sw d a => Sys2Proof.Machine.execVrsq sw d a s
  | .vsqrt sw d a => Sys2Proof.Machine.execVsqrt sw d a s
  | .vexp2 sw d a => Sys2Proof.Machine.execVexp2 sw d a s
  | .vlog2 sw d a => Sys2Proof.Machine.execVlog2 sw d a s
  | .vtanh sw d a => Sys2Proof.Machine.execVtanh sw d a s
  | .vli sw d imm => Sys2Proof.Machine.execVli sw d imm s
  | .vlih sw d imm => Sys2Proof.Machine.execVlih sw d imm s
  | .vbcast sw d a => Sys2Proof.Machine.execVbcast sw d a s
  | .vextr sw d a b => Sys2Proof.Machine.execVextr sw d a b s
  | .vperm sw d a b => Sys2Proof.Machine.execVperm sw d a b s
  | .vredAdd sw d a => Sys2Proof.Machine.execVredAdd sw d a s
  | .vredMin sw d a => Sys2Proof.Machine.execVredMin sw d a s
  | .vredMax sw d a => Sys2Proof.Machine.execVredMax sw d a s
  | .vredAnd sw d a => Sys2Proof.Machine.execVredAnd sw d a s
  | .vredOr sw d a => Sys2Proof.Machine.execVredOr sw d a s
  | .vredXor sw d a => Sys2Proof.Machine.execVredXor sw d a s
  | .vscanAdd sw d a => Sys2Proof.Machine.execVscanAdd sw d a s
  | .vscanMin sw d a => Sys2Proof.Machine.execVscanMin sw d a s
  | .vscanMax sw d a => Sys2Proof.Machine.execVscanMax sw d a s
  | .vscanAnd sw d a => Sys2Proof.Machine.execVscanAnd sw d a s
  | .vscanOr sw d a => Sys2Proof.Machine.execVscanOr sw d a s
  | .vscanXor sw d a => Sys2Proof.Machine.execVscanXor sw d a s
  | .vbal sw d p b => Sys2Proof.Machine.execVbal sw d p b s
  | .vdot4 sw d a b => Sys2Proof.Machine.execVdot4 sw d a b s
  | .vdot2 sw d a b => Sys2Proof.Machine.execVdot2 sw d a b s
  | .vidx sw d => Sys2Proof.Machine.execVidx sw d s
  | .vsetp sw p a => Sys2Proof.Machine.execVsetp sw p a s
  | .pland sw d a b => Sys2Proof.Machine.execPland sw d a b s
  | .plor sw d a b => Sys2Proof.Machine.execPlor sw d a b s
  | .plxor sw d a b => Sys2Proof.Machine.execPlxor sw d a b s
  | .plnot sw d a => Sys2Proof.Machine.execPlnot sw d a s
  | .psetv sw d p => Sys2Proof.Machine.execPsetv sw d p s
  | .pcnt sw d p => Sys2Proof.Machine.execPcnt sw d p s
  | .ld sw d base pol x => Sys2Proof.Machine.execLd sw d base pol x s
  | .st sw d base pol x => Sys2Proof.Machine.execSt sw d base pol x s
  | .ld4 sw d base pol x => Sys2Proof.Machine.execLd4 sw d base pol x s
  | .st4 sw d base pol x => Sys2Proof.Machine.execSt4 sw d base pol x s
  | .lda sw d base scope x => Sys2Proof.Machine.execLda sw d base scope x s
  | .stl sw d base scope x => Sys2Proof.Machine.execStl sw d base scope x s
  | .sld sw d base pol x => Sys2Proof.Machine.execSld sw d base pol x s
  | .sst sw d base pol x => Sys2Proof.Machine.execSst sw d base pol x s
  | .aadd sw d base pol x => Sys2Proof.Machine.execAadd sw d base pol x s
  | .amin sw d base pol x => Sys2Proof.Machine.execAmin sw d base pol x s
  | .amax sw d base pol x => Sys2Proof.Machine.execAmax sw d base pol x s
  | .aand sw d base pol x => Sys2Proof.Machine.execAand sw d base pol x s
  | .aor sw d base pol x => Sys2Proof.Machine.execAor sw d base pol x s
  | .axor sw d base pol x => Sys2Proof.Machine.execAxor sw d base pol x s
  | .axchg sw d base pol x => Sys2Proof.Machine.execAxchg sw d base pol x s
  | .acas sw d base pol x => Sys2Proof.Machine.execAcas sw d base pol x s
  | .redadd sw d base pol x => Sys2Proof.Machine.execRedadd sw d base pol x s
  | .redmin sw d base pol x => Sys2Proof.Machine.execRedmin sw d base pol x s
  | .redmax sw d base pol x => Sys2Proof.Machine.execRedmax sw d base pol x s
  | .redor sw d base pol x => Sys2Proof.Machine.execRedor sw d base pol x s
  | .pdrain sw scope => Sys2Proof.Machine.execPdrain sw scope s
  | .fenceRel sw scope => Sys2Proof.Machine.execFenceRel sw scope s
  | .fenceAcq sw scope => Sys2Proof.Machine.execFenceAcq sw scope s
  | .fenceFull sw scope => Sys2Proof.Machine.execFenceFull sw scope s
  | .fenceAcqn sw scope => Sys2Proof.Machine.execFenceAcqn sw scope s
  | .invr sw d base => Sys2Proof.Machine.execInvr sw d base s
  | .wbr sw d base => Sys2Proof.Machine.execWbr sw d base s
  | .ownr sw d base => Sys2Proof.Machine.execOwnr sw d base s
  | .spld sw d base x => Sys2Proof.Machine.execSpld sw d base x s
  | .spst sw d base x => Sys2Proof.Machine.execSpst sw d base x s
  | .spaadd sw d base x => Sys2Proof.Machine.execSpaadd sw d base x s
  | .halloc sw d a => Sys2Proof.Machine.execHalloc sw d a s
  | .hpass sw a b => Sys2Proof.Machine.execHpass sw a b s
  | .hfree sw a => Sys2Proof.Machine.execHfree sw a s
  | .mm128 sw d a b => Sys2Proof.Machine.execMm128 sw d a b s
  | .mm256 sw d a b => Sys2Proof.Machine.execMm256 sw d a b s
  | .mm512 sw d a b => Sys2Proof.Machine.execMm512 sw d a b s
  | .mm1024 sw d a b => Sys2Proof.Machine.execMm1024 sw d a b s
  | .mbatch sw d => Sys2Proof.Machine.execMbatch sw d s
  | .mwait sw a => Sys2Proof.Machine.execMwait sw a s
  | .pfl2 sw a b => Sys2Proof.Machine.execPfl2 sw a b s
  | .bkload sw d a slot => Sys2Proof.Machine.execBkload sw d a slot s
  | .bkrun sw d a b => Sys2Proof.Machine.execBkrun sw d a b s
  | .bkwait sw a => Sys2Proof.Machine.execBkwait sw a s
  | .bkread sw d a q => Sys2Proof.Machine.execBkread sw d a q s
  | .dcopy sw d a => Sys2Proof.Machine.execDcopy sw d a s
  | .dcopy2 sw d a => Sys2Proof.Machine.execDcopy2 sw d a s
  | .dfill sw d a => Sys2Proof.Machine.execDfill sw d a s
  | .dgath sw d a => Sys2Proof.Machine.execDgath sw d a s
  | .dgate sw d a => Sys2Proof.Machine.execDgate sw d a s
  | .dwait sw a => Sys2Proof.Machine.execDwait sw a s
  | .dpoll sw d a => Sys2Proof.Machine.execDpoll sw d a s
  | .cred sw d a => Sys2Proof.Machine.execCred sw d a s
  | .cgath sw d a => Sys2Proof.Machine.execCgath sw d a s
  | .cscat sw d a => Sys2Proof.Machine.execCscat sw d a s
  | .cxch sw d a => Sys2Proof.Machine.execCxch sw d a s
  | .cwait sw a => Sys2Proof.Machine.execCwait sw a s
  | .cpoll sw d a => Sys2Proof.Machine.execCpoll sw d a s
  | .pgharv sw d a => Sys2Proof.Machine.execPgharv sw d a s
  | .pgset sw d a => Sys2Proof.Machine.execPgset sw d a s
  | .tlbinvPage sw d a => Sys2Proof.Machine.execTlbinvPage sw d a s
  | .tlbinvContext sw d a => Sys2Proof.Machine.execTlbinvContext sw d a s
  | .keyopAlloc sw d a => Sys2Proof.Machine.execKeyopAlloc sw d a s
  | .keyopDestroy sw d a => Sys2Proof.Machine.execKeyopDestroy sw d a s
  | .keyopRotate sw d a => Sys2Proof.Machine.execKeyopRotate sw d a s
  | .keyopStatus sw d a => Sys2Proof.Machine.execKeyopStatus sw d a s
  | .keyopRelease sw d a => Sys2Proof.Machine.execKeyopRelease sw d a s
  | .ctxswArm sw d a => Sys2Proof.Machine.execCtxswArm sw d a s
  | .ctxswCancel sw d a => Sys2Proof.Machine.execCtxswCancel sw d a s
  | .scrub sw d a => Sys2Proof.Machine.execScrub sw d a s
  | .scrubPoll sw d a => Sys2Proof.Machine.execScrubPoll sw d a s
  | .rowld sw d k => Sys2Proof.Machine.execRowld sw d k s
  | .rowst sw a k => Sys2Proof.Machine.execRowst sw a k s
  | .bfpadd sw d a => Sys2Proof.Machine.execBfpadd sw d a s
  | .bsmac sw d a k => Sys2Proof.Machine.execBsmac sw d a k s
  | .mpush sw a => Sys2Proof.Machine.execMpush sw a s
  | .mpop sw => Sys2Proof.Machine.execMpop sw s
  | .mflip sw => Sys2Proof.Machine.execMflip sw s
  | .bkend sw => Sys2Proof.Machine.execBkend sw s
  | .bfpout sw d a => Sys2Proof.Machine.execBfpout sw d a s
  | .bankSubsetInstruction o => Sys2Proof.Machine.execBankSubsetInstruction o s
  | .issueOpportunity slot => Sys2Proof.Machine.execIssueOpportunity slot s
  | .splitRestore tid sp => Sys2Proof.Machine.execSplitRestore tid sp s
  | .spinDemotion tid sp => Sys2Proof.Machine.execSpinDemotion tid sp s
  | .demotionEnd tid sp => Sys2Proof.Machine.execDemotionEnd tid sp s
  | .nodeOpen part => Sys2Proof.Machine.execNodeOpen part s
  | .drovePlacement part => Sys2Proof.Machine.execDrovePlacement part s
  | .lineClearDone tid => Sys2Proof.Machine.execLineClearDone tid s
  | .xacqGrant coach => Sys2Proof.Machine.execXacqGrant coach s
  | .registerLineFill tid line => Sys2Proof.Machine.execRegisterLineFill tid line s
  | .longLatencyReturn tid idx lane ext => Sys2Proof.Machine.execLongLatencyReturn tid idx lane ext s
  | .teamRetire tid => Sys2Proof.Machine.execTeamRetire tid s
  | .nodeCompletion ctx entry => Sys2Proof.Machine.execNodeCompletion ctx entry s
  | .entryArm ctx entry => Sys2Proof.Machine.execEntryArm ctx entry s
  | .entryDecrement ctx entry n => Sys2Proof.Machine.execEntryDecrement ctx entry n s
  | .nodeReleaseArm ctx value => Sys2Proof.Machine.execNodeReleaseArm ctx value s
  | .nodeReleaseDecrement ctx value => Sys2Proof.Machine.execNodeReleaseDecrement ctx value s
  | .policyReload ctx => Sys2Proof.Machine.execPolicyReload ctx s
  | .hostRegisterWrite bar off bytes => Sys2Proof.Machine.execHostRegisterWrite bar off bytes s
  | .watchdog ctx entry => Sys2Proof.Machine.execWatchdog ctx entry s
  | .droveEviction drove => Sys2Proof.Machine.execDroveEviction drove s
  | .gangSwitch part => Sys2Proof.Machine.execGangSwitch part s
  | .contextHalt h => Sys2Proof.Machine.execContextHalt h s
  | .haltFinish ctx => Sys2Proof.Machine.execHaltFinish ctx s
  | .remoteHaltFlit ctx mem => Sys2Proof.Machine.execRemoteHaltFlit ctx mem s
  | .pageFaultService ctx va fix => Sys2Proof.Machine.execPageFaultService ctx va fix s
  | .translationWalk ctx comp va write => Sys2Proof.Machine.execTranslationWalk ctx comp va write s
  | .placeOfEffectAccess k => Sys2Proof.Machine.execPlaceOfEffectAccess k s
  | .ownRegistration coach ctx va => Sys2Proof.Machine.execOwnRegistration coach ctx va s
  | .forwardedRead coach ctx va => Sys2Proof.Machine.execForwardedRead coach ctx va s
  | .registeredWriteback coach ctx va n => Sys2Proof.Machine.execRegisteredWriteback coach ctx va n s
  | .nmuUpdate k => Sys2Proof.Machine.execNmuUpdate k s
  | .drayChunk dray queue => Sys2Proof.Machine.execDrayChunk dray queue s
  | .tileFetchLine coach => Sys2Proof.Machine.execTileFetchLine coach s
  | .tensorStep coach => Sys2Proof.Machine.execTensorStep coach s
  | .bankRunArrival unit => Sys2Proof.Machine.execBankRunArrival unit s
  | .bkloadDelivery unit => Sys2Proof.Machine.execBkloadDelivery unit s
  | .bankRunAdmit unit => Sys2Proof.Machine.execBankRunAdmit unit s
  | .ordinaryRequestArrival unit row write id => Sys2Proof.Machine.execOrdinaryRequestArrival unit row write id s
  | .bankRowBoundary unit => Sys2Proof.Machine.execBankRowBoundary unit s
  | .refreshDue unit => Sys2Proof.Machine.execRefreshDue unit s
  | .collChunkSend ctx peer => Sys2Proof.Machine.execCollChunkSend ctx peer s
  | .collChunkReceive ctx peer c => Sys2Proof.Machine.execCollChunkReceive ctx peer c s
  | .collAck ctx peer n => Sys2Proof.Machine.execCollAck ctx peer n s
  | .collNack ctx peer n => Sys2Proof.Machine.execCollNack ctx peer n s
  | .rxRegionExpiry ctx => Sys2Proof.Machine.execRxRegionExpiry ctx s
  | .remoteRequest r => Sys2Proof.Machine.execRemoteRequest r s
  | .remoteFaultCompletion id => Sys2Proof.Machine.execRemoteFaultCompletion id s
  | .remoteTimeout id => Sys2Proof.Machine.execRemoteTimeout id s
  | .ckptAdvisory kind idx => Sys2Proof.Machine.execCkptAdvisory kind idx s
  | .correctedError site => Sys2Proof.Machine.execCorrectedError site s
  | .uncorrectableError site => Sys2Proof.Machine.execUncorrectableError site s
  | .coachFailure coach => Sys2Proof.Machine.execCoachFailure coach s
  | .trainLend train part => Sys2Proof.Machine.execTrainLend train part s
  | .trainReclaim train force => Sys2Proof.Machine.execTrainReclaim train force s
  | .reclaimDrainDone train => Sys2Proof.Machine.execReclaimDrainDone train s
  | .reclaimDeadline train => Sys2Proof.Machine.execReclaimDeadline train s
  | .seqopenService tid sp => Sys2Proof.Machine.execSeqopenService tid sp s
  | .seqendEndInstant tid sp => Sys2Proof.Machine.execSeqendEndInstant tid sp s
  | .keySlotFree slot => Sys2Proof.Machine.execKeySlotFree slot s
  | .reencryptBlock slot engine => Sys2Proof.Machine.execReencryptBlock slot engine s
  | .scrubRow slice => Sys2Proof.Machine.execScrubRow slice s
  | .migrationBlockMove m => Sys2Proof.Machine.execMigrationBlockMove m s
  | .hostHotReset => Sys2Proof.Machine.execHostHotReset s
  | .hostLinkDown => Sys2Proof.Machine.execHostLinkDown s
  | .cxlLinkDown => Sys2Proof.Machine.execCxlLinkDown s
  | .ectoupPortDown port => Sys2Proof.Machine.execEctoupPortDown port s
  | .timeSyncFlit t => Sys2Proof.Machine.execTimeSyncFlit t s
  | .tsyncLost => Sys2Proof.Machine.execTsyncLost s
  | .tsyncRecovered => Sys2Proof.Machine.execTsyncRecovered s
  | .powerUp => Sys2Proof.Machine.execPowerUp s
  | .firmwareStagingWrite off bytes => Sys2Proof.Machine.execFirmwareStagingWrite off bytes s
  | .bootGo => Sys2Proof.Machine.execBootGo s
  | .bootVerifyDone => Sys2Proof.Machine.execBootVerifyDone s
  | .bootDeriveDone => Sys2Proof.Machine.execBootDeriveDone s
  | .thermalHalt => Sys2Proof.Machine.execThermalHalt s
  | .thermalRecovery => Sys2Proof.Machine.execThermalRecovery s
  | .clockStep up => Sys2Proof.Machine.execClockStep up s
  | .mgmtReadCounters => Sys2Proof.Machine.execMgmtReadCounters s
  | .mgmtClearCounters => Sys2Proof.Machine.execMgmtClearCounters s
  | .mgmtReadThresholds => Sys2Proof.Machine.execMgmtReadThresholds s
  | .mgmtWriteThresholds kind idx value => Sys2Proof.Machine.execMgmtWriteThresholds kind idx value s
  | .mgmtReadPower => Sys2Proof.Machine.execMgmtReadPower s
  | .mgmtSetPowerCap watts => Sys2Proof.Machine.execMgmtSetPowerCap watts s
  | .mgmtReadStatus => Sys2Proof.Machine.execMgmtReadStatus s
  | .mgmtReclaim train => Sys2Proof.Machine.execMgmtReclaim train s
  | .mgmtReclaimForce train => Sys2Proof.Machine.execMgmtReclaimForce train s
  | .spdmGetVersion => Sys2Proof.Machine.execSpdmGetVersion s
  | .spdmGetCapabilities => Sys2Proof.Machine.execSpdmGetCapabilities s
  | .spdmNegotiateAlgorithms => Sys2Proof.Machine.execSpdmNegotiateAlgorithms s
  | .spdmGetDigests => Sys2Proof.Machine.execSpdmGetDigests s
  | .spdmGetCertificate => Sys2Proof.Machine.execSpdmGetCertificate s
  | .spdmGetMeasurements => Sys2Proof.Machine.execSpdmGetMeasurements s
  | .spdmKeyExchange => Sys2Proof.Machine.execSpdmKeyExchange s
  | .spdmFinish session => Sys2Proof.Machine.execSpdmFinish session s
  | .spdmHeartbeat session => Sys2Proof.Machine.execSpdmHeartbeat session s
  | .spdmKeyUpdate session => Sys2Proof.Machine.execSpdmKeyUpdate session s
  | .spdmEndSession session => Sys2Proof.Machine.execSpdmEndSession session s
  | .tdispLock part => Sys2Proof.Machine.execTdispLock part s
  | .tdispReport part => Sys2Proof.Machine.execTdispReport part s
  | .tdispStart part => Sys2Proof.Machine.execTdispStart part s
  | .tdispStop part => Sys2Proof.Machine.execTdispStop part s
  | .engineFailure e => Sys2Proof.Machine.execEngineFailure e s
  | .ectoupPortUp port => Sys2Proof.Machine.execEctoupPortUp port s
  | .hostLinkUp => Sys2Proof.Machine.execHostLinkUp s
  | .switchArmReceived a => Sys2Proof.Machine.execSwitchArmReceived a s
  | .switchArmAcknowledgement part mem => Sys2Proof.Machine.execSwitchArmAcknowledgement part mem s
  | .switchArmTimeout part => Sys2Proof.Machine.execSwitchArmTimeout part s
  | .sliceAssignment slice part => Sys2Proof.Machine.execSliceAssignment slice part s
  | .sliceDrainStart slice => Sys2Proof.Machine.execSliceDrainStart slice s
  | .contextCreation spec => Sys2Proof.Machine.execContextCreation spec s
  | .contextDestruction ctx => Sys2Proof.Machine.execContextDestruction ctx s

end Sys2Proof.Machine
end

