-- ==== Sys2Proof/Machine/Turn.lean ====
section
/-! DEFINITION. The turn of a unit that has been chosen (log 1): a split's instruction or pending event, with what follows it
(spec/02 R41; spec/11 R284, R285; spec/12 R292, R296), and the device's own next step. -/
namespace Sys2Proof.Machine

/-- Execute what a chosen unit fetched, then do what follows its turn. -/
def runFetched (done : State → State) (f : Fetched) : Host.Outcome State Fault Refusal :=
  match f with
  | .run s i => mapNext (fun t => (done t).endTurn) (exec i s)
  | .spent s => .next (done s).endTurn

/-- The device's own next step (log 1). -/
def ownStep (s : State) : Host.Outcome State Fault Refusal := mapNext State.countStep (runOwn (idleChoice s) s)

/-- The next instruction of a split has a wait that is not met: tried in this state it would be held (R41). -/
def wouldHold (s : State) (tid uid : Nat) : Bool :=
  match (s.team tid).bind (fun t => t.split uid) with
  | none => false
  | some x =>
    let s : State := { wake s tid x with cur := .split tid uid }
    match fetchSplit s tid uid with
    | .run s' i => (match exec i s' with | .next e => heldBack s e tid uid | _ => false)
    | .spent e => heldBack s e tid uid

/-- The turn of the chosen split: its team's pending event, else its next instruction, and what follows (R41, R284, R285,
R292). -/
def splitTurn (s : State) (tid uid : Nat) : Host.Outcome State Fault Refusal :=
  let after (e : State) : State := concludeIssue (wouldHold s) s e tid uid
  if ((s.team tid).map eventDue).getD false then .next (after (takeEvent s tid uid)).endTurn
  else runFetched after (fetchSplit s tid uid)

end Sys2Proof.Machine
end

