-- ==== Sys2Proof/Machine/Step.lean ====
section
/-! DEFINITION. One step of the device: the chosen split or bank unit fetches and executes one instruction, or, when
none is chosen, the next input or the device's own next step takes place. -/
namespace Sys2Proof.Machine

/-- One step (log 1). -/
def step (s : State) : Host.Outcome State Fault Refusal :=
  match s.cur with
  | .split tid uid => splitTurn s tid uid
  | .bank u => runFetched id (fetchBank s u)
  | .idle =>
    match s.agenda with
    | i :: r =>
      if agendaStep i then mapNext State.countStep (exec i { s with agenda := r })
      else .next (State.countStep { s with agenda := r })
    | [] => ownStep s.passTime

/-- The state in which the next step fetches and runs the instruction of a table word (R70). -/
def State.withFetchWord (s : State) (nbits w : Nat) : State := placeWordNext s (BitVec.ofNat 32 (w % 2 ^ nbits))

end Sys2Proof.Machine
end

