-- ==== Sys2Proof/Safety.lean ====
section
/-! DEFINITION. The terms in which claims about the machine are stated: the canonical form of memory, an instruction at
issue, what completes with which effect, and what a frame leaves alone. -/
namespace Sys2Proof.Machine

/-- The canonical form of memory: addresses strictly rising, no byte equal to what an unlisted address reads as
(log 4). -/
def Memory.wf (m : List (Nat × Byte)) : Bool := Store.wf 0 m

/-- The state's memory is canonical. -/
def Kept (s : State) : Prop := Memory.wf s.mem = true

-- ## instructions at issue

/-- Split `uid` of team `tid` has the issue slot. -/
def AtIssue (s : State) (tid uid : Nat) (t : Team) (x : Split) : Prop :=
  s.cur = .split tid uid ∧ s.team tid = some t ∧ t.split uid = some x

/-- The instruction passes the static checks of R75, R77 and R83, is not held by a pending write of a register it
writes (R124), and names no register whose line is FILLING (R116) and, unless it is a matrix
instruction, no accumulator in flight (R220). -/
def Ready (t : Team) (x : Split) (u : Uses) : Prop :=
  u.regOk = true ∧ (u.vr ++ u.vw).all t.holds = true ∧ modeOk u.mode x.mode = true ∧ writeHeld t x u = false ∧
    (u.vr ++ u.vw).any t.filling = false ∧ (u.mode = .mat ∨ (u.vr ++ u.vw).any t.inFlight = false)

/-- What the instruction's meaning works on. -/
def issueOf (tid uid : Nat) (t : Team) (x : Split) (i : Instr) : Issue := ⟨tid, uid, t, x, (encode i).getD 0⟩

/-- The split's top join record is not reached at this PC (R59). -/
def NoJoin (x : Split) (pc : Word) : Prop := ∀ r, x.joins.head? = some r → ¬(r.pc = pc ∧ r.depth = x.cdepth)

/-- Two splits agree in mask, MODE, phase, stacks, latches and everything else that an instruction does not change by
advancing: only the PC, ICOUNT, the waits and the notes of the spin detector and of a demotion's end may differ. -/
def SplitKept (x y : Split) : Prop :=
  { y with pc := x.pc, icount := x.icount, waits := x.waits, parkedAt := x.parkedAt, spin := x.spin,
           demoted := x.demoted, dueAt := x.dueAt } = x

/-- Two teams agree in every register, special, predicate, block, counter, tag and record; their splits and pending
writes are not compared, nor whether a register line is dirty. -/
def TeamKept (t u : Team) : Prop :=
  { u with splits := t.splits, pending := t.pending, lines := t.lines } = t ∧
    u.lines.map (fun l => { l with dirty := true }) = t.lines.map (fun l => { l with dirty := true })

/-- Two states agree in everything but the clocks and the team `tid`. -/
def OnlyTeam (e s' : State) (tid : Nat) : Prop :=
  { s' with teams := e.teams, clk := e.clk } = e ∧ ∀ k, k ≠ tid → s'.team k = e.team k

/-- The instruction completes: its effect turns the state into `e`, nothing else of the state changes but the clocks,
and the issuing split goes on at `pc` with its count one higher, waiting for `ws` and, with the switch marker, for its
pending writes (R122, R138). Where the split's top join record is reached there, R59 says what follows. -/
def Completes (i : Instr) (s e : State) (tid uid : Nat) (sw : Bool) (pc : Word) (ws : List Wait) : Prop :=
  ∃ s' t te xe, exec i s = .next s' ∧ OnlyTeam e s' tid ∧ s'.team tid = some t ∧ e.team tid = some te ∧
    te.split uid = some xe ∧ TeamKept te t ∧
    (NoJoin xe pc →
      t.pending = te.pending ∧ (∀ u, u ≠ uid → t.split u = te.split u) ∧
      ∃ y, t.split uid = some y ∧ y.pc = pc ∧ y.icount = xe.icount + 1 ∧
        y.waits = (if sw && pendingOf te uid then Wait.switch :: ws else ws) ∧ SplitKept xe y)

/-- The instruction answers a next state that is `e` but for the clocks and the spin detector's notes. -/
def Answers (i : Instr) (s e : State) (tid : Nat) : Prop :=
  ∃ s', exec i s = .next s' ∧ OnlyTeam e s' tid ∧
    (∀ te, e.team tid = some te → ∃ t, s'.team tid = some t ∧ TeamKept te t ∧ t.pending = te.pending ∧
      t.splits.map (fun y => { y with spin := none, demoted := none, dueAt := 0 }) =
        te.splits.map (fun y => { y with spin := none, demoted := none, dueAt := 0 }))

/-- A vector write: in the lanes listed the group at D takes the values given, and nothing else changes (R65, R127). -/
def VectorWritten (t u : Team) (et : ET) (d : Nat) (lanes : List Nat) (f : Nat → DWord) : Prop :=
  { u with vregs := t.vregs } = t ∧
    (∀ L, L ∈ lanes → u.v d L = (f L).setWidth 32 ∧ (et64 et → u.v (d + 1) L = ((f L) >>> 32).setWidth 32)) ∧
    (∀ r L, L < 1024 → (L ∉ lanes ∨ (r ≠ d ∧ (et64 et → r ≠ d + 1))) → u.v r L = t.v r L)

/-- A predicate write in some lanes only; p0 stays all true (R103). -/
def PredWritten (t u : Team) (n : Nat) (lanes : LaneMask) (f : Nat → Bool) : Prop :=
  { u with preds := t.preds } = t ∧
    (∀ L, L < t.w → L < 1024 → (u.p n).getLsbD L = if n = 0 then true else if lanes.getLsbD L then f L else (t.p n).getLsbD L) ∧
    (∀ k, k ≠ n → u.p k = t.p k)

/-- s[D] := v, and the split goes on at the next word. -/
def ScalarResult (i : Instr) (s : State) (tid uid : Nat) (t : Team) (x : Split) (sw : Bool) (d : Nat) (v : Word) : Prop :=
  Completes i s (s.setTeam tid (t.setS d v)) tid uid sw (x.pc + 4) []

/-- A vector result, and the split goes on at the next word. -/
def VectorResult (i : Instr) (s : State) (tid uid : Nat) (t : Team) (x : Split) (sw : Bool) (et : ET) (d : Nat)
    (lanes : List Nat) (f : Nat → DWord) : Prop :=
  ∃ u, VectorWritten t u et d lanes f ∧ Completes i s (s.setTeam tid u) tid uid sw (x.pc + 4) []

/-- A predicate result, and the split goes on at the next word. -/
def PredResult (i : Instr) (s : State) (tid uid : Nat) (t : Team) (x : Split) (sw : Bool) (n : Nat)
    (lanes : LaneMask) (f : Nat → Bool) : Prop :=
  ∃ u, PredWritten t u n lanes f ∧ Completes i s (s.setTeam tid u) tid uid sw (x.pc + 4) []

/-- A long-latency write starts: the values are in flight, and no register has changed (R121). -/
def InFlight (t : Team) (uid : Nat) (d : Dest) (vals : List (Nat × List Word)) : Team :=
  if vals.isEmpty then t else { t with pending := t.pending ++ [⟨[uid], [], d, vals, none, false⟩] }

/-- The split `uid` of a team changed. -/
def withSplit (t : Team) (uid : Nat) (f : Split → Split) : Team :=
  { t with splits := t.splits.map (fun y => if y.uid = uid then f y else y) }

/-- A table of units without repeated keys. -/
def UniqueKeys {α : Type} (m : List (Nat × α)) : Prop := (m.map (·.1)).Nodup

/-- The row of the table whose word an instruction has: a few rows share one, and the operand words decide (log 10). -/
def tableRow (i : Instr) : Instr :=
  match i with
  | .tlbinvContext sw d a => .tlbinvPage sw d a
  | .keyopDestroy sw d a | .keyopRotate sw d a | .keyopStatus sw d a | .keyopRelease sw d a => .keyopAlloc sw d a
  | .ctxswCancel sw d a => .ctxswArm sw d a
  | .scrubPoll sw d a => .scrub sw d a
  | i => i

/-- The chosen split's next word is `w`, and fetching it leaves the state `s'`: firmware's from its image (log 12), a
tenant's through the instruction cache (R72). No event of its team is taken in its place (R292). -/
def Fetches (s s' : State) (tid uid : Nat) (t : Team) (x : Split) (w : Word) : Prop :=
  AtIssue s tid uid t x ∧ eventDue t = false ∧
    (if t.sys then s' = s ∧ w = systemWord s (t.codeHi ++ x.pc)
     else fetchWord s ⟨t.ctx, t.comp, t.coach⟩ (t.codeHi ++ x.pc) = .ok (s', w))

/-- The step that answers a word with ILLEGAL_OP. -/
def IllegalStep (s s' : State) (tid uid : Nat) (t : Team) (x : Split) (w : Word) : Prop :=
  step s = .next (concludeIssue (wouldHold s) s (takeCause (s'.tick 1) tid uid ⟨.illegalOp, w, t.codeHi ++ x.pc⟩) tid uid).endTurn

/-- The value at the place of effect of a word of a cached line (R186, R197). -/
def wordAt (s : State) (asid line i : Nat) : Except Cause Word := placeWord s asid line i

end Sys2Proof.Machine
end

