-- ==== Sys2Proof/Certificates/Slice0/Obligations.lean ====
section
/-! DEFINITION. The statements for the provers. Each names the rules of spec/ that it formalises; the vocabulary is in
Sys2Proof/Safety.lean. -/

open Sys2Proof Sys2Proof.Machine

-- ## reset, memory, decoding, the step

/-- R319, R338: after power-on BOOTSTS and BOOTCMD read zero (ROM_WAIT, ERR 0), there is no context and no team, and every key
slot is FREE with generation 0. That memory reads as zero, and where the clocks stand, is the model's (logs 4 and 5). -/
def Obligations.ResetState : Prop :=
  bootsts State.reset = 0 ∧ State.reset.boot.cmd = 0 ∧
  (∀ k, (State.reset.key k).st = .free ∧ (State.reset.key k).gen = 0) ∧
  (∀ k, State.reset.ctx k = none ∧ State.reset.team k = none) ∧ (∀ k, Store.get 0 State.reset.mem k = 0) ∧
  State.reset.clk.cycle = 0 ∧ State.reset.clk.gtime = 0 ∧ State.reset.clk.mhz = 1900

/-- Log 4: the memory after reset is canonical. -/
def Obligations.ResetKept : Prop := Kept State.reset

/-- Log 4: every step keeps the canonical form of memory, so that equal memories are equal data. -/
def Obligations.StepKeepsMemory : Prop := ∀ s s' : State, Kept s → step s = .next s' → Kept s'

/-- R70 to R93: decoding the word of an instruction gives it back, every operand at every value its encoding admits; rows
that share a word (log 10) give the one row; a coach's word has one meaning: what it decodes to encodes to it. -/
def Obligations.DecodeAndEncodeAgree : Prop :=
  (∀ (i : Instr) (w : Word), wellFormed i = true → encode i = some w →
    (match i with
     | .bankSubsetInstruction _ => decodeBank w = .ok i
     | .rowld _ _ _ | .rowst _ _ _ | .bfpadd _ _ _ | .bsmac _ _ _ _ | .mpush _ _ | .mpop _ | .mflip _ | .bkend _ | .bfpout _ _ _ =>
       decodeBank w = .ok i ∧ decodeWord w = .ok i
     | _ => decodeWord w = .ok (tableRow i))) ∧
  (∀ (i : Instr) (w : Word), decodeWord w = .ok i → encode i = some w)

/-- R70, R73, R76 to R93: words that the spec writes out decode to the instructions they stand for. -/
def Obligations.DecodesSpecWords : Prop :=
  decodeWord 0x04FFFFFD = .ok (.bra false (-3)) ∧ decodeWord 0x0600000C = .ok (.joinat false 12) ∧
  decodeWord 0x2204FFF8 = .ok (.saddi false 4 0xFFF8) ∧ decodeWord 0x21410445 = .ok (.scmpLen false 1 4 5) ∧
  decodeWord 0x30020203 = .ok (.vadd false 2 2 3) ∧ decodeWord 0x3E920405 = .ok (.vcmpLt false .or 2 4 5) ∧
  decodeWord 0x54011900 = .ok (.lda false 1 6 .dev (some 0)) ∧ decodeWord 0x650A0200 = .ok (.fenceFull false .prt) ∧
  decodeWord 0x7010_0406 = .ok (.mm128 false 16 4 6) ∧ decodeWord 0x78090628 = .ok (.bkrun false 9 6 40) ∧
  decodeWord 0x0D00002A = .ok (.trapi false 42) ∧ decodeWord 0x0302_0400 = .ok (.mts false 2 4) ∧
  decodeBank 0x29030082 = .ok (.bsmac false 3 0 2) ∧
  decodeBank 0x32000080 = .ok (.bankSubsetInstruction (.alu .mul 0 (.q 0) (.k 0)))

/-- R41, R70 to R72, R94, R231, R292: a step at which a split is chosen runs the instruction that its word decodes to, and what
follows a turn is then done; where an event of its team is due, the event is taken in its place. At a chosen bank unit whose
bank cycles have passed and at which nothing is served or precharged, it runs the word at the kernel's micro-PC; with no one
chosen, an input of the agenda as it stands. A word whose line the coach's instruction cache holds is read from there. How turns
are taken is log 1. -/
def Obligations.StepRunsTheInstruction : Prop :=
  (∀ (s s' : State) (tid uid : Nat) (t : Team) (x : Split) (w : Word) (i : Instr),
    Fetches s s' tid uid t x w → decodeWord w = .ok i →
    step s = mapNext (fun e => (concludeIssue (wouldHold s) s e tid uid).endTurn) (exec (refine s' t i) s')) ∧
  (∀ (s : State) (tid uid : Nat) (t : Team), s.cur = .split tid uid → s.team tid = some t → eventDue t = true →
    step s = .next (concludeIssue (wouldHold s) s (takeEvent s tid uid) tid uid).endTurn) ∧
  (∀ (s : State) (u : Nat) (e : BankExec) (i : Instr), s.cur = .bank u → (s.bank u).exec = some e →
    ctxActive s e.run.ctx = true → (s.bank u).busy ≤ bankCycle s → runOver e = false → rowBoundary u s = none →
    e.opening = none → e.ending = false → e.upc < 64 → decodeBank (kernelWord s u e) = .ok i →
    step s = mapNext State.endTurn (exec i s)) ∧
  (∀ (s : State) (i : Instr) (r : List Instr), s.cur = .idle → s.agenda = i :: r → agendaStep i = true →
    step s = mapNext State.countStep (exec i { s with agenda := r })) ∧
  (∀ (s : State) (a : Agent) (va : DWord) (l : ILine),
    s.icache.find? (fun l => l.coach == a.coach && l.asid == s.asid a.ctx && l.line == va.toNat / 128) = some l → l.cmp = a.comp →
    fetchWord s a va = .ok (s, l.data.getD (va.toNat / 4 % 32) 0))

/-- R76: 0x0000_0000 and 0x8000_0000 are NOP, without and with a switch; a Z-format word with a non-zero bit in 23:0
raises ILLEGAL_OP. -/
def Obligations.NopWords : Prop :=
  decodeWord 0x00000000 = .ok (.nop false) ∧ decodeWord 0x80000000 = .ok (.nop true) ∧
  (∀ (s : State) (tid uid : Nat) (t : Team) (x : Split) (sw : Bool), AtIssue s tid uid t x →
    Completes (.nop sw) s s tid uid sw (x.pc + 4) []) ∧
  (∀ (s s' : State) (tid uid : Nat) (t : Team) (x : Split) (w : Word), Fetches s s' tid uid t x w →
    w.extractLsb' 24 7 ∈ [0x00#7, 0x0A#7, 0x0C#7, 0x0E#7, 0x18#7, 0x2B#7, 0x2C#7, 0x2D#7] → w.extractLsb' 0 24 ≠ 0 →
    IllegalStep s s' tid uid t x w)

/-- R82: MODEI writes one half of MODE, whatever MODE holds and whatever the guard; a D other than 0 and 1 raises
ILLEGAL_OP; MTS MODE writes all 32 bits. The split that goes on has the new MODE. -/
def Obligations.ModeWrites : Prop :=
  (∀ (s : State) (tid uid : Nat) (t : Team) (x : Split) (sw : Bool) (imm : BitVec 16) (a : BitVec 6), AtIssue s tid uid t x →
    (let into (f : Split → Word) : State := s.setTeam tid (withSplit t uid (fun y => { y with mode := f y }))
     Completes (.modeiLo sw imm) s (into (fun y => y.mode.extractLsb' 16 16 ++ imm)) tid uid sw (x.pc + 4) [] ∧
     Completes (.modeiHi sw imm) s (into (fun y => imm ++ y.mode.extractLsb' 0 16)) tid uid sw (x.pc + 4) [] ∧
     Completes (.mts sw 0 a) s (into (fun _ => s.rs t a.toNat)) tid uid sw (x.pc + 4) [])) ∧
  (∀ (s s' : State) (tid uid : Nat) (t : Team) (x : Split) (w : Word), Fetches s s' tid uid t x w →
    w.extractLsb' 24 7 = 0x01#7 →
    (w.extractLsb' 16 8 = 0 → decodeWord w = .ok (.modeiLo (w.getLsbD 31) (w.extractLsb' 0 16))) ∧
    (w.extractLsb' 16 8 = 1 → decodeWord w = .ok (.modeiHi (w.getLsbD 31) (w.extractLsb' 0 16))) ∧
    (w.extractLsb' 16 8 ≠ 0 → w.extractLsb' 16 8 ≠ 1 → IllegalStep s s' tid uid t x w))

/-- R190, R260: HPASS and HFREE first wait until the split's own accesses are released; of a handle that an incomplete copy command
of the drove names they then park the split, and the wait is over when no such command is incomplete. -/
def Obligations.HandleWaits : Prop :=
  ∀ (s : State) (tid uid : Nat) (t : Team) (x : Split) (sw : Bool) (a b : BitVec 6) (n : Nat), AtIssue s tid uid t x →
    namedHandle s (issueOf tid uid t x (.hfree sw a)) (s.rs t a.toNat) = some n →
    (let parked (w : Wait) : State := s.setTeam tid (withSplit t uid (fun y =>
       { y with waits := [w], parkedAt := s.clk.cycle.toNat }))
     (released t uid false = false →
       Answers (.hfree sw a) s (parked (.release false)) tid ∧
       ((s.rs t b.toNat).toNat ≤ 7 → Answers (.hpass sw a b) s (parked (.release false)) tid)) ∧
     (released t uid false = true → copyNamesHandle s t.drove n = true →
       Answers (.hfree sw a) s (parked (.handleFree n)) tid ∧
       ((s.rs t b.toNat).toNat ≤ 7 → Answers (.hpass sw a b) s (parked (.handleFree n)) tid))) ∧
    (∀ e y, waitMet e tid t y (.handleFree n) = !copyNamesHandle e t.drove n)

-- ## scalar and vector instructions

/-- R403, R405: the scalar arithmetic results; every other register, the memory and the rest of the device are as they
were (`Completes`). Shifts by 32 or more give zero, or the sign for SSRA. SADDP adds two pairs; with D = 0 only s1 is
written. -/
def Obligations.ScalarArithmetic : Prop :=
  ∀ (s : State) (tid uid : Nat) (t : Team) (x : Split) (sw : Bool) (d a b : BitVec 6) (imm : BitVec 16),
    AtIssue s tid uid t x →
    (Ready t x { sw := [d.toNat, d.toNat + 1], regOk := evenReg d && evenReg a && evenReg b } →
      (let v := s.rpair t a.toNat + s.rpair t b.toNat
       ∃ u, { u with scalars := t.scalars } = t ∧
         (∀ r, u.s r = if r = 0 then 0 else if r = d.toNat then v.setWidth 32
            else if r = d.toNat + 1 then (v >>> 32).setWidth 32 else t.s r) ∧
         Completes (.saddp sw d a b) s (s.setTeam tid u) tid uid sw (x.pc + 4) [])) ∧
    (Ready t x { sw := [d.toNat] } →
     let p := s.rs t a.toNat
     let q := s.rs t b.toNat
     let r (i : Instr) (v : Word) : Prop := ScalarResult i s tid uid t x sw d.toNat v
     r (.sadd sw d a b) (p + q) ∧ r (.ssub sw d a b) (p - q) ∧ r (.smul sw d a b) (p * q) ∧
     r (.smulh sw d a b) (BitVec.ofInt 32 (p.toInt * q.toInt / 2 ^ 32)) ∧
     r (.sand sw d a b) (p &&& q) ∧ r (.sor sw d a b) (p ||| q) ∧ r (.sxor sw d a b) (p ^^^ q) ∧
     r (.sshl sw d a b) (if q.toNat < 32 then p <<< q.toNat else 0) ∧
     r (.sshr sw d a b) (if q.toNat < 32 then p >>> q.toNat else 0) ∧
     r (.ssra sw d a b) (BitVec.ofInt 32 (p.toInt / 2 ^ (min q.toNat 31))) ∧
     r (.smin sw d a b) (BitVec.ofInt 32 (min p.toInt q.toInt)) ∧
     r (.smax sw d a b) (BitVec.ofInt 32 (max p.toInt q.toInt)) ∧
     r (.saddi sw d imm) (s.rs t d.toNat + imm.signExtend 32) ∧
     r (.sli sw d imm) (imm.signExtend 32) ∧
     r (.slih sw d imm) (imm ++ (s.rs t d.toNat).extractLsb' 0 16))

/-- R404: the scalar comparisons write the result to every active lane of P, whatever the guard says. -/
def Obligations.ScalarComparison : Prop :=
  ∀ (s : State) (tid uid : Nat) (t : Team) (x : Split) (sw : Bool) (n : BitVec 3) (a b : BitVec 6),
    AtIssue s tid uid t x → Ready t x { pw := [n.toNat] } →
    (let p := s.rs t a.toNat
     let q := s.rs t b.toNat
     let r (i : Instr) (v : Bool) : Prop := PredResult i s tid uid t x sw n.toNat x.mask (fun _ => v)
     r (.scmpEq sw n a b) (decide (p = q)) ∧ r (.scmpNe sw n a b) (decide (p ≠ q)) ∧
     r (.scmpLt sw n a b) (decide (p.toInt < q.toInt)) ∧ r (.scmpLe sw n a b) (decide (p.toInt ≤ q.toInt)) ∧
     r (.scmpLtn sw n a b) (decide (p.toNat < q.toNat)) ∧ r (.scmpLen sw n a b) (decide (p.toNat ≤ q.toNat)))

/-- R103: s0 reads zero and p0 reads true in every lane, and writes to them are discarded. -/
def Obligations.ConstantRegisters : Prop :=
  ∀ (s : State) (t : Team) (v : Word) (m : LaneMask),
    t.s 0 = 0 ∧ s.rs t 0 = 0 ∧ t.p 0 = BitVec.allOnes 1024 ∧ t.setS 0 v = t ∧ t.setP 0 m = t

/-- R419, R65: the two-source vector instructions write, in the active lanes that pass the guard, the value of the element
operation; the other lanes and every other register keep theirs. -/
def Obligations.VectorArithmetic : Prop :=
  ∀ (s : State) (tid uid : Nat) (t : Team) (x : Split) (sw : Bool) (d a b : BitVec 8), AtIssue s tid uid t x →
    (let et := modeEt x.mode
     let r (i : Instr) (op : VOp) (ok : ET → Bool) (acc : Bool) : Prop :=
       let c := issueOf tid uid t x i
       Ready t x (uses3 i ok acc d.toNat a.toNat b.toNat et) →
       VectorResult i s tid uid t x sw et d.toNat c.lanes (fun L =>
         vop op (c.num L) (s.rgroup t et a.toNat L) (s.rgroup t et b.toNat L) (s.rgroup t et d.toNat L))
     r (.vadd sw d a b) .add etAny false ∧ r (.vsub sw d a b) .sub etAny false ∧ r (.vmul sw d a b) .mul etAny false ∧
     r (.vmulh sw d a b) .mulh etIntOp false ∧ r (.vmad sw d a b) .mad etAny true ∧
     r (.vmin sw d a b) .min etAny false ∧ r (.vmax sw d a b) .max etAny false ∧
     r (.vand sw d a b) .and etAny false ∧ r (.vor sw d a b) .or etAny false ∧ r (.vxor sw d a b) .xor etAny false ∧
     r (.vshl sw d a b) .shl etIntOp false ∧ r (.vshr sw d a b) .shr etIntOp false ∧
     r (.vsra sw d a b) .sra etIntOp false)

/-- R126, R354, R355, R419, R422: what the element operations are for 32-bit integers. Without saturation sums, differences
and products are modulo 2^32; with it they, and VABS and VNEG, take the nearest value of the type. The high half of a product,
the smaller and the larger value, the bitwise operations, the shifts (zero, or the sign for VSRA, at 32 and beyond), the
leading zeros and the one bits do not depend on SAT. An indivisible update writes the sum modulo 2^32, the smaller or larger,
the bitwise results, the exchange, and the new value of a compare-and-swap only where the old one is the value compared. -/
def Obligations.IntegerOperations : Prop :=
  (∀ (m : NumMode) (a b c : Word), m.sat = false → (m.et = .i32 ∨ m.et = .n32) →
     (let f (o : VOp) : Word := (vop o m (a.setWidth 64) (b.setWidth 64) (c.setWidth 64)).setWidth 32
      f .add = a + b ∧ f .sub = a - b ∧ f .mul = a * b ∧ f .mad = c + a * b ∧
      f .and = a &&& b ∧ f .or = a ||| b ∧ f .xor = a ^^^ b ∧
      (m.et = .i32 → f .mulh = BitVec.ofInt 32 (a.toInt * b.toInt / 2 ^ 32)) ∧
      (m.et = .n32 → f .mulh = BitVec.ofNat 32 (a.toNat * b.toNat / 2 ^ 32)))) ∧
  (∀ (m : NumMode) (a b c : Word), (m.et = .i32 ∨ m.et = .n32) →
     (let f (o : VOp) : Word := (vop o m (a.setWidth 64) (b.setWidth 64) (c.setWidth 64)).setWidth 32
      let g (o : VFn) : Word := (vfn o m (a.setWidth 64)).setWidth 32
      let val (w : Word) : Int := if m.et = .i32 then w.toInt else (w.toNat : Int)
      let lo : Int := if m.et = .i32 then -2147483648 else 0
      let hi : Int := if m.et = .i32 then 2147483647 else 4294967295
      let narrowed (z : Int) : Word := BitVec.ofInt 32 (if m.sat = true then max lo (min z hi) else z)
      f .add = narrowed (val a + val b) ∧ f .sub = narrowed (val a - val b) ∧ f .mul = narrowed (val a * val b) ∧
      f .mad = narrowed (val a * val b + val c) ∧ f .mulh = BitVec.ofInt 32 (val a * val b / 2 ^ 32) ∧
      f .min = (if val b < val a then b else a) ∧ f .max = (if val a < val b then b else a) ∧
      f .and = a &&& b ∧ f .or = a ||| b ∧ f .xor = a ^^^ b ∧
      f .shl = (if b.toNat < 32 then a <<< b.toNat else 0) ∧ f .shr = (if b.toNat < 32 then a >>> b.toNat else 0) ∧
      f .sra = BitVec.ofInt 32 (a.toInt / 2 ^ (min b.toNat 31)) ∧
      g .abs = narrowed ((val a).natAbs : Int) ∧ g .neg = narrowed (-(val a)) ∧ g .not = ~~~a ∧
      g .clz = (if a = 0 then 32 else BitVec.ofNat 32 (31 - Nat.log2 a.toNat)) ∧
      g .popc = BitVec.ofNat 32 ((List.range 32).filter (fun i => a.getLsbD i)).length)) ∧
  (∀ (m v c : Word),
     (let f (o : AtOp) (et : ET) : Word := (atomicNew o et false (m.setWidth 64) (v.setWidth 64) (c.setWidth 64)).setWidth 32
      f .add .n32 = m + v ∧ f .add .i32 = m + v ∧ f .and .n32 = m &&& v ∧ f .or .n32 = m ||| v ∧ f .xor .n32 = m ^^^ v ∧
      f .xchg .n32 = v ∧ f .cas .n32 = (if m = c then v else m) ∧
      f .min .n32 = (if v.toNat < m.toNat then v else m) ∧ f .max .n32 = (if m.toNat < v.toNat then v else m) ∧
      f .min .i32 = (if v.toInt < m.toInt then v else m) ∧ f .max .i32 = (if m.toInt < v.toInt then v else m)))

/-- R137, R422: the fixed-latency one-source instructions and VCVT. -/
def Obligations.VectorUnary : Prop :=
  ∀ (s : State) (tid uid : Nat) (t : Team) (x : Split) (sw : Bool) (d a : BitVec 8), AtIssue s tid uid t x →
    (let et := modeEt x.mode
     let src := modeCvs x.mode
     let r (i : Instr) (fn : VFn) (ok : ET → Bool) : Prop :=
       let c := issueOf tid uid t x i
       Ready t x (uses2 i ok d.toNat a.toNat et) →
       VectorResult i s tid uid t x sw et d.toNat c.lanes (fun L => vfn fn (c.num L) (s.rgroup t et a.toNat L))
     let cv := issueOf tid uid t x (.vcvt sw d a)
     r (.vabs sw d a) .abs etAny ∧ r (.vneg sw d a) .neg etAny ∧ r (.vnot sw d a) .not etAny ∧
     r (.vclz sw d a) .clz etIntOp ∧ r (.vpopc sw d a) .popc etIntOp ∧
     (Ready t x { vr := etRegs src a.toNat, vw := etRegs et d.toNat, mode := .cvt,
                  regOk := etEven et d.toNat && etEven src a.toNat } →
      VectorResult (.vcvt sw d a) s tid uid t x sw et d.toNat cv.lanes (fun L =>
        cvt src (cv.num L) (s.rgroup t src a.toNat L))))

/-- R121, R141, R422: a special function starts a long-latency write; its registers keep their values until it lands. The
approximations are the model's free function within the spec's bounds (log 16). -/
def Obligations.VectorSpecials : Prop :=
  ∀ (s : State) (tid uid : Nat) (t : Team) (x : Split) (sw : Bool) (d a : BitVec 8), AtIssue s tid uid t x →
    (let et := modeEt x.mode
     let r (i : Instr) (fn : VFn) (ok : ET → Bool) : Prop :=
       let c := issueOf tid uid t x i
       Ready t x (uses2 i ok d.toNat a.toNat et) →
       Completes i s (s.setTeam tid (InFlight t uid (.vec d.toNat (if et64 et then 2 else 1))
         (c.lanes.map (fun L => (L, groupWords et (vfn fn (c.num L) (s.rgroup t et a.toNat L))))))) tid uid sw (x.pc + 4) []
     r (.vrcp sw d a) .rcp etSpecial ∧ r (.vrsq sw d a) .rsq etSpecial ∧
     r (.vsqrt sw d a) .sqrt (fun e => etSpecial e || e == .f64) ∧ r (.vexp2 sw d a) .exp2 etSpecial ∧
     r (.vlog2 sw d a) .log2 etSpecial ∧ r (.vtanh sw d a) .tanh etSpecial)

/-- R420, R423, R425, R427, R428, R392: the moves: immediates, lane numbers, broadcasts, VSEL (every active lane is
written), VPERM within the team, where an index beyond it is TABLE_RANGE with the lowest such lane, and the dot products. -/
def Obligations.VectorMoves : Prop :=
  ∀ (s : State) (tid uid : Nat) (t : Team) (x : Split) (sw : Bool) (d a b : BitVec 8) (e : BitVec 6) (p : BitVec 3)
    (imm : BitVec 16), AtIssue s tid uid t x →
    (let et := modeEt x.mode
     let lanes := (issueOf tid uid t x (.vli sw d imm)).lanes
     let w (i : Instr) (f : Nat → Word) : Prop :=
       VectorResult i s tid uid t x sw .n32 d.toNat lanes (fun L => (f L).setWidth 64)
     (Ready t x (usesImm d.toNat et) →
        w (.vli sw d imm) (fun _ => imm.signExtend 32) ∧ w (.vidx sw d) (fun L => BitVec.ofNat 32 L) ∧
        w (.psetv sw d p) (fun L => if (t.p p.toNat).getLsbD L then 1 else 0)) ∧
     (Ready t x { usesImm d.toNat et with vr := [d.toNat] } →
        w (.vlih sw d imm) (fun L => imm ++ (s.rv t d.toNat L).extractLsb' 0 16)) ∧
     (Ready t x { vw := etRegs et d.toNat, mode := .num etAny, regOk := etEven et d.toNat && etEven et e.toNat } →
        VectorResult (.vbcast sw d e) s tid uid t x sw et d.toNat lanes (fun _ =>
          if et64 et then s.rpair t e.toNat else (s.rs t e.toNat).setWidth 64)) ∧
     (Ready t x (uses3 (.vsel sw d a b) etAny false d.toNat a.toNat b.toNat et) →
        VectorResult (.vsel sw d a b) s tid uid t x sw et d.toNat (lanesOf t.w x.mask) (fun L =>
          if (guardMask t x.mode).getLsbD L then s.rgroup t et a.toNat L else s.rgroup t et b.toNat L)) ∧
     (Ready t x { vr := etRegs et a.toNat ++ [b.toNat], vw := etRegs et d.toNat, mode := .num etAny,
                  regOk := etEven et d.toNat && etEven et a.toNat && etEven et b.toNat } →
        ((∀ L, L ∈ lanes → (s.rv t b.toNat L).toNat < t.w) →
        VectorResult (.vperm sw d a b) s tid uid t x sw et d.toNat lanes (fun L =>
          s.rgroup t et a.toNat (s.rv t b.toNat L).toNat)) ∧
        (∀ L, lanes.find? (fun L => decide (t.w ≤ (s.rv t b.toNat L).toNat)) = some L →
          Answers (.vperm sw d a b) s (takeCause (s.tick (passes x.mask)) tid uid
            ⟨.tableRange, BitVec.ofNat 32 L, t.codeHi ++ x.pc⟩) tid)) ∧
     (Ready t x (uses3 (.vdot4 sw d a b) (fun k => k == .i8x4 || k == .n8x4) true d.toNat a.toNat b.toNat et) →
        VectorResult (.vdot4 sw d a b) s tid uid t x sw .n32 d.toNat lanes (fun L =>
          dot4 et (modeSat x.mode) (s.rgroup t .n32 a.toNat L) (s.rgroup t .n32 b.toNat L) (s.rgroup t .n32 d.toNat L))) ∧
     (Ready t x (uses3 (.vdot2 sw d a b) (fun k => k == .f16x2 || k == .bf16x2) true d.toNat a.toNat b.toNat et) →
        VectorResult (.vdot2 sw d a b) s tid uid t x sw .n32 d.toNat lanes (fun L =>
          dot2 ((issueOf tid uid t x (.vdot2 sw d a b)).num L) (s.rgroup t .n32 a.toNat L) (s.rgroup t .n32 b.toNat L)
            (s.rgroup t .n32 d.toNat L))))

/-- R421, R423: the vector comparisons and VSETP write P in the lanes that pass the guard; a comparison combines its
result with the old value as COMB says. -/
def Obligations.VectorComparison : Prop :=
  ∀ (s : State) (tid uid : Nat) (t : Team) (x : Split) (sw : Bool) (comb : Comb) (n : BitVec 3) (a b : BitVec 8),
    AtIssue s tid uid t x →
    (let et := modeEt x.mode
     let g := x.mask &&& guardMask t x.mode
     let el (r L : Nat) := elem et 0 (s.rgroup t et r L)
     let r (i : Instr) (k : Cond) : Prop :=
       PredResult i s tid uid t x sw n.toNat g (fun L =>
         combine comb ((t.p n.toNat).getLsbD L) (elemCond k et (modeFtz x.mode) (el a.toNat L) (el b.toNat L)))
     (Ready t x { vr := etRegs et a.toNat ++ etRegs et b.toNat, pw := [n.toNat], mode := .num (fun e => !etPacked e),
                  regOk := etEven et a.toNat && etEven et b.toNat } →
        r (.vcmpEq sw comb n a b) .eq ∧ r (.vcmpNe sw comb n a b) .ne ∧ r (.vcmpLt sw comb n a b) .lt ∧
        r (.vcmpLe sw comb n a b) .le ∧ r (.vcmpGt sw comb n a b) .gt ∧ r (.vcmpGe sw comb n a b) .ge) ∧
     (Ready t x { vr := etRegs et a.toNat, pw := [n.toNat], mode := .num (fun e => !etPacked e), regOk := etEven et a.toNat } →
        PredResult (.vsetp sw n a) s tid uid t x sw n.toNat g (fun L => elemNonZero et (modeFtz x.mode) (el a.toNat L))))

/-- R392: predicate logic in the lanes that pass the guard; p0 is not written. -/
def Obligations.PredicateLogic : Prop :=
  ∀ (s : State) (tid uid : Nat) (t : Team) (x : Split) (sw : Bool) (d a b : BitVec 3),
    AtIssue s tid uid t x → Ready t x { pw := [d.toNat], mode := .guard } →
    (let g := x.mask &&& guardMask t x.mode
     let r (i : Instr) (f : Bool → Bool → Bool) : Prop :=
       ∃ u, { u with preds := t.preds } = t ∧
         (∀ k L, L < 1024 → (u.p k).getLsbD L = if k = d.toNat ∧ k ≠ 0 ∧ g.getLsbD L = true
            then f ((t.p a.toNat).getLsbD L) ((t.p b.toNat).getLsbD L) else (t.p k).getLsbD L) ∧
         Completes i s (s.setTeam tid u) tid uid sw (x.pc + 4) []
     r (.pland sw d a b) (fun p q => p && q) ∧ r (.plor sw d a b) (fun p q => p || q) ∧
     r (.plxor sw d a b) (fun p q => p != q) ∧ r (.plnot sw d a) (fun p _ => !p))

/-- R151, R152, R392, R424, R426, R427: reductions write a scalar, scans each lane the reduction of the contributing lanes
up to it; a mask word, a count, and VEXTR's lane, which lands later; VEXTR does nothing where lane j does not pass the
guard. A mask word or a lane beyond the team's is TABLE_RANGE with its number. -/
def Obligations.ReductionsScansExtraction : Prop :=
  ∀ (s : State) (tid uid : Nat) (t : Team) (x : Split) (sw : Bool) (d b : BitVec 6) (v a : BitVec 8) (p : BitVec 3),
    AtIssue s tid uid t x →
    (let et := modeEt x.mode
     let c := issueOf tid uid t x (.vredAdd sw d a)
     let r (i j : Instr) (op : RedOp) : Prop :=
       (Ready t x { vr := etRegs et a.toNat, sw := etRegs et d.toNat, mode := .num (redTypes op),
                    regOk := etEven et d.toNat && etEven et a.toNat } →
        Completes i s (s.setTeam tid (t.setSGroup et d.toNat (reduce op (c.num 0) (redLeaves s c a.toNat 1023))))
          tid uid sw (x.pc + 4) []) ∧
       (Ready t x (uses2 j (redTypes op) v.toNat a.toNat et) →
        VectorResult j s tid uid t x sw et v.toNat c.lanes (fun L => reduce op (c.num 0) (redLeaves s c a.toNat L)))
     r (.vredAdd sw d a) (.vscanAdd sw v a) .add ∧ r (.vredMin sw d a) (.vscanMin sw v a) .min ∧
     r (.vredMax sw d a) (.vscanMax sw v a) .max ∧ r (.vredAnd sw d a) (.vscanAnd sw v a) .and ∧
     r (.vredOr sw d a) (.vscanOr sw v a) .or ∧ r (.vredXor sw d a) (.vscanXor sw v a) .xor) ∧
    (let et := modeEt x.mode
     let j := (s.rs t b.toNat).toNat
     let g := x.mask &&& guardMask t x.mode
     let beyond (i : Instr) : Prop := Answers i s (takeCause (s.tick (passes x.mask)) tid uid
       ⟨.tableRange, s.rs t b.toNat, t.codeHi ++ x.pc⟩) tid
     (Ready t x { sw := [d.toNat], mode := .guard } →
        (t.m ≤ j → beyond (.vbal sw d p b)) ∧
        (j < t.m → ScalarResult (.vbal sw d p b) s tid uid t x sw d.toNat (maskWord (g &&& t.p p.toNat) j)) ∧
        ScalarResult (.pcnt sw d p) s tid uid t x sw d.toNat (BitVec.ofNat 32 (lanesOf t.w (g &&& t.p p.toNat)).length)) ∧
     (Ready t x { vr := etRegs et a.toNat, sw := etRegs et d.toNat, mode := .num etAny,
                  regOk := etEven et d.toNat && etEven et a.toNat } →
        (t.w ≤ j → beyond (.vextr sw d a b)) ∧
        (j < t.w → Completes (.vextr sw d a b) s (if (guardMask t x.mode).getLsbD j
            then s.setTeam tid (InFlight t uid (.scal d.toNat (etRegs et d.toNat).length)
              [(0, groupWords et (s.rgroup t et a.toNat j))])
            else s) tid uid sw (x.pc + 4) [])))

-- ## control

/-- R74, R358, R359: NOP, the taken and the untaken branch of the kinds that move the whole split. -/
def Obligations.Branches : Prop :=
  ∀ (s : State) (tid uid : Nat) (t : Team) (x : Split) (sw neg : Bool) (p : BitVec 3) (imm : BitVec 16) (off : BitVec 24),
    AtIssue s tid uid t x →
    (let tr := x.mask &&& (if neg then ~~~(t.p p.toNat) else t.p p.toNat)
     let far := x.pc + (off.signExtend 32 <<< 2)
     let near := x.pc + (imm.signExtend 32 <<< 2)
     let go (i : Instr) (c : Bool) : Prop := Completes i s s tid uid sw (if c then near else x.pc + 4) []
     Completes (.nop sw) s s tid uid sw (x.pc + 4) [] ∧ Completes (.bra sw off) s s tid uid sw far [] ∧
     go (.brpAny sw neg p imm) (tr != 0) ∧ go (.brpAll sw neg p imm) (tr == x.mask) ∧
     go (.brpNone sw neg p imm) (tr == 0))

/-- R55, R64, R81, R96, R122, R138, R359: BRP.DIV of a running split. Where its lanes agree the split moves as a whole. Else
it keeps the false lanes and falls through, and a new split, the youngest of the team, has the true lanes at the target,
with copies of the stacks, MODE, the latches and the count after this instruction; at its own join point it waits there.
It counts the earlier pending writes as its own too (log 75). The other splits keep everything but, when one is spilled,
its on-chip entry. In HANDLER it is ILLEGAL_OP, which is stated with the traps. -/
def Obligations.Divergence : Prop :=
  ∀ (s : State) (tid uid : Nat) (t : Team) (x : Split) (sw neg : Bool) (p : BitVec 3) (imm : BitVec 16),
    AtIssue s tid uid t x → x.phase = .run → t.split t.nextUid = none →
    (let tr := x.mask &&& (if neg then ~~~(t.p p.toNat) else t.p p.toNat)
     let fl := x.mask &&& ~~~tr
     let target := x.pc + (imm.signExtend 32 <<< 2)
     let offChip (y : Split) : Split := { y with entry := none, passed := 0, readySince := none }
     (fl = 0 → Completes (.brpDiv sw neg p imm) s s tid uid sw target []) ∧
     (fl ≠ 0 → tr = 0 → Completes (.brpDiv sw neg p imm) s s tid uid sw (x.pc + 4) []) ∧
     (fl ≠ 0 → tr ≠ 0 → ∃ u rest old new, Completes (.brpDiv sw neg p imm) s (s.setTeam tid u) tid uid sw (x.pc + 4) [] ∧
        u.splits = rest ++ [new] ∧ u.split uid = some old ∧
        { u with splits := t.splits, pending := t.pending, nextUid := t.nextUid } = t ∧ u.nextUid = t.nextUid + 1 ∧
        u.pending = (sharePending t uid t.nextUid).pending ∧
        offChip { old with mask := x.mask, spin := none } = offChip { x with spin := none } ∧ old.mask = fl ∧
        new.uid = t.nextUid ∧ new.mask = tr ∧ new.pc = target ∧ new.mode = x.mode ∧ new.ret = x.ret ∧ new.joins = x.joins ∧
        new.gtimeLatch = x.gtimeLatch ∧ new.cycleLatch = x.cycleLatch ∧ new.icount = x.icount + 1 ∧ new.waits = [] ∧
        (NoJoin x target → new.phase = .run) ∧
        (∀ r, x.joins.head? = some r → r.pc = target → r.depth = x.cdepth → new.phase = .joinWait) ∧
        rest.map (·.uid) = t.splits.map (·.uid) ∧
        (∀ z, z ≠ uid → z ≠ t.nextUid → (u.split z).map offChip = (t.split z).map offChip)))

/-- R58, R60, R61, R360, R374, R400: CALL and CALLI push the return address and go to their target. RET pops it and goes
there; join records made deeper than the new depth are popped, and the split counts as exited for them. JOINAT pushes a
record of its target and depth, with an id: the first from the team's counter on that no live record has, of the sixteen
for each split that are tried. -/
def Obligations.CallsAndJoins : Prop :=
  ∀ (s : State) (tid uid : Nat) (t : Team) (x : Split) (sw : Bool) (a : BitVec 6) (off : BitVec 24) (imm : BitVec 16),
    AtIssue s tid uid t x →
    (let pushed := s.setTeam tid (withSplit t uid (fun y => { y with ret := (x.pc + 4) :: y.ret }))
     let live (id : Nat) : Prop := ∃ y, y ∈ t.splits ∧ ∃ r, r ∈ y.joins ∧ r.id = id
     (x.ret.length < 64 →
        Completes (.call sw off) s pushed tid uid sw (x.pc + (off.signExtend 32 <<< 2)) [] ∧
        ((s.rs t a.toNat).extractLsb' 0 2 = 0 → Completes (.calli sw a) s pushed tid uid sw (s.rs t a.toNat) [])) ∧
     (∀ r rest, x.ret = r :: rest →
        (let gone := x.joins.takeWhile (fun j => decide (rest.length < j.depth))
         let popped := withSplit t uid (fun y => { y with ret := rest, joins := y.joins.drop gone.length })
         let u := (gone.map (·.id)).foldl settleRecord (leavePending popped uid (gone.map (·.id)))
         (gone = [] → Completes (.ret sw) s (s.setTeam tid popped) tid uid sw r []) ∧
         ((u.split uid).isSome = true → Completes (.ret sw) s (s.setTeam tid u) tid uid sw r []))) ∧
     (x.phase ≠ .handler → x.joins.length < 16 →
        ∃ id k, k ≤ 16 * t.splits.length ∧ id = (t.nextRec + k) % 65536 ∧ (∀ j, j < k → live ((t.nextRec + j) % 65536)) ∧
          (k < 16 * t.splits.length → ¬live id) ∧
          Completes (.joinat sw imm) s (s.setTeam tid { withSplit t uid (fun y => { y with
            joins := ⟨x.pc + (imm.signExtend 32 <<< 2), x.ret.length, id⟩ :: y.joins }) with nextRec := (id + 1) % 65536 })
            tid uid sw (x.pc + 4) []))

/-- R23, R42, R71, R95, R96, R291, R384, R385: MFS reads the special, a read of a _LO counter sets the split's latch, and one of a _HI counter
gives the latch, zero while it has never been set; MTS
writes the specials that may be written (MODE is stated with MODEI). TVEC and TPC take no misaligned address, and a
special that may not be written is ILLEGAL_REG. -/
def Obligations.SpecialRegisters : Prop :=
  ∀ (s : State) (tid uid : Nat) (t : Team) (x : Split) (sw : Bool) (d a : BitVec 6) (n : BitVec 5),
    AtIssue s tid uid t x →
    (let c := issueOf tid uid t x (.mfs sw d n)
     let v := s.rs t a.toNat
     let is (k : Nat) (w : Word) : Prop := specialValue s c k = w
     let wr (u : Team) : Prop := Completes (.mts sw n a) s (s.setTeam tid u) tid uid sw (x.pc + 4) []
     (Ready t x { sw := [d.toNat] } →
        Completes (.mfs sw d n) s (s.setTeam tid (withSplit (t.setS d.toNat (specialValue s c n.toNat)) uid (fun y =>
          if n = 7 then { y with gtimeLatch := some ((s.clk.gtime >>> 32).setWidth 32) }
          else if n = 9 then { y with cycleLatch := some ((s.clk.cycle >>> 32).setWidth 32) } else y)))
          tid uid sw (x.pc + 4) []) ∧
     (is 0 x.mode ∧ is 1 (lanewOf t) ∧ is 2 (BitVec.ofNat 32 t.teamId) ∧ is 3 (BitVec.ofNat 32 t.droveId) ∧
      is 4 (BitVec.ofNat 32 t.stage) ∧ (t.coach < 512 → is 5 (BitVec.ofNat 32 (t.member * 2 ^ 18 + t.coach)) ∧
        is 6 (BitVec.ofNat 32 (t.ptrain * 256 + t.coach / 8))) ∧
      is 7 (s.clk.gtime.setWidth 32) ∧ (∀ w, x.gtimeLatch = some w → is 8 w) ∧ (x.gtimeLatch = none → is 8 0) ∧ is 9 (s.clk.cycle.setWidth 32) ∧
      (∀ w, x.cycleLatch = some w → is 10 w) ∧ (x.cycleLatch = none → is 10 0) ∧ is 11 t.tvec ∧ is 12 t.tpc ∧ is 13 t.tcause ∧ is 14 t.tinfo ∧
      is 15 (t.taddr.setWidth 32) ∧ is 16 ((t.taddr >>> 32).setWidth 32) ∧ is 17 (BitVec.ofNat 32 (t.gangRank * 256 + t.gang.length)) ∧
      is 18 t.tsa ∧ is 19 t.tsb ∧ is 20 t.tsca ∧ is 21 t.tscb ∧ is 22 t.events ∧ is 23 t.evmask ∧ is 24 t.seed ∧
      is 25 (xblkOf t) ∧ is 26 (BitVec.ofNat 32 (x.joins.length * 65536 + x.ret.length)) ∧ is 27 (BitVec.ofNat 32 t.ctx) ∧
      is 28 (BitVec.ofNat 32 t.asid) ∧ is 29 (BitVec.ofNat 32 t.droves) ∧ is 30 (BitVec.ofNat 32 t.teams) ∧
      is 31 (BitVec.ofNat 32 t.node)) ∧
     (n = 0x0B → v.extractLsb' 0 2 = 0 → wr { t with tvec := v }) ∧
     (n = 0x0C → v.extractLsb' 0 2 = 0 → wr { t with tpc := v }) ∧
     (n = 0x12 → wr { t with tsa := v &&& 0xFFFFFFE0 }) ∧ (n = 0x13 → wr { t with tsb := v &&& 0xFFFFFFE0 }) ∧
     (n = 0x14 → wr { t with tsca := v }) ∧ (n = 0x15 → wr { t with tscb := v }) ∧
     (n = 0x16 → v.getLsbD 0 = true → wr { t with events := t.events &&& 0xFFFFFFFE, advisory := 0 }) ∧
     (n = 0x16 → v.getLsbD 0 = false → wr t) ∧
     (n = 0x17 → wr { t with evmask := v &&& 1 }) ∧ (n = 0x18 → wr { t with seed := v }) ∧
     ((n = 0x0B ∨ n = 0x0C) → v.extractLsb' 0 2 ≠ 0 →
        Answers (.mts sw n a) s (takeCause (s.tick 1) tid uid ⟨.misalign, 0x80000000, t.codeHi ++ v⟩) tid) ∧
     (n ∉ [0#5, 0x0B#5, 0x0C#5, 0x12#5, 0x13#5, 0x14#5, 0x15#5, 0x16#5, 0x17#5, 0x18#5] →
        Answers (.mts sw n a) s (takeCause (s.tick 1) tid uid
          ⟨.illegalReg, (issueOf tid uid t x (.mts sw n a)).word, t.codeHi ++ x.pc⟩) tid))

/-- R47, R52, R61, R364, R399: EXIT takes the split out of the team, whose join records lose a member; with no split left the
team retires. REFILL gives the finished lanes, ascending, the items of the queue from its head: each lane that gets one
has it in D and its predicate cleared, the others retire; a split whose lanes all retire exits. -/
def Obligations.ExitAndRefill : Prop :=
  ∀ (s : State) (tid uid : Nat) (t : Team) (x : Split) (sw : Bool) (d : BitVec 8) (p : BitVec 3) (q : BitVec 2) (dr : Drove),
    AtIssue s tid uid t x →
    (let pos := t.coach % 8
     let fin := lanesOf t.w (x.mask &&& t.p p.toNat)
     let items := queueItems dr pos q.toNat
     let i := Instr.refill sw d p q
     Answers (.exit sw) s (s.setTeam tid (exitSplit t uid)) tid ∧
     ({ exitSplit t uid with splits := t.splits, pending := t.pending, retiring := t.retiring } = t ∧
      (exitSplit t uid).split uid = none ∧ (exitSplit t uid).retiring = (exitSplit t uid).splits.isEmpty ∧
      (x.joins = [] → (exitSplit t uid).splits = t.splits.filter (fun y => y.uid != uid))) ∧
     (Ready t x { vw := [d.toNat], pw := [p.toNat] } → s.drove t.drove = some dr → dr.iq = true →
        ((∃ L, L < 1024 ∧ x.mask.getLsbD L = true ∧ L ∉ fin.drop items.length) →
           ∃ e u de y, Completes i s e tid uid sw (x.pc + 4) [] ∧ e.team tid = some u ∧ e.drove t.drove = some de ∧
             { e with teams := s.teams, droves := s.droves } = s ∧ { de with queues := dr.queues } = dr ∧
             { u with vregs := t.vregs, preds := t.preds, splits := t.splits } = t ∧
             queueItems de pos q.toNat = items.drop fin.length ∧
             queueHead de pos q.toNat = (queueHead dr pos q.toNat + min fin.length items.length) % 4096 ∧
             (∀ k, k ≠ 4 * pos + q.toNat → Store.find de.queues k = Store.find dr.queues k) ∧
             u.split uid = some y ∧ { y with mask := x.mask } = x ∧ (∀ z, z ≠ uid → u.split z = t.split z) ∧
             (∀ L, L < 1024 → y.mask.getLsbD L = (x.mask.getLsbD L && !(fin.drop items.length).contains L)) ∧
             (∀ L v, (L, v) ∈ fin.zip items → u.v d.toNat L = v ∧ (p ≠ 0 → (u.p p.toNat).getLsbD L = false)) ∧
             (∀ L, L < 1024 → L ∉ fin.take items.length →
                u.v d.toNat L = t.v d.toNat L ∧ (u.p p.toNat).getLsbD L = (t.p p.toNat).getLsbD L) ∧
             (∀ r L, r ≠ d.toNat → L < 1024 → u.v r L = t.v r L) ∧ (∀ n, n ≠ p.toNat → u.p n = t.p n)) ∧
        (x.mask ≠ 0 → (∀ L, L < 1024 → x.mask.getLsbD L = true → L ∈ fin) → items = [] →
           ∃ (e : State) (u : Team), Answers i s (e.setTeam tid (exitSplit u uid)) tid ∧ { e with droves := s.droves } = s ∧
             { u with preds := t.preds } = t ∧ ∀ n, u.p n = t.p n)))

/-- R138, R293 to R295: TRAPI saves cause, immediate, address and PC in the trap registers, and the split enters HANDLER at
TVEC; no mask, stack, MODE or register changes, and the instruction counts. RETT at the depth of the entry takes the split
out of HANDLER, to the word after a TRAPI and to TPC for any other cause, where the arrival test of R59 is made. That a TRAPI
that is taken has issued, and so counts, is log 28. -/
def Obligations.TrapEntryAndReturn : Prop :=
  ∀ (s : State) (tid uid : Nat) (t : Team) (x : Split) (sw : Bool) (imm : BitVec 16), AtIssue s tid uid t x →
    (t.tvec ≠ 0 → t.inHandler = false →
    Answers (.trapi sw imm) s (s.setTeam tid (withSplit
      { t.endFlush uid with tcause := 8, tinfo := imm.setWidth 32, taddr := t.codeHi ++ x.pc, tpc := x.pc } uid (fun y =>
        { y with phase := .handler, entryDepth := y.cdepth, pc := t.tvec, waits := [], icount := y.icount + 1 }))) tid) ∧
    (x.phase = .handler → x.ret.length = x.entryDepth → t.tpc.extractLsb' 0 2 = 0 →
    (let pc := if t.tcause = 8 then t.tpc + 4 else t.tpc
     let ws := if sw && pendingOf t uid then [Wait.switch] else []
     let out := withSplit t uid (fun y => { y with phase := .run, entryDepth := 0, icount := y.icount + 1, waits := ws })
     Answers (.rett sw) s (s.setTeam tid (out.moveTo uid pc)) tid ∧
     (NoJoin x pc → out.moveTo uid pc = withSplit out uid (fun y => { y with pc := pc }))))

/-- R63, R77, R291, R292, R294, R302: a handler-delivered cause of a team with a handler, none of whose splits is in it, saves
cause, information, address and PC, and the split enters HANDLER at TVEC; while a sister is in it, the split waits before
the instruction; in HANDLER, or without a handler, it halts the context. The PRIV family outside a system coach raises PRIV;
BRP.DIV and JOINAT in HANDLER, and RETT outside it, ILLEGAL_OP; a full or empty stack, or a RETT at another depth than the
entry's, STACK. A register of a block that the team does not hold, an odd register of a 64-bit type and an odd pair raise
ILLEGAL_REG; with legal registers, a MODE with a reserved field, with no rounding mode for an instruction that rounds, or with
formats that a matrix instruction does not take, MODE_INVALID with MODE. That an instruction that ends in a cause does not count
is log 28. -/
def Obligations.TrapCauses : Prop :=
  ∀ (s : State) (tid uid : Nat) (t : Team) (x : Split) (sw neg : Bool) (p : BitVec 3) (imm : BitVec 16) (off : BitVec 24)
    (d a b : BitVec 6) (v v1 v2 : BitVec 8) (pol : Pol) (ix : Option (BitVec 8)), AtIssue s tid uid t x →
    (let raises (i : Instr) (k : Cause) (info : Word) : Prop :=
       Answers i s (takeCause (s.tick 1) tid uid ⟨k, info, t.codeHi ++ x.pc⟩) tid
     let et := modeEt x.mode
     let swept (i : Instr) (k : Cause) (info : Word) : Prop :=
       Answers i s (takeCause (s.tick (passes x.mask)) tid uid ⟨k, info, t.codeHi ++ x.pc⟩) tid
     let word (i : Instr) : Word := (issueOf tid uid t x i).word
     let held (r : BitVec 8) : Bool := (etRegs et r.toNat).all t.holds
     let even (r : BitVec 8) : Bool := !et64 et || r.toNat % 2 == 0
     let priv (i : Instr) : Prop := raises i .priv (issueOf tid uid t x i).word
     let illegal (i : Instr) : Prop := raises i .illegalOp (issueOf tid uid t x i).word
     let changed (f : Split → Split) (u : Team) : State := s.setTeam tid (withSplit u uid f)
     let free (y : Split) : Split := { y with demoted := none, spin := none, dueAt := 0 }
     (∀ k : TrapInfo, causeToHandler k.cause = true → k.cause ≠ .trapSw →
        (t.tvec ≠ 0 → t.inHandler = false → ∃ u, takeCause s tid uid k = s.setTeam tid u ∧
           { u with splits := t.splits } = { t.endFlush uid with
             tcause := BitVec.ofNat 32 (causeCode k.cause), tinfo := k.tinfo, taddr := k.taddr, tpc := x.pc } ∧
           u.splits.map free = (withSplit t uid (fun y =>
             { y with phase := .handler, entryDepth := y.cdepth, pc := t.tvec, waits := [] })).splits.map free) ∧
        (t.tvec ≠ 0 → x.phase ≠ .handler → t.inHandler = true →
           takeCause s tid uid k = changed (fun y => { y with waits := [.handler], parkedAt := s.clk.cycle.toNat }) (t.endFlush uid)) ∧
        ((t.tvec = 0 ∨ x.phase = .handler) → takeCause s tid uid k = haltTeam s tid uid k)) ∧
     (∀ (k : TrapInfo) c, s.ctx t.ctx = some c → c.halt = none → t.sys = false → t.cause = none →
        ∃ e r u, haltTeam s tid uid k = e ∧ (e.ctx t.ctx).map (fun y => (y.halt, y.running)) = some (some r, false) ∧
          r.h = ⟨t.ctx, k.cause, 0, t.coach, k.tinfo, k.taddr⟩ ∧ r.team = some tid ∧ e.mem = s.mem ∧
          e.team tid = some u ∧ u.cause = some (k, uid) ∧ u.running = false) ∧
     (t.sys = false → priv (.pgharv sw d a) ∧ priv (.pgset sw d a) ∧ priv (.tlbinvPage sw d a) ∧ priv (.tlbinvContext sw d a) ∧
        priv (.keyopAlloc sw d a) ∧ priv (.keyopDestroy sw d a) ∧ priv (.keyopRotate sw d a) ∧ priv (.keyopStatus sw d a) ∧
        priv (.keyopRelease sw d a) ∧ priv (.ctxswArm sw d a) ∧ priv (.ctxswCancel sw d a) ∧ priv (.scrub sw d a) ∧
        priv (.scrubPoll sw d a)) ∧
     (x.phase = .handler → illegal (.brpDiv sw neg p imm) ∧ illegal (.joinat sw imm)) ∧
     (x.phase ≠ .handler → illegal (.rett sw)) ∧
     (let add := Instr.vadd sw v v1 v2
      let ok (r : BitVec 8) : Bool := held r && even r
      ((ok v && ok v1 && ok v2) = false → swept add .illegalReg (word add)) ∧
      ((ok v && ok v1 && ok v2) = true → (modeReserved x.mode = true ∨ modeRm x.mode = none) → swept add .modeInvalid x.mode)) ∧
     ((held v && even v && evenReg a) = false → swept (.ld sw v a pol none) .illegalReg (word (.ld sw v a pol none)) ∧
        swept (.st sw v a pol none) .illegalReg (word (.st sw v a pol none))) ∧
     ((held v && even v && evenReg a) = true → modeReserved x.mode = true →
        swept (.ld sw v a pol none) .modeInvalid x.mode ∧ swept (.st sw v a pol none) .modeInvalid x.mode) ∧
     (modeReserved x.mode = true → swept (.vbal sw d p b) .modeInvalid x.mode ∧ swept (.pcnt sw d p) .modeInvalid x.mode) ∧
     ((evenReg d && evenReg a && evenReg b) = false → raises (.saddp sw d a b) .illegalReg (word (.saddp sw d a b))) ∧
     (evenReg a = false → raises (.sld sw d a pol b) .illegalReg (word (.sld sw d a pol b))) ∧
     (let mm := Instr.mm128 sw v a b
      (wellFormed mm = true → (regGroup v.toNat 16).all t.holds = false → raises mm .illegalReg (word mm)) ∧
      (wellFormed mm = true → (regGroup v.toNat 16).all t.holds = true → modeOk .mat x.mode = false → raises mm .modeInvalid x.mode)) ∧
     (x.ret.length = 64 → raises (.call sw off) .stack 0) ∧ (x.ret = [] → raises (.ret sw) .stack 1) ∧
     (x.phase ≠ .handler → x.joins.length = 16 → raises (.joinat sw imm) .stack 2) ∧
     (x.phase = .handler → x.ret.length ≠ x.entryDepth → raises (.rett sw) .stack 3))

/-- R219, R232, R263, R264: a wait or poll of a complete tag observes it and goes on (a YIELDC at its target); an
incomplete one parks, and a poll writes zero. A value that the window of R219 does not admit is ILLEGAL_OP. -/
def Obligations.TagWaits : Prop :=
  ∀ (s : State) (tid uid : Nat) (t : Team) (x : Split) (sw : Bool) (d a : BitVec 6) (imm : BitVec 16),
    AtIssue s tid uid t x →
    (let n := s.rs t a.toNat
     let target := x.pc + (imm.signExtend 32 <<< 2)
     let bad (i : Instr) (k : TagKind) : Prop := tagLegal (t.counter k) n = false →
       Answers i s (takeCause (s.tick 1) tid uid ⟨.illegalOp, (issueOf tid uid t x i).word, t.codeHi ++ x.pc⟩) tid
     let w (i : Instr) (k : TagKind) : Prop := bad i k ∧ (tagLegal (t.counter k) n = true →
       (tagComplete t k n = true → Completes i s (observe s tid k n) tid uid sw (x.pc + 4) []) ∧
       (tagComplete t k n = false → Completes i s s tid uid sw (x.pc + 4) [.tag k n false]))
     let y (i : Instr) (k : TagKind) : Prop := bad i k ∧ (tagLegal (t.counter k) n = true →
       (tagComplete t k n = true → Completes i s (observe s tid k n) tid uid sw target []) ∧
       (tagComplete t k n = false → Completes i s s tid uid sw target [.tag k n true]))
     let q (i : Instr) (k : TagKind) : Prop := Ready t x { sw := [d.toNat] } → bad i k ∧ (tagLegal (t.counter k) n = true →
       (tagComplete t k n = true → Completes i s ((observe s tid k n).setTeam tid (t.setS d.toNat 1)) tid uid sw (x.pc + 4) []) ∧
       (tagComplete t k n = false → ScalarResult i s tid uid t x sw d.toNat 0))
     w (.dwait sw a) .copy ∧ w (.cwait sw a) .coll ∧ w (.bkwait sw a) .bank ∧ w (.mwait sw a) .mm ∧
     y (.yieldcCopy sw a imm) .copy ∧ y (.yieldcColl sw a imm) .coll ∧ y (.yieldcBank sw a imm) .bank ∧
     y (.yieldcMm sw a imm) .mm ∧ q (.dpoll sw d a) .copy ∧ q (.cpoll sw d a) .coll)

/-- R181, R357, R363, R393: on a barrier word within the drove's handle 0, ARRIVE gives the phase before its arrival, DBAR
goes on at once when its arrival completes the phase and waits otherwise, PWAIT waits while the phase is the one
named. What an ARRIVE gives at REMAIN = 0, a program error, is left open (R9). -/
def Obligations.Barriers : Prop :=
  ∀ (s : State) (tid uid : Nat) (t : Team) (x : Split) (sw : Bool) (d a b : BitVec 6) (imm : BitVec 16),
    AtIssue s tid uid t x →
    (let ok (sa : Word) : Prop := barrierTrap s (issueOf tid uid t x (.arrive sw d a)) sa = none
     let sa := s.rs t a.toNat
     let sd : Word := imm.setWidth 32 <<< 3
     let after := (arrivalOn s t.drove sd.toNat).1
     (Ready t x { sw := [d.toNat] } → ok sa → released t uid false = true →
        ∃ u ph, (arrivalOn s t.drove sa.toNat).1.team tid = some u ∧
        (barrierSpent s t.drove sa.toNat = false → ph = if phaseOf s t.drove sa.toNat then 1 else 0) ∧
        Completes (.arrive sw d a) s ((arrivalOn s t.drove sa.toNat).1.setTeam tid (u.setS d.toNat ph)) tid uid sw (x.pc + 4) []) ∧
     ((s.rs t b.toNat).toNat ≤ 1 → ok sa →
        (phaseOf s t.drove sa.toNat = (s.rs t b.toNat).getLsbD 0 →
           Completes (.pwait sw a b) s s tid uid sw (x.pc + 4) [.barrier sa.toNat]) ∧
        (phaseOf s t.drove sa.toNat ≠ (s.rs t b.toNat).getLsbD 0 →
           Completes (.pwait sw a b) s (acquireRemoval s t.coach t.asid) tid uid sw (x.pc + 4) [])) ∧
     (ok sd → released t uid false = true →
        (phaseOf after t.drove sd.toNat ≠ phaseOf s t.drove sd.toNat →
           Completes (.dbar sw imm) s (acquireRemoval after t.coach t.asid) tid uid sw (x.pc + 4) []) ∧
        (phaseOf after t.drove sd.toNat = phaseOf s t.drove sd.toNat →
           Completes (.dbar sw imm) s after tid uid sw (x.pc + 4) [.barrier sd.toNat])))

/-- R105, R107, R108, R207: GANGSET sets the team's gang, XACQ queues the request for its lines and waits, XREL frees the
released blocks: their registers hold nothing, and their lines are gone; what their image holds is left open (log 6). -/
def Obligations.GangsAndBlocks : Prop :=
  ∀ (s : State) (tid uid : Nat) (t : Team) (x : Split) (sw : Bool) (a : BitVec 6) (blk : BitVec 3),
    AtIssue s tid uid t x →
    ((∀ ids, evenReg a = true → gangIds (s.rpair t a.toNat) = some ids → gangOk t ids = true → t.latch = none →
        Completes (.gangset sw a) s (s.setTeam tid { t with gang := ids, gangRank := ids.findIdx (· == t.teamId) })
          tid uid sw (x.pc + 4) []) ∧
     (blk ≠ 0 → t.xblk = 0 → t.pend = 0 → blk &&& ~~~t.allowed = 0 →
        Completes (.xacq sw blk) s ((s.setTeam tid { t with pend := blk }).modCoach t.coach (fun k =>
          { k with acquire := k.acquire ++ [(tid, blockLines t blk, uid)] })) tid uid sw (x.pc + 4) [.xacq]) ∧
     (blk ≠ 0 → blk &&& ~~~t.xblk = 0 → regsLanded t (BitVec.allOnes 1024) (blockRegs blk) = true →
        matrixBusy t blk = false →
        ∃ (e : State) (u : Team), Completes (.xrel sw blk) s (e.setTeam tid u) tid uid sw (x.pc + 4) [] ∧
          { e with mem := s.mem, l2 := s.l2, nmuBuf := s.nmuBuf } = s ∧
          { u with xblk := t.xblk, vregs := t.vregs, lines := t.lines } = t ∧ u.xblk = t.xblk &&& ~~~blk ∧
          (∀ r L, L < 1024 → u.v r L = if r ∈ blockRegs blk then 0 else t.v r L) ∧
          (∀ l, l ∈ u.lines ↔ l ∈ t.lines ∧ lineBlock t.m l.line &&& blk = 0)))

-- ## memory instructions

/-- R176 to R178, R121, R379 to R382, R194: when no lane meets a cause, a load performs one read for each address that its lanes
name, in ascending order of the lowest lane, and starts a long-latency write of what they read, for every lane that names the
address; with .OWN its checks are those of a write of the whole words. LDA reads lane by lane, and waits until the values have
landed and the removal is done. That the registers are written at a later step, with the value read at issue, is log 7. -/
def Obligations.Loads : Prop :=
  ∀ (s : State) (tid uid : Nat) (t : Team) (x : Split) (sw : Bool) (d : BitVec 8) (base e f : BitVec 6) (pol : Pol)
    (scope : Scope) (ix : Option (BitVec 8)), AtIssue s tid uid t x →
    (let et := modeEt x.mode
     let done (i : Instr) (u : Uses) (checks : Option Res) (ls : List (Nat × DWord)) (dst : Dest) (ws : List Wait) (sv : Served) : Prop :=
       Ready t x u → checks = none → postedLine s tid ls = false → sv.stop = none →
       ∃ v, sv.s.team tid = some v ∧
         Completes i s (sv.s.setTeam tid (InFlight { v with replay := none } uid dst sv.vals)) tid uid sw (x.pc + 4) ws
     let r (i : Instr) (u : Uses) (w : Nat) (own : Bool) (ls : List (Nat × DWord)) (dst : Dest)
         (g : (Nat → List Nat) → State → Nat → DWord → Except Cause (State × Option (List Word))) : Prop :=
       done i u (checkLoad s (issueOf tid uid t x i) w own ls) ls dst [] (spreadReads ls (serve (g (matesOf ls)) s [] (keepFirst ls)))
     let c := issueOf tid uid t x
     let dst := Dest.vec d.toNat (if et64 et then 2 else 1)
     let acquire := Instr.lda sw d base scope ix
     r (.ld sw d base pol ix) (loadUses (.ld sw d base pol ix) d ix (c (.ld sw d base pol ix))) (etMemWidth et) (pol == .own)
       ((c (.ld sw d base pol ix)).addrs s base ix) dst (loadLane (c (.ld sw d base pol ix)) pol et dst) ∧
     r (.ld4 sw d base pol ix) (load4Uses (.ld4 sw d base pol ix) d ix (c (.ld4 sw d base pol ix))) 16 (pol == .own)
       ((c (.ld4 sw d base pol ix)).addrs s base ix) (.vec d.toNat 4) (load4Lane (c (.ld4 sw d base pol ix)) pol (.vec d.toNat 4)) ∧
     done acquire (loadUses acquire d ix (c acquire)) (checkLanes s (c acquire) (etMemWidth et) false ((c acquire).addrs s base ix))
       ((c acquire).addrs s base ix) dst [.acquire]
       (serve (loadLane (c acquire) .wt et dst (fun L => [L])) s [] ((c acquire).addrs s base ix)) ∧
     r (.sld sw e base pol f) { sw := [e.toNat], regOk := evenReg base } 4 (pol == .own) [(0, scalarAddr s t base f)]
       (.scal e.toNat 1) (loadLane (c (.sld sw e base pol f)) pol .n32 (.scal e.toNat 1)))

/-- R178, R190, R408: when no lane meets a cause, a store performs its lanes in ascending order, the highest lane of an
address alone; no register changes. STL's release comes first. That a store is performed in the step that issues it is
log 8. -/
def Obligations.Stores : Prop :=
  ∀ (s : State) (tid uid : Nat) (t : Team) (x : Split) (sw : Bool) (d : BitVec 8) (base e f : BitVec 6) (pol : Pol)
    (scope : Scope) (ix : Option (BitVec 8)), AtIssue s tid uid t x →
    (let et := modeEt x.mode
     let r (i : Instr) (u : Uses) (w : Nat) (all ls : List (Nat × DWord)) (s0 : State)
         (g : State → Nat → DWord → Except Cause (State × Option (List Word))) : Prop :=
       let c := issueOf tid uid t x i
       let sv := serve g s0 [] ls
       Ready t x u → checkLanes s0 c w true all = none → postedLine s0 tid all = false → sv.stop = none →
       ∃ v, sv.s.team tid = some v ∧
         Completes i s (sv.s.setTeam tid { v with replay := none }) tid uid sw (x.pc + 4) []
     let c := issueOf tid uid t x
     let group (L : Nat) : DWord := s.rgroup t et d.toNat L
     r (.st sw d base pol ix) (storeUses (.st sw d base pol ix) d ix (c (.st sw d base pol ix))) (etMemWidth et)
       ((c (.st sw d base pol ix)).addrs s base ix) (keepHighest ((c (.st sw d base pol ix)).addrs s base ix)) s (storeLane (c (.st sw d base pol ix)) pol (etMemWidth et) group) ∧
     r (.st4 sw d base pol ix) (store4Uses (.st4 sw d base pol ix) d ix (c (.st4 sw d base pol ix))) 16
       ((c (.st4 sw d base pol ix)).addrs s base ix) (keepHighest ((c (.st4 sw d base pol ix)).addrs s base ix)) s
       (store4Lane (c (.st4 sw d base pol ix)) pol (fun L k => s.rv t (d.toNat + k) L)) ∧
     (released t uid (scopeRemote scope) = true →
        checkLanes s (c (.stl sw d base scope ix)) (etMemWidth et) true ((c (.stl sw d base scope ix)).addrs s base ix) = none →
        r (.stl sw d base scope ix) (storeUses (.stl sw d base scope ix) d ix (c (.stl sw d base scope ix))) (etMemWidth et)
          ((c (.stl sw d base scope ix)).addrs s base ix) (keepHighest ((c (.stl sw d base scope ix)).addrs s base ix)) (releaseSys s tid scope)
          (storeLane (c (.stl sw d base scope ix)) .wt (etMemWidth et) group)) ∧
     r (.sst sw e base pol f) { regOk := evenReg base } 4 [(0, scalarAddr s t base f)] [(0, scalarAddr s t base f)] s
       (storeLane (c (.sst sw e base pol f)) pol 4 (fun _ => (s.rs t e.toNat).setWidth 64)))

/-- R176, R379, R406, R408: a scalar store of a word whose line is in its home slice, with the page's leave to write, puts
the value at the word's place of effect, and the value at the place of every other word of every line is unchanged, as
are memory, the write-back buffers and every register. The address stored to is `scalarAddr s t base f`, outside the
windows that belong to the hardware (R50, R110, R301), and its line is sealed for the page's compartment (R314). A scalar load of such a word reads the value at its place, which lands later; no
word's place and no byte of memory changes. That a load reads its value when it issues is log 7, that a store is performed in
the step that issues it log 8. -/
def Obligations.AccessFrames : Prop :=
  ∀ (s : State) (tid uid : Nat) (t : Team) (x : Split) (sw : Bool) (e base f : BitVec 6) (l : L2Line) (n : BitVec 16),
    AtIssue s tid uid t x → t.replay = none → evenReg base = true →
    (let i := Instr.sst sw e base .wt f
     let a := scalarAddr s t base f
     let asid := s.asid t.ctx
     let line := a.toNat / 128
     let k := wordIndex a.toNat
     checkLanes s (issueOf tid uid t x i) 4 true [(0, a)] = none → postedLine s tid [(0, a)] = false → inWindow a = false →
     inImageWindow s t.ctx a.toNat = false → inQueueImage s t.ctx a.toNat = false → inStopArea s t.ctx a.toNat = false →
     l2Find s asid line = some l → l.cmp = t.comp → foreignSeal s l = false → l.w = true → l.dk = true → poisoned s asid a.toNat = false →
     l.data.length = 32 → l.st.length = 32 → l.st.getD k (.u 0) = .u n →
     ∃ s', exec i s = .next s' ∧ s'.mem = s.mem ∧ s'.nmuBuf = s.nmuBuf ∧ wordAt s' asid line k = .ok (s.rs t e.toNat) ∧
       (∀ as ln j, j < 32 → (as, ln, j) ≠ (asid, line, k) → wordAt s' as ln j = wordAt s as ln j) ∧
       ∃ u, s'.team tid = some u ∧ u.scalars = t.scalars ∧ u.vregs = t.vregs ∧ u.preds = t.preds) ∧
    (Ready t x { sw := [e.toNat] } →
     let i := Instr.sld sw e base .wt f
     let a := scalarAddr s t base f
     let asid := s.asid t.ctx
     let line := a.toNat / 128
     let k := wordIndex a.toNat
     checkLanes s (issueOf tid uid t x i) 4 false [(0, a)] = none → postedLine s tid [(0, a)] = false → inWindow a = false →
     inImageWindow s t.ctx a.toNat = false →
     l2Find s asid line = some l → l.cmp = t.comp → foreignSeal s l = false → poisoned s asid a.toNat = false → l.st.getD k (.u 0) = .u n →
     ∃ s', exec i s = .next s' ∧ s'.mem = s.mem ∧ s'.nmuBuf = s.nmuBuf ∧
       (∀ as ln j, wordAt s' as ln j = wordAt s as ln j) ∧
       ∃ u, s'.team tid = some u ∧ u.scalars = t.scalars ∧ u.vregs = t.vregs ∧ u.preds = t.preds ∧
         ∃ p, p ∈ u.pending ∧ p.dest = .scal e.toNat 1 ∧ p.lanes = [(0, [l.data.getD k 0])])

/-- R353 to R355: when no lane meets a cause, a returning atomic performs its lanes one after another, in an order the
spec leaves open, and the old values land as a long-latency write. The order is a free value (log 18); that the
lanes are performed in the step that issues the instruction is log 8, and that the old values land later log 7. -/
def Obligations.Atomics : Prop :=
  ∀ (s : State) (tid uid : Nat) (t : Team) (x : Split) (sw : Bool) (d : BitVec 8) (base : BitVec 6) (pol : Pol)
    (ix : Option (BitVec 8)), AtIssue s tid uid t x →
    (let et := modeEt x.mode
     let n := if et64 et then 2 else 1
     let dst := Dest.vec d.toNat n
     let r (i : Instr) (u : Uses) (op : AtOp) (v cmp : Nat → DWord) : Prop :=
       let c := issueOf tid uid t x i
       let ls := c.addrs s base ix
       let sv := serve (atomicLane c pol op v cmp dst) s [] (freeOrder s.free ls)
       Ready t x u → checkLanes s c (etMemWidth et) true ls = none → postedLine s tid ls = false → sv.stop = none →
       ∃ v, sv.s.team tid = some v ∧
         Completes i s (sv.s.setTeam tid (InFlight { v with replay := none } uid dst sv.vals)) tid uid sw (x.pc + 4) []
     let a (i : Instr) (op : AtOp) (ok : ET → Bool) : Prop :=
       r i (atomicUses ok i d ix (issueOf tid uid t x i)) op (fun L => s.rgroup t et d.toNat L) (fun _ => 0)
     a (.aadd sw d base pol ix) .add etAtomicAdd ∧ a (.amin sw d base pol ix) .min etAtomicMinMax ∧
     a (.amax sw d base pol ix) .max etAtomicMinMax ∧ a (.aand sw d base pol ix) .and etWide ∧
     a (.aor sw d base pol ix) .or etWide ∧ a (.axor sw d base pol ix) .xor etWide ∧
     a (.axchg sw d base pol ix) .xchg etWide ∧
     r (.acas sw d base pol ix) (acasUses (.acas sw d base pol ix) d ix (issueOf tid uid t x (.acas sw d base pol ix))) .cas
       (fun L => s.rgroup t et (d.toNat + n) L) (fun L => s.rgroup t et d.toNat L))

/-- R394 to R396: a reduce-on-write posts one update for each lane, in an order that the spec leaves open, and returns at once; no
register changes, and no update has been performed. The order is a free value (log 18). -/
def Obligations.ReduceOnWrite : Prop :=
  ∀ (s : State) (tid uid : Nat) (t : Team) (x : Split) (sw : Bool) (d : BitVec 8) (base : BitVec 6) (pol : Pol)
    (ix : Option (BitVec 8)), AtIssue s tid uid t x → pol ≠ .own →
    (let et := modeEt x.mode
     let r (i : Instr) (op : AtOp) (ok : ET → Bool) : Prop :=
       let c := issueOf tid uid t x i
       let ls := c.addrs s base ix
       Ready t x (redUses ok i d ix c) → checkLanes s c (etMemWidth et) true ls = none →
       ∃ e, Completes i s e tid uid sw (x.pc + 4) [] ∧ e.mem = s.mem ∧ e.l2 = s.l2 ∧ e.team tid = some t ∧
         (e.posted.drop s.posted.length).map (fun p => (p.lane, p.va, p.op, p.x)) =
           (freeOrder s.free ls).map (fun l => (l.1, l.2, op, s.rgroup t et d.toNat l.1)) ∧ e.posted.take s.posted.length = s.posted
     r (.redadd sw d base pol ix) .add etAtomicAdd ∧ r (.redmin sw d base pol ix) .min etAtomicMinMax ∧
     r (.redmax sw d base pol ix) .max etAtomicMinMax ∧ r (.redor sw d base pol ix) .or etWide)

/-- R189 to R191, R196: the fences and PDRAIN, once the split's own accesses allow it: an acquire removes the coach's
unregistered words of the ASID, a release at .SYS sends lines of the HOST and CXL tiers back to their tier, and PDRAIN waits
for the team's earlier updates. That .SYS takes the lines that the whole team wrote, where R189 says the split, is the model's
choice (log 97), and that it takes them in the step that issues the fence is log 8. -/
def Obligations.Fences : Prop :=
  ∀ (s : State) (tid uid : Nat) (t : Team) (x : Split) (sw : Bool) (scope : Scope), AtIssue s tid uid t x →
    (let done (i : Instr) (e : State) : Prop := Completes i s e tid uid sw (x.pc + 4) []
     let gone (e : State) : State := acquireRemoval e t.coach t.asid
     (released t uid (scopeRemote scope) = true →
        done (.fenceRel sw scope) (releaseSys s tid scope) ∧ done (.fenceFull sw scope) (gone (releaseSys s tid scope))) ∧
     (released t uid false = true → done (.fenceAcq sw scope) (gone s) ∧ done (.fenceAcqn sw scope) s) ∧
     (scope ≠ .sys → releaseSys s tid scope = s) ∧ (∀ u, (releaseSys s tid .sys).team tid = some u → u.sysLines = []) ∧
     (∀ l, l ∈ (gone s).l1 → l.coach = t.coach → l.asid = t.asid → ∀ w, w ∈ l.words → isReg w = true ∨ w = .none) ∧
     Completes (.pdrain sw scope) s s tid uid sw (x.pc + 4) [.posted s.nextId (scopeRemote scope)])

/-- R192, R195: the region instructions on a region below VA 2^57; a length of zero does nothing. INVR leaves no
unregistered word of the region in the coach's L1. That a region is walked in one step is log 8. -/
def Obligations.RegionInstructions : Prop :=
  ∀ (s : State) (tid uid : Nat) (t : Team) (x : Split) (sw : Bool) (d base : BitVec 6),
    AtIssue s tid uid t x → evenReg base = true →
    (let a := (s.rpair t base.toNat).toNat
     let n := (s.rs t d.toNat).toNat
     let done (i : Instr) (e : State) : Prop := Completes i s e tid uid sw (x.pc + 4) []
     let sv := serve (ownrWord (issueOf tid uid t x (.ownr sw d base))) s []
       (((regionWords a n).filter (fun v => !inWindow v)).map (fun v => (0, v)))
     (n = 0 → done (.invr sw d base) s ∧ done (.wbr sw d base) s ∧ done (.ownr sw d base) s) ∧
     (n ≠ 0 → a + n ≤ 2 ^ 57 →
        done (.invr sw d base) (removeCopies s t.coach t.asid (regionLine a n)) ∧
        (∃ e, done (.wbr sw d base) e ∧ e.mem = s.mem ∧ e.teams = s.teams ∧
          ∀ l, l ∈ e.l1 → l.coach = t.coach → l.asid = t.asid → lineOverlaps l.line a n = true →
            ∀ j, j < 32 → isReg (l.words.getD j .none) = false) ∧
        (lockHit s t.ctx a n true = false → s.posted.any (fun p => p.tid == tid && overlaps a n (localVa s p.ctx p.va) 8) = false →
           sv.stop = none → ∃ v, sv.s.team tid = some v ∧
           done (.ownr sw d base) (sv.s.setTeam tid { v with replay := none }))))

/-- R179, R411, R412: scratchpad accesses whose lanes are all legal: SPLD starts a long-latency write of the bytes read;
SPST writes the lanes in ascending order, the highest lane of an address alone; SPAADD updates each lane's bytes once, in
an order that the spec leaves open, each from what the ones before it left, and the old values land later. No memory
changes. That the bytes are read when the instruction issues is log 7, that the lanes are performed in that step log 8. -/
def Obligations.ScratchpadAccess : Prop :=
  ∀ (s : State) (tid uid : Nat) (t : Team) (x : Split) (sw : Bool) (d : BitVec 8) (base : BitVec 6) (ix : Option (BitVec 8)),
    AtIssue s tid uid t x →
    (let et := modeEt x.mode
     let w := etMemWidth et
     let c := issueOf tid uid t x
     let ls := spadLanes s (c (.spld sw d base ix)) base ix
     let dst := Dest.vec d.toNat (if et64 et then 2 else 1)
     let stored := (keepHighest ls).foldl (fun s' l => spadWrite s' t.drove l.2 w (s.rgroup t et d.toNat l.1).toNat) s
     (Ready t x (loadUses (.spld sw d base ix) d ix (c (.spld sw d base ix))) →
        checkSpad s (c (.spld sw d base ix)) w false ls = none →
        Completes (.spld sw d base ix) s (s.setTeam tid (InFlight t uid dst (ls.map (fun l =>
          (l.1, valueWords (etRegCount et) (extendLoad et (spadRead s (c (.spld sw d base ix)) w l.2)))))))
          tid uid sw (x.pc + 4) []) ∧
     (Ready t x (storeUses (.spst sw d base ix) d ix (c (.spst sw d base ix))) →
        checkSpad s (c (.spst sw d base ix)) w true ls = none →
        Completes (.spst sw d base ix) s stored tid uid sw (x.pc + 4) [] ∧ stored.mem = s.mem) ∧
     (Ready t x (atomicUses etAtomicAdd (.spaadd sw d base ix) d ix (c (.spaadd sw d base ix))) →
        checkSpad s (c (.spaadd sw d base ix)) w true ls = none →
        ∃ order u, List.Perm order ls ∧
          (let r := order.foldl (fun (a : State × List (Nat × List Word)) l =>
             let y := spadAdd (c (.spaadd sw d base ix)) d s a.1 l
             (y.1, a.2 ++ [y.2])) (s, [])
           r.1.team tid = some u ∧ r.1.mem = s.mem ∧
           Completes (.spaadd sw d base ix) s (r.1.setTeam tid (InFlight u uid dst r.2)) tid uid sw (x.pc + 4) [])))

/-- R365 to R367: HALLOC gives the lowest free handle and its zero-based base run, or zero when there is none; HPASS names
the new holder; HFREE removes the buffer. -/
def Obligations.Handles : Prop :=
  ∀ (s : State) (tid uid : Nat) (t : Team) (x : Split) (sw : Bool) (d a b : BitVec 6) (dr : Drove) (n : Nat),
    AtIssue s tid uid t x → s.drove t.drove = some dr →
    (let len := (s.rs t a.toNat).toNat
     let size := min ((len + 1535) / 1536 * 1536) 524288
     let h := s.rs t a.toNat
     let pos := (s.rs t b.toNat).toNat
     (Ready t x { sw := [d.toNat] } → len ≠ 0 → len ≤ 524288 →
        (∀ k m, freeHandle dr = some k → freeRun s t.coach size = some m →
           ∃ (e : State) (buf : Handle), Completes (.halloc sw d a) s (e.setTeam tid (t.setS d.toNat (BitVec.ofNat 32 (k * 2 ^ 19)))) tid uid sw (x.pc + 4) [] ∧
             { e with droves := s.droves, nextId := s.nextId } = s ∧ e.drove t.drove = some { dr with handles := Store.insert dr.handles k buf } ∧
             buf.holder = t.coach ∧ buf.coach = t.coach ∧ buf.base = m ∧ buf.size = size ∧ buf.bytes = []) ∧
        ((freeHandle dr = none ∨ freeRun s t.coach size = none) → ScalarResult (.halloc sw d a) s tid uid t x sw d.toNat 0)) ∧
     (namedHandle s (issueOf tid uid t x (.hfree sw a)) h = some n → copyNamesHandle s t.drove n = false →
        released t uid false = true →
        Completes (.hfree sw a) s (s.modDrove t.drove (fun dr => { dr with handles := Store.erase dr.handles n })) tid uid sw (x.pc + 4) [] ∧
        (pos ≤ 7 → Completes (.hpass sw a b) s (s.modDrove t.drove (fun dr => { dr with handles := dr.handles.map (fun e =>
          if e.1 == n then (e.1, { e.2 with holder := t.coach / 8 * 8 + pos }) else e) })) tid uid sw (x.pc + 4) [])))

-- ## engines and the scheduler, as a team sees them

/-- R232, R256, R262, R263, R265, R266: a legal copy command or collective, with room for it, takes the next tag, puts it in
D, locks its ranges and enters its engine's queue, and its tag is not complete; one of no bytes enters none and is done at
once. A collective takes the next number of its context; that one of no bytes announces itself to the peers by a chunk of none
is the model's choice (log 83). The engines' own steps are log 1. -/
def Obligations.EngineCommands : Prop :=
  ∀ (s : State) (tid uid : Nat) (t : Team) (x : Split) (sw : Bool) (d a : BitVec 6),
    AtIssue s tid uid t x → Ready t x { sw := [d.toNat], regOk := sblkOk a } →
    (let b := (List.range 8).map (fun k => s.rs t (a.toNat + k))
     let die := dieOf t.coach
     let copy (i : Instr) (f : CopyFn) : Prop :=
       let c := issueOf tid uid t x i
       let tag := nextTag t.copyCtr
       let q := drayQueueOf t.coach (blkQueue b)
       let dr := drayOf t.coach
       let empty := blkTotal f b == 0 && f != .digest
       let locks := if empty then [] else copyLocks c f b tag
       let u := ({ t with copyCtr := tag, tags := t.tags ++ [⟨.copy, tag, empty, if blkDkind b == 0 && !empty then [dstSpan f b] else [],
         blkHandles f b⟩] } : Team).setS d.toNat tag
       let e : State := { s.setTeam tid u with locks := s.locks ++ locks }
       let k : CopyCmd := ⟨f, b, tid, t.ctx, t.comp, t.drove, t.coach, tag, 0, none, false, []⟩
       blkLegal f b = true → (blkAligned f b).all (fun v => v % 4 == 0) = true → spanTrap s c f b = none →
       engineRoom s t.ctx .copy (16 * dr + q) die locks.length = true → released t uid (copyRemote f b) = true →
       (empty = true → Completes i s e tid uid sw (x.pc + 4) []) ∧
       (empty = false → tagComplete u .copy tag = false ∧
          Completes i s (e.setQueue dr q ((s.dray dr).queue q ++ [k])) tid uid sw (x.pc + 4) [])
     let coll (i : Instr) (f : CollFn) : Prop :=
       let cd := collDesc f b
       let tag := nextTag t.collCtr
       let send := ((blkPair b 0).toNat, sendBytes cd (ctxMembers s t.ctx))
       let recv := ((blkPair b 2).toNat, recvBytes cd (ctxMembers s t.ctx))
       let rx := ((s.ctx t.ctx).map (fun y => (y.spec.rxreg.toNat, 65536 * y.spec.rxlen))).getD (0, 0)
       let mk (dst : Bool) (sp : Nat × Nat) : LockEntry := ⟨t.ctx, die, none, sp.1, sp.2, dst, tid, .coll, tag⟩
       let empty := cd.len == 0
       let locks := if empty then [] else [mk false send, mk true recv, mk true rx].filter (fun l => l.len != 0)
       let k := ((s.ctx t.ctx).map (fun y => y.collNum)).getD 0 + 1
       let u := ({ t with collCtr := tag, tags := t.tags ++ [⟨.coll, tag, empty,
         if empty then [] else [recv, rx].filter (fun r => r.2 != 0), []⟩] } : Team).setS d.toNat tag
       let e : State := { (s.setTeam tid u).modCtx t.ctx (fun y => { y with
         collNum := k, empties := if empty then y.empties ++ [(k, cd)] else y.empties }) with locks := s.locks ++ locks }
       let g : CollCmd := ⟨k, cd, blkPair b 0, blkPair b 2, tid, t.ctx, t.comp, tag, die, none, [], [], 0⟩
       collLegal cd b = true → (blkPair b 0).toNat % collUnit cd = 0 → (blkPair b 2).toNat % collUnit cd = 0 →
       [send, recv].findSome? (vaSpanTrap s t.ctx) = none →
       engineRoom s t.ctx .coll 0 die locks.length = true → released t uid true = true →
       (empty = true → Completes i s (announceEmpty e t.ctx die k cd) tid uid sw (x.pc + 4) []) ∧
       (empty = false → tagComplete u .coll tag = false ∧
          Completes i s { e with colls := s.colls ++ [g] } tid uid sw (x.pc + 4) [])
     copy (.dcopy sw d a) .copy ∧ copy (.dcopy2 sw d a) .copy2 ∧ copy (.dfill sw d a) .fill ∧
     copy (.dgath sw d a) .gath ∧ copy (.dgate sw d a) .gate ∧ copy (.digest sw d a) .digest ∧
     coll (.cred sw d a) .red ∧ coll (.cgath sw d a) .gath ∧ coll (.cscat sw d a) .scat ∧ coll (.cxch sw d a) .xch)

/-- R201, R226 to R228, R230, R232, R234: BKLOAD and BKRUN take the next bank tag and return it in D, lock their range (log
80), write the cached lines of it back, and send one load, or one run for each lane, on its way to the banks; a BKRUN
without lanes is done at once. BKREAD sends one read for each lane, whose words land later. -/
def Obligations.BankCommands : Prop :=
  ∀ (s : State) (tid uid : Nat) (t : Team) (x : Split) (sw : Bool) (d e b : BitVec 6) (v a : BitVec 8) (slot q : BitVec 2),
    AtIssue s tid uid t x →
    (let c := issueOf tid uid t x (.bkrun sw d a b)
     let die := dieOf t.coach
     let va := s.rpair t e.toNat
     let tag := nextTag t.bankCtr
     let ls := pairAddrs s c a
     let ctl := s.rs t b.toNat
     let span := rowSpan ls
     let taken (done : Bool) (dst : List (Nat × Nat)) : Team :=
       ({ t with bankCtr := tag, tags := t.tags ++ [⟨.bank, tag, done, dst, []⟩] } : Team).setS d.toNat tag
     let flushed (done : Bool) (dst : List (Nat × Nat)) (lo len : Nat) : State :=
       flushRange (s.setTeam tid (taken done dst)) (s.asid t.ctx) lo len
     (Ready t x { sw := [d.toNat], regOk := evenReg e } → va.toNat % 256 = 0 → released t uid false = true →
        lockRoom s t.ctx die 1 = true →
        (let n := flushed false [] va.toNat 256
         Completes (.bkload sw d e slot) s { n with
           locks := n.locks ++ [⟨t.ctx, die, none, va.toNat, 256, false, tid, .bank, tag⟩]
           bankFlight := n.bankFlight ++ [.load tid t.ctx t.comp tag slot.toNat va] } tid uid sw (x.pc + 4) [])) ∧
     (Ready t x { vr := [a.toNat, a.toNat + 1], sw := [d.toNat], mode := .guard, regOk := evenReg a && decide (b.toNat ≤ 55) } →
        field ctl.toNat 31 18 = 0 → 0 < field ctl.toNat 13 0 → field ctl.toNat 13 0 ≤ 8192 → rowTrap s c 1024 ls = none →
        released t uid false = true →
        (ls = [] → Completes (.bkrun sw d a b) s (s.setTeam tid (taken true [])) tid uid sw (x.pc + 4) []) ∧
        (ls ≠ [] → lockRoom s t.ctx die 1 = true →
          (let n := flushed false [span] span.1 span.2
           Completes (.bkrun sw d a b) s { n with
             locks := n.locks ++ [⟨t.ctx, die, none, span.1, span.2, true, tid, .bank, tag⟩]
             bankFlight := n.bankFlight ++ ls.map (fun l => BankItem.run ⟨tid, t.ctx, t.comp, field ctl.toNat 15 14, tag, l.2, ctl,
               (List.range 8).map (fun j => s.rs t (b.toNat + 1 + j)), 0, 0, []⟩) } tid uid sw (x.pc + 4) []))) ∧
     (Ready t x { vr := [a.toNat, a.toNat + 1], vw := [v.toNat], mode := .guard, regOk := evenReg a } → rowTrap s c 4 ls = none →
        (ls = [] → Completes (.bkread sw v a q) s s tid uid sw (x.pc + 4) []) ∧
        (ls ≠ [] → Completes (.bkread sw v a q) s { s.setTeam tid { t with
            pending := t.pending ++ [⟨[uid], [], .vec v.toNat 1, ls.map (fun l => (l.1, [])), some s.nextId, true⟩] } with
          nextId := s.nextId + 1
          bankFlight := s.bankFlight ++ ls.map (fun l => .read tid t.ctx t.comp s.nextId l.1 q.toNat 0 l.2) } tid uid sw (x.pc + 4) [])))

/-- R206, R209, R214, R215, R218, R220: MM128 enters the coach's queue at its issue; a gang instruction whose other members
have not come stands in its coach's latch, and its split waits there; both count in the open batch. MBATCH closes the
batch and returns its number; a gang instruction in the latch and the queued ones are of that batch from then on. PFL2
brings the lines of its region into the L2 as far as they can be had. What becomes of an accumulator in flight is log 34. -/
def Obligations.MatrixIssue : Prop :=
  ∀ (s : State) (tid uid : Nat) (t : Team) (x : Split) (sw : Bool) (d : BitVec 8) (e a b : BitVec 6),
    AtIssue s tid uid t x →
    (let ready (i : Instr) (m : MShape) : Prop :=
       Ready t x { vw := regGroup d.toNat (shapeAcc m), mode := .mat, regOk := wellFormed i && (m == .mm128 || t.gang.length == shapeG m) } ∧
       t.w = 1024 ∧ released t uid false = true
     let mm (i : Instr) (m : MShape) : MMInstr := captureMM s (issueOf tid uid t x i) m d a b
     let alone (i : Instr) (m : MShape) : Prop := ready i m → t.latch = none → t.gang.Nodup →
       (∀ g u, g ∈ gangTids s t.drove t.gang → g ≠ tid → s.team g = some u → u.latch = none) → 1 < t.gang.length →
       Answers i s (s.setTeam tid (withSplit { t with latch := some ⟨mm i m, uid, 0⟩, openMM := t.openMM + 1 } uid (fun y =>
         { y with waits := [.latch], parkedAt := s.clk.cycle.toNat }))) tid
     let n := nextTag t.batchCtr
     let closed : Team := ({ t with
       batchCtr := n, batches := t.batches ++ [⟨n, t.openMM⟩], openMM := 0
       latch := t.latch.map (fun l => if l.batch == 0 then { l with batch := n } else l)
       accs := t.accs.map (fun u => if u.batch == 0 then { u with batch := n } else u) } : Team).setS e.toNat n
     let lo := (s.rpair t a.toNat).toNat
     let len := (s.rs t b.toNat).toNat
     let lines := if len = 0 then [] else (List.range ((lo + len - 1) / 128 + 1 - lo / 128)).map (lo / 128 + ·)
     let fetched := lines.foldl (fun s line =>
       match fetchOperandLine s ⟨t.ctx, t.comp, t.coach⟩ line with | .ok s' => s' | .error _ => s) s
     (ready (.mm128 sw d a b) .mm128 → (s.rpair t a.toNat).toNat % 32 = 0 → (s.rpair t b.toNat).toNat % 32 = 0 →
        tensorRoom s t.coach = true →
        Completes (.mm128 sw d a b) s (enterShare (s.setTeam tid { t with openMM := t.openMM + 1 }) tid t.coach
          (mm (.mm128 sw d a b) .mm128) 0) tid uid sw (x.pc + 4) []) ∧
     alone (.mm256 sw d a b) .mm256 ∧ alone (.mm512 sw d a b) .mm512 ∧ alone (.mm1024 sw d a b) .mm1024 ∧
     (Ready t x { sw := [e.toNat] } → Completes (.mbatch sw e) s ((s.setTeam tid closed).modCoach t.coach (fun k => { k with
        tensor := k.tensor.map (fun h => if h.tid == tid && h.batch == 0 then { h with batch := n } else h) }))
        tid uid sw (x.pc + 4) []) ∧
     (evenReg a = true → Completes (.pfl2 sw a b) s fetched tid uid sw (x.pc + 4) [] ∧ fetched.teams = s.teams))

/-- R209, R218: when the last member of a gang comes, with entries that agree, aligned bases and room in every queue, every
member's share enters its coach's queue in that step, the latches are empty, and every member's split goes on at the next
word, waiting for its pending writes where it has the switch marker. -/
def Obligations.Rendezvous : Prop :=
  ∀ (s : State) (tid uid : Nat) (t : Team) (x : Split) (sw : Bool) (d : BitVec 8) (a b : BitVec 6) (m : MShape) (i : Instr),
    AtIssue s tid uid t x →
    ((m = .mm256 ∧ i = .mm256 sw d a b) ∨ (m = .mm512 ∧ i = .mm512 sw d a b) ∨ (m = .mm1024 ∧ i = .mm1024 sw d a b)) →
    Ready t x { vw := regGroup d.toNat (shapeAcc m), mode := .mat, regOk := wellFormed i && t.gang.length == shapeG m } →
    t.w = 1024 → (s.rpair t a.toNat).toNat % 32 = 0 → (s.rpair t b.toNat).toNat % 32 = 0 → released t uid false = true →
    t.latch = none →
    (let mm := captureMM s (issueOf tid uid t x i) m d a b
     let s1 := s.setTeam tid (withSplit { t with latch := some ⟨mm, uid, 0⟩, openMM := t.openMM + 1 } uid (fun y =>
       { y with waits := [.latch], parkedAt := s.clk.cycle.toNat }))
     let ms := latchMembers s1 t.drove t.gang
     ms.length = t.gang.length → ms.all (fun g => mmMatches mm g.e.mm) = true → ms.all (fun g => tensorRoom s1 g.t.coach) = true →
     (ms.map (·.tid)).Nodup → tid ∈ ms.map (·.tid) →
     ∃ n, exec i s = .next n ∧ n.mem = s.mem ∧
       (∀ g, g ∈ ms → ∃ u, n.team g.tid = some u ∧ u.latch = none ∧
          (∃ h, h ∈ (n.coach g.t.coach).tensor ∧ h.tid = g.tid ∧ h.mm = g.e.mm ∧ h.batch = g.e.batch) ∧
          ∀ z, g.t.split g.e.split = some z → NoJoin z (z.pc + 4) → ∃ y, u.split g.e.split = some y ∧ y.pc = z.pc + 4 ∧
            y.icount = z.icount + 1 ∧ y.waits = (if g.e.mm.word.getLsbD 31 && pendingOf g.t g.e.split then [.switch] else [])))

/-- R276, R51, R319, R321: LAUNCH and SIGNAL post to the scheduler, a SIGNAL of zero posts nothing, IPUSH appends the
lanes' items in ascending lane order, where there are any; a node index beyond NCOUNT, and a handle that names no sequence,
is TABLE_RANGE; a legal SEQOPEN and a SEQEND of a live sequence of the compartment hand the
request to firmware and wait. -/
def Obligations.PostsItemsSequences : Prop :=
  ∀ (s : State) (tid uid : Nat) (t : Team) (x : Split) (sw : Bool) (a b : BitVec 6) (v : BitVec 8) (q : BitVec 2) (pos : BitVec 3)
    (dr : Drove)
    (d : BitVec 6) (sq : Seq), AtIssue s tid uid t x →
    (let beyond (i : Instr) (w : Word) : Prop :=
       Answers i s (takeCause (s.tick 1) tid uid ⟨.tableRange, w, t.codeHi ++ x.pc⟩) tid
     (released t uid false = true →
     let e := (s.rs t a.toNat).toNat
     let n := (s.rs t b.toNat).toNat
     (nodeCount s t.ctx ≤ e → beyond (.launch sw a) (s.rs t a.toNat) ∧
        (n ≤ 65535 → beyond (.signal sw a b) (s.rs t a.toNat))) ∧
     (e < nodeCount s t.ctx →
        Completes (.launch sw a) s (s.modCtx t.ctx (fun c => { c with posts := c.posts ++ [.arm tid e] })) tid uid sw (x.pc + 4) [] ∧
        (n ≤ 65535 → Completes (.signal sw a b) s (if n = 0 then s
          else s.modCtx t.ctx (fun c => { c with posts := c.posts ++ [.dec tid e n] })) tid uid sw (x.pc + 4) []))) ∧
    (Ready t x { vr := [v.toNat], mode := .guard } → s.drove t.drove = some dr → dr.iq = true →
       (let vals := (lanesOf t.w (x.mask &&& guardMask t x.mode)).map (fun L => s.rv t v.toNat L)
        (vals = [] → Completes (.ipush sw v q pos) s s tid uid sw (x.pc + 4) []) ∧
        (vals ≠ [] → roomFor s t.drove pos.toNat q.toNat vals.length = true →
           ∃ m de, Completes (.ipush sw v q pos) s m tid uid sw (x.pc + 4) [] ∧ m.drove t.drove = some de ∧
             queueItems de pos.toNat q.toNat = queueItems dr pos.toNat q.toNat ++ vals ∧ m.mem = s.mem))) ∧
    (seqNamed s t.ctx t.comp (s.rs t a.toNat) = none → beyond (.seqend sw a) (s.rs t a.toNat)) ∧
    (let base := (s.rpair t a.toNat).toNat
     let n := (s.rs t b.toNat).toNat
     (Ready t x { sw := [d.toNat], regOk := evenReg a } → n ≠ 0 → n ≤ 1048576 → base % 65536 = 0 → base + 65536 * n ≤ 2 ^ 56 →
        Completes (.seqopen sw d a b) s s tid uid sw (x.pc + 4) [.seqopen d base n]) ∧
     (seqNamed s t.ctx t.comp (s.rs t a.toNat) = some sq → seqEnding s (s.rs t a.toNat) = false →
        Completes (.seqend sw a) s s tid uid sw (x.pc + 4) [.seqend (s.rs t a.toNat)])))

/-- R117, R369 to R371: RFLUSH writes the image and leaves the lines clean; HSAVE writes the units of its image; HLOAD of
an image that passes its checks installs the team that the image describes. That the image of RFLUSH has the PC of the RFLUSH
and the count before it is the model's choice (log 88); so is what HLOAD clears and refuses beyond the checks that the spec
lists (hloadTeam, logs 78 and 93). -/
def Obligations.SaveAndRestore : Prop :=
  ∀ (s : State) (tid uid : Nat) (t : Team) (x : Split) (sw : Bool) (base : BitVec 6) (pol : Pol),
    AtIssue s tid uid t x →
    (let a := s.rpair t base.toNat
     let cs := issueOf tid uid t x (.hsave sw base pol)
     let cl := issueOf tid uid t x (.hload sw base pol)
     let ws := hsaveImage t uid
     let us := unitAddrs a (ws.length / 4)
     let sv := serve (store4Lane cs pol (fun k j => ws.getD (4 * k + j) 0)) s [] us
     (t.pending.all (fun p => p.dest == .ack) = true → ∀ n, writeImage s tid = .ok n → ∃ u, n.team tid = some u ∧
        (∀ l, l ∈ u.lines → l.st ≠ .filling → l.dirty = false) ∧
        Completes (.rflush sw) s (n.setTeam tid { u with flushing := none }) tid uid sw (x.pc + 4) []) ∧
     (evenReg base = true → a.toNat % 128 = 0 → t.pending.all (fun p => p.dest == .ack) = true →
        sistersSettled s tid t uid = true → t.replay = none →
        unitsTrap s cs a (ws.length / 4) true = none → postedLine s tid us = false → sv.stop = none →
        ∃ u, sv.s.team tid = some u ∧
        Completes (.hsave sw base pol) s (sv.s.setTeam tid { u with replay := none, flushing := none }) tid uid sw (x.pc + 4) []) ∧
     (evenReg base = true → x.phase ≠ .handler → t.splits.length = 1 → a.toNat % 128 = 0 → t.pending = [] →
        s.posted.any (fun p => p.tid == tid) = false → t.tags.any (fun o => !o.done) = false → t.latch = none → t.openMM = 0 →
        t.batches.any (fun b => b.left != 0) = false →
        (let addrs (n : Nat) : List DWord := (List.range n).map (fun k => a + BitVec.ofNat 64 (4 * k))
         let head := readUnits cl pol s a 128
         let first (sv : Served) : List Word := sv.vals.map (fun v => v.2.getD 0 0)
         let n := ((first head).getD 304 0).toNat
         let all := readUnits cl pol s a (128 + 40 * n)
         unitsTrap s cl a 128 (pol == .own) = none → missingWords s cl (addrs 512) = [] → head.stop = none → 1 ≤ n → n ≤ t.w →
         unitsTrap s cl a (128 + 40 * n) (pol == .own) = none → missingWords s cl (addrs (4 * (128 + 40 * n))) = [] →
         all.stop = none →
         ∀ u, hloadTeam t (first all) = some u →
         Answers (.hload sw base pol) s (all.s.setTeam tid { u with replay := none, remoteWords := [] }) tid)))

/-- R64, R176, R291, R375: JTAB reads, at the place of a load and in the order of their lowest lanes, the table entries that
active lanes index, and the splits go where
the entries say: the issuing one keeps the lanes of the lowest entry, and for every other entry, ascending, a new split has
its lanes, with the same stacks and MODE. An index outside the table is TABLE_RANGE with the lowest such lane. -/
def Obligations.JumpTable : Prop :=
  ∀ (s : State) (tid uid : Nat) (t : Team) (x : Split) (sw : Bool) (d b : BitVec 6) (a : BitVec 8),
    AtIssue s tid uid t x → Ready t x { vr := [a.toNat], regOk := evenReg b } →
    (let i := Instr.jtab sw d a b
     let c := issueOf tid uid t x i
     let lanes := lanesOf t.w x.mask
     let entry (L : Nat) : Nat := (s.rv t a.toNat L).toNat
     let n := (s.rs t d.toNat).toNat
     let tb := s.rpair t b.toNat
     (∀ L, lanes.find? (fun L => decide (n ≤ entry L)) = some L →
        Answers i s (takeCause (s.tick 1) tid uid ⟨.tableRange, BitVec.ofNat 32 L, t.codeHi ++ x.pc⟩) tid) ∧
     (lanes.all (fun L => decide (entry L < n)) = true → lanes ≠ [] → tb.toNat % 4 = 0 →
       (let es := distinctSorted (lanes.map entry)
        let firsts := keepFirst (lanes.map (fun L => (L, entry L)))
        let ls := firsts.map (fun e => (e.1, tb + BitVec.ofNat 64 (4 * e.2)))
        let sv := serve (needWord c .si) s [] ls
        let read := (firsts.map (·.2)).zip (sv.vals.map (fun v => v.2.getD 0 0))
        let targets := es.map (fun e => ((read.find? (fun r => r.1 == e)).map (·.2)).getD 0)
        checkLanes s c 4 false ls = none → missingWords s c (ls.map (·.2)) = [] → postedLine s tid ls = false → sv.stop = none →
        (∀ g, g ∈ targets → g.extractLsb' 0 2 = 0) →
        (∀ v, sv.s.team tid = some v → es.length = 1 →
           Completes i s (sv.s.setTeam tid { v with replay := none, remoteWords := [] }) tid uid sw (targets.getD 0 0) []) ∧
        (x.phase = .run → (∀ k, t.split (t.nextUid + k) = none) → 1 < es.length →
           ∃ u, Completes i s (sv.s.setTeam tid u) tid uid sw (targets.getD 0 0) [] ∧
             u.splits.map (·.uid) = t.splits.map (·.uid) ++ (List.range (es.length - 1)).map (t.nextUid + ·) ∧
             (∀ k, k < es.length → ∃ y, u.split (if k = 0 then uid else t.nextUid + (k - 1)) = some y ∧
                (k ≠ 0 → y.pc = targets.getD k 0 ∧ y.icount = x.icount + 1) ∧
                y.mode = x.mode ∧ y.ret = x.ret ∧ y.joins = x.joins ∧
                ∀ L, L < 1024 → y.mask.getLsbD L = (lanes.contains L && entry L == es.getD k 0))))))

-- ## the PRIV family and the bank units

/-- R387 to R389, R414, R415: on a system coach, PGHARV marks the sixteen copies of a present page that is not yet
MIGRATING, writes its lines back and returns level, AC and D; PGSET unmarks agreeing copies, ends the page's move, and lets what waits
go on;
TLBINV drops the entries of the range (every entry of the context with KIND = CONTEXT). With DROP it answers 2 and drops
nothing where a line of the range is dirty or has a registered word; else the caches' lines of the range go too, what waits
goes on, and it answers 0. The two forms of TLBINV share a word (log 10). -/
def Obligations.PageMigration : Prop :=
  ∀ (s : State) (tid uid : Nat) (t : Team) (x : Split) (sw : Bool) (d a : BitVec 6),
    AtIssue s tid uid t x → t.sys = true → Ready t x { sw := [d.toNat], regOk := evenReg a && decide (a.toNat ≤ 60) } →
    (let va := (s.rpair t a.toNat).toNat
     let w := s.rs t (a.toNat + 2)
     let ctx := field w.toNat 3 0
     let asid := s.asid ctx
     let copies := pageCopies s ctx va
     let moved (s0 : State) : State := { s0 with moving := s0.moving.filter (fun m =>
       !(m.1 == ctx && copies.any (fun y => m.2 == va / pageSize y.2.1 * pageSize y.2.1))) }
     let marked (v : Bool) (s0 : State) (f : Nat → Nat) : State :=
       copies.foldl (fun s y => updateLeaf s y.1 asid va y.2.1 y.2.2.1 (fun e => setBitTo (f e) 63 v)) s0
     let noTlb (f : TlbEntry → Bool) : State := { s with tlb := s.tlb.filter (fun e => !f e) }
     let result (i : Instr) (v : Word) : Prop := ScalarResult i s tid uid t x sw d.toNat v
     let answers (i : Instr) (e : State) (v : Word) : Prop :=
       Completes i s (e.modTeam tid (fun u => u.setS d.toNat v)) tid uid sw (x.pc + 4) []
     let size := pageSize (field w.toNat 5 4)
     let lo := va / size * size
     let inRange (e : TlbEntry) : Bool := rangesMeet (e.page * pageSize e.level) (pageSize e.level) lo size
     (field w.toNat 31 4 = 0 →
        (copies = [] → result (.pgharv sw d a) 0x80000000) ∧
        (∀ c r, copies = c :: r → copies.any (fun y => pteMig y.2.2.2) = true →
           result (.pgharv sw d a) (BitVec.ofNat 32 (16 * c.2.1 + 4))) ∧
        (∀ c r, copies = c :: r → copies.any (fun y => pteMig y.2.2.2) = false →
           (let n := pageSize c.2.1
            let at_ := va / n * n
            answers (.pgharv sw d a)
              (harvestRows (harvestLines (marked true s (fun e => setBitTo e 62 false)) asid at_ n) ctx at_ n)
              (BitVec.ofNat 32 (16 * c.2.1 + (if copies.any (fun y => pteAc y.2.2.2) then 2 else 0) +
                (if copies.any (fun y => pteD y.2.2.2) then 1 else 0))))) ∧
        (copies.all (fun y => !pteMig y.2.2.2) = true → result (.pgset sw d a) 1) ∧
        (copies.any (fun y => pteMig y.2.2.2) = true →
           (copies.length ≠ 16 ∨ (copies.map (fun y => (y.2.1, withoutAcD y.2.2.2))).eraseDups.length ≠ 1 →
              result (.pgset sw d a) 2) ∧
           (copies.length = 16 → (copies.map (fun y => (y.2.1, withoutAcD y.2.2.2))).eraseDups.length = 1 →
              answers (.pgset sw d a)
                (resumeCtx (relocateBanks (moved (marked false (noTlb (fun e => e.asid == asid && e.page == va / pageSize e.level))
                  (fun e => e))) ctx) ctx) 0))) ∧
     (tlbinvLegal w = true → (s.ctx ctx).isSome = true →
        (field w.toNat 9 8 = 0 → w.getLsbD 12 = false →
           answers (.tlbinvPage sw d a) (noTlb (fun e => e.asid == asid && inRange e)) 0) ∧
        (field w.toNat 9 8 = 1 → answers (.tlbinvContext sw d a) (noTlb (fun e => e.asid == asid)) 0) ∧
        (field w.toNat 9 8 = 0 → w.getLsbD 12 = true →
           (let hit (line : Nat) : Bool := rangesMeet (line * 128) 128 lo size
            let held : Prop := (∃ l, l ∈ s.l2 ∧ l.asid = asid ∧ hit l.line = true ∧ (l.dirty = true ∨ ∃ w, w ∈ l.st ∧ isOwned w = true)) ∨
              (∃ l, l ∈ s.l1 ∧ l.asid = asid ∧ hit l.line = true ∧ ∃ w, w ∈ l.words ∧ isReg w = true)
            (held → result (.tlbinvPage sw d a) 2) ∧
            (¬held → answers (.tlbinvPage sw d a) (resumeCtx { noTlb (fun e => e.asid == asid && inRange e) with
              l2 := s.l2.filter (fun l => !(l.asid == asid && hit l.line))
              l1 := s.l1.filter (fun l => !(l.asid == asid && hit l.line))
              icache := s.icache.filter (fun l => !(l.asid == asid && hit l.line)) } ctx) 0)))) ∧
     (tlbinvLegal w = true → (s.ctx ctx).isSome = false →
        (field w.toNat 9 8 = 0 → result (.tlbinvPage sw d a) 1) ∧ (field w.toNat 9 8 = 1 → result (.tlbinvContext sw d a) 1)))

/-- R323 to R325, R361, R362: the key operations, the switch and the scrub of a system coach: what each answers, and what
it does to the key slot, the partition or the slice. The forms that share a word are told apart by the operand word
(log 10). That ROTATE of a slot that is not LIVE answers 2 whatever the base dies do (log 36), and that any sweep, any moving
page and any scrub answers 1 (log 84), is the model's reading. -/
def Obligations.KeysSwitchesScrubs : Prop :=
  ∀ (s : State) (tid uid : Nat) (t : Team) (x : Split) (sw : Bool) (d a : BitVec 6),
    AtIssue s tid uid t x → t.sys = true →
    (let w := s.rs t a.toNat
     let y := s.rs t (a.toNat + 1)
     let k := field w.toNat 27 16
     let v := s.key k
     let result (i : Instr) (r : Word) : Prop := ScalarResult i s tid uid t x sw d.toNat r
     let answers (i : Instr) (e : State) (r : Word) : Prop :=
       Completes i s (e.modTeam tid (fun u => u.setS d.toNat r)) tid uid sw (x.pc + 4) []
     let form (op : Nat) : Prop := field w.toNat 3 0 = op ∧ field w.toNat 15 4 = 0 ∧ field w.toNat 31 28 = 0
     (Ready t x { sw := [d.toNat], regOk := decide (a.toNat ≤ 62) } →
        (form 0 → field y.toNat 31 8 = 0 →
           (∀ n, freeSlot s = some n → 0 < n ∧ n < 4096 ∧ (s.key n).st = .free ∧ (∀ m, 0 < m → m < n → (s.key m).st ≠ .free) ∧
              answers (.keyopAlloc sw d a) ({ s.setKey n ⟨.live, s.nextKeySet, 0, field y.toNat 3 0, field y.toNat 7 4,
                (s.key n).gen + 1, []⟩ with nextKeySet := s.nextKeySet + 1 } : State) (BitVec.ofNat 32 n)) ∧
           (freeSlot s = none → result (.keyopAlloc sw d a) 0)) ∧
        (form 1 → y = 0 →
           ((v.st = .live ∨ v.st = .rotating) → answers (.keyopDestroy sw d a) (endSlot s k) 0 ∧
              ((endSlot s k).key k).st = .ended ∧ ((endSlot s k).key k).keys = 0 ∧
              (∀ l, l ∈ (endSlot s k).l2 → l.slot ≠ k) ∧ (∀ l, l ∈ (endSlot s k).l1 → l.slot ≠ k) ∧ (endSlot s k).mem = s.mem) ∧
           (v.st ≠ .live → v.st ≠ .rotating → result (.keyopDestroy sw d a) 1)) ∧
        (form 2 → y = 0 →
           (v.st ≠ .live → result (.keyopRotate sw d a) 2) ∧
           (v.st = .live → (sweepBusy s = true ∨ s.moving ≠ [] ∨ scrubBusy s = true) → result (.keyopRotate sw d a) 1) ∧
           (v.st = .live → sweepBusy s = false → s.moving = [] → scrubBusy s = false → answers (.keyopRotate sw d a)
              ({ s.setKey k { v with st := .rotating, keys := s.nextKeySet, old := v.keys, sweep := List.range 16 } with
                 nextKeySet := s.nextKeySet + 1 } : State) 0)) ∧
        (form 3 → y = 0 → result (.keyopStatus sw d a)
           (match v.st with | .free => 0 | .live => 1 | .rotating => 2 | .ended => 3)) ∧
        (form 4 → y = 0 →
           (v.st = .ended → slotMapped s k = false →
              answers (.keyopRelease sw d a) (s.setKey k { v with st := .free, ctx := 0, comp := 0 }) 0) ∧
           (v.st ≠ .ended ∨ slotMapped s k = true → result (.keyopRelease sw d a) 1))) ∧
     (Ready t x { sw := [d.toNat] } → field w.toNat 30 4 = 0 →
        (w.getLsbD 31 = false → (∀ p, s.slice (field w.toNat 3 0) ≠ .draining p) → result (.scrub sw d a) 1) ∧
        (w.getLsbD 31 = false → ∀ p, s.slice (field w.toNat 3 0) = .draining p →
           (sliceMapped s (field w.toNat 3 0) = true → result (.scrub sw d a) 1) ∧
           (sliceMapped s (field w.toNat 3 0) = false → ∃ e, answers (.scrub sw d a) e 0 ∧
              e.slice (field w.toNat 3 0) = .scrubbing 0 ∧ e.mem = s.mem)) ∧
        (w.getLsbD 31 = true → result (.scrubPoll sw d a)
           (match s.slice (field w.toNat 3 0) with | .scrubbing _ => 1 | _ => 0))) ∧
     (Ready t x { sw := [d.toNat], regOk := evenReg a && decide (a.toNat ≤ 60) } →
        (let u := s.rs t (a.toNat + 2)
         let part := field u.toNat 3 0
         let ctx := field u.toNat 11 8
         let at_ := s.rpair t a.toNat
         let armed := (s.part part).bind (fun p => p.armed)
         field u.toNat 30 12 = 0 → field u.toNat 7 4 = 0 →
         (u.getLsbD 31 = false →
            (armed ≠ none → result (.ctxswArm sw d a) 3) ∧
            (armed = none → at_.toNat < s.clk.gtime.toNat + 20000 → result (.ctxswArm sw d a) 1) ∧
            (armed = none → s.clk.gtime.toNat + 20000 ≤ at_.toNat → inPartition s ctx part = false →
               result (.ctxswArm sw d a) 2) ∧
            (∀ p, s.part part = some p → p.armed = none → s.clk.gtime.toNat + 20000 ≤ at_.toNat → inPartition s ctx part = true →
               (let others := (List.range p.members).filter (· != p.member)
                let e (m : Option (Nat × Nat × BitVec 6)) : State :=
                  others.foldl (fun r n => r.send part n ctx switchUnit switchUnit (.arm part n at_ ctx))
                    (s.modPart part (fun p => { p with armed := some ⟨ctx, at_.toNat, others, m, s.clk.gtime⟩ }))
                (others = [] → answers (.ctxswArm sw d a) (e none) 0) ∧
                (others ≠ [] → Completes (.ctxswArm sw d a) s (e (some (tid, uid, d))) tid uid sw (x.pc + 4) [.firmware d])))) ∧
         (u.getLsbD 31 = true →
            (armed = none → result (.ctxswCancel sw d a) 5) ∧
            (∀ g, armed = some g → g.time ≤ s.clk.gtime.toNat → result (.ctxswCancel sw d a) 5) ∧
            (∀ g, armed = some g → s.clk.gtime.toNat < g.time →
               answers (.ctxswCancel sw d a) (withdrawSwitch s part 4) 0 ∧
               (∀ p, (withdrawSwitch s part 4).part part = some p → p.armed = none))))))

/-- R93, R154 to R157, R223, R224, R231, R235 to R237, R240, R243: the words a bank unit executes. Each but a taken jump goes
on at the next micro-PC, occupies the bank for its bank cycles, and changes nothing but the unit. A word of more than 32 bank
cycles comes to a row boundary after each 32, and has its effect in its last part. ROWLD and ROWST of a row that is not open
activate it first, and take their masked words in a later part; an ordinary write that has reached the row is in memory
before, and counts as a write of the row. ROWST writes the masked words and marks the row written; in a window that the
hardware owns the words are unpredictable (R9, R110). A mask push beyond four, a pop of an empty stack, a type, a BSMAC
parameter or a jump that is not admitted, and word 64, is BANK_FAULT. BKEND takes one bank cycle; after the boundary at its end
the open row is precharged in eight, and the next pass begins; of the last pass the run ends when the precharge is over, and
its registers stay with KEEP. A written row whose key has gone is left as it was at its activation, and halts the context. How
the bank's clock counts is log 14; how BFPADD and BFPOUT treat a row's blocks is log 66. -/
def Obligations.BankKernel : Prop :=
  ∀ (s : State) (u : Nat) (e : BankExec) (sw : Bool) (d a : BitVec 2) (k : BitVec 3), s.cur = .bank u →
    (s.bank u).exec = some e →
    (let b := s.bank u
     let m := bankMask b
     let goes (i : Instr) (s' : State) (b' : BankUnit) (e' : BankExec) (n : Nat) : Prop :=
       exec i s = .next (s'.setBank u { b' with
         exec := some { e' with advanced := true }, reqs := (s'.bank u).reqs, busy := b.busy + n })
     let stops (i : Instr) : Prop := exec i s = .next (bankFaultHalt s u)
     let lands (i : Instr) (s' : State) (b' : BankUnit) (e' : BankExec) (n : Nat) : Prop :=
       (e'.upc < 63 → goes i s' b' { e' with upc := e'.upc + 1, stalled := none, prog := 0 } n) ∧ (63 ≤ e'.upc → stops i)
     let on (i : Instr) (b' : BankUnit) (n : Nat) : Prop := lands i s b' e n
     let long (i : Instr) (b' : BankUnit) (n : Nat) : Prop :=
       (e.prog + 32 < n → goes i s b { e with prog := e.prog + 32 } 32) ∧ (n ≤ e.prog + 32 → on i b' (n - e.prog))
     let q (v : List Word) : BankUnit := { b with q := b.q.set d.toNat v }
     let row (f : Nat → Word) : List Word :=
       (List.range 256).map (fun i => if m.getLsbD i then f i else (getQ b d).getD i 0)
     let off := (b.k.getD k.toNat 0).toInt
     let loaded (s' : State) (e' : BankExec) (r : OpenRow) (n : Nat) : Prop :=
       let s2 := drainRow s' r.t
       ∃ ws : List Word,
         (inImageWindow s2 e'.run.ctx (openVa e').toNat = false → ws = readWords s2.mem (rowKey r.t) 256) ∧
         lands (.rowld sw d k) s2 (q (maskedRow m (getQ b d) ws))
           { e' with row := some { r with written := r.written || bufferedDirty s' r.t } } n
     let stored (s' : State) (e' : BankExec) (r : OpenRow) (n : Nat) : Prop :=
       let s2 := sealBlock (drainRow s' r.t) r.t
       ∃ ws : List Word, (writesWindow s2 e'.run.ctx (openVa e').toNat (.write 0) = false → ws = getQ b a) ∧
         lands (.rowst sw a k) { s2 with
           mem := writeWords s2.mem (rowKey r.t) (maskedRow m (readWords s2.mem (rowKey r.t) 256) ws) } b
           { e' with row := some { r with written := true } } n
     let rows (i : Instr) (write : Bool) (f : State → BankExec → OpenRow → Nat → Prop) : Prop :=
       (∀ r, e.row = some r → 0 < e.prog → (e.prog < 32 → goes i s b { e with prog := 32 } 16) ∧ (32 ≤ e.prog → f s e r 16)) ∧
       (∀ s' e' r, e.prog = 0 → activateRow s u e off write = .ok s' e' → e'.row = some r →
          ((∀ r0, e.row = some r0 → r0.off ≠ off) → goes i s' b { e' with prog := 16, stalled := none } 16) ∧
          (∀ r0, e.row = some r0 → r0.off = off → f s' e' r 32)) ∧
       (∀ s' e' c va, e.prog = 0 → activateRow s u e off write = .stop s' e' c va →
          exec i s = .next (bankCause (s'.setBank u { s'.bank u with exec := some e' }) u c va))
     long (.bfpadd sw d a) (q (bfpAdd (getQ b d) (getQ b a))) 64 ∧
     on (.bfpout sw d a) (q (bfpOut (getQ b a))) 32 ∧
     (bsmacLegal (b.k.getD k.toNat 0) = true → (getQ b a).length = 256 → (getQ b d).length = 256 →
        long (.bsmac sw d a k) (q (row (fun i => bsmacWord (modeSat b.mode) (b.k.getD k.toNat 0) ((getQ b a).getD i 0) ((getQ b d).getD i 0))))
          (bsmacCycles (b.k.getD k.toNat 0))) ∧
     (bsmacLegal (b.k.getD k.toNat 0) = false → stops (.bsmac sw d a k)) ∧
     (b.mstack.length < 4 → ∃ mk : BitVec 256, on (.mpush sw a) { b with mstack := mk :: b.mstack } 32 ∧
        ∀ i, i < 256 → mk.getLsbD i = (m.getLsbD i && decide ((getQ b a).getD i 0 ≠ 0))) ∧
     (4 ≤ b.mstack.length → stops (.mpush sw a)) ∧
     (∀ m0 r, b.mstack = m0 :: r → on (.mpop sw) { b with mstack := r } 1 ∧
        on (.mflip sw) { b with mstack := (r.headD (BitVec.allOnes 256) &&& ~~~m0) :: r } 1) ∧
     (b.mstack = [] → stops (.mpop sw) ∧ stops (.mflip sw)) ∧
     rows (.rowld sw d k) false loaded ∧ rows (.rowst sw a k) true stored ∧
     (e.prog = 0 → goes (.bkend sw) s b { e with ending := true, stalled := none } 1) ∧ (e.prog ≠ 0 → stops (.bkend sw)) ∧
     (ctxActive s e.run.ctx = true → b.busy ≤ bankCycle s → e.ending = true → e.opening = none →
        (∀ r, e.row = some r → rowBoundary u s = none →
           ((r.written = true → rowKeyLive s r = true) →
              step s = .next (s.setBank u { b with
                busy := b.busy + 8, mstack := []
                exec := some (if e.pass + 1 < field e.run.ctl.toNat 13 0 then
                  { e with row := none, pass := e.pass + 1, upc := 0, opening := some 0, ending := false, advanced := true }
                  else { e with row := none, advanced := true }) }).endTurn) ∧
           (r.written = true → rowKeyLive s r = false → step s =
              .next (bankCause ((dropRow s r).setBank u { b with exec := some { e with row := none } }) u .keyEnded (openVa e)).endTurn)) ∧
        (e.row = none → ∃ s' : State, step s = .next s'.endTurn ∧ (s'.bank u).exec = none ∧ s'.mem = s.mem ∧
           (e.run.ctl.getLsbD 16 = true → (s'.bank u).q = b.q ∧ ∃ y : BankSaved, Store.find (s'.bank u).kept e.run.ctx = some y ∧ y.q = b.q ∧
              y.k = b.k ∧ y.mode = b.mode))) ∧
     (let x (r : BReg) (i : Nat) : Word := (bankOperand b r).getD i 0
      let g (i : Nat) : Word := (getQ b d).getD i 0
      (∀ op y z, bankTypeOk op (modeEt b.mode) = true → on (.bankSubsetInstruction (.alu op d y z))
         (q (row (fun i => (vop op (bankNum b.mode) ((x y i).setWidth 64) ((x z i).setWidth 64) ((g i).setWidth 64)).setWidth 32))) 32) ∧
      (∀ op y z, bankTypeOk op (modeEt b.mode) = false → stops (.bankSubsetInstruction (.alu op d y z))) ∧
      (∀ y z, on (.bankSubsetInstruction (.sel d y z))
         (q ((List.range 256).map (fun i => if m.getLsbD i then x y i else x z i))) 32) ∧
      (∀ cb cd y z, on (.bankSubsetInstruction (.cmp cb cd d y z)) (q (row (fun i =>
         if combine cb (g i != 0) (elemCond cd (modeEt b.mode) (modeFtz b.mode) (x y i).toNat (x z i).toNat) then 1 else 0))) 32) ∧
      (∀ imm, on (.bankSubsetInstruction (.vli d imm)) (q (row (fun _ => imm.signExtend 32))) 32) ∧
      (∀ o : BitVec 24, (let at_ := (e.upc : Int) + o.toInt
         ((0 ≤ at_ ∧ at_ ≤ 63) → goes (.bankSubsetInstruction (.bra o)) s b { e with upc := at_.toNat } 1) ∧
         ((at_ < 0 ∨ 63 < at_) → stops (.bankSubsetInstruction (.bra o))))) ∧
      (∀ imm, (bankModeLoOk imm = true → on (.bankSubsetInstruction (.modeLo imm)) { b with mode := b.mode.extractLsb' 16 16 ++ imm } 1) ∧
         (bankModeLoOk imm = false → stops (.bankSubsetInstruction (.modeLo imm)))) ∧
      on (.bankSubsetInstruction .modeHi) { b with mode := 0#16 ++ b.mode.extractLsb' 0 16 } 1))

/-- R223, R226, R230, R234, R242 to R245: a run whose row this unit holds enters its queue; the unit whose turn it is starts its
run with the state of R223; an image that is at the head of an idle unit's queue lands in its slot; an ordinary
request is queued, and served after the bank cycles in hand: the oldest alone at an idle bank, from its arrival on, where a
BKREAD lane is served at once; up to four that arrived before a boundary, on the open row of a kernel that has reached it; a
refresh occupies a bank without a kernel for 40 bank cycles, and waits for the row boundary of one with a kernel; one that is
still due when the kernel has gone comes first. The steps of a bank that the schedule names are log 1, its clock log 14. -/
def Obligations.BankEvents : Prop :=
  ∀ (s : State) (u : Nat),
    (let b := s.bank u
     let now := bankCycle s
     (∀ r rest tr s', firstOfTeam [] s.bankFlight = .run r :: rest → ctxActive s r.ctx = true →
        bankTrans s r.ctx r.comp r.va false = .ok (s', tr) → unitOf tr = u → nmuWaiting s r.ctx u < 256 →
        ∃ n, exec (.bankRunArrival u) s = .next n ∧ n.bankFlight = dropItem (.run r) s'.bankFlight ∧
          .run { r with since := s.free } ∈ (n.bank u).queue ∧ n.mem = s'.mem ∧
          ((s'.bank u).exec ≠ none → (n.bank u).queue = (s'.bank u).queue ++ [.run { r with since := s.free }])) ∧
     (∀ tid tag slot ws, u ≠ 131072 → b.exec = none → headItem s b = some (.image tid tag slot ws) →
        ∃ n, exec (.bkloadDelivery u) s = .next n ∧ Store.find (n.bank u).slots (4 * (tid / 8192) + slot) = some ws ∧
          (n.bank u).queue = dropItem (.image tid tag slot ws) b.queue ∧ n.mem = s.mem) ∧
     (∀ r, toRestore s u = none → admitChoice s (unitChannel u) = some (u, r) →
        ∃ n, exec (.bankRunAdmit u) s = .next n ∧ (n.bank u).q = List.replicate 4 (List.replicate 256 0) ∧ (n.bank u).k = r.k ∧
          (n.bank u).mode = 0 ∧ (n.bank u).mstack = [] ∧ n.mem = s.mem ∧
          (∃ e, (n.bank u).exec = some e ∧ e.run = r ∧ e.pass = 0 ∧ e.upc = 0 ∧ e.row = none ∧ e.opening = some 0)) ∧
     (∀ row wr id, exec (.ordinaryRequestArrival u row wr id) s =
        .next (s.setBank u { b with reqs := b.reqs ++ [⟨id, row, wr, now⟩] })) ∧
     (b.exec = none → b.refresh = true → exec (.bankRowBoundary u) s =
        .next (s.setBank u { b with refresh := false, lastRefresh := b.busy, busy := b.busy + 40 })) ∧
     (b.exec = none → b.refresh = false →
        (∀ i at_ rest, bankAsks s b = .read i at_ :: rest → exec (.bankRowBoundary u) s = .next (serveRead u s i)) ∧
        (∀ r rest, bankAsks s b = .req r :: rest →
           (let done := max b.busy r.at_ + 8 + (if r.write then 4 else 12)
            (now < max b.busy r.at_ → exec (.bankRowBoundary u) s = .next s) ∧
            (max b.busy r.at_ ≤ now → exec (.bankRowBoundary u) s = .next (s.setBank u { b with
              reqs := b.reqs.erase r, served := b.served ++ [(r.id, done)], busy := done + 8 }))))) ∧
     (∀ e, b.exec = some e → e.stalled = none →
        (now < b.busy → exec (.bankRowBoundary u) s = .next s) ∧
        (∀ rs, b.busy ≤ now → runOver e = false → e.advanced = true → b.refresh = false →
           ((bankAsks s b).filter (fun a => decide (a.since < b.busy))).take 4 = rs.map .req → rs ≠ [] →
           (∀ r, r ∈ rs → openRowNumber e = some r.row) →
           exec (.bankRowBoundary u) s = .next (s.setBank u { b with
             reqs := rs.foldl List.erase b.reqs, served := b.served ++ (serveRequests 0 0 b.busy rs).1,
             busy := (serveRequests 0 0 b.busy rs).2, exec := some { e with advanced := false } }))) ∧
     (b.lastRefresh = 0 ∨ b.lastRefresh + 1950 ≤ now →
        (b.exec = none → exec (.refreshDue u) s = .next (s.setBank u { b with busy := max b.busy now + 40, lastRefresh := now })) ∧
        (∀ e, b.exec = some e → exec (.refreshDue u) s = .next (s.setBank u { b with refresh := true }))))

-- ## events: the host, firmware and management

/-- R275, R330, R338 to R342: power-up, the staging window, GO, verification and derivation; the same through the BARs.
The reserved bits of BOOTCMD take no write; BAR2 reads as zero, and so does BAR4 outside ROM_WAIT. The order of the checks is
log 24; that each of the eight system coaches has one team, which starts when derivation is done, is log 12. -/
def Obligations.BootAndHost : Prop :=
  ∀ (s : State) (off ctx : Nat) (bytes : List Byte),
    (∃ n, exec .powerUp s = .next n ∧ n.boot.powered = true ∧ n.boot.st = .romWait ∧ n.boot.err = 0 ∧ n.boot.cmd = 0 ∧
      n.boot.counter = s.boot.counter ∧ n.boot.fuses = s.boot.fuses ∧ n.teams = [] ∧ n.ctxs = [] ∧ n.keys = []) ∧
    (s.host.linkUp = true → s.boot.powered = true → s.boot.st = .romWait → off + bytes.length ≤ 2 ^ 28 →
      ∃ n, exec (.firmwareStagingWrite off bytes) s = .next n ∧ exec (.hostRegisterWrite 4 off bytes) s = .next n ∧
        (∀ i b, bytes[i]? = some b → Store.get 0 n.mem (stagingKey (off + i)) = b) ∧
        (∀ k, (∀ i, i < bytes.length → k ≠ stagingKey (off + i)) → Store.get 0 n.mem k = Store.get 0 s.mem k) ∧
        n.boot = s.boot ∧ n.host = s.host) ∧
    (s.host.linkUp = true → s.boot.powered = true → s.boot.st = .romWait →
      ∃ n, exec .bootGo s = .next n ∧ n.boot.st = .verify ∧ n.boot.err = 0 ∧ n.boot.cmd.getLsbD 0 = false ∧ n.mem = s.mem ∧
        n.host.interrupts = s.host.interrupts ++ [34]) ∧
    (s.host.linkUp = true → s.boot.powered = true → s.boot.st = .failed →
      ∃ n, exec .bootGo s = .next n ∧ n.boot.st = .romWait ∧ n.boot.cmd.getLsbD 0 = false) ∧
    (s.boot.st = .verify → ∃ n, exec .bootVerifyDone s = .next n ∧
      (verifyError s = 0 → n.boot.st = .derive_ ∧ n.boot.counter = min 8192 (s.boot.counter + 1) ∧
        n.boot.certified = decide (s.boot.counter < 8192) ∧ n.host.interrupts = s.host.interrupts ++ [34]) ∧
      (verifyError s ≠ 0 → n.boot.st = .failed ∧ n.boot.err = verifyError s ∧ n.boot.counter = s.boot.counter)) ∧
    (s.boot.st = .derive_ →
      ∃ n, exec .bootDeriveDone s = .next n ∧ n.boot.st = .ready ∧ n.boot.err = (if s.boot.certified then 0 else 5) ∧
        n.boot.leaves = 0 ∧ (∀ k, k < 8 → ∃ t, n.team (131072 + k) = some t ∧ t.sys = true) ∧
        n.host.interrupts = s.host.interrupts ++ [34]) ∧
    (s.host.linkUp = true → ctx < 16 →
      (bytes.length = 8 → exec (.hostRegisterWrite 2 (4096 * ctx) bytes) s = .next (releaseNode s ctx (BitVec.ofNat 64 (bytesNum bytes)))) ∧
      (bytes.length ≠ 8 → exec (.hostRegisterWrite 2 (4096 * ctx) bytes) s =
        .next { s with mgmt := { s.mgmt with badrel := s.mgmt.badrel + 1 } })) ∧
    (s.host.linkUp = true → s.boot.powered = true → s.boot.st = .ready → ∀ b : Byte,
      ∃ n, exec (.hostRegisterWrite 0 9 [b]) s = .next n ∧ n.boot.cmd = s.boot.cmd &&& 1 ∧ n.mem = s.mem) ∧
    (∀ n, hostRead s 2 off n = List.replicate n 0 ∧ (s.boot.st ≠ .romWait → hostRead s 4 off n = List.replicate n 0))

/-- R328, R342: the SPDM requests in their order, with the sessions they make and end and the leaves they spend, and the
TDISP messages over an established session. The link IDE stream gets its keys when a session is established, and a TDI's
stream when it is locked (log 26). -/
def Obligations.SecureMessages : Prop :=
  ∀ (s : State) (n part : Nat), s.host.linkUp = true →
    (let up := s.boot.st = .ready
     let ready := s.boot.st = .ready ∧ s.host.spdmAlgs = true
     let into (i : Instr) (h : HostSide) : Prop := exec i s = .next { s with host := h }
     let reply (i : Instr) (r : SpdmReply) : Prop := into i { s.host with reply := r }
     let spent : Boot := { s.boot with leaves := s.boot.leaves + 1 }
     (up → into .spdmGetVersion { s.host with spdmVersion := true, spdmCaps := false, spdmAlgs := false, reply := .version }) ∧
     (up → s.host.spdmVersion = true → into .spdmGetCapabilities { s.host with spdmCaps := true, reply := .capabilities }) ∧
     (up → s.host.spdmCaps = true → into .spdmNegotiateAlgorithms { s.host with spdmAlgs := true, reply := .algorithms }) ∧
     (ready → reply .spdmGetDigests .digests ∧ reply .spdmGetCertificate .certificate) ∧
     (ready → s.boot.leaves < 32768 → exec .spdmGetMeasurements s =
        .next { s with boot := spent, host := { s.host with reply := .measurements s.boot.measurements s.boot.leaves } }) ∧
     (ready → 32768 ≤ s.boot.leaves → reply .spdmGetMeasurements .unspecified ∧ reply .spdmKeyExchange .unspecified) ∧
     (ready → s.boot.certified = true → s.boot.leaves < 32768 → freeSession s = some n → exec .spdmKeyExchange s =
        .next { s with boot := spent, host := { s.host with
          sessions := s.host.sessions ++ [⟨n, false, 0⟩], reply := .keyExchange n s.boot.leaves } }) ∧
     (ready → s.boot.certified = false → reply .spdmKeyExchange .unspecified) ∧
     (ready → freeSession s = none → reply .spdmKeyExchange .unspecified) ∧
     (ready → hasSession s n false = true → into (.spdmFinish n) { s.host with
        sessions := s.host.sessions.map (fun x => if x.id == n then { x with established := true } else x)
        ide := if s.host.ide.any (fun x => x.1 == 16) then s.host.ide else s.host.ide ++ [(16, n)]
        reply := .finished n }) ∧
     (ready → hasSession s n true = true →
        reply (.spdmHeartbeat n) (.heartbeat n) ∧
        into (.spdmKeyUpdate n) { s.host with sessions := s.host.sessions.map (fun x =>
          if x.id == n then { x with keyUpdates := x.keyUpdates + 1 } else x), reply := .keyUpdate n } ∧
        into (.spdmEndSession n) { s.host with sessions := s.host.sessions.filter (·.id != n), reply := .ended n }) ∧
     (s.host.sessions.any (·.established) = true →
        ((s.part part).isSome = true → tdiOf s part = .unlocked →
           ∃ m, exec (.tdispLock part) s = .next m ∧ tdiOf m part = .locked ∧ part ∈ m.host.ide.map (·.1) ∧ m.mem = s.mem) ∧
        (tdiOf s part = .locked → ∃ m, exec (.tdispStart part) s = .next m ∧ tdiOf m part = .run) ∧
        ((tdiOf s part = .locked ∨ tdiOf s part = .run) →
           (let cs := (s.ctxs.filter (fun c => decide (c.1 < 16) && c.2.part == part)).map (·.1)
            into (.tdispReport part) { s.host with tdiReport := some (part, cs) })) ∧
        ((s.part part).isSome = true →
           ∃ m, exec (.tdispStop part) s = .next m ∧ tdiOf m part = .unlocked ∧ part ∉ m.host.ide.map (·.1))))

/-- R289, R297, R309, R335 to R337, R347 to R350: the management functions and their replies (their form is log 25's),
clock steps and heat, the global time's synchronisation, the fabric's ports, with the chunks that a lost port sends again,
counted errors and the advisory. How time advances is log 14. -/
def Obligations.ManagementAndClocks : Prop :=
  ∀ (s : State) (train n port : Nat) (kind : AdvKind) (site : ErrSite) (gt : DWord),
    (let m := s.mgmt
     let reply (i : Instr) (e : State) (xs : List Nat) : Prop :=
       exec i s = .next { e with mgmt := { e.mgmt with mailbox := xs }, host := { e.host with interrupts := e.host.interrupts ++ [33] } }
     let halts (c : Nat) (e : State) : Prop := ∀ x, e.ctx c = some x → x.halt.isSome = true ∧ x.running = false
     let key := counterKey (errorUnit s site)
     (∃ xs, reply .mgmtReadCounters s xs ∧ xs.take 4 = [m.badrel, m.portdrop, m.stalewb, m.ownfall]) ∧
     (∃ e, exec .mgmtClearCounters s = .next e ∧ e.mgmt.corrected = [] ∧ e.mgmt.badrel = 0 ∧ e.mgmt.portdrop = 0 ∧
        e.mgmt.stalewb = 0 ∧ e.mgmt.ownfall = 0 ∧ (∀ c x, e.ctx c = some x → x.ownfall = 0)) ∧
     reply .mgmtReadThresholds s (s.mgmt.thresholds.flatMap (fun e => [e.1, e.2])) ∧
     (advUnitOk kind n = true → ∀ v, ∃ e, exec (.mgmtWriteThresholds kind n v) s = .next e ∧
        Store.find e.mgmt.thresholds (1024 * advCode kind + n) = some v) ∧
     (∃ xs, reply .mgmtReadPower s xs ∧ xs.take 2 = [s.clk.powerCap, s.clk.mhz] ∧ xs.length = 8) ∧
     (1400 ≤ n → n ≤ 2800 → ∃ e, exec (.mgmtSetPowerCap n) s = .next e ∧ e.clk = { s.clk with powerCap := n }) ∧
     (∃ xs, reply .mgmtReadStatus s xs ∧ xs.take 4 = [Config.trains - s.absentTrains.length, 8192 - s.boot.counter,
        32768 - s.boot.leaves, if s.clk.tsyncLost then 1 else 0]) ∧
     reply (.mgmtReclaim train) (reclaimTrain s train false) [] ∧ reply (.mgmtReclaimForce train) (reclaimTrain s train true) [] ∧
     (s.clk.mhz + 50 ≤ 1900 → ∃ e, exec (.clockStep true) s = .next e ∧ e.clk.mhz = s.clk.mhz + 50 ∧ e.clk.gtime = s.clk.gtime ∧
        e.clk.cycle = s.clk.cycle) ∧
     (100 ≤ s.clk.mhz → s.clk.mhz ≤ 1900 → ∃ e, exec (.clockStep false) s = .next e ∧ e.clk.mhz = s.clk.mhz - 50 ∧
        e.clk.gtime = s.clk.gtime ∧ e.clk.cycle = s.clk.cycle) ∧
     (s.clk.stopped = false → ∃ e, exec .thermalHalt s = .next e ∧ e.clk = { s.clk with stopped := true } ∧ e.mem = s.mem ∧
        ∀ c, c < 16 → (∀ x, s.ctx c = some x → x.halt = none) → halts c e) ∧
     exec .thermalRecovery s = .next { s with clk := { s.clk with stopped := false } } ∧
     (∃ e, exec (.timeSyncFlit gt) s = .next e ∧ e.clk.slew = ((gt.toNat : Int) - (s.clk.gtime.toNat : Int)) * ((10000 * s.clk.mhz : Nat) : Int) ∧
        e.clk.gtime = s.clk.gtime ∧ e.clk.lastSync = s.clk.gtime) ∧
     (s.clk.tsyncLost = false → s.clk.lastSync.toNat + 10000000 ≤ s.clk.gtime.toNat →
        ∃ e, exec .tsyncLost s = .next e ∧ e.clk = { s.clk with tsyncLost := true } ∧
          ∀ c x p, c < 16 → s.ctx c = some x → x.halt = none → s.part x.part = some p → 1 < p.members → halts c e) ∧
     (s.clk.tsyncLost = true → timeQuiet s = false → timeOff s = false →
        s.clk.goodSince.toNat + 1000000000 ≤ s.clk.gtime.toNat →
        exec .tsyncRecovered s = .next { s with clk := { s.clk with tsyncLost := false } }) ∧
     (port < 18 → port ∉ s.portsDown → exec (.ectoupPortDown port) s = .next
        ((s.ctxs.filter (fun c => ctxActive s c.1)).foldl (fun e c => resendKept e c.1 (usesPort s c.1 port))
          { s with portsDown := s.portsDown ++ [port] })) ∧
     exec (.ectoupPortUp port) s = .next { s with portsDown := s.portsDown.filter (· != port) } ∧
     exec .hostLinkUp s = .next { s with host := { s.host with linkUp := true } } ∧
     (∃ e, exec (.correctedError site) s = .next e ∧
        Store.get 0 e.mgmt.corrected key = Store.get 0 s.mgmt.corrected key + 1 ∧ e.mem = s.mem ∧ e.teams = s.teams) ∧
     (s.mgmt.crossed.contains (advCode kind, n) = true → ∃ e, exec (.ckptAdvisory kind n) s = .next e ∧
        e.host.interrupts = s.host.interrupts ++ [32] ∧
        ∀ tid t c, s.team tid = some t → t.sys = false → s.ctx t.ctx = some c → advises s kind n t.ctx = true →
          t.events.getLsbD 0 = false → ∃ u, e.team tid = some u ∧ u.events = t.events ||| 1 ∧
            u.advisory = BitVec.ofNat 32 (256 * advCode kind + n % 256)))

-- ## events: halts and errors

/-- R298 to R302, R68, R307 to R310, R28, R114, R200, R329, R333: the first cause halts a context, wherever it comes from, and
its teams run no more; a later cause replaces it only when it came in the same cycle and goes before (R300). The halt ends once
its records are written, with the host's interrupt. Errors that are found in clean copies only drop them, or refill them from the
image; a hot reset leaves nothing of the tenants. A flit that comes on a port of another partition is dropped and counted. An
event that is not enabled changes nothing (log 11). That a frame in use is clean where it equals its image is log 90; which
pages a CXL link-down poisons is log 69. -/
def Obligations.HaltsAndErrors : Prop :=
  ∀ (s : State) (ctx mem entry id asid line coach tid port : Nat) (c : Context) (h : HaltCause) (unit : EngineUnit),
    (let stops (e : State) (k : Nat) (q : HaltCause → Prop) : Prop :=
       ∃ x r, e.ctx k = some x ∧ x.halt = some r ∧ r.finished = false ∧ x.running = false ∧ q r.h
     let dropped : State := { s with mgmt := { s.mgmt with portdrop := s.mgmt.portdrop + 1 } }
     (h.ctx < 16 → s.ctx h.ctx = some c → c.halt = none → ∃ e, exec (.contextHalt h) s = .next e ∧ e.mem = s.mem ∧
        stops e h.ctx (fun g => g = h) ∧
        (∀ k t, (k, t) ∈ e.teams → t.ctx = h.ctx → t.sys = false → t.running = false)) ∧
     (∀ g, h.ctx < 16 → s.ctx h.ctx = some c → c.halt = some g → g.finished = false →
        ∃ e x r, exec (.contextHalt h) s = .next e ∧ e.ctx h.ctx = some x ∧ x.halt = some r ∧ e.mem = s.mem ∧ e.teams = s.teams ∧
          r.time = g.time ∧ r.finished = false ∧
          r.h = (if g.cycle = s.clk.cycle ∧
              (if h.origin = 0 then g.h.origin ≠ 0 ∨ h.unit < g.h.unit else g.h.origin ≠ 0 ∧ h.unit < g.h.unit) then h else g.h)) ∧
     (ctx < 16 → s.ctx ctx = some c → c.halt = none →
        (s.ownsPort c.part port = true → ∃ e, exec (.remoteHaltFlit ctx ⟨port, mem⟩) s = .next e ∧
          stops e ctx (fun g => g.cause = .remoteFault ∧ g.origin = 7 ∧ g.unit = mem ∧ g.tinfo = BitVec.ofNat 32 (mem % 2 ^ 14))) ∧
        (s.ownsPort c.part port = false → exec (.remoteHaltFlit ctx ⟨port, mem⟩) s = .next dropped)) ∧
     (∀ r, (nodeAt s ctx entry).recd = some r → (nodeAt s ctx entry).st = .active → r.wdog ≠ 0 → (nodeAt s ctx entry).placed ≠ 0 →
        ctxActive s ctx = true →
        ((nodeAt s ctx entry).wdog + 4096 * r.wdog ≤ s.clk.cycle.toNat → (nodeAt s ctx entry).retired ≠ r.droves →
          ∃ e, exec (.watchdog ctx entry) s = .next e ∧
            stops e ctx (fun g => g.cause = .watchdog ∧ g.origin = 4 ∧ g.unit = entry ∧ g.tinfo = BitVec.ofNat 32 entry)) ∧
        ((nodeAt s ctx entry).retired = r.droves → exec (.watchdog ctx entry) s = .next s)) ∧
     (∀ r t, s.remote.find? (fun r => r.id == id) = some r → r.dead = false → s.team r.tid = some t → t.ctx = r.ctx →
        s.ctx r.ctx = some c → c.halt = none →
        (s.ownsPort c.part port = true → ∃ e, exec (.remoteFaultCompletion ⟨port, id⟩) s = .next e ∧
          stops e r.ctx (fun g => g.cause = .remoteFault ∧ g.taddr = r.va ∧ g.tinfo = BitVec.ofNat 32 (r.member % 2 ^ 14))) ∧
        (s.ownsPort c.part port = false → exec (.remoteFaultCompletion ⟨port, id⟩) s = .next dropped) ∧
        (r.sent.toNat + 1000000 ≤ s.clk.gtime.toNat →
          ∃ e, exec (.remoteTimeout id) s = .next e ∧ stops e r.ctx (fun g => g.cause = .remoteTimeout ∧ g.taddr = r.va)) ∧
        (s.clk.gtime.toNat < r.sent.toNat + 1000000 → exec (.remoteTimeout id) s = .next s)) ∧
     (∀ r, s.remote.find? (fun r => r.id == id) = some r → r.dead = true → s.ownsPort (s.partOf r.ctx) port = true →
        ∃ e, exec (.remoteFaultCompletion ⟨port, id⟩) s = .next e ∧ e.remote = s.remote.filter (fun x => x.id != r.id) ∧
          e.mgmt.log = s.mgmt.log ++ [(r.ctx, r.va, r.member, none)] ∧ e.ctxs = s.ctxs) ∧
     (∀ l, l2Find s asid line = some l → l.dirty = false → regPinned l = false →
        exec (.uncorrectableError (.l2Line asid line)) s = .next (dropL2 s asid line)) ∧
     (∀ l, l2Find s asid line = some l → (l.dirty = true ∨ regPinned l = true) →
        ∃ e, exec (.uncorrectableError (.l2Line asid line)) s = .next e ∧ poisoned e asid (line * 128) = true ∧ e.l2 = s.l2 ∧ e.mem = s.mem) ∧
     (∀ t, s.team tid = some t → s.ctx t.ctx = some c → c.halt = none →
        (let lost := ∃ e, exec (.uncorrectableError (.stateFrame tid)) s = .next e ∧
           stops e t.ctx (fun g => g.cause = .poison ∧ g.unit = t.coach)
         (t.frame = .inUse → (frameClean s tid t = false → lost) ∧
           (frameClean s tid t = true → exec (.uncorrectableError (.stateFrame tid)) s = .next s)) ∧
         (∀ k n, t.frame = .evictable k true n → lost) ∧
         (∀ k n, t.frame = .evictable k false n →
           exec (.uncorrectableError (.stateFrame tid)) s = .next (s.setTeam tid { t with frame := .image })))) ∧
     (coach < 512 → ∃ e, exec (.coachFailure coach) s = .next e ∧ (e.coach coach).failed = true ∧
        (∀ l w, l ∈ e.l2 → w ∈ l.st → ∀ n, w ≠ .o coach n) ∧
        (∀ k x, k ∈ coachContexts s coach → k < 16 → e.ctx k = some x → x.halt.isSome = true)) ∧
     (∃ e, exec (.engineFailure unit) s = .next e ∧ e.mem = s.mem ∧
        ∀ k x, k ∈ engineContexts s unit → k < 16 → e.ctx k = some x → x.halt.isSome = true) ∧
     (∃ e, exec .hostHotReset s = .next e ∧ e.host.linkUp = false ∧ e.host.sessions = [] ∧ e.keys = [] ∧ e.l2 = [] ∧ e.l1 = [] ∧
        (∀ k x, e.ctx k = some x → 16 ≤ k) ∧ (∀ k t, (k, t) ∈ e.teams → t.sys = true) ∧
        (∀ k, k < 4 * 2 ^ 48 ∨ 20 * 2 ^ 48 ≤ k → Store.get 0 e.mem k = Store.get 0 s.mem k) ∧
        (s.host.linkUp = true → exec .hostLinkDown s = .next e)) ∧
     (∃ e, exec .cxlLinkDown s = .next e ∧ e.cxlDown = true) ∧
     (let pages := (s.ctxs.filter (fun c => decide (c.1 < 16))).flatMap (fun c =>
        ((ctxLeaves s c.1).filter (fun l => pteTier l.2.2 == .cxl)).map (fun l => (c.1, l.1)))
      let down : State := { s with cxlDown := true }
      (pages = [] → exec .cxlLinkDown s = .next down) ∧
      (∀ k va, pages = [(k, va)] → (pageCopies down k va).any (fun x => pteD x.2.2.2) = true →
        exec .cxlLinkDown s = .next (poisonPage down (down.asid k) va))) ∧
     (∀ g, s.ctx ctx = some c → c.halt = some g → g.finished = false → (haltRecords s ctx c g).waiting = false →
        (let r := haltRecords s ctx c g
         ∃ e, exec (.haltFinish ctx) s = .next e ∧ e.host.interrupts = r.s.host.interrupts ++ [16 + ctx] ∧ e.mem = r.s.mem ∧
           (∀ x, r.s.ctx ctx = some x → ∃ y, e.ctx ctx = some y ∧
             y.halt = x.halt.map (fun z => { z with finished := true, unwritten := r.lost })) ∧
           (∀ k y, (k, y) ∈ e.coaches → ∀ z, z ∈ y.tensor → z.tid / 8192 ≠ ctx))))

-- ## events: the scheduler

/-- R271 to R277, R280, R281: arms and decrements of an entry, the host's window and its policy reload, opening and
completing a node, placing a new drove, retiring a team. A completion word that waits holds the later steps of its node
(R277). -/
def Obligations.NodesAndDroves : Prop :=
  ∀ (s : State) (ctx entry k tid train part : Nat) (c : Context) (value : DWord),
    (let x := nodeAt s ctx entry
     let node (e : State) (q : Node → Prop) : Prop := q (nodeAt e ctx entry)
     let posts (e : State) (ps : List Post) : Prop := ∃ y, e.ctx ctx = some y ∧ y.posts = ps
     (s.ctx ctx = some c → c.running = true → c.halt = none →
        (∀ rest s' ws r c', c.posts = .arm tid entry :: rest → x.st = .idle →
           schedRead s ctx (c.spec.nodetab + BitVec.ofNat 64 (128 * entry)) 32 = .ok (s', ws) → parseRecord c.spec.ncount ws = some r →
           s'.ctx ctx = some c' → c'.posts = c.posts →
           ∃ e, exec (.entryArm ctx entry) s = .next e ∧ posts e rest ∧
             (x.p < r.pred - 1 → node e (fun y => y.st = .waiting ∧ y.c = r.pred - 1 - x.p ∧ y.recd = some r)) ∧
             (r.pred - 1 ≤ x.p → node e (fun y => y.st = .ready ∧ y.p = x.p - (r.pred - 1) ∧ y.recd = some r))) ∧
        (∀ rest, c.posts = .arm tid entry :: rest → x.st ≠ .idle →
           ∃ e y, exec (.entryArm ctx entry) s = .next e ∧ e.ctx ctx = some y ∧ y.running = false ∧
             ∃ h, y.halt = some h ∧ h.h.cause = .engineFault ∧ h.h.origin = 4 ∧ h.h.unit = entry) ∧
        (∀ rest, c.posts = .dec tid entry k :: rest → ∃ e, exec (.entryDecrement ctx entry k) s = .next e ∧
           (x.st = .waiting → k < x.c → node e (fun y => y.st = .waiting ∧ y.c = x.c - k) ∧ posts e rest) ∧
           (x.st = .waiting → x.c ≤ k → node e (fun y => y.st = .ready ∧ y.p = k - x.c)) ∧
           (x.st ≠ .waiting → node e (fun y => y.st = x.st ∧ y.p = x.p + k)))) ∧
     (s.host.linkUp = true → value.getLsbD 63 = true →
        (windowOpen s ctx = none → exec (.nodeReleaseArm ctx value) s =
           .next { s with mgmt := { s.mgmt with badrel := s.mgmt.badrel + 1 } }) ∧
        (windowOpen s ctx = some c → schedOpen s ctx = true → field value.toNat 62 48 = 0 → field value.toNat 31 18 = 0 →
           field value.toNat 17 0 < c.spec.ncount → (armEntry s ctx (field value.toNat 17 0)).2 = true →
           exec (.nodeReleaseArm ctx value) s = .next (armEntry s ctx (field value.toNat 17 0)).1)) ∧
     (s.host.linkUp = true → value.getLsbD 63 = false → windowOpen s ctx = some c → schedOpen s ctx = true →
        field value.toNat 62 48 = 0 → field value.toNat 31 18 = 0 → field value.toNat 17 0 < c.spec.ncount →
        (field value.toNat 47 32 = 0 → exec (.nodeReleaseDecrement ctx value) s =
           .next { s with mgmt := { s.mgmt with badrel := s.mgmt.badrel + 1 } }) ∧
        (field value.toNat 47 32 ≠ 0 → exec (.nodeReleaseDecrement ctx value) s =
           .next (decEntry s ctx (field value.toNat 17 0) (field value.toNat 47 32)))) ∧
     (s.host.linkUp = true →
        (windowOpen s ctx = none → exec (.policyReload ctx) s = .next { s with mgmt := { s.mgmt with badrel := s.mgmt.badrel + 1 } }) ∧
        (windowOpen s ctx = some c → schedOpen s ctx = true → exec (.policyReload ctx) s = .next (readPolicy s ctx))) ∧
     (∀ q prio used rest, runningCtx s part = some ctx → s.ctx ctx = some c → c.policy ≠ [] → c.opens.length < 8 →
        nextQueue c = some (q, prio, used) → readyQueue c q = entry :: rest →
        ∃ e y, exec (.nodeOpen part) s = .next e ∧ node e (fun y => y = { x with st := .active }) ∧
          e.ctx ctx = some y ∧ y.opens = c.opens ++ [entry] ∧ readyQueue y q = rest) ∧
     (let s0 := (placedDroves s ctx).foldl resumeDrove s
      let y := nodeAt s0 ctx entry
      ∀ r p rest e comp s1 n, runningCtx s part = some ctx → s0.ctx ctx = some c → c.requeue = [] → c.opens = entry :: rest →
        y.recd = some r → (indexedTrains s0 ctx).find? (fun z => newFits s0 z.1 r) = some (train, p) →
        entryPage s0 ctx y r = .ok comp → firstPlacement s0 ctx entry comp y r = (s1, n, true) →
        placeNew s1 ctx entry train p comp n r = .ok e →
        exec (.drovePlacement part) s = .next e ∧ ∃ did d, e.drove did = some d ∧ d.ctx = ctx ∧ d.node = entry ∧ d.idx = n.placed ∧
          d.train = some train ∧ d.alive = r.teams ∧ d.teams.length = r.teams) ∧
     (∀ r s', x.recd = some r → nodeDone x = true → ctxActive s ctx = true → storeCompletion s ctx entry x r = (s', false) →
        exec (.nodeCompletion ctx entry) s = .next s') ∧
     (∀ r, x.recd = some r → nodeDone x = true → ctxActive s ctx = true → r.cwva = 0 → r.succ = [] →
        ∃ e, exec (.nodeCompletion ctx entry) s = .next e ∧ node e (fun y => y = { Node.idle with p := x.p }) ∧ e.mem = s.mem ∧
          e.host.interrupts = (if r.intr then s.host.interrupts ++ [ctx] else s.host.interrupts)) ∧
     (∀ t, s.team tid = some t → mayRetire s tid t = true →
        ∃ e, exec (.teamRetire tid) s = .next e ∧ e.team tid = none ∧
          ∀ d, s.drove t.drove = some d → d.alive = 1 → t.sysLines = [] → e.drove t.drove = none))

/-- R279, R288, R305, R361, R362: the switch to the scheduled context when none runs, an eviction, and the arms of a
switch between members: the CTXSW that waits has 0 when the last acknowledgement is in, 2 when a member does not hold the
context (which acknowledgement says so is log 96), 4 when the arm is withdrawn or times out. How time advances is log 14. -/
def Obligations.SwitchesAndEviction : Prop :=
  ∀ (s : State) (part ctx drove port : Nat) (p : Partition) (d : Drove) (c : Context) (a : SwitchArm) (g : ArmedSwitch),
    s.part part = some p →
    (let setParts (p' : Partition) : State := { s with parts := Store.insert s.parts part p' }
     (∀ p', switchTarget p s.clk.gtime.toNat = some (some ctx, p') → runningCtx s part = none → mayRun s part ctx = true →
        exec (.gangSwitch part) s = .next (startContext (stopHaltedBanks (setParts p') part ctx) ctx)) ∧
     (∀ p' old, switchTarget p s.clk.gtime.toNat = some (some ctx, p') → runningCtx s part = some old → old ≠ ctx →
        mayRun s part ctx = true →
        exec (.gangSwitch part) s = .next (startContext (stopHaltedBanks (stopContext (setParts p') old) part ctx) ctx)) ∧
     (∀ p', switchTarget p s.clk.gtime.toNat = some (some ctx, p') → runningCtx s part = some ctx → mayRun s part ctx = true →
        exec (.gangSwitch part) s = .next (setParts p')) ∧
     (∀ s' c', s.drove drove = some d → s.ctx d.ctx = some c → ctxActive s d.ctx = true → c.requeue ≠ [] →
        tryRequeued s d.ctx c.requeue = none → evictable s d.ctx = [(drove, d)] →
        tryRequeued (evictDrove s drove) d.ctx c.requeue = some s' → s'.ctx d.ctx = some c' →
        ∃ e y, exec (.droveEviction drove) s = .next e ∧ e.ctx d.ctx = some y ∧ y.requeue = c'.requeue ++ [drove]) ∧
     (a.part = part → port ∉ p.ports → exec (.switchArmReceived ⟨port, a⟩) s =
        .next { s with mgmt := { s.mgmt with portdrop := s.mgmt.portdrop + 1 } }) ∧
     (a.part = part → port ∈ p.ports → a.withdraw = true →
        ∃ e q, exec (.switchArmReceived ⟨port, a⟩) s = .next e ∧ e.part part = some q ∧ q.armed = none ∧ e.outbox = s.outbox ∧
          ∀ tid uid dst t, p.armed = some g → g.split = some (tid, uid, dst) → s.team tid = some t →
            ∃ u, e.team tid = some u ∧ u.s dst.toNat = (if dst = 0 then 0 else 4)) ∧
     (a.part = part → port ∈ p.ports → a.withdraw = false → inPartition s a.ctx part = false →
        exec (.switchArmReceived ⟨port, a⟩) s =
          .next (s.send part a.sender a.ctx switchUnit switchUnit (.armAck part a.sender false))) ∧
     (a.part = part → port ∈ p.ports → a.withdraw = false → inPartition s a.ctx part = true → p.armed = none →
        exec (.switchArmReceived ⟨port, a⟩) s = .next (({ s with
          parts := Store.insert s.parts part { p with armed := some ⟨a.ctx, a.time.toNat, [], none, s.clk.gtime⟩ } } : State).send
            part a.sender a.ctx switchUnit switchUnit (.armAck part a.sender true))) ∧
     (∀ tid uid dst t x m, p.armed = some g → g.waiting = [m] → g.split = some (tid, uid, dst) → s.team tid = some t →
        t.split uid = some x →
        (port ∈ p.ports → ∃ e u q, exec (.switchArmAcknowledgement part ⟨port, m, false⟩) s = .next e ∧ e.team tid = some u ∧
           u.s dst.toNat = (if dst = 0 then 0 else 2) ∧ e.part part = some q ∧ q.armed = none) ∧
        (port ∈ p.ports → ∃ e u y, exec (.switchArmAcknowledgement part ⟨port, m, true⟩) s = .next e ∧ e.team tid = some u ∧
           u.s dst.toNat = 0 ∧ u.split uid = some y ∧ y.waits = x.waits.filter (· != .firmware dst) ∧
           (∃ q w, e.part part = some q ∧ q.armed = some w ∧ w.waiting = [])) ∧
        (g.at_.toNat + 1000000 ≤ s.clk.gtime.toNat →
           ∃ e u q, exec (.switchArmTimeout part) s = .next e ∧ e.team tid = some u ∧ u.s dst.toNat = (if dst = 0 then 0 else 4) ∧
             e.part part = some q ∧ q.armed = none)))

-- ## events: coaches and memory

/-- R56, R105 to R118, R121 to R123, R159, R284 to R287, R296: the issue slot's choice, after the spilled splits that are due
have come back; restoring a spilled split; demotions; clearing and filling register lines; an acquire that is granted; and the
landing of a long-latency write, whose value another member may send, for every lane that names its address (R380); a posted
update at another member is over when its acknowledgement comes (R308). The landing as a step of its own is log 7; which split
comes back and which one gives its entry up is log 94. -/
def Obligations.CoachEvents : Prop :=
  ∀ (s : State) (slot tid sp coach line idx lane port : Nat) (ext : BitVec 128) (t : Team) (x : Split), s.team tid = some t →
    ((∀ k y u, s.clk.stopped = false → chooseTeam (restoreDue s slot) slot = some (k, y, u) →
        exec (.issueOpportunity slot) s = .next { wake (restoreDue s slot) k u with cur := .split k u.uid }) ∧
     (∀ v, (enterHandler s tid sp ⟨.ckptAdvise, t.advisory, 0⟩).team tid = some v →
        ∃ w, (takeEvent s tid sp).team tid = some w ∧ w.events = v.events &&& 0xFFFFFFFE ∧ w.advisory = 0 ∧
          w.tcause = v.tcause ∧ w.tpc = v.tpc) ∧
     (s.clk.stopped = false → chooseTeam (restoreDue s slot) slot = none →
        exec (.issueOpportunity slot) s = .next (idleSlot (restoreDue s slot) slot)) ∧
     (let t' := noteReady s tid t
      let s' := s.setTeam tid t'
      ∀ y, restoreNext t' = some y →
        (y.uid ≠ sp → exec (.splitRestore tid sp) s = .next s') ∧
        (y.uid = sp → t'.split sp = some y → y.onChip = false → splitReady s' tid t' y = true →
           (∀ n, freeEntry t'.splits = some n →
              ∃ e u, exec (.splitRestore tid sp) s = .next e ∧ e.team tid = some u ∧ u.split sp = some (y.placed (some n) t.issues) ∧
                e.mem = s.mem) ∧
           (∀ v, freeEntry t'.splits = none → restoreVictim s' tid t' = some v → v.uid ≠ sp →
              ∃ e u z, exec (.splitRestore tid sp) s = .next e ∧ e.team tid = some u ∧
                u.split sp = some (y.placed v.entry t.issues) ∧
                (t'.split v.uid = some v → u.split v.uid = some z ∧ z.onChip = false ∧ z.passed = 0) ∧ e.mem = s.mem))) ∧
     (∀ w, t.split sp = some x → x.spin = some w → 32 ≤ w.count → x.demoted = none →
        ∃ e u, exec (.spinDemotion tid sp) s = .next e ∧ e.team tid = some u ∧ u.split sp =
          some { x with demoted := some ⟨s.clk.cycle.toNat, w.target, w.branch⟩, spin := some { w with lapsed := false } }) ∧
     (∀ d, t.split sp = some x → x.demoted = some d →
        (d.since + 4096 ≤ s.clk.cycle.toNat →
          ∃ e u y, exec (.demotionEnd tid sp) s = .next e ∧ e.team tid = some u ∧ u.split sp = some y ∧ y.demoted = none ∧
            (∀ w, y.spin = some w → w.count = 0) ∧ y.dueAt = (if 7 ≤ x.passed then t.issues else x.dueAt)) ∧
        (s.clk.cycle.toNat < d.since + 4096 → exec (.demotionEnd tid sp) s = .next s)) ∧
     (∀ k rest, s.coaches.find? (fun e => e.2.clears.head? == some tid) = some (coach, k) → s.coach coach = k →
        k.clears = tid :: rest → tid ∉ rest → t.clearing = true → t.coach = coach →
        ∃ e, exec (.lineClearDone tid) s = .next e ∧ (e.coach coach).clears = rest ∧
          e.team tid = some { t with clearing := false, started := true, xblk := t.xblk ||| t.pend, pend := 0 }) ∧
     (∀ n u rest s', (s.coach coach).acquire = (tid, n, u) :: rest → ctxActive s t.ctx = true → t.running = true →
        n ≤ availableLines s coach → makeRoom coach n [] s = .ok s' → s'.team tid = some t →
        ∃ e v, exec (.xacqGrant coach) s = .next e ∧ (e.coach coach).acquire = rest ∧
          (e.coach coach).clears = (s'.coach coach).clears ++ [tid] ∧ e.team tid = some v ∧ v.clearing = true ∧
          v.lines.length = t.lines.length + (linesOfBlocks t t.pend).length ∧
          (∀ r L, L < 1024 → v.v r L = if r ∈ blockRegs t.pend then 0 else t.v r L)) ∧
     (∀ s' ws, ((s.ctx t.ctx).map (fun c => c.halt.isSome)).getD false = false →
        t.lines.any (fun l => l.line == line && l.st == .filling) = true →
        t.lines.any (fun l => l.line == line && l.st != .filling && l.dirty) = false →
        hwReadLines s t.ctx t.comp 32 (imageBase s t + 4096 * line) = .ok (s', ws) →
        ∃ e u, exec (.registerLineFill tid line) s = .next e ∧ e.team tid = some u ∧ e.mem = s'.mem ∧
          (∀ l, l ∈ u.lines → l.line = line → l.st = (if t.running then .held else .evictable))) ∧
     (∀ p vals, t.pending = [p] → idx = 0 → (lane, vals) ∈ p.lanes → (p.lanes.map (·.1)).Nodup → p.bk = false → t.running = true →
        (match p.dest with | .vec r n => (regGroup r n).any t.filling = false | .scal _ _ => t.frame ≠ .image | _ => True) →
        (let lands (L : List Nat) (vs : List Word) : Prop :=
           ∃ e u, exec (.longLatencyReturn tid idx lane ⟨port, ext⟩) s = .next e ∧ e.team tid = some u ∧ e.mem = s.mem ∧
             ((∀ y, y ∈ p.lanes → y.1 ∈ L) → u.pending = []) ∧
             (∀ r n, p.dest = .scal r n → ∀ k, k < n → r + k ≠ 0 → ∀ v, vs[k]? = some v → u.s (r + k) = v) ∧
             (∀ r n, p.dest = .vec r n → ∀ l, l ∈ L → l < 1024 → ∀ k, k < n → ∀ v, vs[k]? = some v → u.v (r + k) l = v)
         (p.remote = none → lands [lane] vals) ∧
         (∀ id r, p.remote = some id → s.remote.find? (fun y => some y.id == some id) = some r → r.dead = false →
           (s.ownsPort (s.partOf t.ctx) port = true →
             lands (p.lanes.map (·.1)) ((List.range (match p.dest with | .vec _ n => n | .scal _ n => n | .word _ => 1 | .ack => 0)).map
               (fun k => (ext >>> (32 * k)).setWidth 32))) ∧
           (s.ownsPort (s.partOf t.ctx) port = false → exec (.longLatencyReturn tid idx lane ⟨port, ext⟩) s =
             .next { s with mgmt := { s.mgmt with portdrop := s.mgmt.portdrop + 1 } })))) ∧
     (∀ q r, t.pending = [] → (s.posted.filter (fun p => p.tid == tid && p.remote))[idx]? = some q →
        s.remote.find? (fun y => y.id == q.id) = some r → r.dead = false →
        (s.ownsPort (s.partOf t.ctx) port = true → exec (.longLatencyReturn tid idx lane ⟨port, ext⟩) s =
          .next { s with remote := s.remote.filter (fun y => y.id != r.id), posted := s.posted.filter (fun p => p.id != q.id) }) ∧
        (s.ownsPort (s.partOf t.ctx) port = false → exec (.longLatencyReturn tid idx lane ⟨port, ext⟩) s =
          .next { s with mgmt := { s.mgmt with portdrop := s.mgmt.portdrop + 1 } })))

/-- R171, R172, R177, R186, R196, R197, R249, R301, R307, R321, R334: the memory manager's answer to a page fault, a walk, a
posted update at its place, registration, a forwarded read, a write-back, and a request of another member, which is answered,
refused and logged, kept while a page fault is resolved, or dropped on a foreign port. In the region of an ended sequence it maps
nothing. An answer of the memory manager that breaks a rule it keeps changes nothing (log 72). That TADDR of a page without a
mapping is that of the first team that waits for it, and that every team goes on when a page is serviced, is the model's choice
(log 62). -/
def Obligations.MemoryEvents : Prop :=
  ∀ (s : State) (ctx comp k coach : Nat) (va : DWord) (write : Bool) (n : BitVec 16) (r : RemoteReq)
      (port : Nat),
    (let asid := s.asid ctx
     let line := va.toNat / 128
     let i := wordIndex va.toNat
     (∀ s' t, translate s ctx comp va.toNat write = .ok (s', t) → exec (.translationWalk ctx comp va write) s = .next s') ∧
     (∀ c f, s.ctx ctx = some c → canonical va = true → inWindow va = false →
        (inEndedRegion s ctx va.toNat = false →
           (∀ m, applyFix s f = some m → exec (.pageFaultService ctx va (some f)) s =
              .next ((m.ctxs.map (·.1)).foldl retryRecords (resumeCtx m ctx))) ∧
           (applyFix s f = none → exec (.pageFaultService ctx va (some f)) s = .next s)) ∧
        (inEndedRegion s ctx va.toNat = true →
           exec (.pageFaultService ctx va (some f)) s = exec (.pageFaultService ctx va none) s)) ∧
     (∀ c t, s.ctx ctx = some c → canonical va = true → inWindow va = false → rawTrans s ctx va.toNat = some t →
        ∃ e, exec (.pageFaultService ctx va none) s = .next e ∧ e.mem = s.mem ∧
          ∀ tid u, e.team tid = some u → u.ctx = ctx → u.sys = false → u.parked = false ∧ u.fault = none) ∧
     (∀ c tid t f, s.ctx ctx = some c → c.halt = none → s.inbound = [] → canonical va = true → inWindow va = false →
        rawTrans s ctx va.toNat = none → s.team tid = some t → t.fault = some f →
        s.teams.find? (fun e => e.2.ctx == ctx && !e.2.sys && stalledOn s ctx (va.toNat / 65536) (e.2.fault.map (·.2))) = some (tid, t) →
        ∃ e y h, exec (.pageFaultService ctx va none) s = .next e ∧ e.ctx ctx = some y ∧ y.halt = some h ∧ y.running = false ∧
          h.h.cause = (if inEndedRegion s ctx va.toNat then .keyEnded else .pageNotPresent) ∧ h.h.taddr = f.2 ∧ e.mem = s.mem) ∧
     (∀ p, postedAt s k = some p → postedAtNmu s p = false → ∀ a pol l1 s' v, route s p.ctx p.va p.pol = .here a pol l1 →
        perform s ⟨p.ctx, p.comp, if l1 then p.coach else noCoach⟩ a (etMemWidth p.et) pol (.atomic p.op p.x 0) p.et p.ftz = .ok (s', v) →
        ∃ e, exec (.placeOfEffectAccess k) s = .next e ∧ exec (.nmuUpdate k) s = .next s ∧ e.mem = s'.mem ∧ e.l2 = s'.l2 ∧
          e.posted = s'.posted.filter (·.id != p.id)) ∧
     (∀ p, postedAt s k = some p → postedAtNmu s p = true → ∀ a pol l1 s' v, route s p.ctx p.va p.pol = .here a pol l1 →
        perform s ⟨p.ctx, p.comp, if l1 then p.coach else noCoach⟩ a (etMemWidth p.et) pol (.atomic p.op p.x 0) p.et p.ftz = .ok (s', v) →
        ∃ e, exec (.nmuUpdate k) s = .next e ∧ exec (.placeOfEffectAccess k) s = .next s ∧ e.mem = s'.mem ∧
          e.posted = s'.posted.filter (·.id != p.id)) ∧
     (∀ p o, postedAt s k = some p → route s p.ctx p.va p.pol = .away o →
        exec (.placeOfEffectAccess k) s = .next s ∧ exec (.nmuUpdate k) s = .next s) ∧
     (∀ s', canonical va = true → inWindow va = false →
        s.teams.any (fun e => e.2.coach == coach && e.2.ctx == ctx && !e.2.sys) = true →
        homeLine s ctx (compOf s ctx va.toNat) va.toNat true = .ok (s', none) →
        exec (.ownRegistration coach ctx va) s = .next (registerWord s' ctx coach (s'.asid ctx) line i)) ∧
     (∀ l d m v, l2Find s asid line = some l → l.st.getD i (.u 0) = .o d m → d ≠ coach → placeWord s asid line i = .ok v →
        s.teams.any (fun e => e.2.coach == coach && e.2.ctx == ctx && e.2.comp == l.cmp && !e.2.sys) = true →
        exec (.forwardedRead coach ctx va) s = .next (keepCopy s coach asid line i v)) ∧
     (∀ l v d, l1Word s coach asid line i = .reg v n d → l2Find s asid line = some l → l.st.length = 32 → l.data.length = 32 →
        l.st.getD i (.u 0) = .o coach n →
        ∃ e l', exec (.registeredWriteback coach ctx va n) s = .next e ∧ l2Find e asid line = some l' ∧ l'.st.getD i (.u 0) = .u n ∧
          l'.data.getD i 0 = (if d then v else l.data.getD i 0) ∧ isReg (l1Word e coach asid line i) = false ∧ e.mem = s.mem) ∧
     (∀ l m, l1Word s coach asid line i = .none → l2Find s asid line = some l → l.st.getD i (.u 0) = .u m →
        exec (.registeredWriteback coach ctx va n) s = .next { s with mgmt := { s.mgmt with stalewb := s.mgmt.stalewb + 1 } }) ∧
     (l1Word s coach asid line i = .none → l2Find s asid line = none →
        exec (.registeredWriteback coach ctx va n) s = .next { s with mgmt := { s.mgmt with stalewb := s.mgmt.stalewb + 1 } }) ∧
     (∀ c, s.ctx r.ctx = some c → c.halt = none → s.ownsPort c.part port = true →
        (∀ s' v, inboundAccess s r = .ok (s', v) → exec (.remoteRequest ⟨port, r⟩) s =
           .next (answerRemote { s' with inbound := s'.inbound.filter (· != r) } r (.reply r.id r.initiator v))) ∧
        (∀ q, inboundAccess s r = .error q → causeParks q = false → ∃ e, exec (.remoteRequest ⟨port, r⟩) s = .next e ∧
           e.outbox = (answerRemote s r (.fault r.id r.initiator (BitVec.ofNat 64 (inboundVa s r)) q)).outbox ∧ e.mem = s.mem ∧
           e.mgmt.log = s.mgmt.log ++ [(r.ctx, BitVec.ofNat 64 (inboundVa s r), r.initiator, some q)]) ∧
        (∀ q, inboundAccess s r = .error q → causeParks q = true → exec (.remoteRequest ⟨port, r⟩) s =
           .next { s with inbound := if s.inbound.contains r then s.inbound else s.inbound ++ [r] })) ∧
     (s.ownsPort (s.partOf r.ctx) port = false →
        exec (.remoteRequest ⟨port, r⟩) s = .next { s with mgmt := { s.mgmt with portdrop := s.mgmt.portdrop + 1 } }))

-- ## events: engines and tenancy

/-- R163, R213, R215 to R218, R221, R252, R257 to R259, R268, R269, R315, R334: a dray's chunk, after the checks of a gate; a
tensor core's fetch, which pins the line until the share has consumed it, and its steps; and the chunks of a collective: the
expected number is taken and acknowledged, one before it acknowledged again, one after it refused, by 32-bit serial order
(log 82); a frozen context's chunk goes to its receive region, until 5 microseconds after the freeze. The numbering of a link's
chunks is log 21; when a share's rows of B are there for each of its two steps is log 40. -/
def Obligations.EngineEvents : Prop :=
  ∀ (s : State) (dray q coach ctx peer port : Nat) (n : Word) (ch : Chunk) (c : CopyCmd) (h : Share) (x : Context),
    (let total := blkTotal c.fn c.blk
     let upto := min total ((c.off / 4096 + 1) * 4096)
     let s0 : State := { s with drays := Store.insert s.drays dray { s.dray dray with turn := (q + 1) % 16 } }
     let l := linkOf s ctx peer
     let dropped : State := { s with mgmt := { s.mgmt with portdrop := s.mgmt.portdrop + 1 } }
     (drayTurn s (s.dray dray) = some q → queueCommand s ((s.dray dray).queue q) = some c →
        (∀ s' b stop, gateStop s0 c = none → c.fn ≠ .digest → cmdWords c ((upto - c.off) / 4) s0 c.off = (s', b, stop) →
          exec (.drayChunk dray q) s = .next (endChunk s' dray q c { c with started := true, off := b } stop (b == total))) ∧
        (∀ s' m e, gateStop s0 c = none → c.fn = .digest → c.off ≠ total + 32 →
          digestBytes c (min total ((c.msg.length / 4096 + 1) * 4096) - c.msg.length) s0 c.msg = (s', m, none) → m.length = total →
          writeDigest s' c m = .ok e →
          exec (.drayChunk dray q) s = .next (endChunk e dray q c { c with started := true, msg := m, off := total + 32 } none true)) ∧
        (∀ k i va, gateStop s0 c = some (.halt k i va) → s.ctx c.ctx = some x → x.halt = none →
          ∃ e y r, exec (.drayChunk dray q) s = .next e ∧ e.ctx c.ctx = some y ∧ y.halt = some r ∧ r.h.cause = k ∧ r.h.origin = 2 ∧
            r.h.unit = dray ∧ r.h.taddr = va ∧ e.mem = s.mem) ∧
        (∀ va, c.started = false → c.fn = .gate → gateFails s0 c = some va → ∃ i, gateStop s0 c = some (.halt .gate i va))) ∧
     (∀ ag s', (s.coach coach).tensor = [h] → shareActive s h = true → h.stalled = none → h.fetched < (shareLines h.mm).length →
        shareAgent s h = some ag →
        (let line := (shareLines h.mm).getD h.fetched 0
         fetchOperandLine s ag line = .ok s' → (s'.coach coach).tensor = [h] → tileWays s' (s.asid ag.ctx) line < 2 →
         ∃ e, exec (.tileFetchLine coach) s = .next e ∧
           (e.coach coach).tensor = [{ h with fetched := h.fetched + 1, pins := h.pins ++ [line] }] ∧ e.mem = s'.mem ∧
           (∀ y, l2Find s' (s.asid ag.ctx) line = some y →
             l2Find e (s.asid ag.ctx) line = some { y with tile := y.tile + 1 }))) ∧
     (∀ ag s' line ws, (s.coach coach).tensor = [h] → shareActive s h = true → h.stalled = none → shareAgent s h = some ag →
        h.pins = [line] → h.fetched < (shareLines h.mm).length → consumeLine s ag line = .ok (s', ws) → (s'.coach coach).tensor = [h] →
        ∃ e, exec (.tensorStep coach) s = .next e ∧ e.mem = s'.mem ∧
          (e.coach coach).tensor = [{ h with pins := [], eaten := h.eaten ++ [(line, ws)] }] ∧
          (∀ y, l2Find s' (s'.asid ag.ctx) line = some y →
            l2Find e (s'.asid ag.ctx) line = some { y with tile := y.tile - 1 })) ∧
     (∀ ag as bs t, (s.coach coach).tensor = [h] → shareActive s h = true → h.stalled = none → shareAgent s h = some ag →
        h.pins = [] → (shareLines h.mm).length ≤ h.fetched → stepRows h = .ok (as, bs) →
        s.team h.tid = some t → (regGroup h.mm.d (shapeAcc h.mm.shape)).any t.filling = false →
        (let rows (u : Team) : Prop := u.vregs = (stepAccumulators t h.mm (64 * h.steps) as bs).vregs ∧ u.scalars = t.scalars
         (h.steps = 0 → ∃ e u, exec (.tensorStep coach) s = .next e ∧ e.team h.tid = some u ∧ e.mem = s.mem ∧ rows u ∧
            (e.coach coach).tensor = [{ h with steps := 1 }]) ∧
         (h.steps = 1 → (∀ k v, (k, v) ∈ s.teams → v.latch = none) →
            ∃ e u, exec (.tensorStep coach) s = .next e ∧ e.team h.tid = some u ∧ e.mem = s.mem ∧ rows u ∧ (e.coach coach).tensor = [] ∧
              u.openMM = (leaveBatch t h.batch).openMM ∧ u.batches = (leaveBatch t h.batch).batches))) ∧
     (s.ctx ctx = some x → s.ownsPort x.part port = true →
        (let taken := setLink s { l with expect := l.expect + 1 }
         let back (e : State) (f : Flit) : State := e.send x.part peer ctx (tandemUnit 0) (tandemUnit 0) f
         let refused := back s (.nack ctx peer l.expect)
         (ch.seq ≠ l.expect → (l.expect - ch.seq).toNat < 2 ^ 31 →
            exec (.collChunkReceive ctx peer ⟨port, ch⟩) s = .next (back s (.ack ctx peer ch.seq))) ∧
         (ch.seq ≠ l.expect → 2 ^ 31 ≤ (l.expect - ch.seq).toNat → exec (.collChunkReceive ctx peer ⟨port, ch⟩) s = .next refused) ∧
         (ch.seq = l.expect → ctxActive s ctx = true → exec (.collChunkReceive ctx peer ⟨port, ch⟩) s =
            .next (applyStored (applyChunk (back taken (.ack ctx peer ch.seq)) ctx peer ch) ctx)) ∧
         (∀ e t, ch.seq = l.expect → ctxActive s ctx = false → x.rxOpen = some t → s.clk.gtime < t + 5000 →
            storeChunk taken ctx peer ch = some e →
            exec (.collChunkReceive ctx peer ⟨port, ch⟩) s = .next (answerPeer e ctx peer (.ack ctx peer ch.seq))) ∧
         (ch.seq = l.expect → ctxActive s ctx = false → (x.rxOpen = none ∨ (∃ t, x.rxOpen = some t ∧ t + 5000 ≤ s.clk.gtime) ∨
            storeChunk taken ctx peer ch = none) →
            exec (.collChunkReceive ctx peer ⟨port, ch⟩) s = .next refused)) ∧
        (∃ e, exec (.collAck ctx peer ⟨port, n⟩) s = .next e ∧ (linkOf e ctx peer).kept = l.kept.filter (fun y => y.seq != n) ∧
          (linkOf e ctx peer).next = l.next ∧ (linkOf e ctx peer).expect = l.expect ∧ e.mem = s.mem) ∧
        (ctxActive s ctx = true → exec (.collNack ctx peer ⟨port, n⟩) s =
          .next ((l.kept.filter (fun y => !seqBefore y.seq n)).foldl (fun e y =>
            sendChunk e ctx peer (((collOf e ctx y.coll).map (·.die)).getD 0) y) s)) ∧
        (ctxActive s ctx = false → exec (.collNack ctx peer ⟨port, n⟩) s = .next s)) ∧
     (s.ctx ctx = some x → s.ownsPort x.part port = false → exec (.collChunkReceive ctx peer ⟨port, ch⟩) s = .next dropped ∧
        exec (.collAck ctx peer ⟨port, n⟩) s = .next dropped ∧ exec (.collNack ctx peer ⟨port, n⟩) s = .next dropped) ∧
     (∀ t, s.ctx ctx = some x → x.rxOpen = some t →
        (t + 5000 ≤ s.clk.gtime → exec (.rxRegionExpiry ctx) s = .next (s.modCtx ctx (fun y => { y with rxOpen := none }))) ∧
        (s.clk.gtime < t + 5000 → exec (.rxRegionExpiry ctx) s = .next s)) ∧
     (∀ k s' bs, ctxActive s ctx = true → peer < ctxMembers s ctx →
        (let s1 := finishReady (applyStored s ctx) ctx
         collToSend s1 ctx peer = some k →
         (peer ≠ ctxMember s1 ctx →
            collRead s1 k ((sendSpan k peer).1 + sentTo k peer) (min 65536 (k.desc.len - sentTo k peer)) = .ok (s', bs) →
            (let l' := linkOf s' ctx peer
             let c' : Chunk := ⟨l'.next, k.k, k.desc, sentTo k peer, bs⟩
             exec (.collChunkSend ctx peer) s = .next (finishColl (sendChunk (putColl (setLink s' { l' with
                 next := l'.next + 1, kept := l'.kept ++ [c'] })
               k { k with sent := Store.insert k.sent peer (sentTo k peer + min 65536 (k.desc.len - sentTo k peer)) })
               ctx peer k.die c') ctx k.k))) ∧
         (peer = ctxMember s1 ctx →
            collRead s1 k ((sendSpan k peer).1 + (gotFrom k peer).length) (min 65536 (k.desc.len - (gotFrom k peer).length)) = .ok (s', bs) →
            exec (.collChunkSend ctx peer) s = .next (finishColl
              (putColl s' k { k with got := Store.insert k.got peer (gotFrom k peer ++ bs) }) ctx k.k)))))

/-- R200, R289, R299, R311 to R313, R319, R321, R324 to R327: lending and reclaiming a train, whose words are drained first;
sequences; the sweep of a rotation; scrubbing, which waits for the other jobs of the base dies, as a move waits for it (log 84); moving a block of a harvested page,
laid out as its leaf says, within the device, to another and from another; slices; and making and ending a context, which is made when it is legal and its page tables break no rule of the
memory manager's (log 72). Seals are the key set a block was written under (log 9); the order of a sweep is log 22. -/
def Obligations.TenancyEvents : Prop :=
  ∀ (s : State) (train part lender tid sp slot engine slice ctx : Nat) (p : Partition) (c : Context) (t : Team) (x : Split),
    ((trainOwner s train = some lender → s.part part = some p → lender ≠ part → trainBorrower s train = none →
        trainOpen s train = true → s.droves.any (fun e => e.2.train == some train) = false → p.borrowed.length < p.borrowLimit →
        ∃ e q, exec (.trainLend train part) s = .next e ∧ e.part part = some q ∧ q.borrowed = p.borrowed ++ [train] ∧ e.mem = s.mem ∧
          (∀ l, l ∈ e.l1 → l.coach / 8 ≠ train)) ∧
     (∀ f, trainOwner s train = some lender → trainBorrower s train = some part → s.reclaims.any (·.train == train) = false →
        borrowedDroves s part train = [] → exec (.trainReclaim train f) s =
          .next { s with reclaims := s.reclaims ++ [⟨train, lender, part, s.clk.cycle.toNat, f⟩] }) ∧
     (∀ r, s.reclaims.find? (·.train == train) = some r → r.force = true →
        (r.start + 190000 ≤ s.clk.cycle.toNat → ∃ e, exec (.reclaimDeadline train) s = .next e ∧
           (∀ l w, l ∈ e.l2 → w ∈ l.st → ∀ k n, k / 8 = train → w ≠ .o k n) ∧ e.mem = s.mem) ∧
        (s.clk.cycle.toNat < r.start + 190000 → exec (.reclaimDeadline train) s = .next s)) ∧
     (∀ r s', s.reclaims.find? (·.train == train) = some r → borrowedDroves s r.borrower train = [] →
        (drainFrames s r.borrower train).bind (fun e => drainLines e r.borrower train) = some s' → s'.part r.borrower = some p →
        ∃ e q, exec (.reclaimDrainDone train) s = .next e ∧ e.part r.borrower = some q ∧
          q.borrowed = p.borrowed.filter (· != train) ∧ e.reclaims.all (·.train != train) = true ∧
          (∀ l, l ∈ e.l1 → l.coach / 8 ≠ train)) ∧
     (∀ d base n, s.team tid = some t → t.split sp = some x → x.waits = [.seqopen d base n] → s.ctx t.ctx = some c →
        c.seqs.any (fun q => q.ended && seqMeets q base (65536 * n) && stillEnding s t.ctx q) = false →
        (let v := (seqopenAnswer s t.ctx t.comp base n c).2
         ∃ e u y, exec (.seqopenService tid sp) s = .next e ∧ e.team tid = some u ∧ u.split sp = some y ∧
           (t.running = true → y.waits = [] ∧ u.s d.toNat = (if d = 0 then 0 else v)) ∧
           (t.running = false → y.waits = [.answer d.toNat v] ∧ u.scalars = t.scalars))) ∧
     (∀ h q, s.team tid = some t → t.split sp = some x → x.waits = [.seqend h] → s.ctx t.ctx = some c →
        c.seqs.find? (fun q => q.handle == h && !q.ended) = some q →
        s.locks.any (fun l => l.ctx == t.ctx && l.spad.isNone && seqMeets q l.lo l.len) = false → t.running = true →
        ∃ e u y, exec (.seqendEndInstant tid sp) s = .next e ∧ (e.key q.slot).st = .ended ∧ e.team tid = some u ∧
          u.split sp = some y ∧ y.waits = [] ∧ e.mem = s.mem) ∧
     ((s.key slot).st = .ended → ∃ e, exec (.keySlotFree slot) s = .next e ∧ (e.key slot).st = .free) ∧
     (∀ b, (s.key slot).st = .rotating → engine ∈ (s.key slot).sweep →
        s.seals.find? (fun e => e.2 == (s.key slot).old && sweepUnit s (s.key slot).ctx e.1 == engine) = some b → (s.key slot).keys ≠ 0 →
        ∃ e, exec (.reencryptBlock slot engine) s = .next e ∧ Store.get 0 e.seals b.1 = (s.key slot).keys ∧ e.mem = s.mem) ∧
     ((s.key slot).st = .rotating → (s.key slot).sweep = [engine] →
        s.seals.find? (fun e => e.2 == (s.key slot).old && sweepUnit s (s.key slot).ctx e.1 == engine) = none →
        exec (.reencryptBlock slot engine) s = .next (s.setKey slot { s.key slot with st := .live, old := 0, sweep := [] })) ∧
     (∀ row, s.slice slice = .scrubbing row → scrubWaits s slice = true → exec (.scrubRow slice) s = .next s) ∧
     (∀ row, s.slice slice = .scrubbing row → scrubWaits s slice = false → row + 1 < 2 ^ 22 → ∃ e, exec (.scrubRow slice) s = .next e ∧
        e.slice slice = .scrubbing (row + 1) ∧
        ∀ st i, st < 16 → i < 1024 → Store.get 0 e.mem (hbmKey st (slice * 2 ^ 32 + row * 1024) + i) = 0) ∧
     (s.part part = some p → slice < 16 → s.slice slice = .free → ∃ e q, exec (.sliceAssignment slice part) s = .next e ∧
        e.slice slice = .assigned part ∧ e.part part = some q ∧ q.slices = p.slices ++ [slice]) ∧
     (∀ j, s.slice slice = .assigned part → s.part part = some p → j ∈ p.slices → j ≠ slice → s.slice j = .assigned part →
        ∃ e, exec (.sliceDrainStart slice) s = .next e ∧ e.slice slice = .draining part ∧ e.mem = s.mem) ∧
     (∀ m : Migration, ((s.key m.slot).st = .live ∨ (s.key m.slot).st = .rotating) → sweepBusy s = false →
        (let k := s.key m.slot
         let owner := s.partOf k.ctx
         let s1 (a : Nat) := settleBlock s a
         let s2 (a page : Nat) : State := { s1 a with
           moving := if (s1 a).moving.contains (k.ctx, page) then (s1 a).moving else (s1 a).moving ++ [(k.ctx, page)] }
         (∀ a, m.src = some a → movingPage s k.ctx m.slot a = none → exec (.migrationBlockMove m) s = .next s) ∧
         (∀ a page linear, m.src = some a → movingPage s k.ctx m.slot a = some (page, linear) → scrubBusy s = true →
           s.moving.contains (k.ctx, page) = false → exec (.migrationBlockMove m) s = .next s) ∧
         (∀ a page linear data, m.src = some a → movingPage s k.ctx m.slot a = some (page, linear) →
           (scrubBusy s = false ∨ s.moving.contains (k.ctx, page) = true) → readBlock (s2 a page) k linear a = .ok data →
           (∀ b, m.dst = some b → exec (.migrationBlockMove m) s =
              .next (if blockOpen (s2 a page) owner b then writeBlock (s2 a page) k linear b data else s2 a page)) ∧
           (m.dst = none → transferOpen (s2 a page) owner m = true → exec (.migrationBlockMove m) s =
              .next ((s2 a page).send owner m.peer k.ctx (sliceUnit 0) (sliceUnit 0) (.block a data)))) ∧
         (∀ b, m.src = none → m.dst = some b → s.ownsPort owner m.port = true → transferOpen s owner m = true → blockOpen s owner b = true →
           scrubBusy s = false → exec (.migrationBlockMove m) s = .next (writeBlock s k m.linear b m.data)))) ∧
     (∀ spec : CtxSpec, creationLegal s spec = false → exec (.contextCreation spec) s = .next s) ∧
     (∀ (spec : CtxSpec) (made : State), creationLegal s spec = true → applyFix (newContext s spec) ⟨spec.ptes⟩ = some made →
        ∃ e y, exec (.contextCreation spec) s = .next e ∧ e.ctx spec.record.ctxid = some y ∧ y.running = false ∧ y.halt = none ∧
          y.nodes = [] ∧ y.slots.length = spec.nc ∧ (∀ k, k ∈ y.slots → (e.key k).st = .live)) ∧
     (s.ctx ctx = some c → c.running = false → (∀ g, c.halt = some g → g.finished = true) → ctx < 16 →
        ∃ e, exec (.contextDestruction ctx) s = .next e ∧ e.ctx ctx = none ∧ (∀ k, k ∈ c.slots → (e.key k).st = .free) ∧
          (∀ l, l ∈ e.l2 → l.asid ≠ c.spec.asid) ∧ (∀ k u, (k, u) ∈ e.teams → u.ctx = ctx → u.sys = true)))
end

