-- ==== Sys2Proof/Laws/Store.lean ====
section
/-! SUPPORT. The laws of the sparse lists: read after write, and that every operation keeps the canonical form. -/
namespace Sys2Proof.Store

variable {α : Type}

@[simp] theorem get_nil (d : α) (q : Nat) : get d [] q = d := rfl
@[simp] theorem find_nil (q : Nat) : find ([] : List (Nat × α)) q = none := rfl

theorem get_eq_find (d : α) (m : List (Nat × α)) (q : Nat) : get d m q = (find m q).getD d := by
  induction m with
  | nil => rfl
  | cons e r ih => obtain ⟨k, v⟩ := e; by_cases h : k = q <;> simp [get, find, h, ih]

@[simp] theorem find_insert_self (m : List (Nat × α)) (q : Nat) (w : α) : find (insert m q w) q = some w := by
  induction m with
  | nil => simp [insert, find]
  | cons e r ih =>
    obtain ⟨k, v⟩ := e
    unfold insert
    split
    · simp [find]
    · split
      · simp [find]
      · next h1 h2 => simp [find, ih, Ne.symm h2]

theorem find_insert_ne (m : List (Nat × α)) {q k : Nat} (w : α) (h : k ≠ q) : find (insert m q w) k = find m k := by
  induction m with
  | nil => simp [insert, find, Ne.symm h]
  | cons e r ih =>
    obtain ⟨j, v⟩ := e
    unfold insert
    split
    · simp [find, Ne.symm h]
    · split
      · next h2 => subst h2; simp [find, Ne.symm h]
      · simp [find, ih]

@[simp] theorem find_erase_self (m : List (Nat × α)) (q : Nat) : find (erase m q) q = none := by
  induction m with
  | nil => rfl
  | cons e r ih => obtain ⟨k, v⟩ := e; by_cases h : k = q <;> simp [erase, find, h, ih]

theorem find_erase_ne (m : List (Nat × α)) {q k : Nat} (h : k ≠ q) : find (erase m q) k = find m k := by
  induction m with
  | nil => rfl
  | cons e r ih =>
    obtain ⟨j, v⟩ := e
    by_cases h1 : j = q
    · subst h1; simp [erase, find, Ne.symm h, ih]
    · simp [erase, find, h1, ih]

/-- A read after a write to the same key gives the value written. -/
@[simp] theorem get_put_self [DecidableEq α] (d : α) (m : List (Nat × α)) (q : Nat) (w : α) : get d (put d m q w) q = w := by
  unfold put
  split
  · next h => simp [get_eq_find, h]
  · simp [get_eq_find]

/-- A write leaves every other key alone. -/
theorem get_put_ne [DecidableEq α] (d : α) (m : List (Nat × α)) {q k : Nat} (w : α) (h : k ≠ q) :
    get d (put d m q w) k = get d m k := by
  unfold put
  split
  · simp [get_eq_find, find_erase_ne m h]
  · simp [get_eq_find, find_insert_ne m w h]

theorem get_put [DecidableEq α] (d : α) (m : List (Nat × α)) (q k : Nat) (w : α) :
    get d (put d m q w) k = if k = q then w else get d m k := by
  by_cases h : k = q
  · subst h; simp
  · simp [h, get_put_ne d m w h]

theorem mem_erase {m : List (Nat × α)} {q : Nat} {e : Nat × α} : e ∈ erase m q ↔ e ∈ m ∧ e.1 ≠ q := by
  induction m with
  | nil => simp [erase]
  | cons x r ih =>
    obtain ⟨k, v⟩ := x
    by_cases h : k = q
    · subst h
      simp only [erase, if_true, ih, List.mem_cons]
      constructor
      · rintro ⟨h1, h2⟩; exact ⟨.inr h1, h2⟩
      · rintro ⟨h1 | h1, h2⟩
        · exact absurd (by rw [h1]) h2
        · exact ⟨h1, h2⟩
    · simp only [erase, h, if_false, List.mem_cons, ih]
      constructor
      · rintro (h1 | ⟨h1, h2⟩)
        · exact ⟨.inl h1, by rw [h1]; exact h⟩
        · exact ⟨.inr h1, h2⟩
      · rintro ⟨h1 | h1, h2⟩
        · exact .inl h1
        · exact .inr ⟨h1, h2⟩

section Canonical
variable [DecidableEq α] {d : α}

@[simp] theorem wf_nil : wf d ([] : List (Nat × α)) = true := rfl

theorem wfFrom_cons {b k : Nat} {v : α} {r : List (Nat × α)} :
    wfFrom d b ((k, v) :: r) = true ↔ b ≤ k ∧ v ≠ d ∧ wfFrom d (k + 1) r = true := by
  simp [wfFrom, and_assoc]

theorem wfFrom_mono {b c : Nat} (h : c ≤ b) {m : List (Nat × α)} (hm : wfFrom d b m = true) : wfFrom d c m = true := by
  cases m with
  | nil => rfl
  | cons e r => obtain ⟨k, v⟩ := e; rw [wfFrom_cons] at *; exact ⟨by omega, hm.2.1, hm.2.2⟩

theorem wfFrom_insert {b q : Nat} {w : α} (hw : w ≠ d) (hb : b ≤ q) {m : List (Nat × α)} (hm : wfFrom d b m = true) :
    wfFrom d b (insert m q w) = true := by
  induction m generalizing b with
  | nil => simp [insert, wfFrom, hw, hb]
  | cons e r ih =>
    obtain ⟨k, v⟩ := e
    rw [wfFrom_cons] at hm
    unfold insert
    split
    · rw [wfFrom_cons, wfFrom_cons]; exact ⟨hb, hw, by omega, hm.2⟩
    · split
      · next h => subst h; rw [wfFrom_cons]; exact ⟨hb, hw, hm.2.2⟩
      · rw [wfFrom_cons]; exact ⟨hm.1, hm.2.1, ih (by omega) hm.2.2⟩

theorem wfFrom_filter (f : Nat × α → Bool) {b : Nat} {m : List (Nat × α)} (hm : wfFrom d b m = true) :
    wfFrom d b (m.filter f) = true := by
  induction m generalizing b with
  | nil => rfl
  | cons e r ih =>
    obtain ⟨k, v⟩ := e
    rw [wfFrom_cons] at hm
    rw [List.filter_cons]
    split
    · rw [wfFrom_cons]; exact ⟨hm.1, hm.2.1, ih hm.2.2⟩
    · exact wfFrom_mono (by omega) (ih hm.2.2)

theorem wfFrom_erase {b q : Nat} {m : List (Nat × α)} (hm : wfFrom d b m = true) : wfFrom d b (erase m q) = true := by
  induction m generalizing b with
  | nil => rfl
  | cons e r ih =>
    obtain ⟨k, v⟩ := e
    rw [wfFrom_cons] at hm
    unfold erase
    split
    · exact wfFrom_mono (by omega) (ih hm.2.2)
    · rw [wfFrom_cons]; exact ⟨hm.1, hm.2.1, ih hm.2.2⟩

/-- Dropping entries keeps the canonical form. -/
theorem wf_filter (f : Nat × α → Bool) {m : List (Nat × α)} (hm : wf d m = true) : wf d (m.filter f) = true :=
  wfFrom_filter f hm

/-- Writing keeps the canonical form. -/
theorem wf_put (q : Nat) (w : α) {m : List (Nat × α)} (hm : wf d m = true) : wf d (put d m q w) = true := by
  unfold put
  split
  · exact wfFrom_erase hm
  · next h => exact wfFrom_insert h (Nat.zero_le _) hm

/-- In the canonical form a listed key holds what its entry says. -/
theorem wfFrom_find {b : Nat} {m : List (Nat × α)} (hm : wfFrom d b m = true) {q : Nat} (hq : q < b) : find m q = none := by
  induction m generalizing b with
  | nil => rfl
  | cons e r ih =>
    obtain ⟨k, v⟩ := e
    rw [wfFrom_cons] at hm
    simp [find, show k ≠ q by omega, ih hm.2.2 (by omega)]

/-- Equal contents are equal data. -/
theorem wfFrom_ext {b : Nat} {m n : List (Nat × α)} (hm : wfFrom d b m = true) (hn : wfFrom d b n = true)
    (h : ∀ q, get d m q = get d n q) : m = n := by
  induction m generalizing b n with
  | nil =>
    cases n with
    | nil => rfl
    | cons e r =>
      obtain ⟨k, v⟩ := e
      rw [wfFrom_cons] at hn
      exact absurd (by simpa [get] using (h k).symm) hn.2.1
  | cons e r ih =>
    obtain ⟨k, v⟩ := e
    rw [wfFrom_cons] at hm
    cases n with
    | nil => exact absurd (by simpa [get] using h k) hm.2.1
    | cons e' r' =>
      obtain ⟨k', v'⟩ := e'
      rw [wfFrom_cons] at hn
      have hk : k = k' := by
        rcases Nat.lt_trichotomy k k' with hlt | heq | hlt
        · have := h k
          simp [get, show k' ≠ k by omega, get_eq_find, wfFrom_find hn.2.2 (show k < k' + 1 by omega)] at this
          exact absurd this hm.2.1
        · exact heq
        · have := h k'
          simp [get, show k ≠ k' by omega, get_eq_find, wfFrom_find hm.2.2 (show k' < k + 1 by omega)] at this
          exact absurd this.symm hn.2.1
      subst hk
      have hv : v = v' := by simpa [get] using h k
      subst hv
      rw [ih hm.2.2 hn.2.2 (fun q => ?_)]
      by_cases hq : k = q
      · subst hq
        simp [get_eq_find, wfFrom_find hm.2.2 (show k < k + 1 by omega), wfFrom_find hn.2.2 (show k < k + 1 by omega)]
      · simpa [get, hq] using h q

/-- Equal contents of canonical lists are equal data. -/
theorem wf_ext {m n : List (Nat × α)} (hm : wf d m = true) (hn : wf d n = true) (h : ∀ q, get d m q = get d n q) :
    m = n := wfFrom_ext hm hn h

end Canonical

end Sys2Proof.Store
end

