-- ==== Sys2Proof/Laws/State.lean ====
section
/-! SUPPORT. What each update of the state leaves alone: one lemma for each field and update, so that no later proof
unfolds a record update. -/
namespace Sys2Proof.Machine

-- ## setTeam

@[simp] theorem setTeam_agenda (s : State) (tid : Nat) (t : Team) : (s.setTeam tid t).agenda = s.agenda := rfl
@[simp] theorem setTeam_cur (s : State) (tid : Nat) (t : Team) : (s.setTeam tid t).cur = s.cur := rfl
@[simp] theorem setTeam_free (s : State) (tid : Nat) (t : Team) : (s.setTeam tid t).free = s.free := rfl
@[simp] theorem setTeam_turn (s : State) (tid : Nat) (t : Team) : (s.setTeam tid t).turn = s.turn := rfl
@[simp] theorem setTeam_nextId (s : State) (tid : Nat) (t : Team) : (s.setTeam tid t).nextId = s.nextId := rfl
@[simp] theorem setTeam_clk (s : State) (tid : Nat) (t : Team) : (s.setTeam tid t).clk = s.clk := rfl
@[simp] theorem setTeam_mem (s : State) (tid : Nat) (t : Team) : (s.setTeam tid t).mem = s.mem := rfl
@[simp] theorem setTeam_seals (s : State) (tid : Nat) (t : Team) : (s.setTeam tid t).seals = s.seals := rfl
@[simp] theorem setTeam_poison (s : State) (tid : Nat) (t : Team) : (s.setTeam tid t).poison = s.poison := rfl
@[simp] theorem setTeam_l2 (s : State) (tid : Nat) (t : Team) : (s.setTeam tid t).l2 = s.l2 := rfl
@[simp] theorem setTeam_l1 (s : State) (tid : Nat) (t : Team) : (s.setTeam tid t).l1 = s.l1 := rfl
@[simp] theorem setTeam_icache (s : State) (tid : Nat) (t : Team) : (s.setTeam tid t).icache = s.icache := rfl
@[simp] theorem setTeam_nmuBuf (s : State) (tid : Nat) (t : Team) : (s.setTeam tid t).nmuBuf = s.nmuBuf := rfl
@[simp] theorem setTeam_tlb (s : State) (tid : Nat) (t : Team) : (s.setTeam tid t).tlb = s.tlb := rfl
@[simp] theorem setTeam_rmap (s : State) (tid : Nat) (t : Team) : (s.setTeam tid t).rmap = s.rmap := rfl
@[simp] theorem setTeam_posted (s : State) (tid : Nat) (t : Team) : (s.setTeam tid t).posted = s.posted := rfl
@[simp] theorem setTeam_locks (s : State) (tid : Nat) (t : Team) : (s.setTeam tid t).locks = s.locks := rfl
@[simp] theorem setTeam_droves (s : State) (tid : Nat) (t : Team) : (s.setTeam tid t).droves = s.droves := rfl
@[simp] theorem setTeam_coaches (s : State) (tid : Nat) (t : Team) : (s.setTeam tid t).coaches = s.coaches := rfl
@[simp] theorem setTeam_drays (s : State) (tid : Nat) (t : Team) : (s.setTeam tid t).drays = s.drays := rfl
@[simp] theorem setTeam_colls (s : State) (tid : Nat) (t : Team) : (s.setTeam tid t).colls = s.colls := rfl
@[simp] theorem setTeam_links (s : State) (tid : Nat) (t : Team) : (s.setTeam tid t).links = s.links := rfl
@[simp] theorem setTeam_banks (s : State) (tid : Nat) (t : Team) : (s.setTeam tid t).banks = s.banks := rfl
@[simp] theorem setTeam_bankFlight (s : State) (tid : Nat) (t : Team) : (s.setTeam tid t).bankFlight = s.bankFlight := rfl
@[simp] theorem setTeam_ctxs (s : State) (tid : Nat) (t : Team) : (s.setTeam tid t).ctxs = s.ctxs := rfl
@[simp] theorem setTeam_parts (s : State) (tid : Nat) (t : Team) : (s.setTeam tid t).parts = s.parts := rfl
@[simp] theorem setTeam_absentTrains (s : State) (tid : Nat) (t : Team) : (s.setTeam tid t).absentTrains = s.absentTrains := rfl
@[simp] theorem setTeam_reclaims (s : State) (tid : Nat) (t : Team) : (s.setTeam tid t).reclaims = s.reclaims := rfl
@[simp] theorem setTeam_keys (s : State) (tid : Nat) (t : Team) : (s.setTeam tid t).keys = s.keys := rfl
@[simp] theorem setTeam_nextKeySet (s : State) (tid : Nat) (t : Team) : (s.setTeam tid t).nextKeySet = s.nextKeySet := rfl
@[simp] theorem setTeam_moving (s : State) (tid : Nat) (t : Team) : (s.setTeam tid t).moving = s.moving := rfl
@[simp] theorem setTeam_retired (s : State) (tid : Nat) (t : Team) : (s.setTeam tid t).retired = s.retired := rfl
@[simp] theorem setTeam_slices (s : State) (tid : Nat) (t : Team) : (s.setTeam tid t).slices = s.slices := rfl
@[simp] theorem setTeam_blankSlots (s : State) (tid : Nat) (t : Team) : (s.setTeam tid t).blankSlots = s.blankSlots := rfl
@[simp] theorem setTeam_boot (s : State) (tid : Nat) (t : Team) : (s.setTeam tid t).boot = s.boot := rfl
@[simp] theorem setTeam_host (s : State) (tid : Nat) (t : Team) : (s.setTeam tid t).host = s.host := rfl
@[simp] theorem setTeam_mgmt (s : State) (tid : Nat) (t : Team) : (s.setTeam tid t).mgmt = s.mgmt := rfl
@[simp] theorem setTeam_portsDown (s : State) (tid : Nat) (t : Team) : (s.setTeam tid t).portsDown = s.portsDown := rfl
@[simp] theorem setTeam_cxlDown (s : State) (tid : Nat) (t : Team) : (s.setTeam tid t).cxlDown = s.cxlDown := rfl
@[simp] theorem setTeam_outbox (s : State) (tid : Nat) (t : Team) : (s.setTeam tid t).outbox = s.outbox := rfl
@[simp] theorem setTeam_remote (s : State) (tid : Nat) (t : Team) : (s.setTeam tid t).remote = s.remote := rfl
@[simp] theorem setTeam_inbound (s : State) (tid : Nat) (t : Team) : (s.setTeam tid t).inbound = s.inbound := rfl

-- ## setKey

@[simp] theorem setKey_agenda (s : State) (k : Nat) (v : KeySlot) : (s.setKey k v).agenda = s.agenda := rfl
@[simp] theorem setKey_cur (s : State) (k : Nat) (v : KeySlot) : (s.setKey k v).cur = s.cur := rfl
@[simp] theorem setKey_free (s : State) (k : Nat) (v : KeySlot) : (s.setKey k v).free = s.free := rfl
@[simp] theorem setKey_turn (s : State) (k : Nat) (v : KeySlot) : (s.setKey k v).turn = s.turn := rfl
@[simp] theorem setKey_nextId (s : State) (k : Nat) (v : KeySlot) : (s.setKey k v).nextId = s.nextId := rfl
@[simp] theorem setKey_clk (s : State) (k : Nat) (v : KeySlot) : (s.setKey k v).clk = s.clk := rfl
@[simp] theorem setKey_mem (s : State) (k : Nat) (v : KeySlot) : (s.setKey k v).mem = s.mem := rfl
@[simp] theorem setKey_seals (s : State) (k : Nat) (v : KeySlot) : (s.setKey k v).seals = s.seals := rfl
@[simp] theorem setKey_poison (s : State) (k : Nat) (v : KeySlot) : (s.setKey k v).poison = s.poison := rfl
@[simp] theorem setKey_l2 (s : State) (k : Nat) (v : KeySlot) : (s.setKey k v).l2 = s.l2 := rfl
@[simp] theorem setKey_l1 (s : State) (k : Nat) (v : KeySlot) : (s.setKey k v).l1 = s.l1 := rfl
@[simp] theorem setKey_icache (s : State) (k : Nat) (v : KeySlot) : (s.setKey k v).icache = s.icache := rfl
@[simp] theorem setKey_nmuBuf (s : State) (k : Nat) (v : KeySlot) : (s.setKey k v).nmuBuf = s.nmuBuf := rfl
@[simp] theorem setKey_tlb (s : State) (k : Nat) (v : KeySlot) : (s.setKey k v).tlb = s.tlb := rfl
@[simp] theorem setKey_rmap (s : State) (k : Nat) (v : KeySlot) : (s.setKey k v).rmap = s.rmap := rfl
@[simp] theorem setKey_posted (s : State) (k : Nat) (v : KeySlot) : (s.setKey k v).posted = s.posted := rfl
@[simp] theorem setKey_locks (s : State) (k : Nat) (v : KeySlot) : (s.setKey k v).locks = s.locks := rfl
@[simp] theorem setKey_teams (s : State) (k : Nat) (v : KeySlot) : (s.setKey k v).teams = s.teams := rfl
@[simp] theorem setKey_droves (s : State) (k : Nat) (v : KeySlot) : (s.setKey k v).droves = s.droves := rfl
@[simp] theorem setKey_coaches (s : State) (k : Nat) (v : KeySlot) : (s.setKey k v).coaches = s.coaches := rfl
@[simp] theorem setKey_drays (s : State) (k : Nat) (v : KeySlot) : (s.setKey k v).drays = s.drays := rfl
@[simp] theorem setKey_colls (s : State) (k : Nat) (v : KeySlot) : (s.setKey k v).colls = s.colls := rfl
@[simp] theorem setKey_links (s : State) (k : Nat) (v : KeySlot) : (s.setKey k v).links = s.links := rfl
@[simp] theorem setKey_banks (s : State) (k : Nat) (v : KeySlot) : (s.setKey k v).banks = s.banks := rfl
@[simp] theorem setKey_bankFlight (s : State) (k : Nat) (v : KeySlot) : (s.setKey k v).bankFlight = s.bankFlight := rfl
@[simp] theorem setKey_ctxs (s : State) (k : Nat) (v : KeySlot) : (s.setKey k v).ctxs = s.ctxs := rfl
@[simp] theorem setKey_parts (s : State) (k : Nat) (v : KeySlot) : (s.setKey k v).parts = s.parts := rfl
@[simp] theorem setKey_absentTrains (s : State) (k : Nat) (v : KeySlot) : (s.setKey k v).absentTrains = s.absentTrains := rfl
@[simp] theorem setKey_reclaims (s : State) (k : Nat) (v : KeySlot) : (s.setKey k v).reclaims = s.reclaims := rfl
@[simp] theorem setKey_nextKeySet (s : State) (k : Nat) (v : KeySlot) : (s.setKey k v).nextKeySet = s.nextKeySet := rfl
@[simp] theorem setKey_moving (s : State) (k : Nat) (v : KeySlot) : (s.setKey k v).moving = s.moving := rfl
@[simp] theorem setKey_retired (s : State) (k : Nat) (v : KeySlot) : (s.setKey k v).retired = s.retired := rfl
@[simp] theorem setKey_slices (s : State) (k : Nat) (v : KeySlot) : (s.setKey k v).slices = s.slices := rfl
@[simp] theorem setKey_blankSlots (s : State) (k : Nat) (v : KeySlot) : (s.setKey k v).blankSlots = s.blankSlots := rfl
@[simp] theorem setKey_boot (s : State) (k : Nat) (v : KeySlot) : (s.setKey k v).boot = s.boot := rfl
@[simp] theorem setKey_host (s : State) (k : Nat) (v : KeySlot) : (s.setKey k v).host = s.host := rfl
@[simp] theorem setKey_mgmt (s : State) (k : Nat) (v : KeySlot) : (s.setKey k v).mgmt = s.mgmt := rfl
@[simp] theorem setKey_portsDown (s : State) (k : Nat) (v : KeySlot) : (s.setKey k v).portsDown = s.portsDown := rfl
@[simp] theorem setKey_cxlDown (s : State) (k : Nat) (v : KeySlot) : (s.setKey k v).cxlDown = s.cxlDown := rfl
@[simp] theorem setKey_outbox (s : State) (k : Nat) (v : KeySlot) : (s.setKey k v).outbox = s.outbox := rfl
@[simp] theorem setKey_remote (s : State) (k : Nat) (v : KeySlot) : (s.setKey k v).remote = s.remote := rfl
@[simp] theorem setKey_inbound (s : State) (k : Nat) (v : KeySlot) : (s.setKey k v).inbound = s.inbound := rfl

-- ## setBank

@[simp] theorem setBank_agenda (s : State) (u : Nat) (b : BankUnit) : (s.setBank u b).agenda = s.agenda := rfl
@[simp] theorem setBank_cur (s : State) (u : Nat) (b : BankUnit) : (s.setBank u b).cur = s.cur := rfl
@[simp] theorem setBank_free (s : State) (u : Nat) (b : BankUnit) : (s.setBank u b).free = s.free := rfl
@[simp] theorem setBank_turn (s : State) (u : Nat) (b : BankUnit) : (s.setBank u b).turn = s.turn := rfl
@[simp] theorem setBank_nextId (s : State) (u : Nat) (b : BankUnit) : (s.setBank u b).nextId = s.nextId := rfl
@[simp] theorem setBank_clk (s : State) (u : Nat) (b : BankUnit) : (s.setBank u b).clk = s.clk := rfl
@[simp] theorem setBank_mem (s : State) (u : Nat) (b : BankUnit) : (s.setBank u b).mem = s.mem := rfl
@[simp] theorem setBank_seals (s : State) (u : Nat) (b : BankUnit) : (s.setBank u b).seals = s.seals := rfl
@[simp] theorem setBank_poison (s : State) (u : Nat) (b : BankUnit) : (s.setBank u b).poison = s.poison := rfl
@[simp] theorem setBank_l2 (s : State) (u : Nat) (b : BankUnit) : (s.setBank u b).l2 = s.l2 := rfl
@[simp] theorem setBank_l1 (s : State) (u : Nat) (b : BankUnit) : (s.setBank u b).l1 = s.l1 := rfl
@[simp] theorem setBank_icache (s : State) (u : Nat) (b : BankUnit) : (s.setBank u b).icache = s.icache := rfl
@[simp] theorem setBank_nmuBuf (s : State) (u : Nat) (b : BankUnit) : (s.setBank u b).nmuBuf = s.nmuBuf := rfl
@[simp] theorem setBank_tlb (s : State) (u : Nat) (b : BankUnit) : (s.setBank u b).tlb = s.tlb := rfl
@[simp] theorem setBank_rmap (s : State) (u : Nat) (b : BankUnit) : (s.setBank u b).rmap = s.rmap := rfl
@[simp] theorem setBank_posted (s : State) (u : Nat) (b : BankUnit) : (s.setBank u b).posted = s.posted := rfl
@[simp] theorem setBank_locks (s : State) (u : Nat) (b : BankUnit) : (s.setBank u b).locks = s.locks := rfl
@[simp] theorem setBank_teams (s : State) (u : Nat) (b : BankUnit) : (s.setBank u b).teams = s.teams := rfl
@[simp] theorem setBank_droves (s : State) (u : Nat) (b : BankUnit) : (s.setBank u b).droves = s.droves := rfl
@[simp] theorem setBank_coaches (s : State) (u : Nat) (b : BankUnit) : (s.setBank u b).coaches = s.coaches := rfl
@[simp] theorem setBank_drays (s : State) (u : Nat) (b : BankUnit) : (s.setBank u b).drays = s.drays := rfl
@[simp] theorem setBank_colls (s : State) (u : Nat) (b : BankUnit) : (s.setBank u b).colls = s.colls := rfl
@[simp] theorem setBank_links (s : State) (u : Nat) (b : BankUnit) : (s.setBank u b).links = s.links := rfl
@[simp] theorem setBank_bankFlight (s : State) (u : Nat) (b : BankUnit) : (s.setBank u b).bankFlight = s.bankFlight := rfl
@[simp] theorem setBank_ctxs (s : State) (u : Nat) (b : BankUnit) : (s.setBank u b).ctxs = s.ctxs := rfl
@[simp] theorem setBank_parts (s : State) (u : Nat) (b : BankUnit) : (s.setBank u b).parts = s.parts := rfl
@[simp] theorem setBank_absentTrains (s : State) (u : Nat) (b : BankUnit) : (s.setBank u b).absentTrains = s.absentTrains := rfl
@[simp] theorem setBank_reclaims (s : State) (u : Nat) (b : BankUnit) : (s.setBank u b).reclaims = s.reclaims := rfl
@[simp] theorem setBank_keys (s : State) (u : Nat) (b : BankUnit) : (s.setBank u b).keys = s.keys := rfl
@[simp] theorem setBank_nextKeySet (s : State) (u : Nat) (b : BankUnit) : (s.setBank u b).nextKeySet = s.nextKeySet := rfl
@[simp] theorem setBank_moving (s : State) (u : Nat) (b : BankUnit) : (s.setBank u b).moving = s.moving := rfl
@[simp] theorem setBank_retired (s : State) (u : Nat) (b : BankUnit) : (s.setBank u b).retired = s.retired := rfl
@[simp] theorem setBank_slices (s : State) (u : Nat) (b : BankUnit) : (s.setBank u b).slices = s.slices := rfl
@[simp] theorem setBank_blankSlots (s : State) (u : Nat) (b : BankUnit) : (s.setBank u b).blankSlots = s.blankSlots := rfl
@[simp] theorem setBank_boot (s : State) (u : Nat) (b : BankUnit) : (s.setBank u b).boot = s.boot := rfl
@[simp] theorem setBank_host (s : State) (u : Nat) (b : BankUnit) : (s.setBank u b).host = s.host := rfl
@[simp] theorem setBank_mgmt (s : State) (u : Nat) (b : BankUnit) : (s.setBank u b).mgmt = s.mgmt := rfl
@[simp] theorem setBank_portsDown (s : State) (u : Nat) (b : BankUnit) : (s.setBank u b).portsDown = s.portsDown := rfl
@[simp] theorem setBank_cxlDown (s : State) (u : Nat) (b : BankUnit) : (s.setBank u b).cxlDown = s.cxlDown := rfl
@[simp] theorem setBank_outbox (s : State) (u : Nat) (b : BankUnit) : (s.setBank u b).outbox = s.outbox := rfl
@[simp] theorem setBank_remote (s : State) (u : Nat) (b : BankUnit) : (s.setBank u b).remote = s.remote := rfl
@[simp] theorem setBank_inbound (s : State) (u : Nat) (b : BankUnit) : (s.setBank u b).inbound = s.inbound := rfl

-- ## modCoach

@[simp] theorem modCoach_agenda (s : State) (c : Nat) (f : Coach → Coach) : (s.modCoach c f).agenda = s.agenda := rfl
@[simp] theorem modCoach_cur (s : State) (c : Nat) (f : Coach → Coach) : (s.modCoach c f).cur = s.cur := rfl
@[simp] theorem modCoach_free (s : State) (c : Nat) (f : Coach → Coach) : (s.modCoach c f).free = s.free := rfl
@[simp] theorem modCoach_turn (s : State) (c : Nat) (f : Coach → Coach) : (s.modCoach c f).turn = s.turn := rfl
@[simp] theorem modCoach_nextId (s : State) (c : Nat) (f : Coach → Coach) : (s.modCoach c f).nextId = s.nextId := rfl
@[simp] theorem modCoach_clk (s : State) (c : Nat) (f : Coach → Coach) : (s.modCoach c f).clk = s.clk := rfl
@[simp] theorem modCoach_mem (s : State) (c : Nat) (f : Coach → Coach) : (s.modCoach c f).mem = s.mem := rfl
@[simp] theorem modCoach_seals (s : State) (c : Nat) (f : Coach → Coach) : (s.modCoach c f).seals = s.seals := rfl
@[simp] theorem modCoach_poison (s : State) (c : Nat) (f : Coach → Coach) : (s.modCoach c f).poison = s.poison := rfl
@[simp] theorem modCoach_l2 (s : State) (c : Nat) (f : Coach → Coach) : (s.modCoach c f).l2 = s.l2 := rfl
@[simp] theorem modCoach_l1 (s : State) (c : Nat) (f : Coach → Coach) : (s.modCoach c f).l1 = s.l1 := rfl
@[simp] theorem modCoach_icache (s : State) (c : Nat) (f : Coach → Coach) : (s.modCoach c f).icache = s.icache := rfl
@[simp] theorem modCoach_nmuBuf (s : State) (c : Nat) (f : Coach → Coach) : (s.modCoach c f).nmuBuf = s.nmuBuf := rfl
@[simp] theorem modCoach_tlb (s : State) (c : Nat) (f : Coach → Coach) : (s.modCoach c f).tlb = s.tlb := rfl
@[simp] theorem modCoach_rmap (s : State) (c : Nat) (f : Coach → Coach) : (s.modCoach c f).rmap = s.rmap := rfl
@[simp] theorem modCoach_posted (s : State) (c : Nat) (f : Coach → Coach) : (s.modCoach c f).posted = s.posted := rfl
@[simp] theorem modCoach_locks (s : State) (c : Nat) (f : Coach → Coach) : (s.modCoach c f).locks = s.locks := rfl
@[simp] theorem modCoach_teams (s : State) (c : Nat) (f : Coach → Coach) : (s.modCoach c f).teams = s.teams := rfl
@[simp] theorem modCoach_droves (s : State) (c : Nat) (f : Coach → Coach) : (s.modCoach c f).droves = s.droves := rfl
@[simp] theorem modCoach_drays (s : State) (c : Nat) (f : Coach → Coach) : (s.modCoach c f).drays = s.drays := rfl
@[simp] theorem modCoach_colls (s : State) (c : Nat) (f : Coach → Coach) : (s.modCoach c f).colls = s.colls := rfl
@[simp] theorem modCoach_links (s : State) (c : Nat) (f : Coach → Coach) : (s.modCoach c f).links = s.links := rfl
@[simp] theorem modCoach_banks (s : State) (c : Nat) (f : Coach → Coach) : (s.modCoach c f).banks = s.banks := rfl
@[simp] theorem modCoach_bankFlight (s : State) (c : Nat) (f : Coach → Coach) : (s.modCoach c f).bankFlight = s.bankFlight := rfl
@[simp] theorem modCoach_ctxs (s : State) (c : Nat) (f : Coach → Coach) : (s.modCoach c f).ctxs = s.ctxs := rfl
@[simp] theorem modCoach_parts (s : State) (c : Nat) (f : Coach → Coach) : (s.modCoach c f).parts = s.parts := rfl
@[simp] theorem modCoach_absentTrains (s : State) (c : Nat) (f : Coach → Coach) : (s.modCoach c f).absentTrains = s.absentTrains := rfl
@[simp] theorem modCoach_reclaims (s : State) (c : Nat) (f : Coach → Coach) : (s.modCoach c f).reclaims = s.reclaims := rfl
@[simp] theorem modCoach_keys (s : State) (c : Nat) (f : Coach → Coach) : (s.modCoach c f).keys = s.keys := rfl
@[simp] theorem modCoach_nextKeySet (s : State) (c : Nat) (f : Coach → Coach) : (s.modCoach c f).nextKeySet = s.nextKeySet := rfl
@[simp] theorem modCoach_moving (s : State) (c : Nat) (f : Coach → Coach) : (s.modCoach c f).moving = s.moving := rfl
@[simp] theorem modCoach_retired (s : State) (c : Nat) (f : Coach → Coach) : (s.modCoach c f).retired = s.retired := rfl
@[simp] theorem modCoach_slices (s : State) (c : Nat) (f : Coach → Coach) : (s.modCoach c f).slices = s.slices := rfl
@[simp] theorem modCoach_blankSlots (s : State) (c : Nat) (f : Coach → Coach) : (s.modCoach c f).blankSlots = s.blankSlots := rfl
@[simp] theorem modCoach_boot (s : State) (c : Nat) (f : Coach → Coach) : (s.modCoach c f).boot = s.boot := rfl
@[simp] theorem modCoach_host (s : State) (c : Nat) (f : Coach → Coach) : (s.modCoach c f).host = s.host := rfl
@[simp] theorem modCoach_mgmt (s : State) (c : Nat) (f : Coach → Coach) : (s.modCoach c f).mgmt = s.mgmt := rfl
@[simp] theorem modCoach_portsDown (s : State) (c : Nat) (f : Coach → Coach) : (s.modCoach c f).portsDown = s.portsDown := rfl
@[simp] theorem modCoach_cxlDown (s : State) (c : Nat) (f : Coach → Coach) : (s.modCoach c f).cxlDown = s.cxlDown := rfl
@[simp] theorem modCoach_outbox (s : State) (c : Nat) (f : Coach → Coach) : (s.modCoach c f).outbox = s.outbox := rfl
@[simp] theorem modCoach_remote (s : State) (c : Nat) (f : Coach → Coach) : (s.modCoach c f).remote = s.remote := rfl
@[simp] theorem modCoach_inbound (s : State) (c : Nat) (f : Coach → Coach) : (s.modCoach c f).inbound = s.inbound := rfl

-- ## send

@[simp] theorem send_agenda (s : State) (part member ctx src dst : Nat) (f : Flit) : (s.send part member ctx src dst f).agenda = s.agenda := by unfold State.send; split <;> rfl
@[simp] theorem send_cur (s : State) (part member ctx src dst : Nat) (f : Flit) : (s.send part member ctx src dst f).cur = s.cur := by unfold State.send; split <;> rfl
@[simp] theorem send_free (s : State) (part member ctx src dst : Nat) (f : Flit) : (s.send part member ctx src dst f).free = s.free := by unfold State.send; split <;> rfl
@[simp] theorem send_turn (s : State) (part member ctx src dst : Nat) (f : Flit) : (s.send part member ctx src dst f).turn = s.turn := by unfold State.send; split <;> rfl
@[simp] theorem send_nextId (s : State) (part member ctx src dst : Nat) (f : Flit) : (s.send part member ctx src dst f).nextId = s.nextId := by unfold State.send; split <;> rfl
@[simp] theorem send_clk (s : State) (part member ctx src dst : Nat) (f : Flit) : (s.send part member ctx src dst f).clk = s.clk := by unfold State.send; split <;> rfl
@[simp] theorem send_mem (s : State) (part member ctx src dst : Nat) (f : Flit) : (s.send part member ctx src dst f).mem = s.mem := by unfold State.send; split <;> rfl
@[simp] theorem send_seals (s : State) (part member ctx src dst : Nat) (f : Flit) : (s.send part member ctx src dst f).seals = s.seals := by unfold State.send; split <;> rfl
@[simp] theorem send_poison (s : State) (part member ctx src dst : Nat) (f : Flit) : (s.send part member ctx src dst f).poison = s.poison := by unfold State.send; split <;> rfl
@[simp] theorem send_l2 (s : State) (part member ctx src dst : Nat) (f : Flit) : (s.send part member ctx src dst f).l2 = s.l2 := by unfold State.send; split <;> rfl
@[simp] theorem send_l1 (s : State) (part member ctx src dst : Nat) (f : Flit) : (s.send part member ctx src dst f).l1 = s.l1 := by unfold State.send; split <;> rfl
@[simp] theorem send_icache (s : State) (part member ctx src dst : Nat) (f : Flit) : (s.send part member ctx src dst f).icache = s.icache := by unfold State.send; split <;> rfl
@[simp] theorem send_nmuBuf (s : State) (part member ctx src dst : Nat) (f : Flit) : (s.send part member ctx src dst f).nmuBuf = s.nmuBuf := by unfold State.send; split <;> rfl
@[simp] theorem send_tlb (s : State) (part member ctx src dst : Nat) (f : Flit) : (s.send part member ctx src dst f).tlb = s.tlb := by unfold State.send; split <;> rfl
@[simp] theorem send_rmap (s : State) (part member ctx src dst : Nat) (f : Flit) : (s.send part member ctx src dst f).rmap = s.rmap := by unfold State.send; split <;> rfl
@[simp] theorem send_posted (s : State) (part member ctx src dst : Nat) (f : Flit) : (s.send part member ctx src dst f).posted = s.posted := by unfold State.send; split <;> rfl
@[simp] theorem send_locks (s : State) (part member ctx src dst : Nat) (f : Flit) : (s.send part member ctx src dst f).locks = s.locks := by unfold State.send; split <;> rfl
@[simp] theorem send_teams (s : State) (part member ctx src dst : Nat) (f : Flit) : (s.send part member ctx src dst f).teams = s.teams := by unfold State.send; split <;> rfl
@[simp] theorem send_droves (s : State) (part member ctx src dst : Nat) (f : Flit) : (s.send part member ctx src dst f).droves = s.droves := by unfold State.send; split <;> rfl
@[simp] theorem send_coaches (s : State) (part member ctx src dst : Nat) (f : Flit) : (s.send part member ctx src dst f).coaches = s.coaches := by unfold State.send; split <;> rfl
@[simp] theorem send_drays (s : State) (part member ctx src dst : Nat) (f : Flit) : (s.send part member ctx src dst f).drays = s.drays := by unfold State.send; split <;> rfl
@[simp] theorem send_colls (s : State) (part member ctx src dst : Nat) (f : Flit) : (s.send part member ctx src dst f).colls = s.colls := by unfold State.send; split <;> rfl
@[simp] theorem send_links (s : State) (part member ctx src dst : Nat) (f : Flit) : (s.send part member ctx src dst f).links = s.links := by unfold State.send; split <;> rfl
@[simp] theorem send_banks (s : State) (part member ctx src dst : Nat) (f : Flit) : (s.send part member ctx src dst f).banks = s.banks := by unfold State.send; split <;> rfl
@[simp] theorem send_bankFlight (s : State) (part member ctx src dst : Nat) (f : Flit) : (s.send part member ctx src dst f).bankFlight = s.bankFlight := by unfold State.send; split <;> rfl
@[simp] theorem send_ctxs (s : State) (part member ctx src dst : Nat) (f : Flit) : (s.send part member ctx src dst f).ctxs = s.ctxs := by unfold State.send; split <;> rfl
@[simp] theorem send_parts (s : State) (part member ctx src dst : Nat) (f : Flit) : (s.send part member ctx src dst f).parts = s.parts := by unfold State.send; split <;> rfl
@[simp] theorem send_absentTrains (s : State) (part member ctx src dst : Nat) (f : Flit) : (s.send part member ctx src dst f).absentTrains = s.absentTrains := by unfold State.send; split <;> rfl
@[simp] theorem send_reclaims (s : State) (part member ctx src dst : Nat) (f : Flit) : (s.send part member ctx src dst f).reclaims = s.reclaims := by unfold State.send; split <;> rfl
@[simp] theorem send_keys (s : State) (part member ctx src dst : Nat) (f : Flit) : (s.send part member ctx src dst f).keys = s.keys := by unfold State.send; split <;> rfl
@[simp] theorem send_nextKeySet (s : State) (part member ctx src dst : Nat) (f : Flit) : (s.send part member ctx src dst f).nextKeySet = s.nextKeySet := by unfold State.send; split <;> rfl
@[simp] theorem send_moving (s : State) (part member ctx src dst : Nat) (f : Flit) : (s.send part member ctx src dst f).moving = s.moving := by unfold State.send; split <;> rfl
@[simp] theorem send_retired (s : State) (part member ctx src dst : Nat) (f : Flit) : (s.send part member ctx src dst f).retired = s.retired := by unfold State.send; split <;> rfl
@[simp] theorem send_slices (s : State) (part member ctx src dst : Nat) (f : Flit) : (s.send part member ctx src dst f).slices = s.slices := by unfold State.send; split <;> rfl
@[simp] theorem send_blankSlots (s : State) (part member ctx src dst : Nat) (f : Flit) : (s.send part member ctx src dst f).blankSlots = s.blankSlots := by unfold State.send; split <;> rfl
@[simp] theorem send_boot (s : State) (part member ctx src dst : Nat) (f : Flit) : (s.send part member ctx src dst f).boot = s.boot := by unfold State.send; split <;> rfl
@[simp] theorem send_host (s : State) (part member ctx src dst : Nat) (f : Flit) : (s.send part member ctx src dst f).host = s.host := by unfold State.send; split <;> rfl
@[simp] theorem send_mgmt (s : State) (part member ctx src dst : Nat) (f : Flit) : (s.send part member ctx src dst f).mgmt = s.mgmt := by unfold State.send; split <;> rfl
@[simp] theorem send_portsDown (s : State) (part member ctx src dst : Nat) (f : Flit) : (s.send part member ctx src dst f).portsDown = s.portsDown := by unfold State.send; split <;> rfl
@[simp] theorem send_cxlDown (s : State) (part member ctx src dst : Nat) (f : Flit) : (s.send part member ctx src dst f).cxlDown = s.cxlDown := by unfold State.send; split <;> rfl
@[simp] theorem send_remote (s : State) (part member ctx src dst : Nat) (f : Flit) : (s.send part member ctx src dst f).remote = s.remote := by unfold State.send; split <;> rfl
@[simp] theorem send_inbound (s : State) (part member ctx src dst : Nat) (f : Flit) : (s.send part member ctx src dst f).inbound = s.inbound := by unfold State.send; split <;> rfl

-- ## interrupt

@[simp] theorem interrupt_agenda (s : State) (v : Nat) : (s.interrupt v).agenda = s.agenda := rfl
@[simp] theorem interrupt_cur (s : State) (v : Nat) : (s.interrupt v).cur = s.cur := rfl
@[simp] theorem interrupt_free (s : State) (v : Nat) : (s.interrupt v).free = s.free := rfl
@[simp] theorem interrupt_turn (s : State) (v : Nat) : (s.interrupt v).turn = s.turn := rfl
@[simp] theorem interrupt_nextId (s : State) (v : Nat) : (s.interrupt v).nextId = s.nextId := rfl
@[simp] theorem interrupt_clk (s : State) (v : Nat) : (s.interrupt v).clk = s.clk := rfl
@[simp] theorem interrupt_mem (s : State) (v : Nat) : (s.interrupt v).mem = s.mem := rfl
@[simp] theorem interrupt_seals (s : State) (v : Nat) : (s.interrupt v).seals = s.seals := rfl
@[simp] theorem interrupt_poison (s : State) (v : Nat) : (s.interrupt v).poison = s.poison := rfl
@[simp] theorem interrupt_l2 (s : State) (v : Nat) : (s.interrupt v).l2 = s.l2 := rfl
@[simp] theorem interrupt_l1 (s : State) (v : Nat) : (s.interrupt v).l1 = s.l1 := rfl
@[simp] theorem interrupt_icache (s : State) (v : Nat) : (s.interrupt v).icache = s.icache := rfl
@[simp] theorem interrupt_nmuBuf (s : State) (v : Nat) : (s.interrupt v).nmuBuf = s.nmuBuf := rfl
@[simp] theorem interrupt_tlb (s : State) (v : Nat) : (s.interrupt v).tlb = s.tlb := rfl
@[simp] theorem interrupt_rmap (s : State) (v : Nat) : (s.interrupt v).rmap = s.rmap := rfl
@[simp] theorem interrupt_posted (s : State) (v : Nat) : (s.interrupt v).posted = s.posted := rfl
@[simp] theorem interrupt_locks (s : State) (v : Nat) : (s.interrupt v).locks = s.locks := rfl
@[simp] theorem interrupt_teams (s : State) (v : Nat) : (s.interrupt v).teams = s.teams := rfl
@[simp] theorem interrupt_droves (s : State) (v : Nat) : (s.interrupt v).droves = s.droves := rfl
@[simp] theorem interrupt_coaches (s : State) (v : Nat) : (s.interrupt v).coaches = s.coaches := rfl
@[simp] theorem interrupt_drays (s : State) (v : Nat) : (s.interrupt v).drays = s.drays := rfl
@[simp] theorem interrupt_colls (s : State) (v : Nat) : (s.interrupt v).colls = s.colls := rfl
@[simp] theorem interrupt_links (s : State) (v : Nat) : (s.interrupt v).links = s.links := rfl
@[simp] theorem interrupt_banks (s : State) (v : Nat) : (s.interrupt v).banks = s.banks := rfl
@[simp] theorem interrupt_bankFlight (s : State) (v : Nat) : (s.interrupt v).bankFlight = s.bankFlight := rfl
@[simp] theorem interrupt_ctxs (s : State) (v : Nat) : (s.interrupt v).ctxs = s.ctxs := rfl
@[simp] theorem interrupt_parts (s : State) (v : Nat) : (s.interrupt v).parts = s.parts := rfl
@[simp] theorem interrupt_absentTrains (s : State) (v : Nat) : (s.interrupt v).absentTrains = s.absentTrains := rfl
@[simp] theorem interrupt_reclaims (s : State) (v : Nat) : (s.interrupt v).reclaims = s.reclaims := rfl
@[simp] theorem interrupt_keys (s : State) (v : Nat) : (s.interrupt v).keys = s.keys := rfl
@[simp] theorem interrupt_nextKeySet (s : State) (v : Nat) : (s.interrupt v).nextKeySet = s.nextKeySet := rfl
@[simp] theorem interrupt_moving (s : State) (v : Nat) : (s.interrupt v).moving = s.moving := rfl
@[simp] theorem interrupt_retired (s : State) (v : Nat) : (s.interrupt v).retired = s.retired := rfl
@[simp] theorem interrupt_slices (s : State) (v : Nat) : (s.interrupt v).slices = s.slices := rfl
@[simp] theorem interrupt_blankSlots (s : State) (v : Nat) : (s.interrupt v).blankSlots = s.blankSlots := rfl
@[simp] theorem interrupt_boot (s : State) (v : Nat) : (s.interrupt v).boot = s.boot := rfl
@[simp] theorem interrupt_mgmt (s : State) (v : Nat) : (s.interrupt v).mgmt = s.mgmt := rfl
@[simp] theorem interrupt_portsDown (s : State) (v : Nat) : (s.interrupt v).portsDown = s.portsDown := rfl
@[simp] theorem interrupt_cxlDown (s : State) (v : Nat) : (s.interrupt v).cxlDown = s.cxlDown := rfl
@[simp] theorem interrupt_outbox (s : State) (v : Nat) : (s.interrupt v).outbox = s.outbox := rfl
@[simp] theorem interrupt_remote (s : State) (v : Nat) : (s.interrupt v).remote = s.remote := rfl
@[simp] theorem interrupt_inbound (s : State) (v : Nat) : (s.interrupt v).inbound = s.inbound := rfl

-- ## tick

@[simp] theorem tick_agenda (s : State) (n : Nat) : (s.tick n).agenda = s.agenda := rfl
@[simp] theorem tick_cur (s : State) (n : Nat) : (s.tick n).cur = s.cur := rfl
@[simp] theorem tick_free (s : State) (n : Nat) : (s.tick n).free = s.free := rfl
@[simp] theorem tick_turn (s : State) (n : Nat) : (s.tick n).turn = s.turn := rfl
@[simp] theorem tick_nextId (s : State) (n : Nat) : (s.tick n).nextId = s.nextId := rfl
@[simp] theorem tick_mem (s : State) (n : Nat) : (s.tick n).mem = s.mem := rfl
@[simp] theorem tick_seals (s : State) (n : Nat) : (s.tick n).seals = s.seals := rfl
@[simp] theorem tick_poison (s : State) (n : Nat) : (s.tick n).poison = s.poison := rfl
@[simp] theorem tick_l2 (s : State) (n : Nat) : (s.tick n).l2 = s.l2 := rfl
@[simp] theorem tick_l1 (s : State) (n : Nat) : (s.tick n).l1 = s.l1 := rfl
@[simp] theorem tick_icache (s : State) (n : Nat) : (s.tick n).icache = s.icache := rfl
@[simp] theorem tick_nmuBuf (s : State) (n : Nat) : (s.tick n).nmuBuf = s.nmuBuf := rfl
@[simp] theorem tick_tlb (s : State) (n : Nat) : (s.tick n).tlb = s.tlb := rfl
@[simp] theorem tick_rmap (s : State) (n : Nat) : (s.tick n).rmap = s.rmap := rfl
@[simp] theorem tick_posted (s : State) (n : Nat) : (s.tick n).posted = s.posted := rfl
@[simp] theorem tick_locks (s : State) (n : Nat) : (s.tick n).locks = s.locks := rfl
@[simp] theorem tick_teams (s : State) (n : Nat) : (s.tick n).teams = s.teams := rfl
@[simp] theorem tick_droves (s : State) (n : Nat) : (s.tick n).droves = s.droves := rfl
@[simp] theorem tick_coaches (s : State) (n : Nat) : (s.tick n).coaches = s.coaches := rfl
@[simp] theorem tick_drays (s : State) (n : Nat) : (s.tick n).drays = s.drays := rfl
@[simp] theorem tick_colls (s : State) (n : Nat) : (s.tick n).colls = s.colls := rfl
@[simp] theorem tick_links (s : State) (n : Nat) : (s.tick n).links = s.links := rfl
@[simp] theorem tick_banks (s : State) (n : Nat) : (s.tick n).banks = s.banks := rfl
@[simp] theorem tick_bankFlight (s : State) (n : Nat) : (s.tick n).bankFlight = s.bankFlight := rfl
@[simp] theorem tick_ctxs (s : State) (n : Nat) : (s.tick n).ctxs = s.ctxs := rfl
@[simp] theorem tick_parts (s : State) (n : Nat) : (s.tick n).parts = s.parts := rfl
@[simp] theorem tick_absentTrains (s : State) (n : Nat) : (s.tick n).absentTrains = s.absentTrains := rfl
@[simp] theorem tick_reclaims (s : State) (n : Nat) : (s.tick n).reclaims = s.reclaims := rfl
@[simp] theorem tick_keys (s : State) (n : Nat) : (s.tick n).keys = s.keys := rfl
@[simp] theorem tick_nextKeySet (s : State) (n : Nat) : (s.tick n).nextKeySet = s.nextKeySet := rfl
@[simp] theorem tick_moving (s : State) (n : Nat) : (s.tick n).moving = s.moving := rfl
@[simp] theorem tick_retired (s : State) (n : Nat) : (s.tick n).retired = s.retired := rfl
@[simp] theorem tick_slices (s : State) (n : Nat) : (s.tick n).slices = s.slices := rfl
@[simp] theorem tick_blankSlots (s : State) (n : Nat) : (s.tick n).blankSlots = s.blankSlots := rfl
@[simp] theorem tick_boot (s : State) (n : Nat) : (s.tick n).boot = s.boot := rfl
@[simp] theorem tick_host (s : State) (n : Nat) : (s.tick n).host = s.host := rfl
@[simp] theorem tick_mgmt (s : State) (n : Nat) : (s.tick n).mgmt = s.mgmt := rfl
@[simp] theorem tick_portsDown (s : State) (n : Nat) : (s.tick n).portsDown = s.portsDown := rfl
@[simp] theorem tick_cxlDown (s : State) (n : Nat) : (s.tick n).cxlDown = s.cxlDown := rfl
@[simp] theorem tick_outbox (s : State) (n : Nat) : (s.tick n).outbox = s.outbox := rfl
@[simp] theorem tick_remote (s : State) (n : Nat) : (s.tick n).remote = s.remote := rfl
@[simp] theorem tick_inbound (s : State) (n : Nat) : (s.tick n).inbound = s.inbound := rfl

-- ## modTeam

@[simp] theorem modTeam_agenda (s : State) (tid : Nat) (f : Team → Team) : (s.modTeam tid f).agenda = s.agenda := by unfold State.modTeam; split <;> rfl
@[simp] theorem modTeam_cur (s : State) (tid : Nat) (f : Team → Team) : (s.modTeam tid f).cur = s.cur := by unfold State.modTeam; split <;> rfl
@[simp] theorem modTeam_free (s : State) (tid : Nat) (f : Team → Team) : (s.modTeam tid f).free = s.free := by unfold State.modTeam; split <;> rfl
@[simp] theorem modTeam_turn (s : State) (tid : Nat) (f : Team → Team) : (s.modTeam tid f).turn = s.turn := by unfold State.modTeam; split <;> rfl
@[simp] theorem modTeam_nextId (s : State) (tid : Nat) (f : Team → Team) : (s.modTeam tid f).nextId = s.nextId := by unfold State.modTeam; split <;> rfl
@[simp] theorem modTeam_clk (s : State) (tid : Nat) (f : Team → Team) : (s.modTeam tid f).clk = s.clk := by unfold State.modTeam; split <;> rfl
@[simp] theorem modTeam_mem (s : State) (tid : Nat) (f : Team → Team) : (s.modTeam tid f).mem = s.mem := by unfold State.modTeam; split <;> rfl
@[simp] theorem modTeam_seals (s : State) (tid : Nat) (f : Team → Team) : (s.modTeam tid f).seals = s.seals := by unfold State.modTeam; split <;> rfl
@[simp] theorem modTeam_poison (s : State) (tid : Nat) (f : Team → Team) : (s.modTeam tid f).poison = s.poison := by unfold State.modTeam; split <;> rfl
@[simp] theorem modTeam_l2 (s : State) (tid : Nat) (f : Team → Team) : (s.modTeam tid f).l2 = s.l2 := by unfold State.modTeam; split <;> rfl
@[simp] theorem modTeam_l1 (s : State) (tid : Nat) (f : Team → Team) : (s.modTeam tid f).l1 = s.l1 := by unfold State.modTeam; split <;> rfl
@[simp] theorem modTeam_icache (s : State) (tid : Nat) (f : Team → Team) : (s.modTeam tid f).icache = s.icache := by unfold State.modTeam; split <;> rfl
@[simp] theorem modTeam_nmuBuf (s : State) (tid : Nat) (f : Team → Team) : (s.modTeam tid f).nmuBuf = s.nmuBuf := by unfold State.modTeam; split <;> rfl
@[simp] theorem modTeam_tlb (s : State) (tid : Nat) (f : Team → Team) : (s.modTeam tid f).tlb = s.tlb := by unfold State.modTeam; split <;> rfl
@[simp] theorem modTeam_rmap (s : State) (tid : Nat) (f : Team → Team) : (s.modTeam tid f).rmap = s.rmap := by unfold State.modTeam; split <;> rfl
@[simp] theorem modTeam_posted (s : State) (tid : Nat) (f : Team → Team) : (s.modTeam tid f).posted = s.posted := by unfold State.modTeam; split <;> rfl
@[simp] theorem modTeam_locks (s : State) (tid : Nat) (f : Team → Team) : (s.modTeam tid f).locks = s.locks := by unfold State.modTeam; split <;> rfl
@[simp] theorem modTeam_droves (s : State) (tid : Nat) (f : Team → Team) : (s.modTeam tid f).droves = s.droves := by unfold State.modTeam; split <;> rfl
@[simp] theorem modTeam_coaches (s : State) (tid : Nat) (f : Team → Team) : (s.modTeam tid f).coaches = s.coaches := by unfold State.modTeam; split <;> rfl
@[simp] theorem modTeam_drays (s : State) (tid : Nat) (f : Team → Team) : (s.modTeam tid f).drays = s.drays := by unfold State.modTeam; split <;> rfl
@[simp] theorem modTeam_colls (s : State) (tid : Nat) (f : Team → Team) : (s.modTeam tid f).colls = s.colls := by unfold State.modTeam; split <;> rfl
@[simp] theorem modTeam_links (s : State) (tid : Nat) (f : Team → Team) : (s.modTeam tid f).links = s.links := by unfold State.modTeam; split <;> rfl
@[simp] theorem modTeam_banks (s : State) (tid : Nat) (f : Team → Team) : (s.modTeam tid f).banks = s.banks := by unfold State.modTeam; split <;> rfl
@[simp] theorem modTeam_bankFlight (s : State) (tid : Nat) (f : Team → Team) : (s.modTeam tid f).bankFlight = s.bankFlight := by unfold State.modTeam; split <;> rfl
@[simp] theorem modTeam_ctxs (s : State) (tid : Nat) (f : Team → Team) : (s.modTeam tid f).ctxs = s.ctxs := by unfold State.modTeam; split <;> rfl
@[simp] theorem modTeam_parts (s : State) (tid : Nat) (f : Team → Team) : (s.modTeam tid f).parts = s.parts := by unfold State.modTeam; split <;> rfl
@[simp] theorem modTeam_absentTrains (s : State) (tid : Nat) (f : Team → Team) : (s.modTeam tid f).absentTrains = s.absentTrains := by unfold State.modTeam; split <;> rfl
@[simp] theorem modTeam_reclaims (s : State) (tid : Nat) (f : Team → Team) : (s.modTeam tid f).reclaims = s.reclaims := by unfold State.modTeam; split <;> rfl
@[simp] theorem modTeam_keys (s : State) (tid : Nat) (f : Team → Team) : (s.modTeam tid f).keys = s.keys := by unfold State.modTeam; split <;> rfl
@[simp] theorem modTeam_nextKeySet (s : State) (tid : Nat) (f : Team → Team) : (s.modTeam tid f).nextKeySet = s.nextKeySet := by unfold State.modTeam; split <;> rfl
@[simp] theorem modTeam_moving (s : State) (tid : Nat) (f : Team → Team) : (s.modTeam tid f).moving = s.moving := by unfold State.modTeam; split <;> rfl
@[simp] theorem modTeam_retired (s : State) (tid : Nat) (f : Team → Team) : (s.modTeam tid f).retired = s.retired := by unfold State.modTeam; split <;> rfl
@[simp] theorem modTeam_slices (s : State) (tid : Nat) (f : Team → Team) : (s.modTeam tid f).slices = s.slices := by unfold State.modTeam; split <;> rfl
@[simp] theorem modTeam_blankSlots (s : State) (tid : Nat) (f : Team → Team) : (s.modTeam tid f).blankSlots = s.blankSlots := by unfold State.modTeam; split <;> rfl
@[simp] theorem modTeam_boot (s : State) (tid : Nat) (f : Team → Team) : (s.modTeam tid f).boot = s.boot := by unfold State.modTeam; split <;> rfl
@[simp] theorem modTeam_host (s : State) (tid : Nat) (f : Team → Team) : (s.modTeam tid f).host = s.host := by unfold State.modTeam; split <;> rfl
@[simp] theorem modTeam_mgmt (s : State) (tid : Nat) (f : Team → Team) : (s.modTeam tid f).mgmt = s.mgmt := by unfold State.modTeam; split <;> rfl
@[simp] theorem modTeam_portsDown (s : State) (tid : Nat) (f : Team → Team) : (s.modTeam tid f).portsDown = s.portsDown := by unfold State.modTeam; split <;> rfl
@[simp] theorem modTeam_cxlDown (s : State) (tid : Nat) (f : Team → Team) : (s.modTeam tid f).cxlDown = s.cxlDown := by unfold State.modTeam; split <;> rfl
@[simp] theorem modTeam_outbox (s : State) (tid : Nat) (f : Team → Team) : (s.modTeam tid f).outbox = s.outbox := by unfold State.modTeam; split <;> rfl
@[simp] theorem modTeam_remote (s : State) (tid : Nat) (f : Team → Team) : (s.modTeam tid f).remote = s.remote := by unfold State.modTeam; split <;> rfl
@[simp] theorem modTeam_inbound (s : State) (tid : Nat) (f : Team → Team) : (s.modTeam tid f).inbound = s.inbound := by unfold State.modTeam; split <;> rfl

-- ## modCtx

@[simp] theorem modCtx_agenda (s : State) (c : Nat) (f : Context → Context) : (s.modCtx c f).agenda = s.agenda := by unfold State.modCtx; split <;> rfl
@[simp] theorem modCtx_cur (s : State) (c : Nat) (f : Context → Context) : (s.modCtx c f).cur = s.cur := by unfold State.modCtx; split <;> rfl
@[simp] theorem modCtx_free (s : State) (c : Nat) (f : Context → Context) : (s.modCtx c f).free = s.free := by unfold State.modCtx; split <;> rfl
@[simp] theorem modCtx_turn (s : State) (c : Nat) (f : Context → Context) : (s.modCtx c f).turn = s.turn := by unfold State.modCtx; split <;> rfl
@[simp] theorem modCtx_nextId (s : State) (c : Nat) (f : Context → Context) : (s.modCtx c f).nextId = s.nextId := by unfold State.modCtx; split <;> rfl
@[simp] theorem modCtx_clk (s : State) (c : Nat) (f : Context → Context) : (s.modCtx c f).clk = s.clk := by unfold State.modCtx; split <;> rfl
@[simp] theorem modCtx_mem (s : State) (c : Nat) (f : Context → Context) : (s.modCtx c f).mem = s.mem := by unfold State.modCtx; split <;> rfl
@[simp] theorem modCtx_seals (s : State) (c : Nat) (f : Context → Context) : (s.modCtx c f).seals = s.seals := by unfold State.modCtx; split <;> rfl
@[simp] theorem modCtx_poison (s : State) (c : Nat) (f : Context → Context) : (s.modCtx c f).poison = s.poison := by unfold State.modCtx; split <;> rfl
@[simp] theorem modCtx_l2 (s : State) (c : Nat) (f : Context → Context) : (s.modCtx c f).l2 = s.l2 := by unfold State.modCtx; split <;> rfl
@[simp] theorem modCtx_l1 (s : State) (c : Nat) (f : Context → Context) : (s.modCtx c f).l1 = s.l1 := by unfold State.modCtx; split <;> rfl
@[simp] theorem modCtx_icache (s : State) (c : Nat) (f : Context → Context) : (s.modCtx c f).icache = s.icache := by unfold State.modCtx; split <;> rfl
@[simp] theorem modCtx_nmuBuf (s : State) (c : Nat) (f : Context → Context) : (s.modCtx c f).nmuBuf = s.nmuBuf := by unfold State.modCtx; split <;> rfl
@[simp] theorem modCtx_tlb (s : State) (c : Nat) (f : Context → Context) : (s.modCtx c f).tlb = s.tlb := by unfold State.modCtx; split <;> rfl
@[simp] theorem modCtx_rmap (s : State) (c : Nat) (f : Context → Context) : (s.modCtx c f).rmap = s.rmap := by unfold State.modCtx; split <;> rfl
@[simp] theorem modCtx_posted (s : State) (c : Nat) (f : Context → Context) : (s.modCtx c f).posted = s.posted := by unfold State.modCtx; split <;> rfl
@[simp] theorem modCtx_locks (s : State) (c : Nat) (f : Context → Context) : (s.modCtx c f).locks = s.locks := by unfold State.modCtx; split <;> rfl
@[simp] theorem modCtx_teams (s : State) (c : Nat) (f : Context → Context) : (s.modCtx c f).teams = s.teams := by unfold State.modCtx; split <;> rfl
@[simp] theorem modCtx_droves (s : State) (c : Nat) (f : Context → Context) : (s.modCtx c f).droves = s.droves := by unfold State.modCtx; split <;> rfl
@[simp] theorem modCtx_coaches (s : State) (c : Nat) (f : Context → Context) : (s.modCtx c f).coaches = s.coaches := by unfold State.modCtx; split <;> rfl
@[simp] theorem modCtx_drays (s : State) (c : Nat) (f : Context → Context) : (s.modCtx c f).drays = s.drays := by unfold State.modCtx; split <;> rfl
@[simp] theorem modCtx_colls (s : State) (c : Nat) (f : Context → Context) : (s.modCtx c f).colls = s.colls := by unfold State.modCtx; split <;> rfl
@[simp] theorem modCtx_links (s : State) (c : Nat) (f : Context → Context) : (s.modCtx c f).links = s.links := by unfold State.modCtx; split <;> rfl
@[simp] theorem modCtx_banks (s : State) (c : Nat) (f : Context → Context) : (s.modCtx c f).banks = s.banks := by unfold State.modCtx; split <;> rfl
@[simp] theorem modCtx_bankFlight (s : State) (c : Nat) (f : Context → Context) : (s.modCtx c f).bankFlight = s.bankFlight := by unfold State.modCtx; split <;> rfl
@[simp] theorem modCtx_parts (s : State) (c : Nat) (f : Context → Context) : (s.modCtx c f).parts = s.parts := by unfold State.modCtx; split <;> rfl
@[simp] theorem modCtx_absentTrains (s : State) (c : Nat) (f : Context → Context) : (s.modCtx c f).absentTrains = s.absentTrains := by unfold State.modCtx; split <;> rfl
@[simp] theorem modCtx_reclaims (s : State) (c : Nat) (f : Context → Context) : (s.modCtx c f).reclaims = s.reclaims := by unfold State.modCtx; split <;> rfl
@[simp] theorem modCtx_keys (s : State) (c : Nat) (f : Context → Context) : (s.modCtx c f).keys = s.keys := by unfold State.modCtx; split <;> rfl
@[simp] theorem modCtx_nextKeySet (s : State) (c : Nat) (f : Context → Context) : (s.modCtx c f).nextKeySet = s.nextKeySet := by unfold State.modCtx; split <;> rfl
@[simp] theorem modCtx_moving (s : State) (c : Nat) (f : Context → Context) : (s.modCtx c f).moving = s.moving := by unfold State.modCtx; split <;> rfl
@[simp] theorem modCtx_retired (s : State) (c : Nat) (f : Context → Context) : (s.modCtx c f).retired = s.retired := by unfold State.modCtx; split <;> rfl
@[simp] theorem modCtx_slices (s : State) (c : Nat) (f : Context → Context) : (s.modCtx c f).slices = s.slices := by unfold State.modCtx; split <;> rfl
@[simp] theorem modCtx_blankSlots (s : State) (c : Nat) (f : Context → Context) : (s.modCtx c f).blankSlots = s.blankSlots := by unfold State.modCtx; split <;> rfl
@[simp] theorem modCtx_boot (s : State) (c : Nat) (f : Context → Context) : (s.modCtx c f).boot = s.boot := by unfold State.modCtx; split <;> rfl
@[simp] theorem modCtx_host (s : State) (c : Nat) (f : Context → Context) : (s.modCtx c f).host = s.host := by unfold State.modCtx; split <;> rfl
@[simp] theorem modCtx_mgmt (s : State) (c : Nat) (f : Context → Context) : (s.modCtx c f).mgmt = s.mgmt := by unfold State.modCtx; split <;> rfl
@[simp] theorem modCtx_portsDown (s : State) (c : Nat) (f : Context → Context) : (s.modCtx c f).portsDown = s.portsDown := by unfold State.modCtx; split <;> rfl
@[simp] theorem modCtx_cxlDown (s : State) (c : Nat) (f : Context → Context) : (s.modCtx c f).cxlDown = s.cxlDown := by unfold State.modCtx; split <;> rfl
@[simp] theorem modCtx_outbox (s : State) (c : Nat) (f : Context → Context) : (s.modCtx c f).outbox = s.outbox := by unfold State.modCtx; split <;> rfl
@[simp] theorem modCtx_remote (s : State) (c : Nat) (f : Context → Context) : (s.modCtx c f).remote = s.remote := by unfold State.modCtx; split <;> rfl
@[simp] theorem modCtx_inbound (s : State) (c : Nat) (f : Context → Context) : (s.modCtx c f).inbound = s.inbound := by unfold State.modCtx; split <;> rfl

-- ## modDrove

@[simp] theorem modDrove_agenda (s : State) (d : Nat) (f : Drove → Drove) : (s.modDrove d f).agenda = s.agenda := by unfold State.modDrove; split <;> rfl
@[simp] theorem modDrove_cur (s : State) (d : Nat) (f : Drove → Drove) : (s.modDrove d f).cur = s.cur := by unfold State.modDrove; split <;> rfl
@[simp] theorem modDrove_free (s : State) (d : Nat) (f : Drove → Drove) : (s.modDrove d f).free = s.free := by unfold State.modDrove; split <;> rfl
@[simp] theorem modDrove_turn (s : State) (d : Nat) (f : Drove → Drove) : (s.modDrove d f).turn = s.turn := by unfold State.modDrove; split <;> rfl
@[simp] theorem modDrove_nextId (s : State) (d : Nat) (f : Drove → Drove) : (s.modDrove d f).nextId = s.nextId := by unfold State.modDrove; split <;> rfl
@[simp] theorem modDrove_clk (s : State) (d : Nat) (f : Drove → Drove) : (s.modDrove d f).clk = s.clk := by unfold State.modDrove; split <;> rfl
@[simp] theorem modDrove_mem (s : State) (d : Nat) (f : Drove → Drove) : (s.modDrove d f).mem = s.mem := by unfold State.modDrove; split <;> rfl
@[simp] theorem modDrove_seals (s : State) (d : Nat) (f : Drove → Drove) : (s.modDrove d f).seals = s.seals := by unfold State.modDrove; split <;> rfl
@[simp] theorem modDrove_poison (s : State) (d : Nat) (f : Drove → Drove) : (s.modDrove d f).poison = s.poison := by unfold State.modDrove; split <;> rfl
@[simp] theorem modDrove_l2 (s : State) (d : Nat) (f : Drove → Drove) : (s.modDrove d f).l2 = s.l2 := by unfold State.modDrove; split <;> rfl
@[simp] theorem modDrove_l1 (s : State) (d : Nat) (f : Drove → Drove) : (s.modDrove d f).l1 = s.l1 := by unfold State.modDrove; split <;> rfl
@[simp] theorem modDrove_icache (s : State) (d : Nat) (f : Drove → Drove) : (s.modDrove d f).icache = s.icache := by unfold State.modDrove; split <;> rfl
@[simp] theorem modDrove_nmuBuf (s : State) (d : Nat) (f : Drove → Drove) : (s.modDrove d f).nmuBuf = s.nmuBuf := by unfold State.modDrove; split <;> rfl
@[simp] theorem modDrove_tlb (s : State) (d : Nat) (f : Drove → Drove) : (s.modDrove d f).tlb = s.tlb := by unfold State.modDrove; split <;> rfl
@[simp] theorem modDrove_rmap (s : State) (d : Nat) (f : Drove → Drove) : (s.modDrove d f).rmap = s.rmap := by unfold State.modDrove; split <;> rfl
@[simp] theorem modDrove_posted (s : State) (d : Nat) (f : Drove → Drove) : (s.modDrove d f).posted = s.posted := by unfold State.modDrove; split <;> rfl
@[simp] theorem modDrove_locks (s : State) (d : Nat) (f : Drove → Drove) : (s.modDrove d f).locks = s.locks := by unfold State.modDrove; split <;> rfl
@[simp] theorem modDrove_teams (s : State) (d : Nat) (f : Drove → Drove) : (s.modDrove d f).teams = s.teams := by unfold State.modDrove; split <;> rfl
@[simp] theorem modDrove_coaches (s : State) (d : Nat) (f : Drove → Drove) : (s.modDrove d f).coaches = s.coaches := by unfold State.modDrove; split <;> rfl
@[simp] theorem modDrove_drays (s : State) (d : Nat) (f : Drove → Drove) : (s.modDrove d f).drays = s.drays := by unfold State.modDrove; split <;> rfl
@[simp] theorem modDrove_colls (s : State) (d : Nat) (f : Drove → Drove) : (s.modDrove d f).colls = s.colls := by unfold State.modDrove; split <;> rfl
@[simp] theorem modDrove_links (s : State) (d : Nat) (f : Drove → Drove) : (s.modDrove d f).links = s.links := by unfold State.modDrove; split <;> rfl
@[simp] theorem modDrove_banks (s : State) (d : Nat) (f : Drove → Drove) : (s.modDrove d f).banks = s.banks := by unfold State.modDrove; split <;> rfl
@[simp] theorem modDrove_bankFlight (s : State) (d : Nat) (f : Drove → Drove) : (s.modDrove d f).bankFlight = s.bankFlight := by unfold State.modDrove; split <;> rfl
@[simp] theorem modDrove_ctxs (s : State) (d : Nat) (f : Drove → Drove) : (s.modDrove d f).ctxs = s.ctxs := by unfold State.modDrove; split <;> rfl
@[simp] theorem modDrove_parts (s : State) (d : Nat) (f : Drove → Drove) : (s.modDrove d f).parts = s.parts := by unfold State.modDrove; split <;> rfl
@[simp] theorem modDrove_absentTrains (s : State) (d : Nat) (f : Drove → Drove) : (s.modDrove d f).absentTrains = s.absentTrains := by unfold State.modDrove; split <;> rfl
@[simp] theorem modDrove_reclaims (s : State) (d : Nat) (f : Drove → Drove) : (s.modDrove d f).reclaims = s.reclaims := by unfold State.modDrove; split <;> rfl
@[simp] theorem modDrove_keys (s : State) (d : Nat) (f : Drove → Drove) : (s.modDrove d f).keys = s.keys := by unfold State.modDrove; split <;> rfl
@[simp] theorem modDrove_nextKeySet (s : State) (d : Nat) (f : Drove → Drove) : (s.modDrove d f).nextKeySet = s.nextKeySet := by unfold State.modDrove; split <;> rfl
@[simp] theorem modDrove_moving (s : State) (d : Nat) (f : Drove → Drove) : (s.modDrove d f).moving = s.moving := by unfold State.modDrove; split <;> rfl
@[simp] theorem modDrove_retired (s : State) (d : Nat) (f : Drove → Drove) : (s.modDrove d f).retired = s.retired := by unfold State.modDrove; split <;> rfl
@[simp] theorem modDrove_slices (s : State) (d : Nat) (f : Drove → Drove) : (s.modDrove d f).slices = s.slices := by unfold State.modDrove; split <;> rfl
@[simp] theorem modDrove_blankSlots (s : State) (d : Nat) (f : Drove → Drove) : (s.modDrove d f).blankSlots = s.blankSlots := by unfold State.modDrove; split <;> rfl
@[simp] theorem modDrove_boot (s : State) (d : Nat) (f : Drove → Drove) : (s.modDrove d f).boot = s.boot := by unfold State.modDrove; split <;> rfl
@[simp] theorem modDrove_host (s : State) (d : Nat) (f : Drove → Drove) : (s.modDrove d f).host = s.host := by unfold State.modDrove; split <;> rfl
@[simp] theorem modDrove_mgmt (s : State) (d : Nat) (f : Drove → Drove) : (s.modDrove d f).mgmt = s.mgmt := by unfold State.modDrove; split <;> rfl
@[simp] theorem modDrove_portsDown (s : State) (d : Nat) (f : Drove → Drove) : (s.modDrove d f).portsDown = s.portsDown := by unfold State.modDrove; split <;> rfl
@[simp] theorem modDrove_cxlDown (s : State) (d : Nat) (f : Drove → Drove) : (s.modDrove d f).cxlDown = s.cxlDown := by unfold State.modDrove; split <;> rfl
@[simp] theorem modDrove_outbox (s : State) (d : Nat) (f : Drove → Drove) : (s.modDrove d f).outbox = s.outbox := by unfold State.modDrove; split <;> rfl
@[simp] theorem modDrove_remote (s : State) (d : Nat) (f : Drove → Drove) : (s.modDrove d f).remote = s.remote := by unfold State.modDrove; split <;> rfl
@[simp] theorem modDrove_inbound (s : State) (d : Nat) (f : Drove → Drove) : (s.modDrove d f).inbound = s.inbound := by unfold State.modDrove; split <;> rfl

-- ## modPart

@[simp] theorem modPart_agenda (s : State) (p : Nat) (f : Partition → Partition) : (s.modPart p f).agenda = s.agenda := by unfold State.modPart; split <;> rfl
@[simp] theorem modPart_cur (s : State) (p : Nat) (f : Partition → Partition) : (s.modPart p f).cur = s.cur := by unfold State.modPart; split <;> rfl
@[simp] theorem modPart_free (s : State) (p : Nat) (f : Partition → Partition) : (s.modPart p f).free = s.free := by unfold State.modPart; split <;> rfl
@[simp] theorem modPart_turn (s : State) (p : Nat) (f : Partition → Partition) : (s.modPart p f).turn = s.turn := by unfold State.modPart; split <;> rfl
@[simp] theorem modPart_nextId (s : State) (p : Nat) (f : Partition → Partition) : (s.modPart p f).nextId = s.nextId := by unfold State.modPart; split <;> rfl
@[simp] theorem modPart_clk (s : State) (p : Nat) (f : Partition → Partition) : (s.modPart p f).clk = s.clk := by unfold State.modPart; split <;> rfl
@[simp] theorem modPart_mem (s : State) (p : Nat) (f : Partition → Partition) : (s.modPart p f).mem = s.mem := by unfold State.modPart; split <;> rfl
@[simp] theorem modPart_seals (s : State) (p : Nat) (f : Partition → Partition) : (s.modPart p f).seals = s.seals := by unfold State.modPart; split <;> rfl
@[simp] theorem modPart_poison (s : State) (p : Nat) (f : Partition → Partition) : (s.modPart p f).poison = s.poison := by unfold State.modPart; split <;> rfl
@[simp] theorem modPart_l2 (s : State) (p : Nat) (f : Partition → Partition) : (s.modPart p f).l2 = s.l2 := by unfold State.modPart; split <;> rfl
@[simp] theorem modPart_l1 (s : State) (p : Nat) (f : Partition → Partition) : (s.modPart p f).l1 = s.l1 := by unfold State.modPart; split <;> rfl
@[simp] theorem modPart_icache (s : State) (p : Nat) (f : Partition → Partition) : (s.modPart p f).icache = s.icache := by unfold State.modPart; split <;> rfl
@[simp] theorem modPart_nmuBuf (s : State) (p : Nat) (f : Partition → Partition) : (s.modPart p f).nmuBuf = s.nmuBuf := by unfold State.modPart; split <;> rfl
@[simp] theorem modPart_tlb (s : State) (p : Nat) (f : Partition → Partition) : (s.modPart p f).tlb = s.tlb := by unfold State.modPart; split <;> rfl
@[simp] theorem modPart_rmap (s : State) (p : Nat) (f : Partition → Partition) : (s.modPart p f).rmap = s.rmap := by unfold State.modPart; split <;> rfl
@[simp] theorem modPart_posted (s : State) (p : Nat) (f : Partition → Partition) : (s.modPart p f).posted = s.posted := by unfold State.modPart; split <;> rfl
@[simp] theorem modPart_locks (s : State) (p : Nat) (f : Partition → Partition) : (s.modPart p f).locks = s.locks := by unfold State.modPart; split <;> rfl
@[simp] theorem modPart_teams (s : State) (p : Nat) (f : Partition → Partition) : (s.modPart p f).teams = s.teams := by unfold State.modPart; split <;> rfl
@[simp] theorem modPart_droves (s : State) (p : Nat) (f : Partition → Partition) : (s.modPart p f).droves = s.droves := by unfold State.modPart; split <;> rfl
@[simp] theorem modPart_coaches (s : State) (p : Nat) (f : Partition → Partition) : (s.modPart p f).coaches = s.coaches := by unfold State.modPart; split <;> rfl
@[simp] theorem modPart_drays (s : State) (p : Nat) (f : Partition → Partition) : (s.modPart p f).drays = s.drays := by unfold State.modPart; split <;> rfl
@[simp] theorem modPart_colls (s : State) (p : Nat) (f : Partition → Partition) : (s.modPart p f).colls = s.colls := by unfold State.modPart; split <;> rfl
@[simp] theorem modPart_links (s : State) (p : Nat) (f : Partition → Partition) : (s.modPart p f).links = s.links := by unfold State.modPart; split <;> rfl
@[simp] theorem modPart_banks (s : State) (p : Nat) (f : Partition → Partition) : (s.modPart p f).banks = s.banks := by unfold State.modPart; split <;> rfl
@[simp] theorem modPart_bankFlight (s : State) (p : Nat) (f : Partition → Partition) : (s.modPart p f).bankFlight = s.bankFlight := by unfold State.modPart; split <;> rfl
@[simp] theorem modPart_ctxs (s : State) (p : Nat) (f : Partition → Partition) : (s.modPart p f).ctxs = s.ctxs := by unfold State.modPart; split <;> rfl
@[simp] theorem modPart_absentTrains (s : State) (p : Nat) (f : Partition → Partition) : (s.modPart p f).absentTrains = s.absentTrains := by unfold State.modPart; split <;> rfl
@[simp] theorem modPart_reclaims (s : State) (p : Nat) (f : Partition → Partition) : (s.modPart p f).reclaims = s.reclaims := by unfold State.modPart; split <;> rfl
@[simp] theorem modPart_keys (s : State) (p : Nat) (f : Partition → Partition) : (s.modPart p f).keys = s.keys := by unfold State.modPart; split <;> rfl
@[simp] theorem modPart_nextKeySet (s : State) (p : Nat) (f : Partition → Partition) : (s.modPart p f).nextKeySet = s.nextKeySet := by unfold State.modPart; split <;> rfl
@[simp] theorem modPart_moving (s : State) (p : Nat) (f : Partition → Partition) : (s.modPart p f).moving = s.moving := by unfold State.modPart; split <;> rfl
@[simp] theorem modPart_retired (s : State) (p : Nat) (f : Partition → Partition) : (s.modPart p f).retired = s.retired := by unfold State.modPart; split <;> rfl
@[simp] theorem modPart_slices (s : State) (p : Nat) (f : Partition → Partition) : (s.modPart p f).slices = s.slices := by unfold State.modPart; split <;> rfl
@[simp] theorem modPart_blankSlots (s : State) (p : Nat) (f : Partition → Partition) : (s.modPart p f).blankSlots = s.blankSlots := by unfold State.modPart; split <;> rfl
@[simp] theorem modPart_boot (s : State) (p : Nat) (f : Partition → Partition) : (s.modPart p f).boot = s.boot := by unfold State.modPart; split <;> rfl
@[simp] theorem modPart_host (s : State) (p : Nat) (f : Partition → Partition) : (s.modPart p f).host = s.host := by unfold State.modPart; split <;> rfl
@[simp] theorem modPart_mgmt (s : State) (p : Nat) (f : Partition → Partition) : (s.modPart p f).mgmt = s.mgmt := by unfold State.modPart; split <;> rfl
@[simp] theorem modPart_portsDown (s : State) (p : Nat) (f : Partition → Partition) : (s.modPart p f).portsDown = s.portsDown := by unfold State.modPart; split <;> rfl
@[simp] theorem modPart_cxlDown (s : State) (p : Nat) (f : Partition → Partition) : (s.modPart p f).cxlDown = s.cxlDown := by unfold State.modPart; split <;> rfl
@[simp] theorem modPart_outbox (s : State) (p : Nat) (f : Partition → Partition) : (s.modPart p f).outbox = s.outbox := by unfold State.modPart; split <;> rfl
@[simp] theorem modPart_remote (s : State) (p : Nat) (f : Partition → Partition) : (s.modPart p f).remote = s.remote := by unfold State.modPart; split <;> rfl
@[simp] theorem modPart_inbound (s : State) (p : Nat) (f : Partition → Partition) : (s.modPart p f).inbound = s.inbound := by unfold State.modPart; split <;> rfl

-- ## fresh

@[simp] theorem fresh_agenda (s : State) : s.fresh.2.agenda = s.agenda := rfl
@[simp] theorem fresh_cur (s : State) : s.fresh.2.cur = s.cur := rfl
@[simp] theorem fresh_free (s : State) : s.fresh.2.free = s.free := rfl
@[simp] theorem fresh_turn (s : State) : s.fresh.2.turn = s.turn := rfl
@[simp] theorem fresh_clk (s : State) : s.fresh.2.clk = s.clk := rfl
@[simp] theorem fresh_mem (s : State) : s.fresh.2.mem = s.mem := rfl
@[simp] theorem fresh_seals (s : State) : s.fresh.2.seals = s.seals := rfl
@[simp] theorem fresh_poison (s : State) : s.fresh.2.poison = s.poison := rfl
@[simp] theorem fresh_l2 (s : State) : s.fresh.2.l2 = s.l2 := rfl
@[simp] theorem fresh_l1 (s : State) : s.fresh.2.l1 = s.l1 := rfl
@[simp] theorem fresh_icache (s : State) : s.fresh.2.icache = s.icache := rfl
@[simp] theorem fresh_nmuBuf (s : State) : s.fresh.2.nmuBuf = s.nmuBuf := rfl
@[simp] theorem fresh_tlb (s : State) : s.fresh.2.tlb = s.tlb := rfl
@[simp] theorem fresh_rmap (s : State) : s.fresh.2.rmap = s.rmap := rfl
@[simp] theorem fresh_posted (s : State) : s.fresh.2.posted = s.posted := rfl
@[simp] theorem fresh_locks (s : State) : s.fresh.2.locks = s.locks := rfl
@[simp] theorem fresh_teams (s : State) : s.fresh.2.teams = s.teams := rfl
@[simp] theorem fresh_droves (s : State) : s.fresh.2.droves = s.droves := rfl
@[simp] theorem fresh_coaches (s : State) : s.fresh.2.coaches = s.coaches := rfl
@[simp] theorem fresh_drays (s : State) : s.fresh.2.drays = s.drays := rfl
@[simp] theorem fresh_colls (s : State) : s.fresh.2.colls = s.colls := rfl
@[simp] theorem fresh_links (s : State) : s.fresh.2.links = s.links := rfl
@[simp] theorem fresh_banks (s : State) : s.fresh.2.banks = s.banks := rfl
@[simp] theorem fresh_bankFlight (s : State) : s.fresh.2.bankFlight = s.bankFlight := rfl
@[simp] theorem fresh_ctxs (s : State) : s.fresh.2.ctxs = s.ctxs := rfl
@[simp] theorem fresh_parts (s : State) : s.fresh.2.parts = s.parts := rfl
@[simp] theorem fresh_absentTrains (s : State) : s.fresh.2.absentTrains = s.absentTrains := rfl
@[simp] theorem fresh_reclaims (s : State) : s.fresh.2.reclaims = s.reclaims := rfl
@[simp] theorem fresh_keys (s : State) : s.fresh.2.keys = s.keys := rfl
@[simp] theorem fresh_nextKeySet (s : State) : s.fresh.2.nextKeySet = s.nextKeySet := rfl
@[simp] theorem fresh_moving (s : State) : s.fresh.2.moving = s.moving := rfl
@[simp] theorem fresh_retired (s : State) : s.fresh.2.retired = s.retired := rfl
@[simp] theorem fresh_slices (s : State) : s.fresh.2.slices = s.slices := rfl
@[simp] theorem fresh_blankSlots (s : State) : s.fresh.2.blankSlots = s.blankSlots := rfl
@[simp] theorem fresh_boot (s : State) : s.fresh.2.boot = s.boot := rfl
@[simp] theorem fresh_host (s : State) : s.fresh.2.host = s.host := rfl
@[simp] theorem fresh_mgmt (s : State) : s.fresh.2.mgmt = s.mgmt := rfl
@[simp] theorem fresh_portsDown (s : State) : s.fresh.2.portsDown = s.portsDown := rfl
@[simp] theorem fresh_cxlDown (s : State) : s.fresh.2.cxlDown = s.cxlDown := rfl
@[simp] theorem fresh_outbox (s : State) : s.fresh.2.outbox = s.outbox := rfl
@[simp] theorem fresh_remote (s : State) : s.fresh.2.remote = s.remote := rfl
@[simp] theorem fresh_inbound (s : State) : s.fresh.2.inbound = s.inbound := rfl

-- ## what an update writes is what is read

@[simp] theorem team_setTeam_self (s : State) (tid : Nat) (t : Team) : (s.setTeam tid t).team tid = some t := by
  simp [State.team, State.setTeam]
theorem team_setTeam_ne (s : State) {tid k : Nat} (t : Team) (h : k ≠ tid) : (s.setTeam tid t).team k = s.team k := by
  simp [State.team, State.setTeam, Store.find_insert_ne _ _ h]
theorem modTeam_some {s : State} {tid : Nat} {t : Team} (f : Team → Team) (h : s.team tid = some t) :
    s.modTeam tid f = s.setTeam tid (f t) := by simp [State.modTeam, h]
theorem modTeam_none {s : State} {tid : Nat} (f : Team → Team) (h : s.team tid = none) : s.modTeam tid f = s := by
  simp [State.modTeam, h]
theorem team_modTeam_self (s : State) (tid : Nat) (f : Team → Team) : (s.modTeam tid f).team tid = (s.team tid).map f := by
  cases h : s.team tid <;> simp [State.modTeam, h]
theorem team_modTeam_ne (s : State) {tid k : Nat} (f : Team → Team) (h : k ≠ tid) : (s.modTeam tid f).team k = s.team k := by
  cases h1 : s.team tid <;> simp [State.modTeam, h1, team_setTeam_ne s _ h]
theorem ctx_modCtx_self (s : State) (c : Nat) (f : Context → Context) : (s.modCtx c f).ctx c = (s.ctx c).map f := by
  cases h : s.ctx c with
  | none => simp [State.modCtx, h]
  | some x => simp only [State.modCtx, h]; simp [State.ctx]
theorem ctx_modCtx_ne (s : State) {c k : Nat} (f : Context → Context) (h : k ≠ c) : (s.modCtx c f).ctx k = s.ctx k := by
  unfold State.modCtx; split <;> simp [State.ctx, Store.find_insert_ne _ _ h]
theorem drove_modDrove_self (s : State) (d : Nat) (f : Drove → Drove) : (s.modDrove d f).drove d = (s.drove d).map f := by
  cases h : s.drove d with
  | none => simp [State.modDrove, h]
  | some x => simp only [State.modDrove, h]; simp [State.drove]
theorem drove_modDrove_ne (s : State) {d k : Nat} (f : Drove → Drove) (h : k ≠ d) : (s.modDrove d f).drove k = s.drove k := by
  unfold State.modDrove; split <;> simp [State.drove, Store.find_insert_ne _ _ h]
theorem part_modPart_self (s : State) (p : Nat) (f : Partition → Partition) : (s.modPart p f).part p = (s.part p).map f := by
  cases h : s.part p with
  | none => simp [State.modPart, h]
  | some x => simp only [State.modPart, h]; simp [State.part]
theorem part_modPart_ne (s : State) {p k : Nat} (f : Partition → Partition) (h : k ≠ p) : (s.modPart p f).part k = s.part k := by
  unfold State.modPart; split <;> simp [State.part, Store.find_insert_ne _ _ h]
@[simp] theorem coach_modCoach_self (s : State) (c : Nat) (f : Coach → Coach) : (s.modCoach c f).coach c = f (s.coach c) := by
  simp [State.coach, State.modCoach]
theorem coach_modCoach_ne (s : State) {c k : Nat} (f : Coach → Coach) (h : k ≠ c) : (s.modCoach c f).coach k = s.coach k := by
  simp [State.coach, State.modCoach, Store.find_insert_ne _ _ h]
@[simp] theorem key_setKey_self (s : State) (k : Nat) (v : KeySlot) : (s.setKey k v).key k = v := by
  simp [State.key, State.setKey]
theorem key_setKey_ne (s : State) {k j : Nat} (v : KeySlot) (h : j ≠ k) : (s.setKey k v).key j = s.key j := by
  simp [State.key, State.setKey, Store.find_insert_ne _ _ h]
@[simp] theorem bank_setBank_self (s : State) (u : Nat) (b : BankUnit) : (s.setBank u b).bank u = b := by
  simp [State.bank, State.setBank]
theorem bank_setBank_ne (s : State) {u j : Nat} (b : BankUnit) (h : j ≠ u) : (s.setBank u b).bank j = s.bank j := by
  simp [State.bank, State.setBank, Store.find_insert_ne _ _ h]
@[simp] theorem team_tick (s : State) (n tid : Nat) : (s.tick n).team tid = s.team tid := rfl

end Sys2Proof.Machine
end

