-- ==== Sys2Proof/Laws/Memory.lean ====
section
/-! SUPPORT. The laws of memory: a read after a write, and that every operation that changes memory keeps its canonical
form. -/
namespace Sys2Proof.Machine

-- ## bytes

/-- The byte a write puts at offset i: byte i of the number, little-endian; every other key is unchanged. -/
theorem get_writeBytes (m : List (Nat × Byte)) (key n v k : Nat) :
    Store.get 0 (writeBytes m key n v) k =
      if key ≤ k ∧ k < key + n then BitVec.ofNat 8 (v / 256 ^ (k - key)) else Store.get 0 m k := by
  induction n generalizing m key v with
  | zero => simp [writeBytes] <;> omega
  | succ n ih =>
    rw [writeBytes, ih]
    by_cases h : k = key
    · subst h; simp <;> (intro h; omega)
    · rw [Store.get_put_ne _ _ _ h]
      by_cases h1 : key ≤ k ∧ k < key + (n + 1)
      · rw [if_pos (by omega), if_pos h1, Nat.div_div_eq_div_mul, ← Nat.pow_succ',
          show (k - (key + 1)).succ = k - key by omega]
      · rw [if_neg (by omega), if_neg h1]

/-- Reading bytes outside the written ones. -/
theorem readBytes_congr {m m' : List (Nat × Byte)} {key n : Nat}
    (h : ∀ k, key ≤ k → k < key + n → Store.get 0 m' k = Store.get 0 m k) : readBytes m' key n = readBytes m key n := by
  induction n generalizing key with
  | zero => rfl
  | succ n ih =>
    simp only [readBytes]
    rw [h key (Nat.le_refl _) (by omega), ih (fun k h1 h2 => h k (by omega) (by omega))]

/-- A read of the bytes written gives the number written, modulo its width. -/
theorem readBytes_writeBytes (m : List (Nat × Byte)) (key n v : Nat) :
    readBytes (writeBytes m key n v) key n = v % 256 ^ n := by
  induction n generalizing m key v with
  | zero => simp [readBytes, Nat.mod_one]
  | succ n ih =>
    have h0 : Store.get 0 (writeBytes m key (n + 1) v) key = BitVec.ofNat 8 v := by
      rw [get_writeBytes]; simp
    have h1 : readBytes (writeBytes m key (n + 1) v) (key + 1) n = v / 256 % 256 ^ n := by
      rw [writeBytes]; exact ih _ _ _
    simp only [readBytes, h0, h1, BitVec.toNat_ofNat]
    show v % 256 + 256 * (v / 256 % 256 ^ n) = v % 256 ^ (n + 1)
    rw [Nat.pow_succ, Nat.mul_comm (256 ^ n) 256, Nat.mod_mul]

/-- A byte outside the words written is unchanged. -/
theorem get_writeWords_out (m : List (Nat × Byte)) (key : Nat) (ws : List Word) (k : Nat)
    (h : k < key ∨ key + 4 * ws.length ≤ k) : Store.get 0 (writeWords m key ws) k = Store.get 0 m k := by
  induction ws generalizing m key with
  | nil => rfl
  | cons w ws ih =>
    simp only [List.length_cons] at h
    rw [writeWords, ih _ _ (by omega), get_writeBytes, if_neg (by omega)]

/-- Cleared bytes read zero, the others as before. -/
theorem get_clearBytes (m : List (Nat × Byte)) (lo hi k : Nat) :
    Store.get 0 (clearBytes m lo hi) k = if lo ≤ k ∧ k < hi then 0 else Store.get 0 m k := by
  induction m with
  | nil => simp [clearBytes]
  | cons e r ih =>
    obtain ⟨q, v⟩ := e
    unfold clearBytes at *
    rw [List.filter_cons]
    by_cases h : (decide (q < lo) || decide (hi ≤ q)) = true
    · rw [if_pos h]
      by_cases h1 : q = k
      · subst h1
        have : ¬(lo ≤ q ∧ q < hi) := by simp at h; omega
        simp [Store.get, this]
      · simp only [Store.get, h1, if_false]; exact ih
    · rw [if_neg h, ih]
      by_cases h1 : q = k
      · subst h1
        have : lo ≤ q ∧ q < hi := by simp at h; omega
        simp [this]
      · simp [Store.get, h1]

-- ## the canonical form

@[simp] theorem wf_mem_nil : Memory.wf [] = true := rfl

theorem wf_mem_put {m : List (Nat × Byte)} (k : Nat) (b : Byte) (h : Memory.wf m = true) :
    Memory.wf (Store.put 0 m k b) = true := Store.wf_put k b h

theorem wf_mem_filter {m : List (Nat × Byte)} (f : Nat × Byte → Bool) (h : Memory.wf m = true) :
    Memory.wf (m.filter f) = true := Store.wf_filter f h

theorem wf_writeBytes {m : List (Nat × Byte)} (key n v : Nat) (h : Memory.wf m = true) :
    Memory.wf (writeBytes m key n v) = true := by
  induction n generalizing m key v with
  | zero => exact h
  | succ n ih => exact ih _ _ (wf_mem_put _ _ h)

theorem wf_writeWords {m : List (Nat × Byte)} (key : Nat) (ws : List Word) (h : Memory.wf m = true) :
    Memory.wf (writeWords m key ws) = true := by
  induction ws generalizing m key with
  | nil => exact h
  | cons w ws ih => exact ih _ (wf_writeBytes _ _ _ h)

theorem wf_clearBytes {m : List (Nat × Byte)} (lo hi : Nat) (h : Memory.wf m = true) :
    Memory.wf (clearBytes m lo hi) = true := wf_mem_filter _ h

/-- A fold of operations that keep the form keeps it. -/
theorem wf_mem_foldl {α : Type} (f : List (Nat × Byte) → α → List (Nat × Byte))
    (hf : ∀ m x, Memory.wf m = true → Memory.wf (f m x) = true) (xs : List α) {m : List (Nat × Byte)}
    (h : Memory.wf m = true) : Memory.wf (xs.foldl f m) = true := by
  induction xs generalizing m with
  | nil => exact h
  | cons x xs ih => exact ih (hf _ _ h)

/-- A fold of operations on the state that keep memory canonical keeps it. -/
theorem kept_foldl {α : Type} (f : State → α → State) (hf : ∀ s x, Kept s → Kept (f s x)) (xs : List α) {s : State}
    (h : Kept s) : Kept (xs.foldl f s) := by
  induction xs generalizing s with
  | nil => exact h
  | cons x xs ih => exact ih (hf _ _ h)

/-- Memory that has not changed stays canonical. -/
theorem kept_of_mem {s s' : State} (h : Kept s) (e : s'.mem = s.mem) : Kept s' := by
  unfold Kept; rw [e]; exact h

-- ## each operation that changes memory

theorem kept_updateLeaf {s : State} (stack asid va level k : Nat) (f : Nat → Nat) (h : Kept s) :
    Kept (updateLeaf s stack asid va level k f) := wf_writeBytes _ _ _ h

@[simp] theorem tlbInsert_mem (s : State) (e : TlbEntry) : (tlbInsert s e).mem = s.mem := rfl

@[simp] theorem sealBlock_mem (s : State) (t : Trans) : (sealBlock s t).mem = s.mem := by
  unfold sealBlock; split <;> rfl

@[simp] theorem noteRequest_mem (s : State) (key : Nat) (linear write : Bool) : (noteRequest s key linear write).mem = s.mem := by
  unfold noteRequest; split <;> rfl

theorem kept_noteRequest {s : State} (key : Nat) (linear write : Bool) (h : Kept s) : Kept (noteRequest s key linear write) :=
  kept_of_mem h (noteRequest_mem s key linear write)

theorem kept_nmuWriteBack {s : State} (l : NmuLine) (h : Kept s) : Kept (nmuWriteBack s l) := by
  unfold nmuWriteBack; split
  · exact wf_writeWords _ _ (kept_noteRequest _ _ _ h)
  · exact h

theorem kept_baseWrite {s : State} (t : Trans) (ws : List Word) (h : Kept s) : Kept (baseWrite s t ws) := by
  have h' : Kept (sealBlock s t) := kept_of_mem h (sealBlock_mem s t)
  unfold baseWrite; simp only
  split
  · exact h'
  · exact wf_writeWords _ _ (kept_noteRequest _ _ _ h')

theorem kept_nmuFill {s : State} (t : Trans) (h : Kept s) : Kept (nmuFill s t) := by
  unfold nmuFill; simp only
  split
  · exact h
  · refine kept_noteRequest _ _ _ ?_
    split
    · exact h
    · split
      · exact kept_nmuWriteBack _ h
      · exact h

theorem kept_dropRow {s : State} (r : OpenRow) (h : Kept s) : Kept (dropRow s r) := wf_writeWords _ _ h

theorem kept_freshenFrame {s : State} (level pte : Nat) (h : Kept s) : Kept (freshenFrame s level pte) := by
  unfold freshenFrame; split
  · exact h
  · exact wf_mem_filter _ h

theorem kept_writeEntries {s : State} (fix : PageFix) (h : Kept s) : Kept (writeEntries s fix) :=
  wf_mem_foldl _ (fun _ _ h => wf_mem_foldl _ (fun _ _ h => wf_writeBytes _ _ _ h) _ h) _ h

theorem kept_restoreLine {s : State} (ctx level pte va : Nat) (h : Kept s) : Kept (restoreLine ctx level pte s va) := by
  unfold restoreLine; dsimp only
  split
  · split
    · exact h
    · exact kept_of_mem (s := { s with mem := _ }) (wf_writeWords _ _ h) (sealBlock_mem _ _)
  · exact h

theorem kept_restoreRetired {s : State} (l : Nat × Nat × Nat × Nat) (h : Kept s) : Kept (restoreRetired s l) := by
  unfold restoreRetired
  split
  · exact h
  · exact kept_foldl _ (fun _ _ h => kept_restoreLine _ _ _ _ h) _ h

@[simp] theorem forgetUnmapped_mem (s : State) : (forgetUnmapped s).mem = s.mem := rfl

theorem kept_forgetUnmapped {s : State} (h : Kept s) : Kept (forgetUnmapped s) := kept_of_mem h (forgetUnmapped_mem s)

theorem kept_applyFix {s s' : State} (fix : PageFix) (h : Kept s) (e : applyFix s fix = some s') : Kept s' := by
  unfold applyFix at e
  extract_lets old s1 changed fresh at e
  split at e
  · cases e
  · cases e
    exact kept_foldl _ (fun _ _ h => kept_restoreRetired _ h) _
      (kept_foldl _ (fun _ _ h => kept_freshenFrame _ _ h) _ (kept_forgetUnmapped (kept_writeEntries fix (kept_forgetUnmapped h))))

theorem kept_stageBytes {s : State} (off : Nat) (bytes : List Byte) (h : Kept s) : Kept (stageBytes s off bytes) := by
  unfold stageBytes; split
  · exact wf_mem_foldl _ (fun _ _ h => wf_mem_put _ _ h) _ h
  · exact h

theorem wf_hostBytes {m : List (Nat × Byte)} (h : Memory.wf m = true) : Memory.wf (hostBytes m) = true :=
  wf_mem_filter _ h

theorem kept_clearLeaves {s : State} (slot : Nat) (h : Kept s) : Kept (clearLeaves s slot) :=
  kept_forgetUnmapped (s := { s with mem := _, tlb := _ })
    (wf_mem_foldl _ (fun _ _ h => by split <;> first | exact wf_clearBytes _ _ h | exact h) _ h)

theorem kept_putBlock {s : State} (linear : Bool) (block : Nat) (bs : List Byte) (h : Kept s) :
    Kept (putBlock s linear block bs) := wf_mem_foldl _ (fun _ _ h => wf_mem_put _ _ h) _ h

theorem kept_loadBytes {s : State} (ctx : Nat) (bs : List (Nat × Byte)) (h : Kept s) : Kept (loadBytes s ctx bs) := by
  unfold loadBytes
  refine kept_foldl _ (fun s e h => ?_) bs h
  split
  · exact wf_mem_put _ _ h
  · exact h

theorem kept_ite {c : Prop} [Decidable c] {a b : State} (ha : Kept a) (hb : Kept b) : Kept (if c then a else b) := by
  split
  · exact ha
  · exact hb

theorem kept_translated {s : State} (ctx va : Nat) (write : Bool) (st level pte : Nat) (walked : Option Nat) (t : Trans)
    (h : Kept s) : Kept (translated s ctx va write st level pte walked t) := by
  unfold translated
  extract_lets asid page s1 s2
  have h1 : Kept s1 := kept_ite (kept_of_mem h rfl) h
  have h2 : Kept s2 := by
    unfold s2
    cases walked with
    | none => exact h1
    | some k => exact kept_of_mem (kept_updateLeaf _ _ _ _ _ _ h1) (tlbInsert_mem _ _)
  refine kept_ite ?_ h2
  split
  · exact kept_updateLeaf _ _ _ _ _ _ h2
  · exact h2

/-- A translation that succeeds leaves the state that `translated` says. -/
theorem translate_ok {s s' : State} {ctx comp va : Nat} {write : Bool} {t : Trans}
    (e : translate s ctx comp va write = .ok (s', t)) :
    ∃ st level pte walked, s' = translated s ctx va write st level pte walked t := by
  unfold translate at e
  extract_lets asid st slices go at e
  have hgo : ∀ level pte walked, go level pte walked = .ok (s', t) → s' = translated s ctx va write st level pte walked t := by
    intro level pte walked hp
    simp only [go] at hp
    repeat' split at hp
    all_goals cases hp
    rfl
  split at e
  · exact ⟨_, _, _, _, hgo _ _ _ e⟩
  · split at e
    · cases e
    · cases e
    · exact ⟨_, _, _, _, hgo _ _ _ e⟩

/-- Translation keeps memory canonical: it changes memory only through the AC and D bits of leaves. -/
theorem kept_translate {s s' : State} {ctx comp va : Nat} {write : Bool} {t : Trans} (h : Kept s)
    (e : translate s ctx comp va write = .ok (s', t)) : Kept s' := by
  obtain ⟨st, level, pte, walked, rfl⟩ := translate_ok e
  exact kept_translated _ _ _ _ _ _ _ _ h

end Sys2Proof.Machine
end

