-- ==== Sys2Proof/Laws/Team.lean ====
section
/-! SUPPORT. What each update of a team's registers and splits leaves alone, and that a register reads as it was
written. -/
namespace Sys2Proof.Machine

-- ## setV

@[simp] theorem setV_ctx (t : Team) (r L : Nat) (x : Word) : (t.setV r L x).ctx = t.ctx := rfl
@[simp] theorem setV_sys (t : Team) (r L : Nat) (x : Word) : (t.setV r L x).sys = t.sys := rfl
@[simp] theorem setV_image (t : Team) (r L : Nat) (x : Word) : (t.setV r L x).image = t.image := rfl
@[simp] theorem setV_drove (t : Team) (r L : Nat) (x : Word) : (t.setV r L x).drove = t.drove := rfl
@[simp] theorem setV_coach (t : Team) (r L : Nat) (x : Word) : (t.setV r L x).coach = t.coach := rfl
@[simp] theorem setV_slot (t : Team) (r L : Nat) (x : Word) : (t.setV r L x).slot = t.slot := rfl
@[simp] theorem setV_comp (t : Team) (r L : Nat) (x : Word) : (t.setV r L x).comp = t.comp := rfl
@[simp] theorem setV_role (t : Team) (r L : Nat) (x : Word) : (t.setV r L x).role = t.role := rfl
@[simp] theorem setV_w (t : Team) (r L : Nat) (x : Word) : (t.setV r L x).w = t.w := rfl
@[simp] theorem setV_teamId (t : Team) (r L : Nat) (x : Word) : (t.setV r L x).teamId = t.teamId := rfl
@[simp] theorem setV_droveId (t : Team) (r L : Nat) (x : Word) : (t.setV r L x).droveId = t.droveId := rfl
@[simp] theorem setV_stage (t : Team) (r L : Nat) (x : Word) : (t.setV r L x).stage = t.stage := rfl
@[simp] theorem setV_droves (t : Team) (r L : Nat) (x : Word) : (t.setV r L x).droves = t.droves := rfl
@[simp] theorem setV_teams (t : Team) (r L : Nat) (x : Word) : (t.setV r L x).teams = t.teams := rfl
@[simp] theorem setV_node (t : Team) (r L : Nat) (x : Word) : (t.setV r L x).node = t.node := rfl
@[simp] theorem setV_asid (t : Team) (r L : Nat) (x : Word) : (t.setV r L x).asid = t.asid := rfl
@[simp] theorem setV_member (t : Team) (r L : Nat) (x : Word) : (t.setV r L x).member = t.member := rfl
@[simp] theorem setV_ptrain (t : Team) (r L : Nat) (x : Word) : (t.setV r L x).ptrain = t.ptrain := rfl
@[simp] theorem setV_codeHi (t : Team) (r L : Nat) (x : Word) : (t.setV r L x).codeHi = t.codeHi := rfl
@[simp] theorem setV_allowed (t : Team) (r L : Nat) (x : Word) : (t.setV r L x).allowed = t.allowed := rfl
@[simp] theorem setV_preds (t : Team) (r L : Nat) (x : Word) : (t.setV r L x).preds = t.preds := rfl
@[simp] theorem setV_scalars (t : Team) (r L : Nat) (x : Word) : (t.setV r L x).scalars = t.scalars := rfl
@[simp] theorem setV_tvec (t : Team) (r L : Nat) (x : Word) : (t.setV r L x).tvec = t.tvec := rfl
@[simp] theorem setV_tpc (t : Team) (r L : Nat) (x : Word) : (t.setV r L x).tpc = t.tpc := rfl
@[simp] theorem setV_tcause (t : Team) (r L : Nat) (x : Word) : (t.setV r L x).tcause = t.tcause := rfl
@[simp] theorem setV_tinfo (t : Team) (r L : Nat) (x : Word) : (t.setV r L x).tinfo = t.tinfo := rfl
@[simp] theorem setV_taddr (t : Team) (r L : Nat) (x : Word) : (t.setV r L x).taddr = t.taddr := rfl
@[simp] theorem setV_gang (t : Team) (r L : Nat) (x : Word) : (t.setV r L x).gang = t.gang := rfl
@[simp] theorem setV_gangRank (t : Team) (r L : Nat) (x : Word) : (t.setV r L x).gangRank = t.gangRank := rfl
@[simp] theorem setV_tsa (t : Team) (r L : Nat) (x : Word) : (t.setV r L x).tsa = t.tsa := rfl
@[simp] theorem setV_tsb (t : Team) (r L : Nat) (x : Word) : (t.setV r L x).tsb = t.tsb := rfl
@[simp] theorem setV_tsca (t : Team) (r L : Nat) (x : Word) : (t.setV r L x).tsca = t.tsca := rfl
@[simp] theorem setV_tscb (t : Team) (r L : Nat) (x : Word) : (t.setV r L x).tscb = t.tscb := rfl
@[simp] theorem setV_events (t : Team) (r L : Nat) (x : Word) : (t.setV r L x).events = t.events := rfl
@[simp] theorem setV_evmask (t : Team) (r L : Nat) (x : Word) : (t.setV r L x).evmask = t.evmask := rfl
@[simp] theorem setV_advisory (t : Team) (r L : Nat) (x : Word) : (t.setV r L x).advisory = t.advisory := rfl
@[simp] theorem setV_seed (t : Team) (r L : Nat) (x : Word) : (t.setV r L x).seed = t.seed := rfl
@[simp] theorem setV_xblk (t : Team) (r L : Nat) (x : Word) : (t.setV r L x).xblk = t.xblk := rfl
@[simp] theorem setV_pend (t : Team) (r L : Nat) (x : Word) : (t.setV r L x).pend = t.pend := rfl
@[simp] theorem setV_nextRec (t : Team) (r L : Nat) (x : Word) : (t.setV r L x).nextRec = t.nextRec := rfl
@[simp] theorem setV_batchCtr (t : Team) (r L : Nat) (x : Word) : (t.setV r L x).batchCtr = t.batchCtr := rfl
@[simp] theorem setV_bankCtr (t : Team) (r L : Nat) (x : Word) : (t.setV r L x).bankCtr = t.bankCtr := rfl
@[simp] theorem setV_copyCtr (t : Team) (r L : Nat) (x : Word) : (t.setV r L x).copyCtr = t.copyCtr := rfl
@[simp] theorem setV_collCtr (t : Team) (r L : Nat) (x : Word) : (t.setV r L x).collCtr = t.collCtr := rfl
@[simp] theorem setV_splits (t : Team) (r L : Nat) (x : Word) : (t.setV r L x).splits = t.splits := rfl
@[simp] theorem setV_nextUid (t : Team) (r L : Nat) (x : Word) : (t.setV r L x).nextUid = t.nextUid := rfl
@[simp] theorem setV_replay (t : Team) (r L : Nat) (x : Word) : (t.setV r L x).replay = t.replay := rfl
@[simp] theorem setV_pending (t : Team) (r L : Nat) (x : Word) : (t.setV r L x).pending = t.pending := rfl
@[simp] theorem setV_parked (t : Team) (r L : Nat) (x : Word) : (t.setV r L x).parked = t.parked := rfl
@[simp] theorem setV_clearing (t : Team) (r L : Nat) (x : Word) : (t.setV r L x).clearing = t.clearing := rfl
@[simp] theorem setV_started (t : Team) (r L : Nat) (x : Word) : (t.setV r L x).started = t.started := rfl
@[simp] theorem setV_retiring (t : Team) (r L : Nat) (x : Word) : (t.setV r L x).retiring = t.retiring := rfl
@[simp] theorem setV_lines (t : Team) (r L : Nat) (x : Word) : (t.setV r L x).lines = t.lines := rfl
@[simp] theorem setV_openMM (t : Team) (r L : Nat) (x : Word) : (t.setV r L x).openMM = t.openMM := rfl
@[simp] theorem setV_batches (t : Team) (r L : Nat) (x : Word) : (t.setV r L x).batches = t.batches := rfl
@[simp] theorem setV_tags (t : Team) (r L : Nat) (x : Word) : (t.setV r L x).tags = t.tags := rfl
@[simp] theorem setV_latch (t : Team) (r L : Nat) (x : Word) : (t.setV r L x).latch = t.latch := rfl
@[simp] theorem setV_accs (t : Team) (r L : Nat) (x : Word) : (t.setV r L x).accs = t.accs := rfl
@[simp] theorem setV_flushing (t : Team) (r L : Nat) (x : Word) : (t.setV r L x).flushing = t.flushing := rfl
@[simp] theorem setV_fault (t : Team) (r L : Nat) (x : Word) : (t.setV r L x).fault = t.fault := rfl
@[simp] theorem setV_issues (t : Team) (r L : Nat) (x : Word) : (t.setV r L x).issues = t.issues := rfl
@[simp] theorem setV_age (t : Team) (r L : Nat) (x : Word) : (t.setV r L x).age = t.age := rfl
@[simp] theorem setV_cause (t : Team) (r L : Nat) (x : Word) : (t.setV r L x).cause = t.cause := rfl
@[simp] theorem setV_running (t : Team) (r L : Nat) (x : Word) : (t.setV r L x).running = t.running := rfl
@[simp] theorem setV_frame (t : Team) (r L : Nat) (x : Word) : (t.setV r L x).frame = t.frame := rfl
@[simp] theorem setV_sysLines (t : Team) (r L : Nat) (x : Word) : (t.setV r L x).sysLines = t.sysLines := rfl
@[simp] theorem setV_remoteWords (t : Team) (r L : Nat) (x : Word) : (t.setV r L x).remoteWords = t.remoteWords := rfl

-- ## modSplit

@[simp] theorem modSplit_ctx (t : Team) (uid : Nat) (f : Split → Split) : (t.modSplit uid f).ctx = t.ctx := rfl
@[simp] theorem modSplit_sys (t : Team) (uid : Nat) (f : Split → Split) : (t.modSplit uid f).sys = t.sys := rfl
@[simp] theorem modSplit_image (t : Team) (uid : Nat) (f : Split → Split) : (t.modSplit uid f).image = t.image := rfl
@[simp] theorem modSplit_drove (t : Team) (uid : Nat) (f : Split → Split) : (t.modSplit uid f).drove = t.drove := rfl
@[simp] theorem modSplit_coach (t : Team) (uid : Nat) (f : Split → Split) : (t.modSplit uid f).coach = t.coach := rfl
@[simp] theorem modSplit_slot (t : Team) (uid : Nat) (f : Split → Split) : (t.modSplit uid f).slot = t.slot := rfl
@[simp] theorem modSplit_comp (t : Team) (uid : Nat) (f : Split → Split) : (t.modSplit uid f).comp = t.comp := rfl
@[simp] theorem modSplit_role (t : Team) (uid : Nat) (f : Split → Split) : (t.modSplit uid f).role = t.role := rfl
@[simp] theorem modSplit_w (t : Team) (uid : Nat) (f : Split → Split) : (t.modSplit uid f).w = t.w := rfl
@[simp] theorem modSplit_teamId (t : Team) (uid : Nat) (f : Split → Split) : (t.modSplit uid f).teamId = t.teamId := rfl
@[simp] theorem modSplit_droveId (t : Team) (uid : Nat) (f : Split → Split) : (t.modSplit uid f).droveId = t.droveId := rfl
@[simp] theorem modSplit_stage (t : Team) (uid : Nat) (f : Split → Split) : (t.modSplit uid f).stage = t.stage := rfl
@[simp] theorem modSplit_droves (t : Team) (uid : Nat) (f : Split → Split) : (t.modSplit uid f).droves = t.droves := rfl
@[simp] theorem modSplit_teams (t : Team) (uid : Nat) (f : Split → Split) : (t.modSplit uid f).teams = t.teams := rfl
@[simp] theorem modSplit_node (t : Team) (uid : Nat) (f : Split → Split) : (t.modSplit uid f).node = t.node := rfl
@[simp] theorem modSplit_asid (t : Team) (uid : Nat) (f : Split → Split) : (t.modSplit uid f).asid = t.asid := rfl
@[simp] theorem modSplit_member (t : Team) (uid : Nat) (f : Split → Split) : (t.modSplit uid f).member = t.member := rfl
@[simp] theorem modSplit_ptrain (t : Team) (uid : Nat) (f : Split → Split) : (t.modSplit uid f).ptrain = t.ptrain := rfl
@[simp] theorem modSplit_codeHi (t : Team) (uid : Nat) (f : Split → Split) : (t.modSplit uid f).codeHi = t.codeHi := rfl
@[simp] theorem modSplit_allowed (t : Team) (uid : Nat) (f : Split → Split) : (t.modSplit uid f).allowed = t.allowed := rfl
@[simp] theorem modSplit_vregs (t : Team) (uid : Nat) (f : Split → Split) : (t.modSplit uid f).vregs = t.vregs := rfl
@[simp] theorem modSplit_preds (t : Team) (uid : Nat) (f : Split → Split) : (t.modSplit uid f).preds = t.preds := rfl
@[simp] theorem modSplit_scalars (t : Team) (uid : Nat) (f : Split → Split) : (t.modSplit uid f).scalars = t.scalars := rfl
@[simp] theorem modSplit_tvec (t : Team) (uid : Nat) (f : Split → Split) : (t.modSplit uid f).tvec = t.tvec := rfl
@[simp] theorem modSplit_tpc (t : Team) (uid : Nat) (f : Split → Split) : (t.modSplit uid f).tpc = t.tpc := rfl
@[simp] theorem modSplit_tcause (t : Team) (uid : Nat) (f : Split → Split) : (t.modSplit uid f).tcause = t.tcause := rfl
@[simp] theorem modSplit_tinfo (t : Team) (uid : Nat) (f : Split → Split) : (t.modSplit uid f).tinfo = t.tinfo := rfl
@[simp] theorem modSplit_taddr (t : Team) (uid : Nat) (f : Split → Split) : (t.modSplit uid f).taddr = t.taddr := rfl
@[simp] theorem modSplit_gang (t : Team) (uid : Nat) (f : Split → Split) : (t.modSplit uid f).gang = t.gang := rfl
@[simp] theorem modSplit_gangRank (t : Team) (uid : Nat) (f : Split → Split) : (t.modSplit uid f).gangRank = t.gangRank := rfl
@[simp] theorem modSplit_tsa (t : Team) (uid : Nat) (f : Split → Split) : (t.modSplit uid f).tsa = t.tsa := rfl
@[simp] theorem modSplit_tsb (t : Team) (uid : Nat) (f : Split → Split) : (t.modSplit uid f).tsb = t.tsb := rfl
@[simp] theorem modSplit_tsca (t : Team) (uid : Nat) (f : Split → Split) : (t.modSplit uid f).tsca = t.tsca := rfl
@[simp] theorem modSplit_tscb (t : Team) (uid : Nat) (f : Split → Split) : (t.modSplit uid f).tscb = t.tscb := rfl
@[simp] theorem modSplit_events (t : Team) (uid : Nat) (f : Split → Split) : (t.modSplit uid f).events = t.events := rfl
@[simp] theorem modSplit_evmask (t : Team) (uid : Nat) (f : Split → Split) : (t.modSplit uid f).evmask = t.evmask := rfl
@[simp] theorem modSplit_advisory (t : Team) (uid : Nat) (f : Split → Split) : (t.modSplit uid f).advisory = t.advisory := rfl
@[simp] theorem modSplit_seed (t : Team) (uid : Nat) (f : Split → Split) : (t.modSplit uid f).seed = t.seed := rfl
@[simp] theorem modSplit_xblk (t : Team) (uid : Nat) (f : Split → Split) : (t.modSplit uid f).xblk = t.xblk := rfl
@[simp] theorem modSplit_pend (t : Team) (uid : Nat) (f : Split → Split) : (t.modSplit uid f).pend = t.pend := rfl
@[simp] theorem modSplit_nextRec (t : Team) (uid : Nat) (f : Split → Split) : (t.modSplit uid f).nextRec = t.nextRec := rfl
@[simp] theorem modSplit_batchCtr (t : Team) (uid : Nat) (f : Split → Split) : (t.modSplit uid f).batchCtr = t.batchCtr := rfl
@[simp] theorem modSplit_bankCtr (t : Team) (uid : Nat) (f : Split → Split) : (t.modSplit uid f).bankCtr = t.bankCtr := rfl
@[simp] theorem modSplit_copyCtr (t : Team) (uid : Nat) (f : Split → Split) : (t.modSplit uid f).copyCtr = t.copyCtr := rfl
@[simp] theorem modSplit_collCtr (t : Team) (uid : Nat) (f : Split → Split) : (t.modSplit uid f).collCtr = t.collCtr := rfl
@[simp] theorem modSplit_nextUid (t : Team) (uid : Nat) (f : Split → Split) : (t.modSplit uid f).nextUid = t.nextUid := rfl
@[simp] theorem modSplit_replay (t : Team) (uid : Nat) (f : Split → Split) : (t.modSplit uid f).replay = t.replay := rfl
@[simp] theorem modSplit_pending (t : Team) (uid : Nat) (f : Split → Split) : (t.modSplit uid f).pending = t.pending := rfl
@[simp] theorem modSplit_parked (t : Team) (uid : Nat) (f : Split → Split) : (t.modSplit uid f).parked = t.parked := rfl
@[simp] theorem modSplit_clearing (t : Team) (uid : Nat) (f : Split → Split) : (t.modSplit uid f).clearing = t.clearing := rfl
@[simp] theorem modSplit_started (t : Team) (uid : Nat) (f : Split → Split) : (t.modSplit uid f).started = t.started := rfl
@[simp] theorem modSplit_retiring (t : Team) (uid : Nat) (f : Split → Split) : (t.modSplit uid f).retiring = t.retiring := rfl
@[simp] theorem modSplit_lines (t : Team) (uid : Nat) (f : Split → Split) : (t.modSplit uid f).lines = t.lines := rfl
@[simp] theorem modSplit_openMM (t : Team) (uid : Nat) (f : Split → Split) : (t.modSplit uid f).openMM = t.openMM := rfl
@[simp] theorem modSplit_batches (t : Team) (uid : Nat) (f : Split → Split) : (t.modSplit uid f).batches = t.batches := rfl
@[simp] theorem modSplit_tags (t : Team) (uid : Nat) (f : Split → Split) : (t.modSplit uid f).tags = t.tags := rfl
@[simp] theorem modSplit_latch (t : Team) (uid : Nat) (f : Split → Split) : (t.modSplit uid f).latch = t.latch := rfl
@[simp] theorem modSplit_accs (t : Team) (uid : Nat) (f : Split → Split) : (t.modSplit uid f).accs = t.accs := rfl
@[simp] theorem modSplit_flushing (t : Team) (uid : Nat) (f : Split → Split) : (t.modSplit uid f).flushing = t.flushing := rfl
@[simp] theorem modSplit_fault (t : Team) (uid : Nat) (f : Split → Split) : (t.modSplit uid f).fault = t.fault := rfl
@[simp] theorem modSplit_issues (t : Team) (uid : Nat) (f : Split → Split) : (t.modSplit uid f).issues = t.issues := rfl
@[simp] theorem modSplit_age (t : Team) (uid : Nat) (f : Split → Split) : (t.modSplit uid f).age = t.age := rfl
@[simp] theorem modSplit_cause (t : Team) (uid : Nat) (f : Split → Split) : (t.modSplit uid f).cause = t.cause := rfl
@[simp] theorem modSplit_running (t : Team) (uid : Nat) (f : Split → Split) : (t.modSplit uid f).running = t.running := rfl
@[simp] theorem modSplit_frame (t : Team) (uid : Nat) (f : Split → Split) : (t.modSplit uid f).frame = t.frame := rfl
@[simp] theorem modSplit_sysLines (t : Team) (uid : Nat) (f : Split → Split) : (t.modSplit uid f).sysLines = t.sysLines := rfl
@[simp] theorem modSplit_remoteWords (t : Team) (uid : Nat) (f : Split → Split) : (t.modSplit uid f).remoteWords = t.remoteWords := rfl

-- ## setS

@[simp] theorem setS_ctx (t : Team) (r : Nat) (v : Word) : (t.setS r v).ctx = t.ctx := by unfold Team.setS; split <;> rfl
@[simp] theorem setS_sys (t : Team) (r : Nat) (v : Word) : (t.setS r v).sys = t.sys := by unfold Team.setS; split <;> rfl
@[simp] theorem setS_image (t : Team) (r : Nat) (v : Word) : (t.setS r v).image = t.image := by unfold Team.setS; split <;> rfl
@[simp] theorem setS_drove (t : Team) (r : Nat) (v : Word) : (t.setS r v).drove = t.drove := by unfold Team.setS; split <;> rfl
@[simp] theorem setS_coach (t : Team) (r : Nat) (v : Word) : (t.setS r v).coach = t.coach := by unfold Team.setS; split <;> rfl
@[simp] theorem setS_slot (t : Team) (r : Nat) (v : Word) : (t.setS r v).slot = t.slot := by unfold Team.setS; split <;> rfl
@[simp] theorem setS_comp (t : Team) (r : Nat) (v : Word) : (t.setS r v).comp = t.comp := by unfold Team.setS; split <;> rfl
@[simp] theorem setS_role (t : Team) (r : Nat) (v : Word) : (t.setS r v).role = t.role := by unfold Team.setS; split <;> rfl
@[simp] theorem setS_w (t : Team) (r : Nat) (v : Word) : (t.setS r v).w = t.w := by unfold Team.setS; split <;> rfl
@[simp] theorem setS_teamId (t : Team) (r : Nat) (v : Word) : (t.setS r v).teamId = t.teamId := by unfold Team.setS; split <;> rfl
@[simp] theorem setS_droveId (t : Team) (r : Nat) (v : Word) : (t.setS r v).droveId = t.droveId := by unfold Team.setS; split <;> rfl
@[simp] theorem setS_stage (t : Team) (r : Nat) (v : Word) : (t.setS r v).stage = t.stage := by unfold Team.setS; split <;> rfl
@[simp] theorem setS_droves (t : Team) (r : Nat) (v : Word) : (t.setS r v).droves = t.droves := by unfold Team.setS; split <;> rfl
@[simp] theorem setS_teams (t : Team) (r : Nat) (v : Word) : (t.setS r v).teams = t.teams := by unfold Team.setS; split <;> rfl
@[simp] theorem setS_node (t : Team) (r : Nat) (v : Word) : (t.setS r v).node = t.node := by unfold Team.setS; split <;> rfl
@[simp] theorem setS_asid (t : Team) (r : Nat) (v : Word) : (t.setS r v).asid = t.asid := by unfold Team.setS; split <;> rfl
@[simp] theorem setS_member (t : Team) (r : Nat) (v : Word) : (t.setS r v).member = t.member := by unfold Team.setS; split <;> rfl
@[simp] theorem setS_ptrain (t : Team) (r : Nat) (v : Word) : (t.setS r v).ptrain = t.ptrain := by unfold Team.setS; split <;> rfl
@[simp] theorem setS_codeHi (t : Team) (r : Nat) (v : Word) : (t.setS r v).codeHi = t.codeHi := by unfold Team.setS; split <;> rfl
@[simp] theorem setS_allowed (t : Team) (r : Nat) (v : Word) : (t.setS r v).allowed = t.allowed := by unfold Team.setS; split <;> rfl
@[simp] theorem setS_vregs (t : Team) (r : Nat) (v : Word) : (t.setS r v).vregs = t.vregs := by unfold Team.setS; split <;> rfl
@[simp] theorem setS_preds (t : Team) (r : Nat) (v : Word) : (t.setS r v).preds = t.preds := by unfold Team.setS; split <;> rfl
@[simp] theorem setS_tvec (t : Team) (r : Nat) (v : Word) : (t.setS r v).tvec = t.tvec := by unfold Team.setS; split <;> rfl
@[simp] theorem setS_tpc (t : Team) (r : Nat) (v : Word) : (t.setS r v).tpc = t.tpc := by unfold Team.setS; split <;> rfl
@[simp] theorem setS_tcause (t : Team) (r : Nat) (v : Word) : (t.setS r v).tcause = t.tcause := by unfold Team.setS; split <;> rfl
@[simp] theorem setS_tinfo (t : Team) (r : Nat) (v : Word) : (t.setS r v).tinfo = t.tinfo := by unfold Team.setS; split <;> rfl
@[simp] theorem setS_taddr (t : Team) (r : Nat) (v : Word) : (t.setS r v).taddr = t.taddr := by unfold Team.setS; split <;> rfl
@[simp] theorem setS_gang (t : Team) (r : Nat) (v : Word) : (t.setS r v).gang = t.gang := by unfold Team.setS; split <;> rfl
@[simp] theorem setS_gangRank (t : Team) (r : Nat) (v : Word) : (t.setS r v).gangRank = t.gangRank := by unfold Team.setS; split <;> rfl
@[simp] theorem setS_tsa (t : Team) (r : Nat) (v : Word) : (t.setS r v).tsa = t.tsa := by unfold Team.setS; split <;> rfl
@[simp] theorem setS_tsb (t : Team) (r : Nat) (v : Word) : (t.setS r v).tsb = t.tsb := by unfold Team.setS; split <;> rfl
@[simp] theorem setS_tsca (t : Team) (r : Nat) (v : Word) : (t.setS r v).tsca = t.tsca := by unfold Team.setS; split <;> rfl
@[simp] theorem setS_tscb (t : Team) (r : Nat) (v : Word) : (t.setS r v).tscb = t.tscb := by unfold Team.setS; split <;> rfl
@[simp] theorem setS_events (t : Team) (r : Nat) (v : Word) : (t.setS r v).events = t.events := by unfold Team.setS; split <;> rfl
@[simp] theorem setS_evmask (t : Team) (r : Nat) (v : Word) : (t.setS r v).evmask = t.evmask := by unfold Team.setS; split <;> rfl
@[simp] theorem setS_advisory (t : Team) (r : Nat) (v : Word) : (t.setS r v).advisory = t.advisory := by unfold Team.setS; split <;> rfl
@[simp] theorem setS_seed (t : Team) (r : Nat) (v : Word) : (t.setS r v).seed = t.seed := by unfold Team.setS; split <;> rfl
@[simp] theorem setS_xblk (t : Team) (r : Nat) (v : Word) : (t.setS r v).xblk = t.xblk := by unfold Team.setS; split <;> rfl
@[simp] theorem setS_pend (t : Team) (r : Nat) (v : Word) : (t.setS r v).pend = t.pend := by unfold Team.setS; split <;> rfl
@[simp] theorem setS_nextRec (t : Team) (r : Nat) (v : Word) : (t.setS r v).nextRec = t.nextRec := by unfold Team.setS; split <;> rfl
@[simp] theorem setS_batchCtr (t : Team) (r : Nat) (v : Word) : (t.setS r v).batchCtr = t.batchCtr := by unfold Team.setS; split <;> rfl
@[simp] theorem setS_bankCtr (t : Team) (r : Nat) (v : Word) : (t.setS r v).bankCtr = t.bankCtr := by unfold Team.setS; split <;> rfl
@[simp] theorem setS_copyCtr (t : Team) (r : Nat) (v : Word) : (t.setS r v).copyCtr = t.copyCtr := by unfold Team.setS; split <;> rfl
@[simp] theorem setS_collCtr (t : Team) (r : Nat) (v : Word) : (t.setS r v).collCtr = t.collCtr := by unfold Team.setS; split <;> rfl
@[simp] theorem setS_splits (t : Team) (r : Nat) (v : Word) : (t.setS r v).splits = t.splits := by unfold Team.setS; split <;> rfl
@[simp] theorem setS_nextUid (t : Team) (r : Nat) (v : Word) : (t.setS r v).nextUid = t.nextUid := by unfold Team.setS; split <;> rfl
@[simp] theorem setS_replay (t : Team) (r : Nat) (v : Word) : (t.setS r v).replay = t.replay := by unfold Team.setS; split <;> rfl
@[simp] theorem setS_pending (t : Team) (r : Nat) (v : Word) : (t.setS r v).pending = t.pending := by unfold Team.setS; split <;> rfl
@[simp] theorem setS_parked (t : Team) (r : Nat) (v : Word) : (t.setS r v).parked = t.parked := by unfold Team.setS; split <;> rfl
@[simp] theorem setS_clearing (t : Team) (r : Nat) (v : Word) : (t.setS r v).clearing = t.clearing := by unfold Team.setS; split <;> rfl
@[simp] theorem setS_started (t : Team) (r : Nat) (v : Word) : (t.setS r v).started = t.started := by unfold Team.setS; split <;> rfl
@[simp] theorem setS_retiring (t : Team) (r : Nat) (v : Word) : (t.setS r v).retiring = t.retiring := by unfold Team.setS; split <;> rfl
@[simp] theorem setS_lines (t : Team) (r : Nat) (v : Word) : (t.setS r v).lines = t.lines := by unfold Team.setS; split <;> rfl
@[simp] theorem setS_openMM (t : Team) (r : Nat) (v : Word) : (t.setS r v).openMM = t.openMM := by unfold Team.setS; split <;> rfl
@[simp] theorem setS_batches (t : Team) (r : Nat) (v : Word) : (t.setS r v).batches = t.batches := by unfold Team.setS; split <;> rfl
@[simp] theorem setS_tags (t : Team) (r : Nat) (v : Word) : (t.setS r v).tags = t.tags := by unfold Team.setS; split <;> rfl
@[simp] theorem setS_latch (t : Team) (r : Nat) (v : Word) : (t.setS r v).latch = t.latch := by unfold Team.setS; split <;> rfl
@[simp] theorem setS_accs (t : Team) (r : Nat) (v : Word) : (t.setS r v).accs = t.accs := by unfold Team.setS; split <;> rfl
@[simp] theorem setS_flushing (t : Team) (r : Nat) (v : Word) : (t.setS r v).flushing = t.flushing := by unfold Team.setS; split <;> rfl
@[simp] theorem setS_fault (t : Team) (r : Nat) (v : Word) : (t.setS r v).fault = t.fault := by unfold Team.setS; split <;> rfl
@[simp] theorem setS_issues (t : Team) (r : Nat) (v : Word) : (t.setS r v).issues = t.issues := by unfold Team.setS; split <;> rfl
@[simp] theorem setS_age (t : Team) (r : Nat) (v : Word) : (t.setS r v).age = t.age := by unfold Team.setS; split <;> rfl
@[simp] theorem setS_cause (t : Team) (r : Nat) (v : Word) : (t.setS r v).cause = t.cause := by unfold Team.setS; split <;> rfl
@[simp] theorem setS_running (t : Team) (r : Nat) (v : Word) : (t.setS r v).running = t.running := by unfold Team.setS; split <;> rfl
@[simp] theorem setS_frame (t : Team) (r : Nat) (v : Word) : (t.setS r v).frame = t.frame := by unfold Team.setS; split <;> rfl
@[simp] theorem setS_sysLines (t : Team) (r : Nat) (v : Word) : (t.setS r v).sysLines = t.sysLines := by unfold Team.setS; split <;> rfl
@[simp] theorem setS_remoteWords (t : Team) (r : Nat) (v : Word) : (t.setS r v).remoteWords = t.remoteWords := by unfold Team.setS; split <;> rfl

-- ## setP

@[simp] theorem setP_ctx (t : Team) (n : Nat) (m : LaneMask) : (t.setP n m).ctx = t.ctx := by unfold Team.setP; split <;> rfl
@[simp] theorem setP_sys (t : Team) (n : Nat) (m : LaneMask) : (t.setP n m).sys = t.sys := by unfold Team.setP; split <;> rfl
@[simp] theorem setP_image (t : Team) (n : Nat) (m : LaneMask) : (t.setP n m).image = t.image := by unfold Team.setP; split <;> rfl
@[simp] theorem setP_drove (t : Team) (n : Nat) (m : LaneMask) : (t.setP n m).drove = t.drove := by unfold Team.setP; split <;> rfl
@[simp] theorem setP_coach (t : Team) (n : Nat) (m : LaneMask) : (t.setP n m).coach = t.coach := by unfold Team.setP; split <;> rfl
@[simp] theorem setP_slot (t : Team) (n : Nat) (m : LaneMask) : (t.setP n m).slot = t.slot := by unfold Team.setP; split <;> rfl
@[simp] theorem setP_comp (t : Team) (n : Nat) (m : LaneMask) : (t.setP n m).comp = t.comp := by unfold Team.setP; split <;> rfl
@[simp] theorem setP_role (t : Team) (n : Nat) (m : LaneMask) : (t.setP n m).role = t.role := by unfold Team.setP; split <;> rfl
@[simp] theorem setP_w (t : Team) (n : Nat) (m : LaneMask) : (t.setP n m).w = t.w := by unfold Team.setP; split <;> rfl
@[simp] theorem setP_teamId (t : Team) (n : Nat) (m : LaneMask) : (t.setP n m).teamId = t.teamId := by unfold Team.setP; split <;> rfl
@[simp] theorem setP_droveId (t : Team) (n : Nat) (m : LaneMask) : (t.setP n m).droveId = t.droveId := by unfold Team.setP; split <;> rfl
@[simp] theorem setP_stage (t : Team) (n : Nat) (m : LaneMask) : (t.setP n m).stage = t.stage := by unfold Team.setP; split <;> rfl
@[simp] theorem setP_droves (t : Team) (n : Nat) (m : LaneMask) : (t.setP n m).droves = t.droves := by unfold Team.setP; split <;> rfl
@[simp] theorem setP_teams (t : Team) (n : Nat) (m : LaneMask) : (t.setP n m).teams = t.teams := by unfold Team.setP; split <;> rfl
@[simp] theorem setP_node (t : Team) (n : Nat) (m : LaneMask) : (t.setP n m).node = t.node := by unfold Team.setP; split <;> rfl
@[simp] theorem setP_asid (t : Team) (n : Nat) (m : LaneMask) : (t.setP n m).asid = t.asid := by unfold Team.setP; split <;> rfl
@[simp] theorem setP_member (t : Team) (n : Nat) (m : LaneMask) : (t.setP n m).member = t.member := by unfold Team.setP; split <;> rfl
@[simp] theorem setP_ptrain (t : Team) (n : Nat) (m : LaneMask) : (t.setP n m).ptrain = t.ptrain := by unfold Team.setP; split <;> rfl
@[simp] theorem setP_codeHi (t : Team) (n : Nat) (m : LaneMask) : (t.setP n m).codeHi = t.codeHi := by unfold Team.setP; split <;> rfl
@[simp] theorem setP_allowed (t : Team) (n : Nat) (m : LaneMask) : (t.setP n m).allowed = t.allowed := by unfold Team.setP; split <;> rfl
@[simp] theorem setP_vregs (t : Team) (n : Nat) (m : LaneMask) : (t.setP n m).vregs = t.vregs := by unfold Team.setP; split <;> rfl
@[simp] theorem setP_scalars (t : Team) (n : Nat) (m : LaneMask) : (t.setP n m).scalars = t.scalars := by unfold Team.setP; split <;> rfl
@[simp] theorem setP_tvec (t : Team) (n : Nat) (m : LaneMask) : (t.setP n m).tvec = t.tvec := by unfold Team.setP; split <;> rfl
@[simp] theorem setP_tpc (t : Team) (n : Nat) (m : LaneMask) : (t.setP n m).tpc = t.tpc := by unfold Team.setP; split <;> rfl
@[simp] theorem setP_tcause (t : Team) (n : Nat) (m : LaneMask) : (t.setP n m).tcause = t.tcause := by unfold Team.setP; split <;> rfl
@[simp] theorem setP_tinfo (t : Team) (n : Nat) (m : LaneMask) : (t.setP n m).tinfo = t.tinfo := by unfold Team.setP; split <;> rfl
@[simp] theorem setP_taddr (t : Team) (n : Nat) (m : LaneMask) : (t.setP n m).taddr = t.taddr := by unfold Team.setP; split <;> rfl
@[simp] theorem setP_gang (t : Team) (n : Nat) (m : LaneMask) : (t.setP n m).gang = t.gang := by unfold Team.setP; split <;> rfl
@[simp] theorem setP_gangRank (t : Team) (n : Nat) (m : LaneMask) : (t.setP n m).gangRank = t.gangRank := by unfold Team.setP; split <;> rfl
@[simp] theorem setP_tsa (t : Team) (n : Nat) (m : LaneMask) : (t.setP n m).tsa = t.tsa := by unfold Team.setP; split <;> rfl
@[simp] theorem setP_tsb (t : Team) (n : Nat) (m : LaneMask) : (t.setP n m).tsb = t.tsb := by unfold Team.setP; split <;> rfl
@[simp] theorem setP_tsca (t : Team) (n : Nat) (m : LaneMask) : (t.setP n m).tsca = t.tsca := by unfold Team.setP; split <;> rfl
@[simp] theorem setP_tscb (t : Team) (n : Nat) (m : LaneMask) : (t.setP n m).tscb = t.tscb := by unfold Team.setP; split <;> rfl
@[simp] theorem setP_events (t : Team) (n : Nat) (m : LaneMask) : (t.setP n m).events = t.events := by unfold Team.setP; split <;> rfl
@[simp] theorem setP_evmask (t : Team) (n : Nat) (m : LaneMask) : (t.setP n m).evmask = t.evmask := by unfold Team.setP; split <;> rfl
@[simp] theorem setP_advisory (t : Team) (n : Nat) (m : LaneMask) : (t.setP n m).advisory = t.advisory := by unfold Team.setP; split <;> rfl
@[simp] theorem setP_seed (t : Team) (n : Nat) (m : LaneMask) : (t.setP n m).seed = t.seed := by unfold Team.setP; split <;> rfl
@[simp] theorem setP_xblk (t : Team) (n : Nat) (m : LaneMask) : (t.setP n m).xblk = t.xblk := by unfold Team.setP; split <;> rfl
@[simp] theorem setP_pend (t : Team) (n : Nat) (m : LaneMask) : (t.setP n m).pend = t.pend := by unfold Team.setP; split <;> rfl
@[simp] theorem setP_nextRec (t : Team) (n : Nat) (m : LaneMask) : (t.setP n m).nextRec = t.nextRec := by unfold Team.setP; split <;> rfl
@[simp] theorem setP_batchCtr (t : Team) (n : Nat) (m : LaneMask) : (t.setP n m).batchCtr = t.batchCtr := by unfold Team.setP; split <;> rfl
@[simp] theorem setP_bankCtr (t : Team) (n : Nat) (m : LaneMask) : (t.setP n m).bankCtr = t.bankCtr := by unfold Team.setP; split <;> rfl
@[simp] theorem setP_copyCtr (t : Team) (n : Nat) (m : LaneMask) : (t.setP n m).copyCtr = t.copyCtr := by unfold Team.setP; split <;> rfl
@[simp] theorem setP_collCtr (t : Team) (n : Nat) (m : LaneMask) : (t.setP n m).collCtr = t.collCtr := by unfold Team.setP; split <;> rfl
@[simp] theorem setP_splits (t : Team) (n : Nat) (m : LaneMask) : (t.setP n m).splits = t.splits := by unfold Team.setP; split <;> rfl
@[simp] theorem setP_nextUid (t : Team) (n : Nat) (m : LaneMask) : (t.setP n m).nextUid = t.nextUid := by unfold Team.setP; split <;> rfl
@[simp] theorem setP_replay (t : Team) (n : Nat) (m : LaneMask) : (t.setP n m).replay = t.replay := by unfold Team.setP; split <;> rfl
@[simp] theorem setP_pending (t : Team) (n : Nat) (m : LaneMask) : (t.setP n m).pending = t.pending := by unfold Team.setP; split <;> rfl
@[simp] theorem setP_parked (t : Team) (n : Nat) (m : LaneMask) : (t.setP n m).parked = t.parked := by unfold Team.setP; split <;> rfl
@[simp] theorem setP_clearing (t : Team) (n : Nat) (m : LaneMask) : (t.setP n m).clearing = t.clearing := by unfold Team.setP; split <;> rfl
@[simp] theorem setP_started (t : Team) (n : Nat) (m : LaneMask) : (t.setP n m).started = t.started := by unfold Team.setP; split <;> rfl
@[simp] theorem setP_retiring (t : Team) (n : Nat) (m : LaneMask) : (t.setP n m).retiring = t.retiring := by unfold Team.setP; split <;> rfl
@[simp] theorem setP_lines (t : Team) (n : Nat) (m : LaneMask) : (t.setP n m).lines = t.lines := by unfold Team.setP; split <;> rfl
@[simp] theorem setP_openMM (t : Team) (n : Nat) (m : LaneMask) : (t.setP n m).openMM = t.openMM := by unfold Team.setP; split <;> rfl
@[simp] theorem setP_batches (t : Team) (n : Nat) (m : LaneMask) : (t.setP n m).batches = t.batches := by unfold Team.setP; split <;> rfl
@[simp] theorem setP_tags (t : Team) (n : Nat) (m : LaneMask) : (t.setP n m).tags = t.tags := by unfold Team.setP; split <;> rfl
@[simp] theorem setP_latch (t : Team) (n : Nat) (m : LaneMask) : (t.setP n m).latch = t.latch := by unfold Team.setP; split <;> rfl
@[simp] theorem setP_accs (t : Team) (n : Nat) (m : LaneMask) : (t.setP n m).accs = t.accs := by unfold Team.setP; split <;> rfl
@[simp] theorem setP_flushing (t : Team) (n : Nat) (m : LaneMask) : (t.setP n m).flushing = t.flushing := by unfold Team.setP; split <;> rfl
@[simp] theorem setP_fault (t : Team) (n : Nat) (m : LaneMask) : (t.setP n m).fault = t.fault := by unfold Team.setP; split <;> rfl
@[simp] theorem setP_issues (t : Team) (n : Nat) (m : LaneMask) : (t.setP n m).issues = t.issues := by unfold Team.setP; split <;> rfl
@[simp] theorem setP_age (t : Team) (n : Nat) (m : LaneMask) : (t.setP n m).age = t.age := by unfold Team.setP; split <;> rfl
@[simp] theorem setP_cause (t : Team) (n : Nat) (m : LaneMask) : (t.setP n m).cause = t.cause := by unfold Team.setP; split <;> rfl
@[simp] theorem setP_running (t : Team) (n : Nat) (m : LaneMask) : (t.setP n m).running = t.running := by unfold Team.setP; split <;> rfl
@[simp] theorem setP_frame (t : Team) (n : Nat) (m : LaneMask) : (t.setP n m).frame = t.frame := by unfold Team.setP; split <;> rfl
@[simp] theorem setP_sysLines (t : Team) (n : Nat) (m : LaneMask) : (t.setP n m).sysLines = t.sysLines := by unfold Team.setP; split <;> rfl
@[simp] theorem setP_remoteWords (t : Team) (n : Nat) (m : LaneMask) : (t.setP n m).remoteWords = t.remoteWords := by unfold Team.setP; split <;> rfl

-- ## reads after writes

theorem s_setS_self (t : Team) {r : Nat} (v : Word) (h : r ≠ 0) : (t.setS r v).s r = v := by
  simp [Team.s, Team.setS, h]
theorem s_setS_ne (t : Team) {r k : Nat} (v : Word) (h : k ≠ r) : (t.setS r v).s k = t.s k := by
  unfold Team.setS; split
  · rfl
  · simp [Team.s, Store.get_put_ne _ _ _ h]
@[simp] theorem s_setV (t : Team) (r L k : Nat) (x : Word) : (t.setV r L x).s k = t.s k := rfl
@[simp] theorem s_setP (t : Team) (n k : Nat) (m : LaneMask) : (t.setP n m).s k = t.s k := by simp [Team.s]
@[simp] theorem v_setV_self (t : Team) (r L : Nat) (x : Word) : (t.setV r L x).v r L = x := by simp [Team.v, Team.setV]
/-- A vector write leaves every other lane and register alone. -/
theorem v_setV_ne (t : Team) {r L k M : Nat} (x : Word) (hL : L < 1024) (hM : M < 1024) (h : (k, M) ≠ (r, L)) :
    (t.setV r L x).v k M = t.v k M := by
  have hk : 1024 * k + M ≠ 1024 * r + L := by
    intro hc
    have h1 : k = r := by omega
    exact h (by rw [h1, show M = L by omega])
  simp [Team.v, Team.setV, Store.get_put_ne _ _ _ hk]
@[simp] theorem v_setS (t : Team) (r k L : Nat) (v : Word) : (t.setS r v).v k L = t.v k L := by simp [Team.v]
@[simp] theorem v_setP (t : Team) (n k L : Nat) (m : LaneMask) : (t.setP n m).v k L = t.v k L := by simp [Team.v]
theorem p_setP_self (t : Team) {n : Nat} (m : LaneMask) (h : n ≠ 0) : (t.setP n m).p n = m := by
  simp [Team.p, Team.setP, h]
theorem p_setP_ne (t : Team) {n k : Nat} (m : LaneMask) (h : k ≠ n) : (t.setP n m).p k = t.p k := by
  unfold Team.setP; split
  · rfl
  · simp [Team.p, Store.get_put_ne _ _ _ h]
@[simp] theorem p_setV (t : Team) (r L n : Nat) (x : Word) : (t.setV r L x).p n = t.p n := rfl
@[simp] theorem p_setS (t : Team) (r n : Nat) (v : Word) : (t.setS r v).p n = t.p n := by simp [Team.p]

/-- What a read sees when no write is pending (R123). -/
@[simp] theorem readPending_nil (free r L : Nat) (old : Word) (i : Nat) : readPending free r L old i [] = old := rfl

/-- The split of another uid is untouched. -/
theorem split_modSplit_ne (t : Team) {uid u : Nat} (f : Split → Split) (hf : ∀ x, (f x).uid = x.uid) (h : u ≠ uid) :
    (t.modSplit uid f).split u = t.split u := by
  unfold Team.split Team.modSplit
  generalize t.splits = xs
  induction xs with
  | nil => rfl
  | cons x r ih =>
    simp only [List.map_cons, List.find?_cons]
    have h2 : ((if x.uid == uid then f x else x).uid == u) = (x.uid == u) := by
      by_cases h1 : x.uid = uid <;> simp [h1, hf]
    rw [h2]
    by_cases h3 : x.uid = u
    · simp [h3, h]
    · have h4 : (x.uid == u) = false := by simp [h3]
      simp only [h4]; exact ih

theorem split_modSplit_self {t : Team} {uid : Nat} {x : Split} (f : Split → Split) (hf : ∀ x, (f x).uid = x.uid)
    (h : t.split uid = some x) : (t.modSplit uid f).split uid = some (f x) := by
  unfold Team.split Team.modSplit at *
  generalize t.splits = xs at *
  induction xs with
  | nil => simp at h
  | cons y r ih =>
    simp only [List.map_cons, List.find?_cons] at *
    by_cases h1 : y.uid = uid
    · have h2 : y = x := by simpa [h1] using h
      subst h2; simp [h1, hf]
    · have h2 : (y.uid == uid) = false := by simp [h1]
      simp only [h2, Bool.false_eq_true, if_false] at *
      exact ih h

theorem split_uid {t : Team} {uid : Nat} {x : Split} (h : t.split uid = some x) : x.uid = uid := by
  simpa using List.find?_some h

end Sys2Proof.Machine
end

