-- ==== Sys2Proof/Laws/Ops.lean ====
section
/-! SUPPORT. What the shared operations of an issue do: the arrival test, the advance of a split, taking a cause, and the
frame of an instruction that completes. -/
namespace Sys2Proof.Machine

-- ## the parts of a team that only splits and pending writes differ in

/-- Two teams that agree outside their splits and pending writes. -/
def SplitsOnly (t u : Team) : Prop := { u with splits := t.splits, pending := t.pending } = t

theorem SplitsOnly.refl (t : Team) : SplitsOnly t t := rfl

theorem SplitsOnly.trans {t u v : Team} (h1 : SplitsOnly t u) (h2 : SplitsOnly u v) : SplitsOnly t v := by
  unfold SplitsOnly at *
  exact (congrArg (fun z : Team => { z with splits := t.splits, pending := t.pending }) h2).trans h1

theorem splitsOnly_modSplit (t : Team) (uid : Nat) (f : Split → Split) : SplitsOnly t (t.modSplit uid f) := rfl

theorem splitsOnly_mergeSplits (t : Team) (id : Nat) (ms : List Split) : SplitsOnly t (mergeSplits t id ms) := by
  cases ms <;> rfl

/-- The arrival test changes nothing but splits and the owner of pending writes (R59, R61). -/
theorem splitsOnly_arrive (n : Nat) (t : Team) (uid : Nat) : SplitsOnly t (arrive n t uid) := by
  induction n generalizing t uid with
  | zero => rfl
  | succ n ih =>
    unfold arrive
    split
    · rfl
    · split
      · rfl
      · split
        · extract_lets t1 ms
          have h1 : SplitsOnly t t1 := splitsOnly_modSplit _ _ _
          clear_value t1 ms
          split
          · split
            · exact h1.trans ((splitsOnly_mergeSplits _ _ _).trans (ih _ _))
            · exact h1
          · exact h1
        · rfl

/-- A split that has not reached its top record does not arrive (R59). -/
theorem arrive_noJoin {t : Team} {uid : Nat} {x : Split} (h : t.split uid = some x) (hj : NoJoin x x.pc) (n : Nat) :
    arrive n t uid = t := by
  cases n with
  | zero => rfl
  | succ n =>
    unfold arrive
    rw [h]
    dsimp only
    cases hr : x.joins with
    | nil => rfl
    | cons r rs =>
      dsimp only
      have := hj r (by simp [hr])
      rw [if_neg]
      intro hc
      simp only [Bool.and_eq_true, beq_iff_eq] at hc
      exact this ⟨hc.1.2.symm, hc.2.symm⟩

-- ## teams

theorem teamKept_refl (t : Team) : TeamKept t t := ⟨rfl, rfl⟩

theorem TeamKept.trans {t u v : Team} (h1 : TeamKept t u) (h2 : TeamKept u v) : TeamKept t v := by
  exact ⟨(congrArg (fun z : Team => { z with splits := t.splits, pending := t.pending, lines := t.lines }) h2.1).trans h1.1,
    h2.2.trans h1.2⟩

theorem teamKept_of_splitsOnly {t u : Team} (h : SplitsOnly t u) : TeamKept t u := by
  have hl : u.lines = t.lines := by rw [← h]
  exact ⟨(congrArg (fun z : Team => { z with lines := t.lines }) h : _), by rw [hl]⟩

/-- Marking register lines dirty (R113). -/
theorem teamKept_markDirty (t : Team) (rs : List Nat) : TeamKept t (markDirty t rs) := by
  unfold markDirty
  split
  · exact teamKept_refl t
  · refine ⟨rfl, ?_⟩
    simp only [List.map_map]
    refine List.map_congr_left (fun l _ => ?_)
    simp only [Function.comp]
    split <;> rfl

@[simp] theorem markDirty_splits (t : Team) (rs : List Nat) : (markDirty t rs).splits = t.splits := by
  unfold markDirty; split <;> rfl
@[simp] theorem markDirty_pending (t : Team) (rs : List Nat) : (markDirty t rs).pending = t.pending := by
  unfold markDirty; split <;> rfl
theorem markDirty_split (t : Team) (rs : List Nat) (uid : Nat) : (markDirty t rs).split uid = t.split uid := by
  unfold Team.split; rw [markDirty_splits]

-- ## states that differ in one team and the clocks

theorem OnlyTeam.refl (s : State) (tid : Nat) : OnlyTeam s s tid := ⟨rfl, fun _ _ => rfl⟩

theorem OnlyTeam.trans {a b c : State} {tid : Nat} (h1 : OnlyTeam a b tid) (h2 : OnlyTeam b c tid) : OnlyTeam a c tid := by
  exact ⟨(congrArg (fun z : State => { z with teams := a.teams, clk := a.clk }) h2.1).trans h1.1,
    fun k hk => (h2.2 k hk).trans (h1.2 k hk)⟩

theorem onlyTeam_tick (s : State) (n tid : Nat) : OnlyTeam s (s.tick n) tid := ⟨rfl, fun _ _ => rfl⟩

theorem onlyTeam_modTeam (s : State) (tid : Nat) (f : Team → Team) : OnlyTeam s (s.modTeam tid f) tid := by
  refine ⟨?_, fun k hk => team_modTeam_ne s f hk⟩
  unfold State.modTeam; split <;> rfl

theorem onlyTeam_setTeam (s : State) (tid : Nat) (t : Team) : OnlyTeam s (s.setTeam tid t) tid :=
  ⟨rfl, fun _ hk => team_setTeam_ne s t hk⟩

-- ## the advance of the issuing split

/-- The team after its split has advanced. -/
def advanced (t : Team) (uid : Nat) (sw : Bool) (pc : Word) (ws : List Wait) (now : Nat) : Team :=
  let ws := if sw && pendingOf t uid then .switch :: ws else ws
  (t.modSplit uid (fun x =>
    { x with icount := x.icount + 1, waits := ws, parkedAt := if ws.isEmpty then x.parkedAt else now })).moveTo uid pc

theorem advance_eq {s : State} {tid : Nat} {t : Team} (h : s.team tid = some t) (uid : Nat) (sw : Bool) (pc : Word)
    (ws : List Wait) : advance s tid uid sw pc ws = s.setTeam tid (advanced t uid sw pc ws s.clk.cycle.toNat) := by
  unfold advance; rw [modTeam_some _ h]; rfl

theorem teamKept_moveTo (t : Team) (uid : Nat) (pc : Word) : TeamKept t (t.moveTo uid pc) :=
  teamKept_of_splitsOnly ((splitsOnly_modSplit t uid _).trans (splitsOnly_arrive _ _ _))

theorem teamKept_advanced (t : Team) (uid : Nat) (sw : Bool) (pc : Word) (ws : List Wait) (now : Nat) :
    TeamKept t (advanced t uid sw pc ws now) :=
  (teamKept_of_splitsOnly (splitsOnly_modSplit t uid _)).trans (teamKept_moveTo _ _ _)

/-- Without an arrival the move changes the PC of the one split. -/
theorem moveTo_noJoin {t : Team} {uid : Nat} {x : Split} {pc : Word} (h : t.split uid = some x) (hj : NoJoin x pc) :
    t.moveTo uid pc = t.modSplit uid (fun y => { y with pc := pc }) := by
  unfold Team.moveTo
  exact arrive_noJoin (x := { x with pc := pc })
    (split_modSplit_self (fun y => { y with pc := pc }) (fun _ => rfl) h) hj 17

/-- What advancing does to the splits when no join is reached: the issuing split alone moves on (R122, R138). -/
theorem advanced_noJoin {t : Team} {uid : Nat} {x : Split} {pc : Word} (h : t.split uid = some x) (hj : NoJoin x pc)
    (sw : Bool) (ws : List Wait) (now : Nat) :
    (advanced t uid sw pc ws now).pending = t.pending ∧
    (∀ u, u ≠ uid → (advanced t uid sw pc ws now).split u = t.split u) ∧
    ∃ y, (advanced t uid sw pc ws now).split uid = some y ∧ y.pc = pc ∧ y.icount = x.icount + 1 ∧
      y.waits = (if sw && pendingOf t uid then Wait.switch :: ws else ws) ∧ SplitKept x y := by
  unfold advanced
  extract_lets ws'
  have h1 := split_modSplit_self (t := t) (uid := uid) (fun x : Split => { x with
    icount := x.icount + 1, waits := ws', parkedAt := if ws'.isEmpty then x.parkedAt else now }) (fun _ => rfl) h
  rw [moveTo_noJoin h1 hj]
  refine ⟨rfl, fun u hu => ?_, _, split_modSplit_self (fun y => { y with pc := pc }) (fun _ => rfl) h1, rfl, rfl, rfl, rfl⟩
  exact (split_modSplit_ne _ (fun y => { y with pc := pc }) (fun _ => rfl) hu).trans
    (split_modSplit_ne _ (fun x => { x with
      icount := x.icount + 1, waits := ws', parkedAt := if ws'.isEmpty then x.parkedAt else now }) (fun _ => rfl) hu)

-- ## the spin detector

/-- The spin detector changes only its own notes (R286, R287). -/
theorem spinLog_team {s : State} {tid : Nat} {t : Team} (h : s.team tid = some t) (uid : Nat) (pc : Word) (m : LaneMask)
    (u : Uses) :
    ∃ f : Split → Split, (∀ y, { f y with spin := y.spin, demoted := y.demoted, dueAt := y.dueAt } = y) ∧
      spinLog s tid uid pc m u = s.setTeam tid (t.modSplit uid f) := by
  unfold spinLog; rw [modTeam_some _ h]
  refine ⟨_, fun y => ?_, rfl⟩
  have h1 : ∀ z, { noteWrites pc m u t z with spin := z.spin } = z := fun z => by
    unfold noteWrites; dsimp only; split
    · rfl
    · split
      · rfl
      · split <;> rfl
  have h2 : { leaveDemotion t y with spin := y.spin, demoted := y.demoted, dueAt := y.dueAt } = y := by
    unfold leaveDemotion; split
    · split <;> rfl
    · rfl
  exact (congrArg (fun z : Split => { z with spin := y.spin, demoted := y.demoted, dueAt := y.dueAt }) (h1 _)).trans h2

-- ## an instruction that is issued

/-- The static checks and holds of a ready instruction leave its own effect (R75, R77, R83, R116, R124). -/
theorem checked_ready {c : Issue} {u : Uses} (h : Ready c.t c.x u) (s : State) (body : Issue → Res) :
    checked c u s body = body c := by
  obtain ⟨h1, h2, h3, h4, h5, h7⟩ := h
  have h8 : touchesInFlight c u = false := by
    unfold touchesInFlight
    rcases h7 with h7 | h7
    · rw [h7]; rfl
    · rw [h7, Bool.and_false]
  have h6 : u.vr.any c.t.filling = false ∧ u.vw.any c.t.filling = false := by simpa [List.any_append] using h5
  unfold checked staticTrap deferRes
  simp only [h1, h2, h3, Bool.not_true, Bool.or_false, if_false, Bool.false_eq_true]
  rw [h4, h6.1, h6.2, h8]; rfl

/-- What the issue of a chosen split answers. -/
theorem issueAs_eq {s : State} {tid uid : Nat} {t : Team} {x : Split} (h : AtIssue s tid uid t x) (i : Instr) (sw : Bool)
    (u : Issue → Uses) (cost : Issue → Nat) (body : Issue → Res) :
    issueAs false i sw u cost s body =
      (match finish s tid uid x.pc sw (cost (issueOf tid uid t x i))
          (checked (issueOf tid uid t x i) (u (issueOf tid uid t x i)) s body) with
       | .next s' => .next (afterIssue (issueOf tid uid t x i) (u (issueOf tid uid t x i))
           (checked (issueOf tid uid t x i) (u (issueOf tid uid t x i)) s body) s')
       | o => o) := by
  obtain ⟨h1, h2, h3⟩ := h
  unfold issueAs
  rw [h1]; dsimp only
  rw [h2]; dsimp only
  rw [h3]
  simp only [Bool.false_and, Bool.false_eq_true, if_false, issueOf]
  all_goals (generalize finish _ _ _ _ _ _ _ = o; cases o <;> rfl)

/-- The answer of an issue whose result ends in a next state. -/
theorem issueAs_of {s s' : State} {tid uid : Nat} {t : Team} {x : Split} {i : Instr} {sw : Bool} {u : Issue → Uses}
    {cost : Issue → Nat} {body : Issue → Res} {r : Res} (h : AtIssue s tid uid t x)
    (hr : checked (issueOf tid uid t x i) (u (issueOf tid uid t x i)) s body = r)
    (hf : finish s tid uid x.pc sw (cost (issueOf tid uid t x i)) r = .next s') :
    issueAs false i sw u cost s body = .next (afterIssue (issueOf tid uid t x i) (u (issueOf tid uid t x i)) r s') := by
  refine (issueAs_eq h i sw u cost body).trans ?_
  subst hr
  simp only [hf]

/-- An effect followed by the advance of the issuing split, in the terms of the statements. -/
theorem completes_of_advance {i : Instr} {s e : State} {tid uid : Nat} {sw : Bool} {pc : Word} {ws : List Wait} {te : Team}
    {xe : Split} (x : Split) (m : LaneMask) (u : Uses) (n : Nat) (ht : e.team tid = some te) (hx : te.split uid = some xe)
    (hi : exec i s = .next ((spinLog (advance (e.tick n) tid uid sw pc ws) tid uid x.pc m u).modTeam tid
      (fun t => markDirty t u.vw))) : Completes i s e tid uid sw pc ws := by
  have ht' : (e.tick n).team tid = some te := ht
  rw [advance_eq ht'] at hi
  obtain ⟨f, hf, hs⟩ := spinLog_team (team_setTeam_self (e.tick n) tid
    (advanced te uid sw pc ws (e.tick n).clk.cycle.toNat)) uid x.pc m u
  rw [hs] at hi
  have hfu : ∀ y, (f y).uid = y.uid := fun y => by have := congrArg Split.uid (hf y); exact this
  refine ⟨_, markDirty ((advanced te uid sw pc ws (e.tick n).clk.cycle.toNat).modSplit uid f) u.vw, te, xe, hi, ?_, ?_, ht, hx,
    ?_, fun hj => ?_⟩
  · exact (onlyTeam_tick e n tid).trans ((onlyTeam_setTeam _ _ _).trans ((onlyTeam_setTeam _ _ _).trans (onlyTeam_modTeam _ _ _)))
  · rw [team_modTeam_self, team_setTeam_self]; rfl
  · exact (teamKept_advanced _ _ _ _ _ _).trans ((teamKept_of_splitsOnly (splitsOnly_modSplit _ _ _)).trans (teamKept_markDirty _ _))
  · obtain ⟨h1, h2, y, h3, h4, h5, h6, h7⟩ := advanced_noJoin hx hj sw ws (e.tick n).clk.cycle.toNat
    refine ⟨by rw [markDirty_pending]; exact h1, fun v hv => ?_, f y, ?_, ?_, ?_, ?_, ?_⟩
    · rw [markDirty_split, split_modSplit_ne _ _ hfu hv]; exact h2 v hv
    · rw [markDirty_split]; exact split_modSplit_self _ hfu h3
    · rw [← h4]; have := congrArg Split.pc (hf y); exact this
    · rw [← h5]; have := congrArg Split.icount (hf y); exact this
    · rw [← h6]; have := congrArg Split.waits (hf y); exact this
    · have h8 := congrArg (fun q : Split => { q with
        pc := xe.pc, icount := xe.icount, waits := xe.waits, parkedAt := xe.parkedAt, spin := xe.spin, demoted := xe.demoted,
        dueAt := xe.dueAt }) (hf y)
      exact Eq.trans h8 h7

/-- A ready instruction with its own effect and the next word completes. -/
theorem completes_next {s e : State} {tid uid : Nat} {t te : Team} {x xe : Split} {i : Instr} {sw : Bool} {u : Issue → Uses}
    {cost : Issue → Nat} {body : Issue → Res} (hs : AtIssue s tid uid t x) (hi : exec i s = issueAs false i sw u cost s body)
    (hr : Ready t x (u (issueOf tid uid t x i))) (hb : body (issueOf tid uid t x i) = .next e)
    (ht : e.team tid = some te) (hx : te.split uid = some xe) : Completes i s e tid uid sw (x.pc + 4) [] := by
  refine completes_of_advance x ((u (issueOf tid uid t x i)).written t x) (u (issueOf tid uid t x i))
    (cost (issueOf tid uid t x i)) ht hx ?_
  have h1 : checked (issueOf tid uid t x i) (u (issueOf tid uid t x i)) s body = _ :=
    (checked_ready (c := issueOf tid uid t x i) hr s body).trans hb
  have h2 := issueAs_of (s := s) (sw := sw) (cost := cost) hs h1 rfl
  exact hi.trans h2

/-- The same for an instruction that moves its split elsewhere. -/
theorem completes_goto {s e : State} {tid uid : Nat} {t te : Team} {x xe : Split} {i : Instr} {sw : Bool} {u : Issue → Uses}
    {cost : Issue → Nat} {body : Issue → Res} {pc : Word} (hs : AtIssue s tid uid t x)
    (hi : exec i s = issueAs false i sw u cost s body) (hr : Ready t x (u (issueOf tid uid t x i)))
    (hb : body (issueOf tid uid t x i) = .goto e pc) (ht : e.team tid = some te) (hx : te.split uid = some xe) :
    Completes i s e tid uid sw pc [] := by
  refine completes_of_advance x ((u (issueOf tid uid t x i)).written t x) (u (issueOf tid uid t x i))
    (cost (issueOf tid uid t x i)) ht hx ?_
  have h1 : checked (issueOf tid uid t x i) (u (issueOf tid uid t x i)) s body = _ :=
    (checked_ready (c := issueOf tid uid t x i) hr s body).trans hb
  have h2 := issueAs_of (s := s) (sw := sw) (cost := cost) hs h1 rfl
  exact hi.trans h2

/-- The same for an instruction whose split then waits. -/
theorem completes_park {s e : State} {tid uid : Nat} {t te : Team} {x xe : Split} {i : Instr} {sw : Bool} {u : Issue → Uses}
    {cost : Issue → Nat} {body : Issue → Res} {ws : List Wait} (hs : AtIssue s tid uid t x)
    (hi : exec i s = issueAs false i sw u cost s body) (hr : Ready t x (u (issueOf tid uid t x i)))
    (hb : body (issueOf tid uid t x i) = .park e ws) (ht : e.team tid = some te) (hx : te.split uid = some xe) :
    Completes i s e tid uid sw (x.pc + 4) ws := by
  refine completes_of_advance x ((u (issueOf tid uid t x i)).written t x) (u (issueOf tid uid t x i))
    (cost (issueOf tid uid t x i)) ht hx ?_
  have h1 : checked (issueOf tid uid t x i) (u (issueOf tid uid t x i)) s body = _ :=
    (checked_ready (c := issueOf tid uid t x i) hr s body).trans hb
  have h2 := issueAs_of (s := s) (sw := sw) (cost := cost) hs h1 rfl
  exact hi.trans h2

-- ## taking a cause and leaving a handler

/-- Everything that taking a handler-delivered cause can do (R294, R63, R292). -/
theorem enterHandler_cases {s : State} {tid uid : Nat} {t : Team} {x : Split} (ht : s.team tid = some t)
    (hx : t.split uid = some x) (k : TrapInfo) :
    ((x.phase = .handler ∨ t.tvec = 0) ∧ enterHandler s tid uid k = haltTeam s tid uid k) ∨
    (x.phase ≠ .handler ∧ t.tvec ≠ 0 ∧ t.inHandler = true ∧ enterHandler s tid uid k =
      s.setTeam tid ((t.endFlush uid).modSplit uid (fun y => { y with waits := [.handler], parkedAt := s.clk.cycle.toNat }))) ∨
    (x.phase ≠ .handler ∧ t.tvec ≠ 0 ∧ t.inHandler = false ∧ enterHandler s tid uid k = s.setTeam tid (trapped t x uid k)) := by
  unfold enterHandler
  rw [ht]; dsimp only
  rw [hx]; dsimp only
  by_cases h1 : x.phase = .handler
  · left; simp [h1]
  · by_cases h2 : t.tvec = 0
    · left; simp [h2]
    · have hc : (x.phase == .handler || t.tvec == 0) = false := by
        rw [Bool.or_eq_false_iff]; exact ⟨beq_false_of_ne h1, beq_false_of_ne h2⟩
      by_cases h3 : t.inHandler = true
      · exact .inr (.inl ⟨h1, h2, h3, by rw [hc, h3]; rfl⟩)
      · have h4 : t.inHandler = false := by simpa using h3
        exact .inr (.inr ⟨h1, h2, h4, by rw [hc, h4]; rfl⟩)

/-- A cause of a context that is already halted touches its halt record alone (R298, R300). -/
theorem haltContext_again {s : State} {h : HaltCause} {c : Context} {r : HaltRec} (hc : s.ctx h.ctx = some c)
    (hh : c.halt = some r) :
    haltContext s h = s.modCtx h.ctx (fun c => { c with halt := some (laterCause s.clk.cycle r h) }) := by
  unfold haltContext; rw [hc]; dsimp only; rw [hh]

theorem send_foldl_mem (p c a b : Nat) (xs : List Nat) (f : Nat → Flit) (s : State) :
    (xs.foldl (fun s m => s.send p m c a b (f m)) s).mem = s.mem := by
  induction xs generalizing s with
  | nil => rfl
  | cons x xs ih => rw [List.foldl_cons, ih, send_mem]

/-- A halt leaves memory alone. -/
@[simp] theorem haltContext_mem (s : State) (h : HaltCause) : (haltContext s h).mem = s.mem := by
  unfold haltContext
  split
  · rfl
  · split
    · exact modCtx_mem _ _ _
    · extract_lets s1 s2
      have h2 : s2.mem = s.mem := modCtx_mem _ _ _
      split
      · exact h2
      · rw [send_foldl_mem]; exact h2

@[simp] theorem haltTeam_mem (s : State) (tid uid : Nat) (k : TrapInfo) : (haltTeam s tid uid k).mem = s.mem := by
  unfold haltTeam
  split
  · rfl
  · extract_lets s1 h first s2
    have h2 : s2.mem = s.mem := (haltContext_mem _ _).trans (modTeam_mem _ _ _)
    split
    · rw [modCtx_mem]; exact h2
    · exact h2

@[simp] theorem enterHandler_mem (s : State) (tid uid : Nat) (k : TrapInfo) : (enterHandler s tid uid k).mem = s.mem := by
  unfold enterHandler
  repeat' split
  all_goals first | rfl | exact haltTeam_mem _ _ _ _

/-- Taking a cause leaves memory alone. -/
@[simp] theorem takeCause_mem (s : State) (tid uid : Nat) (k : TrapInfo) : (takeCause s tid uid k).mem = s.mem := by
  unfold takeCause; split <;> simp

@[simp] theorem advance_mem (s : State) (tid uid : Nat) (sw : Bool) (pc : Word) (ws : List Wait) :
    (advance s tid uid sw pc ws).mem = s.mem := modTeam_mem _ _ _

@[simp] theorem spinLog_mem (s : State) (tid uid : Nat) (pc : Word) (m : LaneMask) (u : Uses) :
    (spinLog s tid uid pc m u).mem = s.mem :=
  modTeam_mem _ _ _

@[simp] theorem afterIssue_mem (c : Issue) (u : Uses) (r : Res) (s : State) : (afterIssue c u r s).mem = s.mem := by
  unfold afterIssue; split <;> simp

/-- The state that a result carries. -/
def resState (s : State) (r : Res) : State :=
  match r with
  | .next s' | .goto s' _ | .park s' _ | .done s' | .fault s' => s'
  | _ => s

/-- The memory after an instruction is the memory of its effect. -/
theorem finish_mem {s s' : State} {tid uid : Nat} {pc : Word} {sw : Bool} {cost : Nat} {r : Res}
    (h : finish s tid uid pc sw cost r = .next s') : s'.mem = (resState s r).mem := by
  unfold finish at h
  split at h <;> cases h <;> simp [resState]

/-- The memory after an issued instruction is the memory of its body's result. -/
theorem issueAs_mem {priv : Bool} {i : Instr} {sw : Bool} {u : Issue → Uses} {cost : Issue → Nat} {s s' : State}
    {body : Issue → Res} (h : issueAs priv i sw u cost s body = .next s') :
    ∃ c r, s'.mem = (resState s r).mem ∧ (r = c.trapWord .priv ∨ r = checked c (u c) s body) := by
  unfold issueAs at h
  split at h
  · split at h
    · cases h
    · split at h
      · cases h
      · next t ht x hx =>
        extract_lets c r at h
        split at h
        · next s1 h1 =>
          cases h
          refine ⟨c, r, ?_, ?_⟩
          · exact (afterIssue_mem _ _ _ _).trans (finish_mem h1)
          · unfold r; split
            · exact .inl rfl
            · exact .inr rfl
        · next o hn =>
          exact absurd h (hn _)
  · cases h

end Sys2Proof.Machine
end

