-- ==== Sys2Proof/Laws/PerInstr.lean ====
section
/-! SUPPORT. Statements made of every instruction, one lemma for each constructor. `Sys2Proof.Laws.TableBits`: the word of an instruction
has, in the bits that spec/opcode_table.json fixes for its row, the values of the table, whatever its operands; a row
without bits is a step of the agenda, or the bank units' reading of words of other rows (R93). -/
namespace Sys2Proof.Laws.TableBits

/-- The bits of a word that a mask keeps, field by field (R73). -/
def masked (f k : Fields) : Fields := ⟨f.s && k.s, f.op &&& k.op, f.d &&& k.d, f.a &&& k.a, f.b &&& k.b⟩

/-- "match" and "mask" of the instruction's row in spec/opcode_table.json, as fields. -/
def bits (i : Instr) : Option (Fields × Fields) :=
  match i with
  | .nop _ => some (⟨false, 0x00, 0x00, 0x00, 0x00⟩, ⟨false, 0x7F, 0xFF, 0xFF, 0xFF⟩)
  | .modeiLo _ _ => some (⟨false, 0x01, 0x00, 0x00, 0x00⟩, ⟨false, 0x7F, 0xFF, 0x00, 0x00⟩)
  | .modeiHi _ _ => some (⟨false, 0x01, 0x01, 0x00, 0x00⟩, ⟨false, 0x7F, 0xFF, 0x00, 0x00⟩)
  | .mfs _ _ _ => some (⟨false, 0x02, 0x00, 0x00, 0x00⟩, ⟨false, 0x7F, 0xC0, 0xE0, 0xFF⟩)
  | .mts _ _ _ => some (⟨false, 0x03, 0x00, 0x00, 0x00⟩, ⟨false, 0x7F, 0xE0, 0xC0, 0xFF⟩)
  | .bra _ _ => some (⟨false, 0x04, 0x00, 0x00, 0x00⟩, ⟨false, 0x7F, 0x00, 0x00, 0x00⟩)
  | .brpDiv _ _ _ _ => some (⟨false, 0x05, 0x00, 0x00, 0x00⟩, ⟨false, 0x7F, 0xF0, 0x00, 0x00⟩)
  | .brpAny _ _ _ _ => some (⟨false, 0x05, 0x10, 0x00, 0x00⟩, ⟨false, 0x7F, 0xF0, 0x00, 0x00⟩)
  | .brpAll _ _ _ _ => some (⟨false, 0x05, 0x20, 0x00, 0x00⟩, ⟨false, 0x7F, 0xF0, 0x00, 0x00⟩)
  | .brpNone _ _ _ _ => some (⟨false, 0x05, 0x30, 0x00, 0x00⟩, ⟨false, 0x7F, 0xF0, 0x00, 0x00⟩)
  | .joinat _ _ => some (⟨false, 0x06, 0x00, 0x00, 0x00⟩, ⟨false, 0x7F, 0xFF, 0x00, 0x00⟩)
  | .jtab _ _ _ _ => some (⟨false, 0x07, 0x00, 0x00, 0x00⟩, ⟨false, 0x7F, 0xC0, 0x00, 0xC0⟩)
  | .call _ _ => some (⟨false, 0x08, 0x00, 0x00, 0x00⟩, ⟨false, 0x7F, 0x00, 0x00, 0x00⟩)
  | .calli _ _ => some (⟨false, 0x09, 0x00, 0x00, 0x00⟩, ⟨false, 0x7F, 0xFF, 0xC0, 0xFF⟩)
  | .ret _ => some (⟨false, 0x0A, 0x00, 0x00, 0x00⟩, ⟨false, 0x7F, 0xFF, 0xFF, 0xFF⟩)
  | .refill _ _ _ _ => some (⟨false, 0x0B, 0x00, 0x00, 0x00⟩, ⟨false, 0x7F, 0x00, 0xF8, 0xFC⟩)
  | .exit _ => some (⟨false, 0x0C, 0x00, 0x00, 0x00⟩, ⟨false, 0x7F, 0xFF, 0xFF, 0xFF⟩)
  | .trapi _ _ => some (⟨false, 0x0D, 0x00, 0x00, 0x00⟩, ⟨false, 0x7F, 0xFF, 0x00, 0x00⟩)
  | .rett _ => some (⟨false, 0x0E, 0x00, 0x00, 0x00⟩, ⟨false, 0x7F, 0xFF, 0xFF, 0xFF⟩)
  | .yieldcCopy _ _ _ => some (⟨false, 0x0F, 0x00, 0x00, 0x00⟩, ⟨false, 0x7F, 0xC0, 0x00, 0x00⟩)
  | .yieldcColl _ _ _ => some (⟨false, 0x0F, 0x40, 0x00, 0x00⟩, ⟨false, 0x7F, 0xC0, 0x00, 0x00⟩)
  | .yieldcBank _ _ _ => some (⟨false, 0x0F, 0x80, 0x00, 0x00⟩, ⟨false, 0x7F, 0xC0, 0x00, 0x00⟩)
  | .yieldcMm _ _ _ => some (⟨false, 0x0F, 0xC0, 0x00, 0x00⟩, ⟨false, 0x7F, 0xC0, 0x00, 0x00⟩)
  | .arrive _ _ _ => some (⟨false, 0x10, 0x00, 0x00, 0x00⟩, ⟨false, 0x7F, 0xC0, 0xC0, 0xFF⟩)
  | .pwait _ _ _ => some (⟨false, 0x11, 0x00, 0x00, 0x00⟩, ⟨false, 0x7F, 0xFF, 0xC0, 0xC0⟩)
  | .dbar _ _ => some (⟨false, 0x12, 0x00, 0x00, 0x00⟩, ⟨false, 0x7F, 0xFF, 0x00, 0x00⟩)
  | .gangset _ _ => some (⟨false, 0x13, 0x00, 0x00, 0x00⟩, ⟨false, 0x7F, 0xFF, 0xC0, 0xFF⟩)
  | .xacq _ _ => some (⟨false, 0x14, 0x00, 0x00, 0x00⟩, ⟨false, 0x7F, 0xFF, 0xFF, 0xF8⟩)
  | .xrel _ _ => some (⟨false, 0x15, 0x00, 0x00, 0x00⟩, ⟨false, 0x7F, 0xFF, 0xFF, 0xF8⟩)
  | .hsave _ _ _ => some (⟨false, 0x16, 0x00, 0x00, 0xFF⟩, ⟨false, 0x7F, 0xFF, 0x00, 0xFF⟩)
  | .hload _ _ _ => some (⟨false, 0x17, 0x00, 0x00, 0xFF⟩, ⟨false, 0x7F, 0xFF, 0x00, 0xFF⟩)
  | .rflush _ => some (⟨false, 0x18, 0x00, 0x00, 0x00⟩, ⟨false, 0x7F, 0xFF, 0xFF, 0xFF⟩)
  | .seqopen _ _ _ _ => some (⟨false, 0x19, 0x00, 0x00, 0x00⟩, ⟨false, 0x7F, 0xC0, 0xC0, 0xC0⟩)
  | .seqend _ _ => some (⟨false, 0x1A, 0x00, 0x00, 0x00⟩, ⟨false, 0x7F, 0xFF, 0xC0, 0xFF⟩)
  | .launch _ _ => some (⟨false, 0x1B, 0x00, 0x00, 0x00⟩, ⟨false, 0x7F, 0xFF, 0xC0, 0xFF⟩)
  | .signal _ _ _ => some (⟨false, 0x1C, 0x00, 0x00, 0x00⟩, ⟨false, 0x7F, 0xFF, 0xC0, 0xC0⟩)
  | .ipush _ _ _ _ => some (⟨false, 0x1D, 0x00, 0x00, 0x00⟩, ⟨false, 0x7F, 0xFF, 0x00, 0xE0⟩)
  | .digest _ _ _ => some (⟨false, 0x1E, 0x00, 0x00, 0x00⟩, ⟨false, 0x7F, 0xC0, 0xC0, 0xFF⟩)
  | .sadd _ _ _ _ => some (⟨false, 0x20, 0x00, 0x00, 0x00⟩, ⟨false, 0x7F, 0xC0, 0xC0, 0xC0⟩)
  | .ssub _ _ _ _ => some (⟨false, 0x20, 0x00, 0x00, 0x40⟩, ⟨false, 0x7F, 0xC0, 0xC0, 0xC0⟩)
  | .smul _ _ _ _ => some (⟨false, 0x20, 0x00, 0x00, 0x80⟩, ⟨false, 0x7F, 0xC0, 0xC0, 0xC0⟩)
  | .smulh _ _ _ _ => some (⟨false, 0x20, 0x00, 0x00, 0xC0⟩, ⟨false, 0x7F, 0xC0, 0xC0, 0xC0⟩)
  | .sand _ _ _ _ => some (⟨false, 0x20, 0x00, 0x40, 0x00⟩, ⟨false, 0x7F, 0xC0, 0xC0, 0xC0⟩)
  | .sor _ _ _ _ => some (⟨false, 0x20, 0x00, 0x40, 0x40⟩, ⟨false, 0x7F, 0xC0, 0xC0, 0xC0⟩)
  | .sxor _ _ _ _ => some (⟨false, 0x20, 0x00, 0x40, 0x80⟩, ⟨false, 0x7F, 0xC0, 0xC0, 0xC0⟩)
  | .sshl _ _ _ _ => some (⟨false, 0x20, 0x00, 0x40, 0xC0⟩, ⟨false, 0x7F, 0xC0, 0xC0, 0xC0⟩)
  | .sshr _ _ _ _ => some (⟨false, 0x20, 0x00, 0x80, 0x00⟩, ⟨false, 0x7F, 0xC0, 0xC0, 0xC0⟩)
  | .ssra _ _ _ _ => some (⟨false, 0x20, 0x00, 0x80, 0x40⟩, ⟨false, 0x7F, 0xC0, 0xC0, 0xC0⟩)
  | .smin _ _ _ _ => some (⟨false, 0x20, 0x00, 0x80, 0x80⟩, ⟨false, 0x7F, 0xC0, 0xC0, 0xC0⟩)
  | .smax _ _ _ _ => some (⟨false, 0x20, 0x00, 0x80, 0xC0⟩, ⟨false, 0x7F, 0xC0, 0xC0, 0xC0⟩)
  | .saddp _ _ _ _ => some (⟨false, 0x20, 0x00, 0xC0, 0x00⟩, ⟨false, 0x7F, 0xC0, 0xC0, 0xC0⟩)
  | .scmpEq _ _ _ _ => some (⟨false, 0x21, 0x00, 0x00, 0x00⟩, ⟨false, 0x7F, 0xF8, 0xC0, 0xC0⟩)
  | .scmpNe _ _ _ _ => some (⟨false, 0x21, 0x00, 0x00, 0x40⟩, ⟨false, 0x7F, 0xF8, 0xC0, 0xC0⟩)
  | .scmpLt _ _ _ _ => some (⟨false, 0x21, 0x00, 0x00, 0x80⟩, ⟨false, 0x7F, 0xF8, 0xC0, 0xC0⟩)
  | .scmpLe _ _ _ _ => some (⟨false, 0x21, 0x00, 0x00, 0xC0⟩, ⟨false, 0x7F, 0xF8, 0xC0, 0xC0⟩)
  | .scmpLtn _ _ _ _ => some (⟨false, 0x21, 0x40, 0x00, 0x00⟩, ⟨false, 0x7F, 0xF8, 0xC0, 0xC0⟩)
  | .scmpLen _ _ _ _ => some (⟨false, 0x21, 0x40, 0x00, 0x40⟩, ⟨false, 0x7F, 0xF8, 0xC0, 0xC0⟩)
  | .saddi _ _ _ => some (⟨false, 0x22, 0x00, 0x00, 0x00⟩, ⟨false, 0x7F, 0xC0, 0x00, 0x00⟩)
  | .sli _ _ _ => some (⟨false, 0x23, 0x00, 0x00, 0x00⟩, ⟨false, 0x7F, 0xC0, 0x00, 0x00⟩)
  | .slih _ _ _ => some (⟨false, 0x24, 0x00, 0x00, 0x00⟩, ⟨false, 0x7F, 0xC0, 0x00, 0x00⟩)
  | .vadd _ _ _ _ => some (⟨false, 0x30, 0x00, 0x00, 0x00⟩, ⟨false, 0x7F, 0x00, 0x00, 0x00⟩)
  | .vsub _ _ _ _ => some (⟨false, 0x31, 0x00, 0x00, 0x00⟩, ⟨false, 0x7F, 0x00, 0x00, 0x00⟩)
  | .vmul _ _ _ _ => some (⟨false, 0x32, 0x00, 0x00, 0x00⟩, ⟨false, 0x7F, 0x00, 0x00, 0x00⟩)
  | .vmulh _ _ _ _ => some (⟨false, 0x33, 0x00, 0x00, 0x00⟩, ⟨false, 0x7F, 0x00, 0x00, 0x00⟩)
  | .vmad _ _ _ _ => some (⟨false, 0x34, 0x00, 0x00, 0x00⟩, ⟨false, 0x7F, 0x00, 0x00, 0x00⟩)
  | .vmin _ _ _ _ => some (⟨false, 0x35, 0x00, 0x00, 0x00⟩, ⟨false, 0x7F, 0x00, 0x00, 0x00⟩)
  | .vmax _ _ _ _ => some (⟨false, 0x36, 0x00, 0x00, 0x00⟩, ⟨false, 0x7F, 0x00, 0x00, 0x00⟩)
  | .vand _ _ _ _ => some (⟨false, 0x37, 0x00, 0x00, 0x00⟩, ⟨false, 0x7F, 0x00, 0x00, 0x00⟩)
  | .vor _ _ _ _ => some (⟨false, 0x38, 0x00, 0x00, 0x00⟩, ⟨false, 0x7F, 0x00, 0x00, 0x00⟩)
  | .vxor _ _ _ _ => some (⟨false, 0x39, 0x00, 0x00, 0x00⟩, ⟨false, 0x7F, 0x00, 0x00, 0x00⟩)
  | .vshl _ _ _ _ => some (⟨false, 0x3A, 0x00, 0x00, 0x00⟩, ⟨false, 0x7F, 0x00, 0x00, 0x00⟩)
  | .vshr _ _ _ _ => some (⟨false, 0x3B, 0x00, 0x00, 0x00⟩, ⟨false, 0x7F, 0x00, 0x00, 0x00⟩)
  | .vsra _ _ _ _ => some (⟨false, 0x3C, 0x00, 0x00, 0x00⟩, ⟨false, 0x7F, 0x00, 0x00, 0x00⟩)
  | .vsel _ _ _ _ => some (⟨false, 0x3D, 0x00, 0x00, 0x00⟩, ⟨false, 0x7F, 0x00, 0x00, 0x00⟩)
  | .vcmpEq _ _ _ _ _ => some (⟨false, 0x3E, 0x00, 0x00, 0x00⟩, ⟨false, 0x7F, 0x38, 0x00, 0x00⟩)
  | .vcmpNe _ _ _ _ _ => some (⟨false, 0x3E, 0x08, 0x00, 0x00⟩, ⟨false, 0x7F, 0x38, 0x00, 0x00⟩)
  | .vcmpLt _ _ _ _ _ => some (⟨false, 0x3E, 0x10, 0x00, 0x00⟩, ⟨false, 0x7F, 0x38, 0x00, 0x00⟩)
  | .vcmpLe _ _ _ _ _ => some (⟨false, 0x3E, 0x18, 0x00, 0x00⟩, ⟨false, 0x7F, 0x38, 0x00, 0x00⟩)
  | .vcmpGt _ _ _ _ _ => some (⟨false, 0x3E, 0x20, 0x00, 0x00⟩, ⟨false, 0x7F, 0x38, 0x00, 0x00⟩)
  | .vcmpGe _ _ _ _ _ => some (⟨false, 0x3E, 0x28, 0x00, 0x00⟩, ⟨false, 0x7F, 0x38, 0x00, 0x00⟩)
  | .vcvt _ _ _ => some (⟨false, 0x3F, 0x00, 0x00, 0x00⟩, ⟨false, 0x7F, 0x00, 0x00, 0xFF⟩)
  | .vabs _ _ _ => some (⟨false, 0x3F, 0x00, 0x00, 0x01⟩, ⟨false, 0x7F, 0x00, 0x00, 0xFF⟩)
  | .vneg _ _ _ => some (⟨false, 0x3F, 0x00, 0x00, 0x02⟩, ⟨false, 0x7F, 0x00, 0x00, 0xFF⟩)
  | .vnot _ _ _ => some (⟨false, 0x3F, 0x00, 0x00, 0x03⟩, ⟨false, 0x7F, 0x00, 0x00, 0xFF⟩)
  | .vclz _ _ _ => some (⟨false, 0x3F, 0x00, 0x00, 0x04⟩, ⟨false, 0x7F, 0x00, 0x00, 0xFF⟩)
  | .vpopc _ _ _ => some (⟨false, 0x3F, 0x00, 0x00, 0x05⟩, ⟨false, 0x7F, 0x00, 0x00, 0xFF⟩)
  | .vrcp _ _ _ => some (⟨false, 0x3F, 0x00, 0x00, 0x06⟩, ⟨false, 0x7F, 0x00, 0x00, 0xFF⟩)
  | .vrsq _ _ _ => some (⟨false, 0x3F, 0x00, 0x00, 0x07⟩, ⟨false, 0x7F, 0x00, 0x00, 0xFF⟩)
  | .vsqrt _ _ _ => some (⟨false, 0x3F, 0x00, 0x00, 0x08⟩, ⟨false, 0x7F, 0x00, 0x00, 0xFF⟩)
  | .vexp2 _ _ _ => some (⟨false, 0x3F, 0x00, 0x00, 0x09⟩, ⟨false, 0x7F, 0x00, 0x00, 0xFF⟩)
  | .vlog2 _ _ _ => some (⟨false, 0x3F, 0x00, 0x00, 0x0A⟩, ⟨false, 0x7F, 0x00, 0x00, 0xFF⟩)
  | .vtanh _ _ _ => some (⟨false, 0x3F, 0x00, 0x00, 0x0B⟩, ⟨false, 0x7F, 0x00, 0x00, 0xFF⟩)
  | .vli _ _ _ => some (⟨false, 0x40, 0x00, 0x00, 0x00⟩, ⟨false, 0x7F, 0x00, 0x00, 0x00⟩)
  | .vlih _ _ _ => some (⟨false, 0x41, 0x00, 0x00, 0x00⟩, ⟨false, 0x7F, 0x00, 0x00, 0x00⟩)
  | .vbcast _ _ _ => some (⟨false, 0x42, 0x00, 0x00, 0x00⟩, ⟨false, 0x7F, 0x00, 0xC0, 0xFF⟩)
  | .vextr _ _ _ _ => some (⟨false, 0x43, 0x00, 0x00, 0x00⟩, ⟨false, 0x7F, 0xC0, 0x00, 0xC0⟩)
  | .vperm _ _ _ _ => some (⟨false, 0x44, 0x00, 0x00, 0x00⟩, ⟨false, 0x7F, 0x00, 0x00, 0x00⟩)
  | .vredAdd _ _ _ => some (⟨false, 0x45, 0x00, 0x00, 0x00⟩, ⟨false, 0x7F, 0xC0, 0x00, 0xFF⟩)
  | .vredMin _ _ _ => some (⟨false, 0x45, 0x00, 0x00, 0x01⟩, ⟨false, 0x7F, 0xC0, 0x00, 0xFF⟩)
  | .vredMax _ _ _ => some (⟨false, 0x45, 0x00, 0x00, 0x02⟩, ⟨false, 0x7F, 0xC0, 0x00, 0xFF⟩)
  | .vredAnd _ _ _ => some (⟨false, 0x45, 0x00, 0x00, 0x03⟩, ⟨false, 0x7F, 0xC0, 0x00, 0xFF⟩)
  | .vredOr _ _ _ => some (⟨false, 0x45, 0x00, 0x00, 0x04⟩, ⟨false, 0x7F, 0xC0, 0x00, 0xFF⟩)
  | .vredXor _ _ _ => some (⟨false, 0x45, 0x00, 0x00, 0x05⟩, ⟨false, 0x7F, 0xC0, 0x00, 0xFF⟩)
  | .vscanAdd _ _ _ => some (⟨false, 0x46, 0x00, 0x00, 0x00⟩, ⟨false, 0x7F, 0x00, 0x00, 0xFF⟩)
  | .vscanMin _ _ _ => some (⟨false, 0x46, 0x00, 0x00, 0x01⟩, ⟨false, 0x7F, 0x00, 0x00, 0xFF⟩)
  | .vscanMax _ _ _ => some (⟨false, 0x46, 0x00, 0x00, 0x02⟩, ⟨false, 0x7F, 0x00, 0x00, 0xFF⟩)
  | .vscanAnd _ _ _ => some (⟨false, 0x46, 0x00, 0x00, 0x03⟩, ⟨false, 0x7F, 0x00, 0x00, 0xFF⟩)
  | .vscanOr _ _ _ => some (⟨false, 0x46, 0x00, 0x00, 0x04⟩, ⟨false, 0x7F, 0x00, 0x00, 0xFF⟩)
  | .vscanXor _ _ _ => some (⟨false, 0x46, 0x00, 0x00, 0x05⟩, ⟨false, 0x7F, 0x00, 0x00, 0xFF⟩)
  | .vbal _ _ _ _ => some (⟨false, 0x47, 0x00, 0x00, 0x00⟩, ⟨false, 0x7F, 0xC0, 0xF8, 0xC0⟩)
  | .vdot4 _ _ _ _ => some (⟨false, 0x48, 0x00, 0x00, 0x00⟩, ⟨false, 0x7F, 0x00, 0x00, 0x00⟩)
  | .vdot2 _ _ _ _ => some (⟨false, 0x49, 0x00, 0x00, 0x00⟩, ⟨false, 0x7F, 0x00, 0x00, 0x00⟩)
  | .vidx _ _ => some (⟨false, 0x4A, 0x00, 0x00, 0x00⟩, ⟨false, 0x7F, 0x00, 0xFF, 0xFF⟩)
  | .vsetp _ _ _ => some (⟨false, 0x4B, 0x00, 0x00, 0x00⟩, ⟨false, 0x7F, 0xF8, 0x00, 0xFF⟩)
  | .pland _ _ _ _ => some (⟨false, 0x4C, 0x00, 0x00, 0x00⟩, ⟨false, 0x7F, 0xF8, 0xF8, 0xF8⟩)
  | .plor _ _ _ _ => some (⟨false, 0x4C, 0x08, 0x00, 0x00⟩, ⟨false, 0x7F, 0xF8, 0xF8, 0xF8⟩)
  | .plxor _ _ _ _ => some (⟨false, 0x4C, 0x10, 0x00, 0x00⟩, ⟨false, 0x7F, 0xF8, 0xF8, 0xF8⟩)
  | .plnot _ _ _ => some (⟨false, 0x4C, 0x18, 0x00, 0x00⟩, ⟨false, 0x7F, 0xF8, 0xF8, 0xFF⟩)
  | .psetv _ _ _ => some (⟨false, 0x4D, 0x00, 0x00, 0x00⟩, ⟨false, 0x7F, 0x00, 0xF8, 0xFF⟩)
  | .pcnt _ _ _ => some (⟨false, 0x4E, 0x00, 0x00, 0x00⟩, ⟨false, 0x7F, 0xC0, 0xF8, 0xFF⟩)
  | .ld _ _ _ _ _ => some (⟨false, 0x50, 0x00, 0x00, 0x00⟩, ⟨false, 0x7F, 0x00, 0x00, 0x00⟩)
  | .st _ _ _ _ _ => some (⟨false, 0x51, 0x00, 0x00, 0x00⟩, ⟨false, 0x7F, 0x00, 0x00, 0x00⟩)
  | .ld4 _ _ _ _ _ => some (⟨false, 0x52, 0x00, 0x00, 0x00⟩, ⟨false, 0x7F, 0x00, 0x00, 0x00⟩)
  | .st4 _ _ _ _ _ => some (⟨false, 0x53, 0x00, 0x00, 0x00⟩, ⟨false, 0x7F, 0x00, 0x00, 0x00⟩)
  | .lda _ _ _ _ _ => some (⟨false, 0x54, 0x00, 0x00, 0x00⟩, ⟨false, 0x7F, 0x00, 0x00, 0x00⟩)
  | .stl _ _ _ _ _ => some (⟨false, 0x55, 0x00, 0x00, 0x00⟩, ⟨false, 0x7F, 0x00, 0x00, 0x00⟩)
  | .sld _ _ _ _ _ => some (⟨false, 0x56, 0x00, 0x00, 0x00⟩, ⟨false, 0x7F, 0xC0, 0x00, 0xC0⟩)
  | .sst _ _ _ _ _ => some (⟨false, 0x57, 0x00, 0x00, 0x00⟩, ⟨false, 0x7F, 0xC0, 0x00, 0xC0⟩)
  | .aadd _ _ _ _ _ => some (⟨false, 0x58, 0x00, 0x00, 0x00⟩, ⟨false, 0x7F, 0x00, 0x00, 0x00⟩)
  | .amin _ _ _ _ _ => some (⟨false, 0x59, 0x00, 0x00, 0x00⟩, ⟨false, 0x7F, 0x00, 0x00, 0x00⟩)
  | .amax _ _ _ _ _ => some (⟨false, 0x5A, 0x00, 0x00, 0x00⟩, ⟨false, 0x7F, 0x00, 0x00, 0x00⟩)
  | .aand _ _ _ _ _ => some (⟨false, 0x5B, 0x00, 0x00, 0x00⟩, ⟨false, 0x7F, 0x00, 0x00, 0x00⟩)
  | .aor _ _ _ _ _ => some (⟨false, 0x5C, 0x00, 0x00, 0x00⟩, ⟨false, 0x7F, 0x00, 0x00, 0x00⟩)
  | .axor _ _ _ _ _ => some (⟨false, 0x5D, 0x00, 0x00, 0x00⟩, ⟨false, 0x7F, 0x00, 0x00, 0x00⟩)
  | .axchg _ _ _ _ _ => some (⟨false, 0x5E, 0x00, 0x00, 0x00⟩, ⟨false, 0x7F, 0x00, 0x00, 0x00⟩)
  | .acas _ _ _ _ _ => some (⟨false, 0x5F, 0x00, 0x00, 0x00⟩, ⟨false, 0x7F, 0x00, 0x00, 0x00⟩)
  | .redadd _ _ _ _ _ => some (⟨false, 0x60, 0x00, 0x00, 0x00⟩, ⟨false, 0x7F, 0x00, 0x00, 0x00⟩)
  | .redmin _ _ _ _ _ => some (⟨false, 0x61, 0x00, 0x00, 0x00⟩, ⟨false, 0x7F, 0x00, 0x00, 0x00⟩)
  | .redmax _ _ _ _ _ => some (⟨false, 0x62, 0x00, 0x00, 0x00⟩, ⟨false, 0x7F, 0x00, 0x00, 0x00⟩)
  | .redor _ _ _ _ _ => some (⟨false, 0x63, 0x00, 0x00, 0x00⟩, ⟨false, 0x7F, 0x00, 0x00, 0x00⟩)
  | .pdrain _ _ => some (⟨false, 0x64, 0x00, 0x00, 0x00⟩, ⟨false, 0x7F, 0xFF, 0xFC, 0xFF⟩)
  | .fenceRel _ _ => some (⟨false, 0x65, 0x00, 0x00, 0x00⟩, ⟨false, 0x7F, 0xF3, 0xFC, 0xFF⟩)
  | .fenceAcq _ _ => some (⟨false, 0x65, 0x01, 0x00, 0x00⟩, ⟨false, 0x7F, 0xF3, 0xFC, 0xFF⟩)
  | .fenceFull _ _ => some (⟨false, 0x65, 0x02, 0x00, 0x00⟩, ⟨false, 0x7F, 0xF3, 0xFC, 0xFF⟩)
  | .fenceAcqn _ _ => some (⟨false, 0x65, 0x03, 0x00, 0x00⟩, ⟨false, 0x7F, 0xF3, 0xFC, 0xFF⟩)
  | .invr _ _ _ => some (⟨false, 0x66, 0x00, 0x00, 0xFF⟩, ⟨false, 0x7F, 0xC0, 0x03, 0xFF⟩)
  | .wbr _ _ _ => some (⟨false, 0x67, 0x00, 0x00, 0xFF⟩, ⟨false, 0x7F, 0xC0, 0x03, 0xFF⟩)
  | .ownr _ _ _ => some (⟨false, 0x68, 0x00, 0x00, 0xFF⟩, ⟨false, 0x7F, 0xC0, 0x03, 0xFF⟩)
  | .spld _ _ _ _ => some (⟨false, 0x69, 0x00, 0x00, 0x00⟩, ⟨false, 0x7F, 0x00, 0x03, 0x00⟩)
  | .spst _ _ _ _ => some (⟨false, 0x6A, 0x00, 0x00, 0x00⟩, ⟨false, 0x7F, 0x00, 0x03, 0x00⟩)
  | .spaadd _ _ _ _ => some (⟨false, 0x6B, 0x00, 0x00, 0x00⟩, ⟨false, 0x7F, 0x00, 0x03, 0x00⟩)
  | .halloc _ _ _ => some (⟨false, 0x6C, 0x00, 0x00, 0x00⟩, ⟨false, 0x7F, 0xC0, 0xC0, 0xFF⟩)
  | .hpass _ _ _ => some (⟨false, 0x6D, 0x00, 0x00, 0x00⟩, ⟨false, 0x7F, 0xFF, 0xC0, 0xC0⟩)
  | .hfree _ _ => some (⟨false, 0x6E, 0x00, 0x00, 0x00⟩, ⟨false, 0x7F, 0xFF, 0xC0, 0xFF⟩)
  | .mm128 _ _ _ _ => some (⟨false, 0x70, 0x00, 0x00, 0x00⟩, ⟨false, 0x7F, 0x00, 0xC0, 0xC0⟩)
  | .mm256 _ _ _ _ => some (⟨false, 0x71, 0x20, 0x00, 0x00⟩, ⟨false, 0x7F, 0xFF, 0xC0, 0xC0⟩)
  | .mm512 _ _ _ _ => some (⟨false, 0x72, 0x40, 0x00, 0x00⟩, ⟨false, 0x7F, 0xFF, 0xC0, 0xC0⟩)
  | .mm1024 _ _ _ _ => some (⟨false, 0x73, 0x80, 0x00, 0x00⟩, ⟨false, 0x7F, 0xFF, 0xC0, 0xC0⟩)
  | .mbatch _ _ => some (⟨false, 0x74, 0x00, 0x00, 0x00⟩, ⟨false, 0x7F, 0xC0, 0xFF, 0xFF⟩)
  | .mwait _ _ => some (⟨false, 0x75, 0x00, 0x00, 0x00⟩, ⟨false, 0x7F, 0xFF, 0xC0, 0xFF⟩)
  | .pfl2 _ _ _ => some (⟨false, 0x76, 0x00, 0x00, 0x00⟩, ⟨false, 0x7F, 0xFF, 0xC0, 0xC0⟩)
  | .bkload _ _ _ _ => some (⟨false, 0x77, 0x00, 0x00, 0x00⟩, ⟨false, 0x7F, 0xC0, 0xC0, 0xFC⟩)
  | .bkrun _ _ _ _ => some (⟨false, 0x78, 0x00, 0x00, 0x00⟩, ⟨false, 0x7F, 0xC0, 0x00, 0xC0⟩)
  | .bkwait _ _ => some (⟨false, 0x79, 0x00, 0x00, 0x00⟩, ⟨false, 0x7F, 0xFF, 0xC0, 0xFF⟩)
  | .bkread _ _ _ _ => some (⟨false, 0x7A, 0x00, 0x00, 0x00⟩, ⟨false, 0x7F, 0x00, 0x00, 0xFC⟩)
  | .dcopy _ _ _ => some (⟨false, 0x7B, 0x00, 0x00, 0x00⟩, ⟨false, 0x7F, 0xC0, 0xC0, 0xFF⟩)
  | .dcopy2 _ _ _ => some (⟨false, 0x7B, 0x00, 0x00, 0x01⟩, ⟨false, 0x7F, 0xC0, 0xC0, 0xFF⟩)
  | .dfill _ _ _ => some (⟨false, 0x7B, 0x00, 0x00, 0x02⟩, ⟨false, 0x7F, 0xC0, 0xC0, 0xFF⟩)
  | .dgath _ _ _ => some (⟨false, 0x7B, 0x00, 0x00, 0x03⟩, ⟨false, 0x7F, 0xC0, 0xC0, 0xFF⟩)
  | .dgate _ _ _ => some (⟨false, 0x7B, 0x00, 0x00, 0x04⟩, ⟨false, 0x7F, 0xC0, 0xC0, 0xFF⟩)
  | .dwait _ _ => some (⟨false, 0x7C, 0x00, 0x00, 0x00⟩, ⟨false, 0x7F, 0xFF, 0xC0, 0xFF⟩)
  | .dpoll _ _ _ => some (⟨false, 0x7C, 0x00, 0x00, 0x01⟩, ⟨false, 0x7F, 0xC0, 0xC0, 0xFF⟩)
  | .cred _ _ _ => some (⟨false, 0x7D, 0x00, 0x00, 0x00⟩, ⟨false, 0x7F, 0xC0, 0xC0, 0xFF⟩)
  | .cgath _ _ _ => some (⟨false, 0x7D, 0x00, 0x00, 0x01⟩, ⟨false, 0x7F, 0xC0, 0xC0, 0xFF⟩)
  | .cscat _ _ _ => some (⟨false, 0x7D, 0x00, 0x00, 0x02⟩, ⟨false, 0x7F, 0xC0, 0xC0, 0xFF⟩)
  | .cxch _ _ _ => some (⟨false, 0x7D, 0x00, 0x00, 0x03⟩, ⟨false, 0x7F, 0xC0, 0xC0, 0xFF⟩)
  | .cwait _ _ => some (⟨false, 0x7E, 0x00, 0x00, 0x00⟩, ⟨false, 0x7F, 0xFF, 0xC0, 0xFF⟩)
  | .cpoll _ _ _ => some (⟨false, 0x7E, 0x00, 0x00, 0x01⟩, ⟨false, 0x7F, 0xC0, 0xC0, 0xFF⟩)
  | .pgharv _ _ _ => some (⟨false, 0x7F, 0x00, 0x00, 0x00⟩, ⟨false, 0x7F, 0xC0, 0xC0, 0xFF⟩)
  | .pgset _ _ _ => some (⟨false, 0x7F, 0x00, 0x00, 0x01⟩, ⟨false, 0x7F, 0xC0, 0xC0, 0xFF⟩)
  | .tlbinvPage _ _ _ => some (⟨false, 0x7F, 0x00, 0x00, 0x02⟩, ⟨false, 0x7F, 0xC0, 0xC0, 0xFF⟩)
  | .tlbinvContext _ _ _ => some (⟨false, 0x7F, 0x00, 0x00, 0x02⟩, ⟨false, 0x7F, 0xC0, 0xC0, 0xFF⟩)
  | .keyopAlloc _ _ _ => some (⟨false, 0x7F, 0x00, 0x00, 0x03⟩, ⟨false, 0x7F, 0xC0, 0xC0, 0xFF⟩)
  | .keyopDestroy _ _ _ => some (⟨false, 0x7F, 0x00, 0x00, 0x03⟩, ⟨false, 0x7F, 0xC0, 0xC0, 0xFF⟩)
  | .keyopRotate _ _ _ => some (⟨false, 0x7F, 0x00, 0x00, 0x03⟩, ⟨false, 0x7F, 0xC0, 0xC0, 0xFF⟩)
  | .keyopStatus _ _ _ => some (⟨false, 0x7F, 0x00, 0x00, 0x03⟩, ⟨false, 0x7F, 0xC0, 0xC0, 0xFF⟩)
  | .keyopRelease _ _ _ => some (⟨false, 0x7F, 0x00, 0x00, 0x03⟩, ⟨false, 0x7F, 0xC0, 0xC0, 0xFF⟩)
  | .ctxswArm _ _ _ => some (⟨false, 0x7F, 0x00, 0x00, 0x04⟩, ⟨false, 0x7F, 0xC0, 0xC0, 0xFF⟩)
  | .ctxswCancel _ _ _ => some (⟨false, 0x7F, 0x00, 0x00, 0x04⟩, ⟨false, 0x7F, 0xC0, 0xC0, 0xFF⟩)
  | .scrub _ _ _ => some (⟨false, 0x7F, 0x00, 0x00, 0x05⟩, ⟨false, 0x7F, 0xC0, 0xC0, 0xFF⟩)
  | .scrubPoll _ _ _ => some (⟨false, 0x7F, 0x00, 0x00, 0x05⟩, ⟨false, 0x7F, 0xC0, 0xC0, 0xFF⟩)
  | .rowld _ _ _ => some (⟨false, 0x26, 0x00, 0x80, 0x00⟩, ⟨false, 0x7F, 0xFC, 0xF8, 0xFF⟩)
  | .rowst _ _ _ => some (⟨false, 0x27, 0x00, 0x00, 0x80⟩, ⟨false, 0x7F, 0xFF, 0xFC, 0xF8⟩)
  | .bfpadd _ _ _ => some (⟨false, 0x28, 0x00, 0x00, 0x00⟩, ⟨false, 0x7F, 0xFC, 0xFC, 0xFF⟩)
  | .bsmac _ _ _ _ => some (⟨false, 0x29, 0x00, 0x00, 0x80⟩, ⟨false, 0x7F, 0xFC, 0xFC, 0xF8⟩)
  | .mpush _ _ => some (⟨false, 0x2A, 0x00, 0x00, 0x00⟩, ⟨false, 0x7F, 0xFF, 0xFC, 0xFF⟩)
  | .mpop _ => some (⟨false, 0x2B, 0x00, 0x00, 0x00⟩, ⟨false, 0x7F, 0xFF, 0xFF, 0xFF⟩)
  | .mflip _ => some (⟨false, 0x2C, 0x00, 0x00, 0x00⟩, ⟨false, 0x7F, 0xFF, 0xFF, 0xFF⟩)
  | .bkend _ => some (⟨false, 0x2D, 0x00, 0x00, 0x00⟩, ⟨false, 0x7F, 0xFF, 0xFF, 0xFF⟩)
  | .bfpout _ _ _ => some (⟨false, 0x2E, 0x00, 0x00, 0x00⟩, ⟨false, 0x7F, 0xFC, 0xFC, 0xFF⟩)
  | .bankSubsetInstruction _ => none
  | .issueOpportunity _ => none
  | .splitRestore _ _ => none
  | .spinDemotion _ _ => none
  | .demotionEnd _ _ => none
  | .nodeOpen _ => none
  | .drovePlacement _ => none
  | .lineClearDone _ => none
  | .xacqGrant _ => none
  | .registerLineFill _ _ => none
  | .longLatencyReturn _ _ _ _ => none
  | .teamRetire _ => none
  | .nodeCompletion _ _ => none
  | .entryArm _ _ => none
  | .entryDecrement _ _ _ => none
  | .nodeReleaseArm _ _ => none
  | .nodeReleaseDecrement _ _ => none
  | .policyReload _ => none
  | .hostRegisterWrite _ _ _ => none
  | .watchdog _ _ => none
  | .droveEviction _ => none
  | .gangSwitch _ => none
  | .contextHalt _ => none
  | .haltFinish _ => none
  | .remoteHaltFlit _ _ => none
  | .pageFaultService _ _ _ => none
  | .translationWalk _ _ _ _ => none
  | .placeOfEffectAccess _ => none
  | .ownRegistration _ _ _ => none
  | .forwardedRead _ _ _ => none
  | .registeredWriteback _ _ _ _ => none
  | .nmuUpdate _ => none
  | .drayChunk _ _ => none
  | .tileFetchLine _ => none
  | .tensorStep _ => none
  | .bankRunArrival _ => none
  | .bkloadDelivery _ => none
  | .bankRunAdmit _ => none
  | .ordinaryRequestArrival _ _ _ _ => none
  | .bankRowBoundary _ => none
  | .refreshDue _ => none
  | .collChunkSend _ _ => none
  | .collChunkReceive _ _ _ => none
  | .collAck _ _ _ => none
  | .collNack _ _ _ => none
  | .rxRegionExpiry _ => none
  | .remoteRequest _ => none
  | .remoteFaultCompletion _ => none
  | .remoteTimeout _ => none
  | .ckptAdvisory _ _ => none
  | .correctedError _ => none
  | .uncorrectableError _ => none
  | .coachFailure _ => none
  | .trainLend _ _ => none
  | .trainReclaim _ _ => none
  | .reclaimDrainDone _ => none
  | .reclaimDeadline _ => none
  | .seqopenService _ _ => none
  | .seqendEndInstant _ _ => none
  | .keySlotFree _ => none
  | .reencryptBlock _ _ => none
  | .scrubRow _ => none
  | .migrationBlockMove _ => none
  | .hostHotReset => none
  | .hostLinkDown => none
  | .cxlLinkDown => none
  | .ectoupPortDown _ => none
  | .timeSyncFlit _ => none
  | .tsyncLost => none
  | .tsyncRecovered => none
  | .powerUp => none
  | .firmwareStagingWrite _ _ => none
  | .bootGo => none
  | .bootVerifyDone => none
  | .bootDeriveDone => none
  | .thermalHalt => none
  | .thermalRecovery => none
  | .clockStep _ => none
  | .mgmtReadCounters => none
  | .mgmtClearCounters => none
  | .mgmtReadThresholds => none
  | .mgmtWriteThresholds _ _ _ => none
  | .mgmtReadPower => none
  | .mgmtSetPowerCap _ => none
  | .mgmtReadStatus => none
  | .mgmtReclaim _ => none
  | .mgmtReclaimForce _ => none
  | .spdmGetVersion => none
  | .spdmGetCapabilities => none
  | .spdmNegotiateAlgorithms => none
  | .spdmGetDigests => none
  | .spdmGetCertificate => none
  | .spdmGetMeasurements => none
  | .spdmKeyExchange => none
  | .spdmFinish _ => none
  | .spdmHeartbeat _ => none
  | .spdmKeyUpdate _ => none
  | .spdmEndSession _ => none
  | .tdispLock _ => none
  | .tdispReport _ => none
  | .tdispStart _ => none
  | .tdispStop _ => none
  | .engineFailure _ => none
  | .ectoupPortUp _ => none
  | .hostLinkUp => none
  | .switchArmReceived _ => none
  | .switchArmAcknowledgement _ _ => none
  | .switchArmTimeout _ => none
  | .sliceAssignment _ _ => none
  | .sliceDrainStart _ => none
  | .contextCreation _ => none
  | .contextDestruction _ => none

/-- What the table says of a well-formed instruction's word. -/
def Statement (i : Instr) : Prop :=
  wellFormed i = true → match bits i with
  | some (m, k) => ∃ f, encodeFields i = some f ∧ masked f k = m
  | none => Machine.agendaStep i = true ∨ ∃ o, i = .bankSubsetInstruction o

-- ## fields under a mask

@[simp] theorem s8_c0 (x : BitVec 6) : s8 x &&& 0xC0#8 = 0 := by revert x; decide
@[simp] theorem fs8_c0 (f : BitVec 2) (x : BitVec 6) : fs8 f x &&& 0xC0#8 = f ++ 0#6 := by revert f x; decide
@[simp] theorem p8_f8 (x : BitVec 3) : p8 x &&& 0xF8#8 = 0 := by revert x; decide
@[simp] theorem q8_fc (x : BitVec 2) : q8 x &&& 0xFC#8 = 0 := by revert x; decide
@[simp] theorem k8_f8 (x : BitVec 3) : k8 x &&& 0xF8#8 = 0x80 := by revert x; decide
@[simp] theorem special_e0 (x : BitVec 5) : (0#3 ++ x) &&& 0xE0#8 = 0 := by revert x; decide
@[simp] theorem position_e0 (x : BitVec 3) (y : BitVec 2) : (0#3 ++ x ++ y) &&& 0xE0#8 = 0 := by revert x y; decide
@[simp] theorem brpD_f0 (k : BitVec 2) (n : Bool) (p : BitVec 3) : brpD k n p &&& 0xF0#8 = 0#2 ++ k ++ 0#4 := by
  revert k n p; decide
@[simp] theorem vcmpD_38 (c : Comb) (k p : BitVec 3) : vcmpD c k p &&& 0x38#8 = 0#2 ++ k ++ 0#3 := by
  cases c <;> revert k p <;> decide
@[simp] theorem plD_f8 (f p : BitVec 3) : plD f p &&& 0xF8#8 = 0#2 ++ f ++ 0#3 := by revert f p; decide
@[simp] theorem scmpD_f8 (c : BitVec 2) (p : BitVec 3) : scmpD c p &&& 0xF8#8 = c ++ 0#6 := by revert c p; decide
@[simp] theorem m8_03 (b : BitVec 6) (p : BitVec 2) : m8 b p &&& 0x03#8 = 0#6 ++ p := by revert b p; decide
@[simp] theorem m8_fc (p : BitVec 2) : m8 0#6 p &&& 0xFC#8 = 0 := by revert p; decide
@[simp] theorem fence_f3 (s : Scope) (k : BitVec 2) : (0#4 ++ scopeBits s ++ k) &&& 0xF3#8 = 0#6 ++ k := by
  cases s <;> revert k <;> decide

/-- A mask applied to fields, whatever their format. -/
@[simp] theorem masked_mk (s : Bool) (op : BitVec 7) (d a b : BitVec 8) (k : Fields) :
    masked ⟨s, op, d, a, b⟩ k = ⟨s && k.s, op &&& k.op, d &&& k.d, a &&& k.a, b &&& k.b⟩ := rfl
@[simp] theorem masked_encZ (s : Bool) (op : BitVec 7) (k : Fields) :
    masked (encZ s op) k = ⟨s && k.s, op &&& k.op, 0 &&& k.d, 0 &&& k.a, 0 &&& k.b⟩ := rfl
@[simp] theorem masked_encK (s : Bool) (op : BitVec 7) (d : BitVec 8) (i : BitVec 16) (k : Fields) :
    masked (encK s op d i) k = ⟨s && k.s, op &&& k.op, d &&& k.d, immHi i &&& k.a, immLo i &&& k.b⟩ := rfl
@[simp] theorem masked_encJ (s : Bool) (op : BitVec 7) (o : BitVec 24) (k : Fields) :
    masked (encJ s op o) k = ⟨s && k.s, op &&& k.op, offHi o &&& k.d, offMid o &&& k.a, offLo o &&& k.b⟩ := rfl
@[simp] theorem masked_encM (s : Bool) (op : BitVec 7) (d : BitVec 8) (b : BitVec 6) (p : BitVec 2) (x : BitVec 8) (k : Fields) :
    masked (encM s op d b p x) k = ⟨s && k.s, op &&& k.op, d &&& k.d, m8 b p &&& k.a, x &&& k.b⟩ := rfl
@[simp] theorem masked_encFence (s : Bool) (n : BitVec 2) (c : Scope) (k : Fields) :
    masked (encFence s n c) k =
      ⟨s && k.s, 0x65 &&& k.op, (0#4 ++ scopeBits c ++ n) &&& k.d, m8 0 (scopeBits c) &&& k.a, 0 &&& k.b⟩ := rfl

-- ## one lemma for each instruction

theorem nop x0 : Statement (.nop x0) := fun _ => ⟨_, rfl, by simp⟩
theorem modeiLo x0 x1 : Statement (.modeiLo x0 x1) := fun _ => ⟨_, rfl, by simp⟩
theorem modeiHi x0 x1 : Statement (.modeiHi x0 x1) := fun _ => ⟨_, rfl, by simp⟩
theorem mfs x0 x1 x2 : Statement (.mfs x0 x1 x2) := fun _ => ⟨_, rfl, by simp⟩
theorem mts x0 x1 x2 : Statement (.mts x0 x1 x2) := fun _ => ⟨_, rfl, by simp⟩
theorem bra x0 x1 : Statement (.bra x0 x1) := fun _ => ⟨_, rfl, by simp⟩
theorem brpDiv x0 x1 x2 x3 : Statement (.brpDiv x0 x1 x2 x3) := fun _ => ⟨_, rfl, by simp⟩
theorem brpAny x0 x1 x2 x3 : Statement (.brpAny x0 x1 x2 x3) := fun _ => ⟨_, rfl, by simp⟩
theorem brpAll x0 x1 x2 x3 : Statement (.brpAll x0 x1 x2 x3) := fun _ => ⟨_, rfl, by simp⟩
theorem brpNone x0 x1 x2 x3 : Statement (.brpNone x0 x1 x2 x3) := fun _ => ⟨_, rfl, by simp⟩
theorem joinat x0 x1 : Statement (.joinat x0 x1) := fun _ => ⟨_, rfl, by simp⟩
theorem jtab x0 x1 x2 x3 : Statement (.jtab x0 x1 x2 x3) := fun _ => ⟨_, rfl, by simp⟩
theorem call x0 x1 : Statement (.call x0 x1) := fun _ => ⟨_, rfl, by simp⟩
theorem calli x0 x1 : Statement (.calli x0 x1) := fun _ => ⟨_, rfl, by simp⟩
theorem ret x0 : Statement (.ret x0) := fun _ => ⟨_, rfl, by simp⟩
theorem refill x0 x1 x2 x3 : Statement (.refill x0 x1 x2 x3) := fun _ => ⟨_, rfl, by simp⟩
theorem exit x0 : Statement (.exit x0) := fun _ => ⟨_, rfl, by simp⟩
theorem trapi x0 x1 : Statement (.trapi x0 x1) := fun _ => ⟨_, rfl, by simp⟩
theorem rett x0 : Statement (.rett x0) := fun _ => ⟨_, rfl, by simp⟩
theorem yieldcCopy x0 x1 x2 : Statement (.yieldcCopy x0 x1 x2) := fun _ => ⟨_, rfl, by simp⟩
theorem yieldcColl x0 x1 x2 : Statement (.yieldcColl x0 x1 x2) := fun _ => ⟨_, rfl, by simp⟩
theorem yieldcBank x0 x1 x2 : Statement (.yieldcBank x0 x1 x2) := fun _ => ⟨_, rfl, by simp⟩
theorem yieldcMm x0 x1 x2 : Statement (.yieldcMm x0 x1 x2) := fun _ => ⟨_, rfl, by simp⟩
theorem arrive x0 x1 x2 : Statement (.arrive x0 x1 x2) := fun _ => ⟨_, rfl, by simp⟩
theorem pwait x0 x1 x2 : Statement (.pwait x0 x1 x2) := fun _ => ⟨_, rfl, by simp⟩
theorem dbar x0 x1 : Statement (.dbar x0 x1) := fun _ => ⟨_, rfl, by simp⟩
theorem gangset x0 x1 : Statement (.gangset x0 x1) := fun _ => ⟨_, rfl, by simp⟩
theorem xacq x0 x1 : Statement (.xacq x0 x1) := fun _ => ⟨_, rfl, by simp⟩
theorem xrel x0 x1 : Statement (.xrel x0 x1) := fun _ => ⟨_, rfl, by simp⟩
theorem hsave x0 x1 x2 : Statement (.hsave x0 x1 x2) := fun _ => ⟨_, rfl, by simp⟩
theorem hload x0 x1 x2 : Statement (.hload x0 x1 x2) := fun _ => ⟨_, rfl, by simp⟩
theorem rflush x0 : Statement (.rflush x0) := fun _ => ⟨_, rfl, by simp⟩
theorem seqopen x0 x1 x2 x3 : Statement (.seqopen x0 x1 x2 x3) := fun _ => ⟨_, rfl, by simp⟩
theorem seqend x0 x1 : Statement (.seqend x0 x1) := fun _ => ⟨_, rfl, by simp⟩
theorem launch x0 x1 : Statement (.launch x0 x1) := fun _ => ⟨_, rfl, by simp⟩
theorem signal x0 x1 x2 : Statement (.signal x0 x1 x2) := fun _ => ⟨_, rfl, by simp⟩
theorem ipush x0 x1 x2 x3 : Statement (.ipush x0 x1 x2 x3) := fun _ => ⟨_, rfl, by simp⟩
theorem digest x0 x1 x2 : Statement (.digest x0 x1 x2) := fun _ => ⟨_, rfl, by simp⟩
theorem sadd x0 x1 x2 x3 : Statement (.sadd x0 x1 x2 x3) := fun _ => ⟨_, rfl, by simp⟩
theorem ssub x0 x1 x2 x3 : Statement (.ssub x0 x1 x2 x3) := fun _ => ⟨_, rfl, by simp⟩
theorem smul x0 x1 x2 x3 : Statement (.smul x0 x1 x2 x3) := fun _ => ⟨_, rfl, by simp⟩
theorem smulh x0 x1 x2 x3 : Statement (.smulh x0 x1 x2 x3) := fun _ => ⟨_, rfl, by simp⟩
theorem sand x0 x1 x2 x3 : Statement (.sand x0 x1 x2 x3) := fun _ => ⟨_, rfl, by simp⟩
theorem sor x0 x1 x2 x3 : Statement (.sor x0 x1 x2 x3) := fun _ => ⟨_, rfl, by simp⟩
theorem sxor x0 x1 x2 x3 : Statement (.sxor x0 x1 x2 x3) := fun _ => ⟨_, rfl, by simp⟩
theorem sshl x0 x1 x2 x3 : Statement (.sshl x0 x1 x2 x3) := fun _ => ⟨_, rfl, by simp⟩
theorem sshr x0 x1 x2 x3 : Statement (.sshr x0 x1 x2 x3) := fun _ => ⟨_, rfl, by simp⟩
theorem ssra x0 x1 x2 x3 : Statement (.ssra x0 x1 x2 x3) := fun _ => ⟨_, rfl, by simp⟩
theorem smin x0 x1 x2 x3 : Statement (.smin x0 x1 x2 x3) := fun _ => ⟨_, rfl, by simp⟩
theorem smax x0 x1 x2 x3 : Statement (.smax x0 x1 x2 x3) := fun _ => ⟨_, rfl, by simp⟩
theorem saddp x0 x1 x2 x3 : Statement (.saddp x0 x1 x2 x3) := fun _ => ⟨_, rfl, by simp⟩
theorem scmpEq x0 x1 x2 x3 : Statement (.scmpEq x0 x1 x2 x3) := fun _ => ⟨_, rfl, by simp⟩
theorem scmpNe x0 x1 x2 x3 : Statement (.scmpNe x0 x1 x2 x3) := fun _ => ⟨_, rfl, by simp⟩
theorem scmpLt x0 x1 x2 x3 : Statement (.scmpLt x0 x1 x2 x3) := fun _ => ⟨_, rfl, by simp⟩
theorem scmpLe x0 x1 x2 x3 : Statement (.scmpLe x0 x1 x2 x3) := fun _ => ⟨_, rfl, by simp⟩
theorem scmpLtn x0 x1 x2 x3 : Statement (.scmpLtn x0 x1 x2 x3) := fun _ => ⟨_, rfl, by simp⟩
theorem scmpLen x0 x1 x2 x3 : Statement (.scmpLen x0 x1 x2 x3) := fun _ => ⟨_, rfl, by simp⟩
theorem saddi x0 x1 x2 : Statement (.saddi x0 x1 x2) := fun _ => ⟨_, rfl, by simp⟩
theorem sli x0 x1 x2 : Statement (.sli x0 x1 x2) := fun _ => ⟨_, rfl, by simp⟩
theorem slih x0 x1 x2 : Statement (.slih x0 x1 x2) := fun _ => ⟨_, rfl, by simp⟩
theorem vadd x0 x1 x2 x3 : Statement (.vadd x0 x1 x2 x3) := fun _ => ⟨_, rfl, by simp⟩
theorem vsub x0 x1 x2 x3 : Statement (.vsub x0 x1 x2 x3) := fun _ => ⟨_, rfl, by simp⟩
theorem vmul x0 x1 x2 x3 : Statement (.vmul x0 x1 x2 x3) := fun _ => ⟨_, rfl, by simp⟩
theorem vmulh x0 x1 x2 x3 : Statement (.vmulh x0 x1 x2 x3) := fun _ => ⟨_, rfl, by simp⟩
theorem vmad x0 x1 x2 x3 : Statement (.vmad x0 x1 x2 x3) := fun _ => ⟨_, rfl, by simp⟩
theorem vmin x0 x1 x2 x3 : Statement (.vmin x0 x1 x2 x3) := fun _ => ⟨_, rfl, by simp⟩
theorem vmax x0 x1 x2 x3 : Statement (.vmax x0 x1 x2 x3) := fun _ => ⟨_, rfl, by simp⟩
theorem vand x0 x1 x2 x3 : Statement (.vand x0 x1 x2 x3) := fun _ => ⟨_, rfl, by simp⟩
theorem vor x0 x1 x2 x3 : Statement (.vor x0 x1 x2 x3) := fun _ => ⟨_, rfl, by simp⟩
theorem vxor x0 x1 x2 x3 : Statement (.vxor x0 x1 x2 x3) := fun _ => ⟨_, rfl, by simp⟩
theorem vshl x0 x1 x2 x3 : Statement (.vshl x0 x1 x2 x3) := fun _ => ⟨_, rfl, by simp⟩
theorem vshr x0 x1 x2 x3 : Statement (.vshr x0 x1 x2 x3) := fun _ => ⟨_, rfl, by simp⟩
theorem vsra x0 x1 x2 x3 : Statement (.vsra x0 x1 x2 x3) := fun _ => ⟨_, rfl, by simp⟩
theorem vsel x0 x1 x2 x3 : Statement (.vsel x0 x1 x2 x3) := fun _ => ⟨_, rfl, by simp⟩
theorem vcmpEq x0 x1 x2 x3 x4 : Statement (.vcmpEq x0 x1 x2 x3 x4) := fun _ => ⟨_, rfl, by simp⟩
theorem vcmpNe x0 x1 x2 x3 x4 : Statement (.vcmpNe x0 x1 x2 x3 x4) := fun _ => ⟨_, rfl, by simp⟩
theorem vcmpLt x0 x1 x2 x3 x4 : Statement (.vcmpLt x0 x1 x2 x3 x4) := fun _ => ⟨_, rfl, by simp⟩
theorem vcmpLe x0 x1 x2 x3 x4 : Statement (.vcmpLe x0 x1 x2 x3 x4) := fun _ => ⟨_, rfl, by simp⟩
theorem vcmpGt x0 x1 x2 x3 x4 : Statement (.vcmpGt x0 x1 x2 x3 x4) := fun _ => ⟨_, rfl, by simp⟩
theorem vcmpGe x0 x1 x2 x3 x4 : Statement (.vcmpGe x0 x1 x2 x3 x4) := fun _ => ⟨_, rfl, by simp⟩
theorem vcvt x0 x1 x2 : Statement (.vcvt x0 x1 x2) := fun _ => ⟨_, rfl, by simp⟩
theorem vabs x0 x1 x2 : Statement (.vabs x0 x1 x2) := fun _ => ⟨_, rfl, by simp⟩
theorem vneg x0 x1 x2 : Statement (.vneg x0 x1 x2) := fun _ => ⟨_, rfl, by simp⟩
theorem vnot x0 x1 x2 : Statement (.vnot x0 x1 x2) := fun _ => ⟨_, rfl, by simp⟩
theorem vclz x0 x1 x2 : Statement (.vclz x0 x1 x2) := fun _ => ⟨_, rfl, by simp⟩
theorem vpopc x0 x1 x2 : Statement (.vpopc x0 x1 x2) := fun _ => ⟨_, rfl, by simp⟩
theorem vrcp x0 x1 x2 : Statement (.vrcp x0 x1 x2) := fun _ => ⟨_, rfl, by simp⟩
theorem vrsq x0 x1 x2 : Statement (.vrsq x0 x1 x2) := fun _ => ⟨_, rfl, by simp⟩
theorem vsqrt x0 x1 x2 : Statement (.vsqrt x0 x1 x2) := fun _ => ⟨_, rfl, by simp⟩
theorem vexp2 x0 x1 x2 : Statement (.vexp2 x0 x1 x2) := fun _ => ⟨_, rfl, by simp⟩
theorem vlog2 x0 x1 x2 : Statement (.vlog2 x0 x1 x2) := fun _ => ⟨_, rfl, by simp⟩
theorem vtanh x0 x1 x2 : Statement (.vtanh x0 x1 x2) := fun _ => ⟨_, rfl, by simp⟩
theorem vli x0 x1 x2 : Statement (.vli x0 x1 x2) := fun _ => ⟨_, rfl, by simp⟩
theorem vlih x0 x1 x2 : Statement (.vlih x0 x1 x2) := fun _ => ⟨_, rfl, by simp⟩
theorem vbcast x0 x1 x2 : Statement (.vbcast x0 x1 x2) := fun _ => ⟨_, rfl, by simp⟩
theorem vextr x0 x1 x2 x3 : Statement (.vextr x0 x1 x2 x3) := fun _ => ⟨_, rfl, by simp⟩
theorem vperm x0 x1 x2 x3 : Statement (.vperm x0 x1 x2 x3) := fun _ => ⟨_, rfl, by simp⟩
theorem vredAdd x0 x1 x2 : Statement (.vredAdd x0 x1 x2) := fun _ => ⟨_, rfl, by simp⟩
theorem vredMin x0 x1 x2 : Statement (.vredMin x0 x1 x2) := fun _ => ⟨_, rfl, by simp⟩
theorem vredMax x0 x1 x2 : Statement (.vredMax x0 x1 x2) := fun _ => ⟨_, rfl, by simp⟩
theorem vredAnd x0 x1 x2 : Statement (.vredAnd x0 x1 x2) := fun _ => ⟨_, rfl, by simp⟩
theorem vredOr x0 x1 x2 : Statement (.vredOr x0 x1 x2) := fun _ => ⟨_, rfl, by simp⟩
theorem vredXor x0 x1 x2 : Statement (.vredXor x0 x1 x2) := fun _ => ⟨_, rfl, by simp⟩
theorem vscanAdd x0 x1 x2 : Statement (.vscanAdd x0 x1 x2) := fun _ => ⟨_, rfl, by simp⟩
theorem vscanMin x0 x1 x2 : Statement (.vscanMin x0 x1 x2) := fun _ => ⟨_, rfl, by simp⟩
theorem vscanMax x0 x1 x2 : Statement (.vscanMax x0 x1 x2) := fun _ => ⟨_, rfl, by simp⟩
theorem vscanAnd x0 x1 x2 : Statement (.vscanAnd x0 x1 x2) := fun _ => ⟨_, rfl, by simp⟩
theorem vscanOr x0 x1 x2 : Statement (.vscanOr x0 x1 x2) := fun _ => ⟨_, rfl, by simp⟩
theorem vscanXor x0 x1 x2 : Statement (.vscanXor x0 x1 x2) := fun _ => ⟨_, rfl, by simp⟩
theorem vbal x0 x1 x2 x3 : Statement (.vbal x0 x1 x2 x3) := fun _ => ⟨_, rfl, by simp⟩
theorem vdot4 x0 x1 x2 x3 : Statement (.vdot4 x0 x1 x2 x3) := fun _ => ⟨_, rfl, by simp⟩
theorem vdot2 x0 x1 x2 x3 : Statement (.vdot2 x0 x1 x2 x3) := fun _ => ⟨_, rfl, by simp⟩
theorem vidx x0 x1 : Statement (.vidx x0 x1) := fun _ => ⟨_, rfl, by simp⟩
theorem vsetp x0 x1 x2 : Statement (.vsetp x0 x1 x2) := fun _ => ⟨_, rfl, by simp⟩
theorem pland x0 x1 x2 x3 : Statement (.pland x0 x1 x2 x3) := fun _ => ⟨_, rfl, by simp⟩
theorem plor x0 x1 x2 x3 : Statement (.plor x0 x1 x2 x3) := fun _ => ⟨_, rfl, by simp⟩
theorem plxor x0 x1 x2 x3 : Statement (.plxor x0 x1 x2 x3) := fun _ => ⟨_, rfl, by simp⟩
theorem plnot x0 x1 x2 : Statement (.plnot x0 x1 x2) := fun _ => ⟨_, rfl, by simp⟩
theorem psetv x0 x1 x2 : Statement (.psetv x0 x1 x2) := fun _ => ⟨_, rfl, by simp⟩
theorem pcnt x0 x1 x2 : Statement (.pcnt x0 x1 x2) := fun _ => ⟨_, rfl, by simp⟩
theorem ld x0 x1 x2 x3 x4 : Statement (.ld x0 x1 x2 x3 x4) := fun _ => ⟨_, rfl, by simp⟩
theorem st x0 x1 x2 x3 x4 : Statement (.st x0 x1 x2 x3 x4) := fun _ => ⟨_, rfl, by simp⟩
theorem ld4 x0 x1 x2 x3 x4 : Statement (.ld4 x0 x1 x2 x3 x4) := fun _ => ⟨_, rfl, by simp⟩
theorem st4 x0 x1 x2 x3 x4 : Statement (.st4 x0 x1 x2 x3 x4) := fun _ => ⟨_, rfl, by simp⟩
theorem lda x0 x1 x2 x3 x4 : Statement (.lda x0 x1 x2 x3 x4) := fun _ => ⟨_, rfl, by simp⟩
theorem stl x0 x1 x2 x3 x4 : Statement (.stl x0 x1 x2 x3 x4) := fun _ => ⟨_, rfl, by simp⟩
theorem sld x0 x1 x2 x3 x4 : Statement (.sld x0 x1 x2 x3 x4) := fun _ => ⟨_, rfl, by simp⟩
theorem sst x0 x1 x2 x3 x4 : Statement (.sst x0 x1 x2 x3 x4) := fun _ => ⟨_, rfl, by simp⟩
theorem aadd x0 x1 x2 x3 x4 : Statement (.aadd x0 x1 x2 x3 x4) := fun _ => ⟨_, rfl, by simp⟩
theorem amin x0 x1 x2 x3 x4 : Statement (.amin x0 x1 x2 x3 x4) := fun _ => ⟨_, rfl, by simp⟩
theorem amax x0 x1 x2 x3 x4 : Statement (.amax x0 x1 x2 x3 x4) := fun _ => ⟨_, rfl, by simp⟩
theorem aand x0 x1 x2 x3 x4 : Statement (.aand x0 x1 x2 x3 x4) := fun _ => ⟨_, rfl, by simp⟩
theorem aor x0 x1 x2 x3 x4 : Statement (.aor x0 x1 x2 x3 x4) := fun _ => ⟨_, rfl, by simp⟩
theorem axor x0 x1 x2 x3 x4 : Statement (.axor x0 x1 x2 x3 x4) := fun _ => ⟨_, rfl, by simp⟩
theorem axchg x0 x1 x2 x3 x4 : Statement (.axchg x0 x1 x2 x3 x4) := fun _ => ⟨_, rfl, by simp⟩
theorem acas x0 x1 x2 x3 x4 : Statement (.acas x0 x1 x2 x3 x4) := fun _ => ⟨_, rfl, by simp⟩
theorem redadd x0 x1 x2 x3 x4 : Statement (.redadd x0 x1 x2 x3 x4) := fun _ => ⟨_, rfl, by simp⟩
theorem redmin x0 x1 x2 x3 x4 : Statement (.redmin x0 x1 x2 x3 x4) := fun _ => ⟨_, rfl, by simp⟩
theorem redmax x0 x1 x2 x3 x4 : Statement (.redmax x0 x1 x2 x3 x4) := fun _ => ⟨_, rfl, by simp⟩
theorem redor x0 x1 x2 x3 x4 : Statement (.redor x0 x1 x2 x3 x4) := fun _ => ⟨_, rfl, by simp⟩
theorem pdrain x0 x1 : Statement (.pdrain x0 x1) := fun _ => ⟨_, rfl, by simp⟩
theorem fenceRel x0 x1 : Statement (.fenceRel x0 x1) := fun _ => ⟨_, rfl, by simp⟩
theorem fenceAcq x0 x1 : Statement (.fenceAcq x0 x1) := fun _ => ⟨_, rfl, by simp⟩
theorem fenceFull x0 x1 : Statement (.fenceFull x0 x1) := fun _ => ⟨_, rfl, by simp⟩
theorem fenceAcqn x0 x1 : Statement (.fenceAcqn x0 x1) := fun _ => ⟨_, rfl, by simp⟩
theorem invr x0 x1 x2 : Statement (.invr x0 x1 x2) := fun _ => ⟨_, rfl, by simp⟩
theorem wbr x0 x1 x2 : Statement (.wbr x0 x1 x2) := fun _ => ⟨_, rfl, by simp⟩
theorem ownr x0 x1 x2 : Statement (.ownr x0 x1 x2) := fun _ => ⟨_, rfl, by simp⟩
theorem spld x0 x1 x2 x3 : Statement (.spld x0 x1 x2 x3) := fun _ => ⟨_, rfl, by simp⟩
theorem spst x0 x1 x2 x3 : Statement (.spst x0 x1 x2 x3) := fun _ => ⟨_, rfl, by simp⟩
theorem spaadd x0 x1 x2 x3 : Statement (.spaadd x0 x1 x2 x3) := fun _ => ⟨_, rfl, by simp⟩
theorem halloc x0 x1 x2 : Statement (.halloc x0 x1 x2) := fun _ => ⟨_, rfl, by simp⟩
theorem hpass x0 x1 x2 : Statement (.hpass x0 x1 x2) := fun _ => ⟨_, rfl, by simp⟩
theorem hfree x0 x1 : Statement (.hfree x0 x1) := fun _ => ⟨_, rfl, by simp⟩
theorem mm128 x0 x1 x2 x3 : Statement (.mm128 x0 x1 x2 x3) := fun _ => ⟨_, rfl, by simp⟩
theorem mm256 x0 x1 x2 x3 : Statement (.mm256 x0 x1 x2 x3) := fun h => by
 have h1 : x1 = 32 := by simp [wellFormed, mmOk] at h; exact h.1.1
 subst h1; exact ⟨_, rfl, by simp⟩
theorem mm512 x0 x1 x2 x3 : Statement (.mm512 x0 x1 x2 x3) := fun h => by
 have h1 : x1 = 64 := by simp [wellFormed, mmOk] at h; exact h.1.1
 subst h1; exact ⟨_, rfl, by simp⟩
theorem mm1024 x0 x1 x2 x3 : Statement (.mm1024 x0 x1 x2 x3) := fun h => by
 have h1 : x1 = 128 := by simp [wellFormed, mmOk] at h; exact h.1.1
 subst h1; exact ⟨_, rfl, by simp⟩
theorem mbatch x0 x1 : Statement (.mbatch x0 x1) := fun _ => ⟨_, rfl, by simp⟩
theorem mwait x0 x1 : Statement (.mwait x0 x1) := fun _ => ⟨_, rfl, by simp⟩
theorem pfl2 x0 x1 x2 : Statement (.pfl2 x0 x1 x2) := fun _ => ⟨_, rfl, by simp⟩
theorem bkload x0 x1 x2 x3 : Statement (.bkload x0 x1 x2 x3) := fun _ => ⟨_, rfl, by simp⟩
theorem bkrun x0 x1 x2 x3 : Statement (.bkrun x0 x1 x2 x3) := fun _ => ⟨_, rfl, by simp⟩
theorem bkwait x0 x1 : Statement (.bkwait x0 x1) := fun _ => ⟨_, rfl, by simp⟩
theorem bkread x0 x1 x2 x3 : Statement (.bkread x0 x1 x2 x3) := fun _ => ⟨_, rfl, by simp⟩
theorem dcopy x0 x1 x2 : Statement (.dcopy x0 x1 x2) := fun _ => ⟨_, rfl, by simp⟩
theorem dcopy2 x0 x1 x2 : Statement (.dcopy2 x0 x1 x2) := fun _ => ⟨_, rfl, by simp⟩
theorem dfill x0 x1 x2 : Statement (.dfill x0 x1 x2) := fun _ => ⟨_, rfl, by simp⟩
theorem dgath x0 x1 x2 : Statement (.dgath x0 x1 x2) := fun _ => ⟨_, rfl, by simp⟩
theorem dgate x0 x1 x2 : Statement (.dgate x0 x1 x2) := fun _ => ⟨_, rfl, by simp⟩
theorem dwait x0 x1 : Statement (.dwait x0 x1) := fun _ => ⟨_, rfl, by simp⟩
theorem dpoll x0 x1 x2 : Statement (.dpoll x0 x1 x2) := fun _ => ⟨_, rfl, by simp⟩
theorem cred x0 x1 x2 : Statement (.cred x0 x1 x2) := fun _ => ⟨_, rfl, by simp⟩
theorem cgath x0 x1 x2 : Statement (.cgath x0 x1 x2) := fun _ => ⟨_, rfl, by simp⟩
theorem cscat x0 x1 x2 : Statement (.cscat x0 x1 x2) := fun _ => ⟨_, rfl, by simp⟩
theorem cxch x0 x1 x2 : Statement (.cxch x0 x1 x2) := fun _ => ⟨_, rfl, by simp⟩
theorem cwait x0 x1 : Statement (.cwait x0 x1) := fun _ => ⟨_, rfl, by simp⟩
theorem cpoll x0 x1 x2 : Statement (.cpoll x0 x1 x2) := fun _ => ⟨_, rfl, by simp⟩
theorem pgharv x0 x1 x2 : Statement (.pgharv x0 x1 x2) := fun _ => ⟨_, rfl, by simp⟩
theorem pgset x0 x1 x2 : Statement (.pgset x0 x1 x2) := fun _ => ⟨_, rfl, by simp⟩
theorem tlbinvPage x0 x1 x2 : Statement (.tlbinvPage x0 x1 x2) := fun _ => ⟨_, rfl, by simp⟩
theorem tlbinvContext x0 x1 x2 : Statement (.tlbinvContext x0 x1 x2) := fun _ => ⟨_, rfl, by simp⟩
theorem keyopAlloc x0 x1 x2 : Statement (.keyopAlloc x0 x1 x2) := fun _ => ⟨_, rfl, by simp⟩
theorem keyopDestroy x0 x1 x2 : Statement (.keyopDestroy x0 x1 x2) := fun _ => ⟨_, rfl, by simp⟩
theorem keyopRotate x0 x1 x2 : Statement (.keyopRotate x0 x1 x2) := fun _ => ⟨_, rfl, by simp⟩
theorem keyopStatus x0 x1 x2 : Statement (.keyopStatus x0 x1 x2) := fun _ => ⟨_, rfl, by simp⟩
theorem keyopRelease x0 x1 x2 : Statement (.keyopRelease x0 x1 x2) := fun _ => ⟨_, rfl, by simp⟩
theorem ctxswArm x0 x1 x2 : Statement (.ctxswArm x0 x1 x2) := fun _ => ⟨_, rfl, by simp⟩
theorem ctxswCancel x0 x1 x2 : Statement (.ctxswCancel x0 x1 x2) := fun _ => ⟨_, rfl, by simp⟩
theorem scrub x0 x1 x2 : Statement (.scrub x0 x1 x2) := fun _ => ⟨_, rfl, by simp⟩
theorem scrubPoll x0 x1 x2 : Statement (.scrubPoll x0 x1 x2) := fun _ => ⟨_, rfl, by simp⟩
theorem rowld x0 x1 x2 : Statement (.rowld x0 x1 x2) := fun _ => ⟨_, rfl, by simp⟩
theorem rowst x0 x1 x2 : Statement (.rowst x0 x1 x2) := fun _ => ⟨_, rfl, by simp⟩
theorem bfpadd x0 x1 x2 : Statement (.bfpadd x0 x1 x2) := fun _ => ⟨_, rfl, by simp⟩
theorem bsmac x0 x1 x2 x3 : Statement (.bsmac x0 x1 x2 x3) := fun _ => ⟨_, rfl, by simp⟩
theorem mpush x0 x1 : Statement (.mpush x0 x1) := fun _ => ⟨_, rfl, by simp⟩
theorem mpop x0 : Statement (.mpop x0) := fun _ => ⟨_, rfl, by simp⟩
theorem mflip x0 : Statement (.mflip x0) := fun _ => ⟨_, rfl, by simp⟩
theorem bkend x0 : Statement (.bkend x0) := fun _ => ⟨_, rfl, by simp⟩
theorem bfpout x0 x1 x2 : Statement (.bfpout x0 x1 x2) := fun _ => ⟨_, rfl, by simp⟩
theorem bankSubsetInstruction x0 : Statement (.bankSubsetInstruction x0) := fun _ => .inr ⟨_, rfl⟩
theorem issueOpportunity x0 : Statement (.issueOpportunity x0) := fun _ => .inl rfl
theorem splitRestore x0 x1 : Statement (.splitRestore x0 x1) := fun _ => .inl rfl
theorem spinDemotion x0 x1 : Statement (.spinDemotion x0 x1) := fun _ => .inl rfl
theorem demotionEnd x0 x1 : Statement (.demotionEnd x0 x1) := fun _ => .inl rfl
theorem nodeOpen x0 : Statement (.nodeOpen x0) := fun _ => .inl rfl
theorem drovePlacement x0 : Statement (.drovePlacement x0) := fun _ => .inl rfl
theorem lineClearDone x0 : Statement (.lineClearDone x0) := fun _ => .inl rfl
theorem xacqGrant x0 : Statement (.xacqGrant x0) := fun _ => .inl rfl
theorem registerLineFill x0 x1 : Statement (.registerLineFill x0 x1) := fun _ => .inl rfl
theorem longLatencyReturn x0 x1 x2 x3 : Statement (.longLatencyReturn x0 x1 x2 x3) := fun _ => .inl rfl
theorem teamRetire x0 : Statement (.teamRetire x0) := fun _ => .inl rfl
theorem nodeCompletion x0 x1 : Statement (.nodeCompletion x0 x1) := fun _ => .inl rfl
theorem entryArm x0 x1 : Statement (.entryArm x0 x1) := fun _ => .inl rfl
theorem entryDecrement x0 x1 x2 : Statement (.entryDecrement x0 x1 x2) := fun _ => .inl rfl
theorem nodeReleaseArm x0 x1 : Statement (.nodeReleaseArm x0 x1) := fun _ => .inl rfl
theorem nodeReleaseDecrement x0 x1 : Statement (.nodeReleaseDecrement x0 x1) := fun _ => .inl rfl
theorem policyReload x0 : Statement (.policyReload x0) := fun _ => .inl rfl
theorem hostRegisterWrite x0 x1 x2 : Statement (.hostRegisterWrite x0 x1 x2) := fun _ => .inl rfl
theorem watchdog x0 x1 : Statement (.watchdog x0 x1) := fun _ => .inl rfl
theorem droveEviction x0 : Statement (.droveEviction x0) := fun _ => .inl rfl
theorem gangSwitch x0 : Statement (.gangSwitch x0) := fun _ => .inl rfl
theorem contextHalt x0 : Statement (.contextHalt x0) := fun _ => .inl rfl
theorem haltFinish x0 : Statement (.haltFinish x0) := fun _ => .inl rfl
theorem remoteHaltFlit x0 x1 : Statement (.remoteHaltFlit x0 x1) := fun _ => .inl rfl
theorem pageFaultService x0 x1 x2 : Statement (.pageFaultService x0 x1 x2) := fun _ => .inl rfl
theorem translationWalk x0 x1 x2 x3 : Statement (.translationWalk x0 x1 x2 x3) := fun _ => .inl rfl
theorem placeOfEffectAccess x0 : Statement (.placeOfEffectAccess x0) := fun _ => .inl rfl
theorem ownRegistration x0 x1 x2 : Statement (.ownRegistration x0 x1 x2) := fun _ => .inl rfl
theorem forwardedRead x0 x1 x2 : Statement (.forwardedRead x0 x1 x2) := fun _ => .inl rfl
theorem registeredWriteback x0 x1 x2 x3 : Statement (.registeredWriteback x0 x1 x2 x3) := fun _ => .inl rfl
theorem nmuUpdate x0 : Statement (.nmuUpdate x0) := fun _ => .inl rfl
theorem drayChunk x0 x1 : Statement (.drayChunk x0 x1) := fun _ => .inl rfl
theorem tileFetchLine x0 : Statement (.tileFetchLine x0) := fun _ => .inl rfl
theorem tensorStep x0 : Statement (.tensorStep x0) := fun _ => .inl rfl
theorem bankRunArrival x0 : Statement (.bankRunArrival x0) := fun _ => .inl rfl
theorem bkloadDelivery x0 : Statement (.bkloadDelivery x0) := fun _ => .inl rfl
theorem bankRunAdmit x0 : Statement (.bankRunAdmit x0) := fun _ => .inl rfl
theorem ordinaryRequestArrival x0 x1 x2 x3 : Statement (.ordinaryRequestArrival x0 x1 x2 x3) := fun _ => .inl rfl
theorem bankRowBoundary x0 : Statement (.bankRowBoundary x0) := fun _ => .inl rfl
theorem refreshDue x0 : Statement (.refreshDue x0) := fun _ => .inl rfl
theorem collChunkSend x0 x1 : Statement (.collChunkSend x0 x1) := fun _ => .inl rfl
theorem collChunkReceive x0 x1 x2 : Statement (.collChunkReceive x0 x1 x2) := fun _ => .inl rfl
theorem collAck x0 x1 x2 : Statement (.collAck x0 x1 x2) := fun _ => .inl rfl
theorem collNack x0 x1 x2 : Statement (.collNack x0 x1 x2) := fun _ => .inl rfl
theorem rxRegionExpiry x0 : Statement (.rxRegionExpiry x0) := fun _ => .inl rfl
theorem remoteRequest x0 : Statement (.remoteRequest x0) := fun _ => .inl rfl
theorem remoteFaultCompletion x0 : Statement (.remoteFaultCompletion x0) := fun _ => .inl rfl
theorem remoteTimeout x0 : Statement (.remoteTimeout x0) := fun _ => .inl rfl
theorem ckptAdvisory x0 x1 : Statement (.ckptAdvisory x0 x1) := fun _ => .inl rfl
theorem correctedError x0 : Statement (.correctedError x0) := fun _ => .inl rfl
theorem uncorrectableError x0 : Statement (.uncorrectableError x0) := fun _ => .inl rfl
theorem coachFailure x0 : Statement (.coachFailure x0) := fun _ => .inl rfl
theorem trainLend x0 x1 : Statement (.trainLend x0 x1) := fun _ => .inl rfl
theorem trainReclaim x0 x1 : Statement (.trainReclaim x0 x1) := fun _ => .inl rfl
theorem reclaimDrainDone x0 : Statement (.reclaimDrainDone x0) := fun _ => .inl rfl
theorem reclaimDeadline x0 : Statement (.reclaimDeadline x0) := fun _ => .inl rfl
theorem seqopenService x0 x1 : Statement (.seqopenService x0 x1) := fun _ => .inl rfl
theorem seqendEndInstant x0 x1 : Statement (.seqendEndInstant x0 x1) := fun _ => .inl rfl
theorem keySlotFree x0 : Statement (.keySlotFree x0) := fun _ => .inl rfl
theorem reencryptBlock x0 x1 : Statement (.reencryptBlock x0 x1) := fun _ => .inl rfl
theorem scrubRow x0 : Statement (.scrubRow x0) := fun _ => .inl rfl
theorem migrationBlockMove x0 : Statement (.migrationBlockMove x0) := fun _ => .inl rfl
theorem hostHotReset : Statement (.hostHotReset ) := fun _ => .inl rfl
theorem hostLinkDown : Statement (.hostLinkDown ) := fun _ => .inl rfl
theorem cxlLinkDown : Statement (.cxlLinkDown ) := fun _ => .inl rfl
theorem ectoupPortDown x0 : Statement (.ectoupPortDown x0) := fun _ => .inl rfl
theorem timeSyncFlit x0 : Statement (.timeSyncFlit x0) := fun _ => .inl rfl
theorem tsyncLost : Statement (.tsyncLost ) := fun _ => .inl rfl
theorem tsyncRecovered : Statement (.tsyncRecovered ) := fun _ => .inl rfl
theorem powerUp : Statement (.powerUp ) := fun _ => .inl rfl
theorem firmwareStagingWrite x0 x1 : Statement (.firmwareStagingWrite x0 x1) := fun _ => .inl rfl
theorem bootGo : Statement (.bootGo ) := fun _ => .inl rfl
theorem bootVerifyDone : Statement (.bootVerifyDone ) := fun _ => .inl rfl
theorem bootDeriveDone : Statement (.bootDeriveDone ) := fun _ => .inl rfl
theorem thermalHalt : Statement (.thermalHalt ) := fun _ => .inl rfl
theorem thermalRecovery : Statement (.thermalRecovery ) := fun _ => .inl rfl
theorem clockStep x0 : Statement (.clockStep x0) := fun _ => .inl rfl
theorem mgmtReadCounters : Statement (.mgmtReadCounters ) := fun _ => .inl rfl
theorem mgmtClearCounters : Statement (.mgmtClearCounters ) := fun _ => .inl rfl
theorem mgmtReadThresholds : Statement (.mgmtReadThresholds ) := fun _ => .inl rfl
theorem mgmtWriteThresholds x0 x1 x2 : Statement (.mgmtWriteThresholds x0 x1 x2) := fun _ => .inl rfl
theorem mgmtReadPower : Statement (.mgmtReadPower ) := fun _ => .inl rfl
theorem mgmtSetPowerCap x0 : Statement (.mgmtSetPowerCap x0) := fun _ => .inl rfl
theorem mgmtReadStatus : Statement (.mgmtReadStatus ) := fun _ => .inl rfl
theorem mgmtReclaim x0 : Statement (.mgmtReclaim x0) := fun _ => .inl rfl
theorem mgmtReclaimForce x0 : Statement (.mgmtReclaimForce x0) := fun _ => .inl rfl
theorem spdmGetVersion : Statement (.spdmGetVersion ) := fun _ => .inl rfl
theorem spdmGetCapabilities : Statement (.spdmGetCapabilities ) := fun _ => .inl rfl
theorem spdmNegotiateAlgorithms : Statement (.spdmNegotiateAlgorithms ) := fun _ => .inl rfl
theorem spdmGetDigests : Statement (.spdmGetDigests ) := fun _ => .inl rfl
theorem spdmGetCertificate : Statement (.spdmGetCertificate ) := fun _ => .inl rfl
theorem spdmGetMeasurements : Statement (.spdmGetMeasurements ) := fun _ => .inl rfl
theorem spdmKeyExchange : Statement (.spdmKeyExchange ) := fun _ => .inl rfl
theorem spdmFinish x0 : Statement (.spdmFinish x0) := fun _ => .inl rfl
theorem spdmHeartbeat x0 : Statement (.spdmHeartbeat x0) := fun _ => .inl rfl
theorem spdmKeyUpdate x0 : Statement (.spdmKeyUpdate x0) := fun _ => .inl rfl
theorem spdmEndSession x0 : Statement (.spdmEndSession x0) := fun _ => .inl rfl
theorem tdispLock x0 : Statement (.tdispLock x0) := fun _ => .inl rfl
theorem tdispReport x0 : Statement (.tdispReport x0) := fun _ => .inl rfl
theorem tdispStart x0 : Statement (.tdispStart x0) := fun _ => .inl rfl
theorem tdispStop x0 : Statement (.tdispStop x0) := fun _ => .inl rfl
theorem engineFailure x0 : Statement (.engineFailure x0) := fun _ => .inl rfl
theorem ectoupPortUp x0 : Statement (.ectoupPortUp x0) := fun _ => .inl rfl
theorem hostLinkUp : Statement (.hostLinkUp ) := fun _ => .inl rfl
theorem switchArmReceived x0 : Statement (.switchArmReceived x0) := fun _ => .inl rfl
theorem switchArmAcknowledgement x0 x1 : Statement (.switchArmAcknowledgement x0 x1) := fun _ => .inl rfl
theorem switchArmTimeout x0 : Statement (.switchArmTimeout x0) := fun _ => .inl rfl
theorem sliceAssignment x0 x1 : Statement (.sliceAssignment x0 x1) := fun _ => .inl rfl
theorem sliceDrainStart x0 : Statement (.sliceDrainStart x0) := fun _ => .inl rfl
theorem contextCreation x0 : Statement (.contextCreation x0) := fun _ => .inl rfl
theorem contextDestruction x0 : Statement (.contextDestruction x0) := fun _ => .inl rfl

end Sys2Proof.Laws.TableBits
end

