-- ==== Sys2Proof/Tests/Slice0.lean ====
section
/-! SUPPORT. The model's own tests: ill-formed terms that the checks refuse, the words that the spec writes out (each
test names the rule that the words stand in), results that the spec works out, and for every statement of
Certificates/Slice0/Obligations.lean a concrete state and operands that meet its hypotheses. -/
namespace Sys2Proof.Tests
set_option Elab.async false
open Sys2Proof Sys2Proof.Machine

-- ## ill-formed terms

theorem test_wf_jtab_pair : wellFormed (.jtab false 4 3 7) = false := by decide
theorem test_wf_gangset_pair : wellFormed (.gangset false 9) = false := by decide
theorem test_wf_blocks : wellFormed (.xacq false 0) = false ∧ wellFormed (.xrel false 0) = false := by decide
theorem test_wf_image_pair : wellFormed (.hsave false 21 .wt) = false ∧ wellFormed (.hload false 21 .wt) = false := by decide
theorem test_wf_seqopen_pair : wellFormed (.seqopen false 5 9 9) = false := by decide
theorem test_wf_saddp_pairs : wellFormed (.saddp false 3 4 6) = false ∧ wellFormed (.saddp false 2 5 6) = false ∧
    wellFormed (.saddp false 2 4 7) = false := by decide
theorem test_wf_base_pair : wellFormed (.ld false 2 5 .si none) = false ∧ wellFormed (.sst false 2 5 .si 0) = false ∧
    wellFormed (.aadd false 2 5 .si none) = false ∧ wellFormed (.invr false 2 5) = false ∧
    wellFormed (.spld false 2 5 none) = false := by decide
theorem test_wf_no_index_v255 : wellFormed (.st false 2 4 .si (some 255)) = false ∧
    wellFormed (.acas false 2 4 .si (some 255)) = false ∧ wellFormed (.redor false 2 4 .si (some 255)) = false := by decide
theorem test_wf_four_registers : wellFormed (.ld4 false 14 8 .si none) = false ∧ wellFormed (.st4 false 13 8 .si none) = false := by
  decide
theorem test_wf_acas_pair : wellFormed (.acas false 3 4 .si none) = false := by decide
theorem test_wf_red_own : wellFormed (.redadd false 2 4 .own none) = false := by decide
theorem test_wf_accumulators : wellFormed (.mm128 false 24 4 6) = false ∧ wellFormed (.mm256 false 64 4 6) = false ∧
    wellFormed (.mm512 false 32 4 6) = false ∧ wellFormed (.mm1024 false 64 4 6) = false := by decide
theorem test_wf_matrix_pairs : wellFormed (.mm128 false 16 5 6) = false ∧ wellFormed (.mm1024 false 128 4 7) = false := by decide
theorem test_wf_pfl2_pair : wellFormed (.pfl2 false 9 7) = false := by decide
theorem test_wf_bank_pairs : wellFormed (.bkload false 9 21 2) = false ∧ wellFormed (.bkrun false 9 7 40) = false ∧
    wellFormed (.bkread false 4 7 1) = false := by decide
theorem test_wf_bkrun_block : wellFormed (.bkrun false 9 6 56) = false ∧ wellFormed (.bkrun false 9 6 55) = true := by decide
theorem test_wf_blocks_of_eight : wellFormed (.dcopy false 9 12) = false ∧ wellFormed (.dcopy false 9 0) = false ∧
    wellFormed (.cred false 9 12) = false ∧ wellFormed (.digest false 9 56) = true := by decide
theorem test_wf_bank_subset : wellFormed (.bankSubsetInstruction (.alu .mulh 0 (.q 0) (.q 1))) = false ∧
    wellFormed (.bankSubsetInstruction (.modeLo 0x0002)) = false ∧
    wellFormed (.bankSubsetInstruction (.modeLo 0x0008)) = true := by decide

-- ## words that the spec writes out

/-- R76, R82, R84, R359, R374, R375, R360, R400, R364, R293, R295, R198. -/
theorem test_decode_control :
    decodeWord 0x00000000 = .ok (.nop false) ∧ decodeWord 0x80000000 = .ok (.nop true) ∧
    decodeWord 0x01000008 = .ok (.modeiLo false 8) ∧ decodeWord 0x04FFFFFD = .ok (.bra false (-3)) ∧
    decodeWord 0x0600000C = .ok (.joinat false 12) ∧ decodeWord 0x07040306 = .ok (.jtab false 4 3 6) ∧
    decodeWord 0x08000064 = .ok (.call false 100) ∧ decodeWord 0x09000700 = .ok (.calli false 7) ∧
    decodeWord 0x0A000000 = .ok (.ret false) ∧ decodeWord 0x8A000000 = .ok (.ret true) ∧
    decodeWord 0x0B030201 = .ok (.refill false 3 2 1) ∧ decodeWord 0x0C000000 = .ok (.exit false) ∧
    decodeWord 0x8C000000 = .ok (.exit true) ∧ decodeWord 0x0D00002A = .ok (.trapi false 42) ∧
    decodeWord 0x0E000000 = .ok (.rett false) ∧ decodeWord 0x0F090003 = .ok (.yieldcCopy false 9 3) :=
  ⟨rfl, rfl, rfl, rfl, rfl, rfl, rfl, rfl, rfl, rfl, rfl, rfl, rfl, rfl, rfl, rfl⟩

/-- R384, R385, R357, R393, R363, R207, R107, R108, R117, R369, R371, R319, R321, R276, R373. -/
theorem test_decode_system :
    decodeWord 0x02050200 = .ok (.mfs false 5 2) ∧ decodeWord 0x030B0700 = .ok (.mts false 0x0B 7) ∧
    decodeWord 0x03000400 = .ok (.mts false 0 4) ∧ decodeWord 0x10050600 = .ok (.arrive false 5 6) ∧
    decodeWord 0x11000607 = .ok (.pwait false 6 7) ∧ decodeWord 0x12000020 = .ok (.dbar false 0x20) ∧
    decodeWord 0x13000A00 = .ok (.gangset false 10) ∧ decodeWord 0x14000005 = .ok (.xacq false 5) ∧
    decodeWord 0x15000002 = .ok (.xrel false 2) ∧ decodeWord 0x160052FF = .ok (.hsave false 20 .wt) ∧
    decodeWord 0x170052FF = .ok (.hload false 20 .wt) ∧ decodeWord 0x18000000 = .ok (.rflush false) ∧
    decodeWord 0x19050809 = .ok (.seqopen false 5 8 9) ∧ decodeWord 0x1A000500 = .ok (.seqend false 5) ∧
    decodeWord 0x1B000500 = .ok (.launch false 5) ∧ decodeWord 0x1C000506 = .ok (.signal false 5 6) ∧
    decodeWord 0x1D000716 = .ok (.ipush false 7 2 5) :=
  ⟨rfl, rfl, rfl, rfl, rfl, rfl, rfl, rfl, rfl, rfl, rfl, rfl, rfl, rfl, rfl, rfl, rfl⟩

/-- R403 to R405. -/
theorem test_decode_scalar :
    decodeWord 0x20040506 = .ok (.sadd false 4 5 6) ∧ decodeWord 0x200708C9 = .ok (.smulh false 7 8 9) ∧
    decodeWord 0x200645C7 = .ok (.sshl false 6 5 7) ∧ decodeWord 0x21030586 = .ok (.scmpLt false 3 5 6) ∧
    decodeWord 0x21410445 = .ok (.scmpLen false 1 4 5) ∧ decodeWord 0x2204FFF8 = .ok (.saddi false 4 (-8)) ∧
    decodeWord 0x23060004 = .ok (.sli false 6 4) ∧ decodeWord 0x24033F80 = .ok (.slih false 3 0x3F80) :=
  ⟨rfl, rfl, rfl, rfl, rfl, rfl, rfl, rfl⟩

/-- R419 to R428, R392. -/
theorem test_decode_vector :
    decodeWord 0x30020203 = .ok (.vadd false 2 2 3) ∧ decodeWord 0x340A0809 = .ok (.vmad false 10 8 9) ∧
    decodeWord 0x3C050607 = .ok (.vsra false 5 6 7) ∧ decodeWord 0x3D040506 = .ok (.vsel false 4 5 6) ∧
    decodeWord 0x3E920405 = .ok (.vcmpLt false .or 2 4 5) ∧ decodeWord 0x3E290607 = .ok (.vcmpGe false .set 1 6 7) ∧
    decodeWord 0x3F020600 = .ok (.vcvt false 2 6) ∧ decodeWord 0x3F030401 = .ok (.vabs false 3 4) ∧
    decodeWord 0x3F070806 = .ok (.vrcp false 7 8) ∧ decodeWord 0x3F08090B = .ok (.vtanh false 8 9) ∧
    decodeWord 0x40010002 = .ok (.vli false 1 2) ∧ decodeWord 0x41033F80 = .ok (.vlih false 3 0x3F80) ∧
    decodeWord 0x42030500 = .ok (.vbcast false 3 5) ∧ decodeWord 0x43050406 = .ok (.vextr false 5 4 6) ∧
    decodeWord 0x44040506 = .ok (.vperm false 4 5 6) ∧ decodeWord 0x45050200 = .ok (.vredAdd false 5 2) ∧
    decodeWord 0x45060302 = .ok (.vredMax false 6 3) ∧ decodeWord 0x46040200 = .ok (.vscanAdd false 4 2) ∧
    decodeWord 0x47050206 = .ok (.vbal false 5 2 6) ∧ decodeWord 0x480A0405 = .ok (.vdot4 false 10 4 5) ∧
    decodeWord 0x490A0405 = .ok (.vdot2 false 10 4 5) ∧ decodeWord 0x4A000000 = .ok (.vidx false 0) ∧
    decodeWord 0x4B030700 = .ok (.vsetp false 3 7) ∧ decodeWord 0x4C030102 = .ok (.pland false 3 1 2) ∧
    decodeWord 0x4C0B0102 = .ok (.plor false 3 1 2) ∧ decodeWord 0x4C130102 = .ok (.plxor false 3 1 2) ∧
    decodeWord 0x4C1C0500 = .ok (.plnot false 4 5) ∧ decodeWord 0x4D080200 = .ok (.psetv false 8 2) ∧
    decodeWord 0x4E050200 = .ok (.pcnt false 5 2) :=
  ⟨rfl, rfl, rfl, rfl, rfl, rfl, rfl, rfl, rfl, rfl, rfl, rfl, rfl, rfl, rfl, rfl, rfl, rfl, rfl, rfl, rfl, rfl, rfl, rfl,
    rfl, rfl, rfl, rfl, rfl⟩

/-- R379 to R381, R406, R408, R194, R353, R394, R193, R195, R411, R365 to R367. -/
theorem test_decode_memory :
    decodeWord 0xD0081102 = .ok (.ld true 8 4 .own (some 2)) ∧ decodeWord 0x50095203 = .ok (.ld false 9 20 .wt (some 3)) ∧
    decodeWord 0x50051BFF = .ok (.ld false 5 6 .nc none) ∧ decodeWord 0x520C2001 = .ok (.ld4 false 12 8 .si (some 1)) ∧
    decodeWord 0x51081901 = .ok (.st false 8 6 .own (some 1)) ∧ decodeWord 0x530C2201 = .ok (.st4 false 12 8 .wt (some 1)) ∧
    decodeWord 0x54011900 = .ok (.lda false 1 6 .dev (some 0)) ∧ decodeWord 0x550219FF = .ok (.stl false 2 6 .dev none) ∧
    decodeWord 0xD6050806 = .ok (.sld true 5 2 .si 6) ∧ decodeWord 0x57095203 = .ok (.sst false 9 20 .wt 3) ∧
    decodeWord 0x58052304 = .ok (.aadd false 5 8 .nc (some 4)) ∧ decodeWord 0x5A0C1A01 = .ok (.amax false 12 6 .wt (some 1)) ∧
    decodeWord 0x5E0310FF = .ok (.axchg false 3 4 .si none) ∧ decodeWord 0x5F062902 = .ok (.acas false 6 10 .own (some 2)) ∧
    decodeWord 0x60032304 = .ok (.redadd false 3 8 .nc (some 4)) ∧ decodeWord 0x62062A01 = .ok (.redmax false 6 10 .wt (some 1)) ∧
    decodeWord 0x630210FF = .ok (.redor false 2 4 .si none) ∧ decodeWord 0x64000100 = .ok (.pdrain false .dev) ∧
    decodeWord 0x65040100 = .ok (.fenceRel false .dev) ∧ decodeWord 0x650A0200 = .ok (.fenceFull false .prt) ∧
    decodeWord 0x65030000 = .ok (.fenceAcqn false .drv) ∧ decodeWord 0x660520FF = .ok (.invr false 5 8) ∧
    decodeWord 0x69042802 = .ok (.spld false 4 10 (some 2)) ∧ decodeWord 0x6A042802 = .ok (.spst false 4 10 (some 2)) ∧
    decodeWord 0x6B052803 = .ok (.spaadd false 5 10 (some 3)) ∧ decodeWord 0x6C050600 = .ok (.halloc false 5 6) ∧
    decodeWord 0x6D000506 = .ok (.hpass false 5 6) ∧ decodeWord 0x6E000500 = .ok (.hfree false 5) :=
  ⟨rfl, rfl, rfl, rfl, rfl, rfl, rfl, rfl, rfl, rfl, rfl, rfl, rfl, rfl, rfl, rfl, rfl, rfl, rfl, rfl, rfl, rfl, rfl, rfl,
    rfl, rfl, rfl, rfl⟩

/-- R205, R218, R214, R226 to R235, R254, R263, R387, R414, R323, R361, R325, R93. -/
theorem test_decode_engines :
    decodeWord 0x70100406 = .ok (.mm128 false 16 4 6) ∧ decodeWord 0x73800A0C = .ok (.mm1024 false 128 10 12) ∧
    decodeWord 0x74140000 = .ok (.mbatch false 20) ∧ decodeWord 0x75001400 = .ok (.mwait false 20) ∧
    decodeWord 0x76000807 = .ok (.pfl2 false 8 7) ∧ decodeWord 0x77091402 = .ok (.bkload false 9 20 2) ∧
    decodeWord 0x78090628 = .ok (.bkrun false 9 6 40) ∧ decodeWord 0x79000900 = .ok (.bkwait false 9) ∧
    decodeWord 0x7A040601 = .ok (.bkread false 4 6 1) ∧ decodeWord 0x7B091000 = .ok (.dcopy false 9 16) ∧
    decodeWord 0x7B091004 = .ok (.dgate false 9 16) ∧ decodeWord 0x1E091000 = .ok (.digest false 9 16) ∧
    decodeWord 0x7C000900 = .ok (.dwait false 9) ∧ decodeWord 0x7C050901 = .ok (.dpoll false 5 9) ∧
    decodeWord 0x7E000900 = .ok (.cwait false 9) ∧ decodeWord 0x7E050901 = .ok (.cpoll false 5 9) ∧
    decodeWord 0x7F040A00 = .ok (.pgharv false 4 10) ∧ decodeWord 0x7F040A01 = .ok (.pgset false 4 10) ∧
    decodeWord 0x7F040A02 = .ok (.tlbinvPage false 4 10) ∧ decodeWord 0x7F040A03 = .ok (.keyopAlloc false 4 10) ∧
    decodeWord 0x7F040A04 = .ok (.ctxswArm false 4 10) ∧ decodeWord 0x7F040A05 = .ok (.scrub false 4 10) ∧
    decodeBank 0x26008100 = .ok (.rowld false 0 1) ∧ decodeBank 0x27000081 = .ok (.rowst false 0 1) ∧
    decodeBank 0x28010200 = .ok (.bfpadd false 1 2) ∧ decodeBank 0x29030082 = .ok (.bsmac false 3 0 2) ∧
    decodeBank 0x2A000200 = .ok (.mpush false 2) ∧ decodeBank 0x2E000100 = .ok (.bfpout false 0 1) ∧
    decodeBank 0x32000080 = .ok (.bankSubsetInstruction (.alu .mul 0 (.q 0) (.k 0))) :=
  ⟨rfl, rfl, rfl, rfl, rfl, rfl, rfl, rfl, rfl, rfl, rfl, rfl, rfl, rfl, rfl, rfl, rfl, rfl, rfl, rfl, rfl, rfl, rfl, rfl,
    rfl, rfl, rfl, rfl, rfl⟩

/-- R73, R76: reserved words are refused by name. -/
theorem test_decode_refuses :
    decodeWord 0x0A000001 = .error .fieldNotFixed ∧ (decodeWord 0x6F000000).isOk = false ∧
    (decodeWord 0x7D090A04).isOk = false ∧ decodeBytes [0, 0, 0] = .error .truncated :=
  ⟨rfl, rfl, rfl, rfl⟩

-- ## small states

/-- A team of 32 lanes with one split at address 0. -/
def tm : Team := { Team.blank with splits := [Split.fresh 0 0 (allLanes 32)], nextUid := 1 }
def sp : Split := Split.fresh 0 0 (allLanes 32)
/-- A device with one context and one team whose split has the issue slot. -/
def dev (t : Team) : State :=
  { State.reset with cur := .split 0 0, ctxs := [(0, Context.blank)], teams := [(0, t)] }
/-- The team with some scalars. -/
def tmS (l : List (Nat × Word)) : Team := { tm with scalars := l }
/-- The split with a MODE. -/
def spM (m : Word) : Split := { sp with mode := m }
def tmM (m : Word) (l : List (Nat × Word)) : Team := { tmS l with splits := [spM m] }

theorem at_issue (s : State) (tid uid : Nat) (t : Team) (x : Split) (h : s.cur = .split tid uid ∧ s.team tid = some t ∧
    t.split uid = some x) : AtIssue s tid uid t x := h

theorem none_of {α : Type} {o : Option α} (h : o.isNone = true) : o = none := Option.isNone_iff_eq_none.mp h

theorem ready_of {t : Team} {x : Split} {u : Uses} (h : (u.regOk && (u.vr ++ u.vw).all t.holds && modeOk u.mode x.mode &&
    !writeHeld t x u && !(u.vr ++ u.vw).any t.filling && (match u.mode with | .mat => true | _ => !(u.vr ++ u.vw).any t.inFlight)) = true) :
    Ready t x u := by
  simp only [Bool.and_eq_true, Bool.not_eq_true'] at h
  refine ⟨h.1.1.1.1.1, h.1.1.1.1.2, h.1.1.1.2, h.1.1.2, h.1.2, ?_⟩
  cases hm : u.mode <;> simp_all

-- ## the hypotheses of the statements can be met: decoding and the step

/-- StepKeepsMemory. -/
theorem test_hyp_step_keeps : Kept (dev tm) ∧
    (match step (placeWordNext State.reset 0) with | .next _ => true | _ => false) = true := ⟨rfl, by decide +kernel⟩
/-- DecodeAndEncodeAgree. -/
theorem test_hyp_agree : wellFormed (.vadd false 2 2 3) = true ∧ encode (.vadd false 2 2 3) = some 0x30020203 ∧
    encode (.bankSubsetInstruction (.modeLo 8)) = some 0x01000008 ∧ encode (.mpop false) = some 0x2B000000 ∧
    decodeWord 0x30020203 = .ok (.vadd false 2 2 3) := ⟨rfl, rfl, rfl, rfl, rfl⟩
/-- StepRunsTheInstruction, clause by clause. -/
theorem test_hyp_step_split : Fetches (placeCoachWord State.reset 0x4A000000) (placeCoachWord State.reset 0x4A000000) 0 0 tm sp
    0x4A000000 := ⟨⟨rfl, rfl, rfl⟩, rfl, rfl⟩
theorem test_hyp_step_system : ∃ t, Fetches (placeSystemWord State.reset 0x7F040A05) (placeSystemWord State.reset 0x7F040A05)
    systemTeam 0 t sp 0x7F040A05 := ⟨_, ⟨⟨rfl, rfl, rfl⟩, rfl, ⟨rfl, by decide +kernel⟩⟩⟩
theorem test_hyp_step_event : (let ev : Team := { tm with events := 1, evmask := 1, tvec := 64 }
    (dev ev).cur = .split 0 0 ∧ (dev ev).team 0 = some ev ∧ eventDue ev = true) := ⟨rfl, rfl, by decide +kernel⟩
theorem test_hyp_step_bank :
    (let s := placeBankWord State.reset 0x2D000000
     ∃ e, s.cur = .bank 0 ∧ (s.bank 0).exec = some e ∧ ctxActive s e.run.ctx = true ∧ (s.bank 0).busy ≤ bankCycle s ∧ runOver e = false ∧
       rowBoundary 0 s = none ∧ e.opening = none ∧ e.ending = false ∧ e.upc < 64 ∧ decodeBank (kernelWord s 0 e) = .ok (.bkend false)) :=
  ⟨_, rfl, rfl, by decide +kernel, by decide +kernel, by decide +kernel, none_of (by decide +kernel), rfl, rfl, by decide +kernel, rfl⟩
theorem test_hyp_step_agenda : (let s : State := { State.reset with agenda := [.powerUp] }
    s.cur = .idle ∧ s.agenda = [.powerUp] ∧ agendaStep .powerUp = true) := ⟨rfl, rfl, rfl⟩
theorem test_hyp_step_cache : (let s := placeCoachWord State.reset 0x4A000000
    ∃ l, s.icache.find? (fun l => l.coach == 0 && l.asid == s.asid 0 && l.line == 0) = some l ∧ l.cmp = 0) := ⟨_, rfl, rfl⟩
/-- NopWords. -/
theorem test_hyp_nop : AtIssue (dev tm) 0 0 tm sp ∧
    Fetches (placeCoachWord State.reset 0x0A000001) (placeCoachWord State.reset 0x0A000001) 0 0 tm sp 0x0A000001 ∧
    (0x0A000001#32).extractLsb' 24 7 ∈ [0x00#7, 0x0A#7, 0x0C#7, 0x0E#7, 0x18#7, 0x2B#7, 0x2C#7, 0x2D#7] ∧
    (0x0A000001#32).extractLsb' 0 24 ≠ 0 := ⟨⟨rfl, rfl, rfl⟩, ⟨⟨rfl, rfl, rfl⟩, rfl, rfl⟩, by decide +kernel, by decide +kernel⟩
/-- ModeWrites: a word for each value of D that the clauses tell apart. -/
theorem test_hyp_modei : (∀ w, w ∈ [0x01000008#32, 0x01010008#32, 0x01020008#32] →
    Fetches (placeCoachWord State.reset w) (placeCoachWord State.reset w) 0 0 tm sp w ∧ w.extractLsb' 24 7 = 0x01#7) ∧
    (0x01020008#32).extractLsb' 16 8 ≠ 1 := by
  refine ⟨fun w h => ?_, by decide +kernel⟩
  simp only [List.mem_cons, List.not_mem_nil, or_false] at h
  rcases h with rfl | rfl | rfl <;> exact ⟨⟨⟨rfl, rfl, rfl⟩, rfl, rfl⟩, rfl⟩

-- ## scalar and vector instructions

/-- HandleWaits: handle 1 of drove 0, held by coach 0, named by a copy command that is not complete; with the split's accesses
released, and with one in flight. -/
def buf1 : Handle := { coach := 0, base := 1536, size := 1536, holder := 0, seed := 0, bytes := [] }
def dr0 : Drove :=
  { ctx := 0, node := 0, idx := 0, part := 0, train := some 0, alive := 1, teams := [0], iq := true, k := 0,
    queues := [(4 * 2 + 1, (0, [40, 41]))], handles := [(0, { buf1 with base := 0 }), (1, buf1)], stalled := none, started := true, unsaved := false }
def devD (t : Team) : State := { dev t with droves := [(0, dr0)] }
theorem test_hyp_handle_waits :
    (let t : Team := { tmS [(5, 0x80000), (6, 7)] with copyCtr := 1, tags := [⟨.copy, 1, false, [], [1]⟩] }
     let s := devD t
     AtIssue s 0 0 t sp ∧ namedHandle s (issueOf 0 0 t sp (.hfree false 5)) (s.rs t 5) = some 1 ∧
       copyNamesHandle s t.drove 1 = true ∧ (s.rs t 6).toNat ≤ 7 ∧ released t 0 false = true ∧
       released { t with pending := [⟨[0], [], .vec 4 1, [(0, [])], none, false⟩] } 0 false = false) :=
  ⟨⟨rfl, rfl, rfl⟩, by decide +kernel, by decide +kernel, by decide +kernel, by decide +kernel, by decide +kernel⟩
/-- ScalarArithmetic: a pair at s0 and at s62, the destinations s0 and s63. -/
theorem test_hyp_scalar : AtIssue (dev tm) 0 0 tm sp ∧
    Ready tm sp { sw := [0, 1], regOk := evenReg (0 : BitVec 6) && evenReg (4 : BitVec 6) && evenReg (62 : BitVec 6) } ∧
    Ready tm sp { sw := [0] } ∧ Ready tm sp { sw := [63] } :=
  ⟨⟨rfl, rfl, rfl⟩, ready_of (by decide +kernel), ready_of (by decide +kernel), ready_of (by decide +kernel)⟩
/-- ScalarComparison, PredicateLogic. -/
theorem test_hyp_predicates : Ready tm sp { pw := [0] } ∧ Ready tm sp { pw := [7] } ∧
    Ready tm sp { pw := [0], mode := .guard } ∧ Ready tm sp { pw := [7], mode := .guard } :=
  ⟨ready_of (by decide +kernel), ready_of (by decide +kernel), ready_of (by decide +kernel), ready_of (by decide +kernel)⟩
/-- VectorArithmetic: every kind of type, an accumulator, a 64-bit pair, registers of an extended block. -/
theorem test_hyp_vector : Ready tm sp (uses3 (.vadd false 2 2 3) etAny false 2 2 3 .i32) ∧
    Ready tm sp (uses3 (.vmulh false 2 2 3) etIntOp false 2 2 3 .i32) ∧
    Ready tm sp (uses3 (.vmad false 10 8 9) etAny true 10 8 9 .i32) ∧
    (let t := tmM 6 []
     modeEt (spM 6).mode = .i64 ∧ Ready t (spM 6) (uses3 (.vadd false 30 2 4) etAny false 30 2 4 .i64)) ∧
    (let t : Team := { tm with xblk := 4 }
     Ready t sp (uses3 (.vadd false 255 2 3) etAny false 255 2 3 .i32)) :=
  ⟨ready_of (by decide +kernel), ready_of (by decide +kernel), ready_of (by decide +kernel), ⟨rfl, ready_of (by decide +kernel)⟩,
    ready_of (by decide +kernel)⟩
/-- IntegerOperations. -/
theorem test_hyp_integer : (⟨.i32, .rne, false, false, []⟩ : NumMode).sat = false ∧ (⟨.i32, .rne, true, false, []⟩ : NumMode).sat = true ∧
    (⟨.i32, .rne, false, false, []⟩ : NumMode).et = .i32 ∧ (⟨.n32, .rne, false, false, []⟩ : NumMode).et = .n32 := ⟨rfl, rfl, rfl, rfl⟩
/-- VectorUnary: VNOT and VCLZ, and a conversion from F32 to I32. -/
theorem test_hyp_unary : Ready tm sp (uses2 (.vnot false 3 4) etAny 3 4 .i32) ∧ Ready tm sp (uses2 (.vclz false 3 4) etIntOp 3 4 .i32) ∧
    (let x := spM 0x80000
     let u : Uses := { vr := etRegs .f32 6, vw := etRegs .i32 2, mode := .cvt, regOk := etEven .i32 2 && etEven .f32 6 }
     modeCvs x.mode = .f32 ∧ Ready (tmM 0x80000 []) x u) :=
  ⟨ready_of (by decide +kernel), ready_of (by decide +kernel), ⟨rfl, ready_of (by decide +kernel)⟩⟩
/-- VectorSpecials: F32, and F64 for VSQRT. -/
theorem test_hyp_specials : Ready (tmM 8 []) (spM 8) (uses2 (.vrcp false 7 8) etSpecial 7 8 (modeEt (spM 8).mode)) ∧
    Ready (tmM 11 []) (spM 11) (uses2 (.vsqrt false 6 8) (fun e => etSpecial e || e == .f64) 6 8 (modeEt (spM 11).mode)) :=
  ⟨ready_of (by decide +kernel), ready_of (by decide +kernel)⟩
/-- VectorMoves: an index within the team, and one beyond it in lane 3. -/
theorem test_hyp_moves : Ready tm sp (usesImm 1 .i32) ∧ Ready tm sp { usesImm 3 .i32 with vr := [3] } ∧
    Ready tm sp { vw := etRegs .i32 3, mode := .num etAny, regOk := etEven .i32 3 && etEven .i32 5 } ∧
    Ready tm sp (uses3 (.vsel false 4 5 6) etAny false 4 5 6 .i32) ∧
    (Ready tm sp { vr := etRegs .i32 5 ++ [6], vw := etRegs .i32 4, mode := .num etAny, regOk := etEven .i32 4 && etEven .i32 5 && etEven .i32 6 } ∧
      (∀ L, L ∈ (issueOf 0 0 tm sp (.vli false 4 0)).lanes → ((dev tm).rv tm 6 L).toNat < tm.w) ∧
      (let t : Team := { tm with vregs := [(1024 * 6 + 3, 32)] }
       (issueOf 0 0 t sp (.vli false 4 0)).lanes.find? (fun L => decide (t.w ≤ ((dev t).rv t 6 L).toNat)) = some 3)) ∧
    Ready (tmM 14 []) (spM 14) (uses3 (.vdot4 false 10 4 5) (fun k => k == .i8x4 || k == .n8x4) true 10 4 5 (modeEt (spM 14).mode)) ∧
    Ready (tmM 12 []) (spM 12) (uses3 (.vdot2 false 10 4 5) (fun k => k == .f16x2 || k == .bf16x2) true 10 4 5 (modeEt (spM 12).mode)) :=
  ⟨ready_of (by decide +kernel), ready_of (by decide +kernel), ready_of (by decide +kernel), ready_of (by decide +kernel), ⟨ready_of (by decide +kernel), by decide +kernel, by decide +kernel⟩,
    ready_of (by decide +kernel), ready_of (by decide +kernel)⟩
/-- VectorComparison. -/
theorem test_hyp_comparison :
    Ready tm sp { vr := etRegs .i32 4 ++ etRegs .i32 5, pw := [2], mode := .num (fun e => !etPacked e), regOk := etEven .i32 4 && etEven .i32 5 } ∧
    Ready tm sp { vr := etRegs .i32 7, pw := [3], mode := .num (fun e => !etPacked e), regOk := etEven .i32 7 } :=
  ⟨ready_of (by decide +kernel), ready_of (by decide +kernel)⟩
/-- ReductionsScansExtraction: the last mask word of a 32-lane team and the one after it, lane 31 and lane 32. -/
theorem test_hyp_reductions :
    Ready tm sp { vr := etRegs .i32 2, sw := etRegs .i32 5, mode := .num (redTypes .add), regOk := etEven .i32 5 && etEven .i32 2 } ∧
    Ready tm sp (uses2 (.vscanAnd false 4 2) (redTypes .and) 4 2 .i32) ∧
    (Ready tm sp { sw := [5], mode := .guard } ∧ ((dev tm).rs tm 6).toNat < tm.m ∧ tm.m ≤ ((dev (tmS [(6, 1)])).rs (tmS [(6, 1)]) 6).toNat) ∧
    (let t := tmS [(6, 31)]
     Ready t sp { vr := etRegs .i32 4, sw := etRegs .i32 5, mode := .num etAny, regOk := etEven .i32 5 && etEven .i32 4 } ∧
       ((dev t).rs t 6).toNat < t.w ∧ t.w ≤ ((dev (tmS [(6, 32)])).rs (tmS [(6, 32)]) 6).toNat) :=
  ⟨ready_of (by decide +kernel), ready_of (by decide +kernel), ⟨ready_of (by decide +kernel), by decide +kernel, by decide +kernel⟩,
    ready_of (by decide +kernel), by decide +kernel, by decide +kernel⟩

-- ## control

/-- Divergence: a fresh uid, lanes that all agree either way, and lanes that disagree. -/
theorem test_hyp_divergence :
    (let t : Team := { tm with preds := [(1, 0xFF)] }
     AtIssue (dev t) 0 0 t sp ∧ sp.phase = .run ∧ t.split t.nextUid = none ∧
       sp.mask &&& ~~~(sp.mask &&& t.p 0) = 0 ∧
       (sp.mask &&& ~~~(sp.mask &&& t.p 2) ≠ 0 ∧ sp.mask &&& t.p 2 = 0) ∧
       (sp.mask &&& ~~~(sp.mask &&& t.p 1) ≠ 0 ∧ sp.mask &&& t.p 1 ≠ 0) ∧ NoJoin sp 64) :=
  ⟨⟨rfl, rfl, rfl⟩, rfl, rfl, by decide +kernel, by decide +kernel, by decide +kernel, fun r h => by simp [sp, Split.fresh] at h⟩
/-- CallsAndJoins: 63 return addresses and 15 records; a return stack with one address, with no record made below it and
with one. -/
theorem test_hyp_calls :
    (let x : Split := { sp with ret := List.replicate 63 8, joins := List.replicate 15 ⟨64, 63, 3⟩ }
     let t : Team := { tmS [(7, 0x100)] with splits := [x] }
     AtIssue (dev t) 0 0 t x ∧ x.ret.length < 64 ∧ ((dev t).rs t 7).extractLsb' 0 2 = 0 ∧ x.phase ≠ .handler ∧ x.joins.length < 16) ∧
    (let x (d : Nat) : Split := { sp with ret := [8], joins := [⟨64, d, 3⟩] }
     let gone (d : Nat) : List JoinRec := (x d).joins.takeWhile (fun j => decide (0 < j.depth))
     let u (d : Nat) : Team := ((gone d).map (·.id)).foldl settleRecord
       (leavePending (withSplit { tm with splits := [x d] } 0 (fun y => { y with ret := [], joins := y.joins.drop (gone d).length })) 0 ((gone d).map (·.id)))
     (x 0).ret = 8 :: [] ∧ gone 0 = [] ∧ gone 1 ≠ [] ∧ ((u 1).split 0).isSome = true) :=
  ⟨⟨⟨rfl, rfl, rfl⟩, by decide +kernel, by decide +kernel, by decide +kernel, by decide +kernel⟩, rfl, by decide +kernel, by decide +kernel,
    by decide +kernel⟩
/-- SpecialRegisters: latches that were never set; aligned and misaligned values; a special that is read only. -/
theorem test_hyp_specials_written : Ready tm sp { sw := [5] } ∧ sp.gtimeLatch = none ∧ sp.cycleLatch = none ∧
    (1 : BitVec 5) ∉ [0#5, 0x0B#5, 0x0C#5, 0x12#5, 0x13#5, 0x14#5, 0x15#5, 0x16#5, 0x17#5, 0x18#5] ∧
    (let t := tmS [(7, 0x104)]
     ((dev t).rs t 7).extractLsb' 0 2 = 0 ∧ ((dev t).rs t 7).getLsbD 0 = false) ∧
    (let t := tmS [(7, 1)]
     ((dev t).rs t 7).getLsbD 0 = true ∧ ((dev t).rs t 7).extractLsb' 0 2 ≠ 0) :=
  ⟨ready_of (by decide +kernel), rfl, rfl, by decide, ⟨by decide +kernel, by decide +kernel⟩, by decide +kernel, by decide +kernel⟩
/-- ExitAndRefill: a team of one split, and a queue of two items for two finished lanes. -/
theorem test_hyp_refill :
    (let t : Team := { tm with preds := [(2, 0x24)] }
     let s : State := { devD t with teams := [(0, { t with coach := 2 })] }
     let u : Team := { t with coach := 2 }
     AtIssue s 0 0 u sp ∧ u.splits = [sp] ∧ Ready u sp { vw := [3], pw := [2] } ∧ s.drove u.drove = some dr0 ∧ dr0.iq = true ∧
       sp.mask ≠ 0 ∧ (lanesOf u.w (sp.mask &&& u.p 2)).length ≤ (queueItems dr0 (u.coach % 8) 1).length ∧
       (lanesOf u.w (sp.mask &&& u.p 2))[1]? = some 5) :=
  ⟨⟨rfl, rfl, rfl⟩, rfl, ready_of (by decide +kernel), rfl, rfl, by decide +kernel, by decide +kernel, by decide +kernel⟩
/-- TrapEntryAndReturn, TrapCauses. -/
def tmH : Team := { tm with tvec := 0x400 }
def spH : Split := { sp with phase := .handler, pc := 0x404 }
theorem test_hyp_trap : AtIssue (dev tmH) 0 0 tmH sp ∧ tmH.tvec ≠ 0 ∧ tmH.inHandler = false ∧
    (let t : Team := { tmH with splits := [spH], tcause := 8 }
     AtIssue (dev t) 0 0 t spH ∧ spH.phase = .handler ∧ spH.ret.length = spH.entryDepth ∧ t.tpc.extractLsb' 0 2 = 0 ∧ NoJoin spH (t.tpc + 4)) :=
  ⟨⟨rfl, rfl, rfl⟩, by decide +kernel, by decide +kernel, ⟨rfl, rfl, rfl⟩, rfl, rfl, rfl, fun r h => by simp [spH, sp, Split.fresh] at h⟩
theorem test_hyp_trap_causes : tm.sys = false ∧ spH.phase = .handler ∧ sp.phase ≠ .handler ∧ sp.ret = [] ∧
    (let x : Split := { sp with ret := List.replicate 64 8, joins := List.replicate 16 ⟨64, 0, 3⟩ }
     x.ret.length = 64 ∧ x.joins.length = 16) := ⟨rfl, rfl, by decide +kernel, rfl, by decide +kernel, by decide +kernel⟩
/-- TrapCauses: a register of a block not held, an odd register of a 64-bit type, an odd pair; a MODE with a reserved type, one
without a rounding mode, and one whose formats a matrix instruction does not take. -/
theorem test_hyp_static_causes :
    (let held (m : Word) (r : BitVec 8) : Bool := (etRegs (modeEt m) r.toNat).all tm.holds
     let even (m : Word) (r : BitVec 8) : Bool := !et64 (modeEt m) || r.toNat % 2 == 0
     (held 0 255 = false ∧ held 0 2 = true ∧ even 0 3 = true) ∧ (modeEt 6 = .i64 ∧ even 6 3 = false ∧ held 6 2 = true ∧ even 6 2 = true) ∧
       evenReg (5 : BitVec 6) = false ∧ evenReg (4 : BitVec 6) = true ∧ modeReserved 0xFFFFFFFF = true ∧
       (List.range 8).any (fun k => (modeRm (BitVec.ofNat 32 (k * 16))).isNone) = true ∧
       wellFormed (.mm128 false 16 4 6) = true ∧ (regGroup 16 16).all tm.holds = true ∧ wellFormed (.mm128 false 240 4 6) = true ∧
       (regGroup 240 16).all tm.holds = false ∧ modeOk .mat 0xFFFFFFFF = false) := by decide +kernel
/-- TagWaits: tag 1 is complete, tag 2 is not. -/
theorem test_hyp_tags :
    (let t : Team := { tmS [(9, 1), (10, 2)] with copyCtr := 2, tags := [⟨.copy, 1, true, [], []⟩, ⟨.copy, 2, false, [], []⟩] }
     AtIssue (dev t) 0 0 t sp ∧ (tagLegal (t.counter .copy) 1 = true ∧ tagComplete t .copy 1 = true) ∧
       (tagLegal (t.counter .copy) 2 = true ∧ tagComplete t .copy 2 = false) ∧ Ready t sp { sw := [5] }) :=
  ⟨⟨rfl, rfl, rfl⟩, ⟨by decide +kernel, by decide +kernel⟩, ⟨by decide +kernel, by decide +kernel⟩, ready_of (by decide +kernel)⟩
/-- Barriers: the word at 0x200 of handle 0 has RELOAD 2 and REMAIN 2, so that an arrival leaves the phase, and with
REMAIN 1 it changes it (the example of R393). -/
def devB (remain : Byte) (t : Team) : State :=
  let h : Handle := { buf1 with base := 0, bytes := [(0x200, remain), (0x201, 0), (0x202, 0), (0x203, 0), (0x204, 2), (0x205, 0), (0x206, 0), (0x207, 0)] }
  { dev t with droves := [(0, { dr0 with handles := [(0, h)] })] }
def tmB : Team := tmS [(6, 0x200), (7, 0), (8, 1)]
theorem test_hyp_barrier : AtIssue (devB 2 tmB) 0 0 tmB sp ∧ Ready tmB sp { sw := [5] } ∧
    (barrierTrap (devB 2 tmB) (issueOf 0 0 tmB sp (.arrive false 5 6)) 0x200).isNone = true ∧ released tmB 0 false = true ∧
    barrierSpent (devB 2 tmB) 0 0x200 = false ∧
    (phaseOf (devB 2 tmB) 0 0x200 = ((devB 2 tmB).rs tmB 7).getLsbD 0 ∧ phaseOf (devB 2 tmB) 0 0x200 ≠ ((devB 2 tmB).rs tmB 8).getLsbD 0) ∧
    (phaseOf (arrivalOn (devB 2 tmB) 0 0x200).1 0 0x200 = phaseOf (devB 2 tmB) 0 0x200 ∧
      phaseOf (arrivalOn (devB 1 tmB) 0 0x200).1 0 0x200 ≠ phaseOf (devB 1 tmB) 0 0x200) ∧ (0x40#16).setWidth 32 <<< 3 = 0x200#32 :=
  ⟨⟨rfl, rfl, rfl⟩, ready_of (by decide +kernel), by decide +kernel, by decide +kernel, by decide +kernel, ⟨by decide +kernel, by decide +kernel⟩, ⟨by decide +kernel, by decide +kernel⟩, by decide +kernel⟩
/-- GangsAndBlocks. -/
theorem test_hyp_gangs :
    (let t : Team := { tmS [(10, 0xFFFF0100), (11, 0xFFFFFFFF)] with teams := 2, xblk := 2 }
     AtIssue (dev t) 0 0 t sp ∧ gangIds ((dev t).rpair t 10) = some [0, 1] ∧ gangOk t [0, 1] = true ∧ t.latch = none ∧
       (tm.xblk = 0 ∧ tm.pend = 0 ∧ (5 : BitVec 3) &&& ~~~tm.allowed = 0) ∧
       ((2 : BitVec 3) &&& ~~~t.xblk = 0 ∧ regsLanded t (BitVec.allOnes 1024) (blockRegs 2) = true ∧
        matrixBusy t 2 = false)) :=
  ⟨⟨rfl, rfl, rfl⟩, by decide +kernel, by decide +kernel, rfl, ⟨rfl, rfl, by decide +kernel⟩, ⟨by decide +kernel, by decide +kernel, by decide +kernel⟩⟩

-- ## memory instructions

/-- Line 1 of ASID 0 in its home slice, writable and dirty at its leaf, every word 7. -/
def line1 : L2Line :=
  { asid := 0, line := 1, slot := 0, w := true, cmp := 0, dk := true, dirty := false, data := List.replicate 32 7,
    st := List.replicate 32 (.u 0), tile := 0, stamp := 0 }
/-- A context whose image, queue images and stop area lie above the addresses that the tests use. -/
def ctxFar : Context :=
  { Context.blank with spec := { CtxRecord.zero with rimg := 0x200000, qsave := 0x400000, stoparea := 0x800000 } }
def devM (t : Team) : State := { devD t with l2 := [line1], ctxs := [(0, ctxFar)] }
/-- A base of 128 in s4, s5. -/
def tmA : Team := tmS [(4, 128)]

/-- Loads: LD, LD4, LDA, SLD. -/
theorem test_hyp_loads : AtIssue (devM tmA) 0 0 tmA sp ∧
    (let i := Instr.ld false 2 4 .own none
     let c := issueOf 0 0 tmA sp i
     let ls := c.addrs (devM tmA) 4 none
     Ready tmA sp (loadUses i 2 none c) ∧ checkLoad (devM tmA) c 4 true ls = none ∧ postedLine (devM tmA) 0 ls = false ∧
       (spreadReads ls (serve (loadLane c .own .i32 (.vec 2 1) (matesOf ls)) (devM tmA) [] (keepFirst ls))).stop = none) ∧
    (let i := Instr.ld4 false 12 4 .wt none
     let c := issueOf 0 0 tmA sp i
     let ls := c.addrs (devM tmA) 4 none
     Ready tmA sp (load4Uses i 12 none c) ∧ checkLoad (devM tmA) c 16 false ls = none ∧
       (spreadReads ls (serve (load4Lane c .wt (.vec 12 4) (matesOf ls)) (devM tmA) [] (keepFirst ls))).stop = none) ∧
    (let i := Instr.lda false 1 4 .dev none
     let c := issueOf 0 0 tmA sp i
     let ls := c.addrs (devM tmA) 4 none
     Ready tmA sp (loadUses i 1 none c) ∧ checkLanes (devM tmA) c 4 false ls = none ∧
       (serve (loadLane c .wt .i32 (.vec 1 1) (fun L => [L])) (devM tmA) [] ls).stop = none) ∧
    (let i := Instr.sld false 5 4 .wt 0
     let c := issueOf 0 0 tmA sp i
     let ls := [(0, scalarAddr (devM tmA) tmA 4 0)]
     Ready tmA sp { sw := [5], regOk := evenReg (4 : BitVec 6) } ∧ checkLoad (devM tmA) c 4 false ls = none ∧
       (spreadReads ls (serve (loadLane c .wt .n32 (.scal 5 1) (matesOf ls)) (devM tmA) [] (keepFirst ls))).stop = none) :=
  ⟨⟨rfl, rfl, rfl⟩,
   ⟨ready_of (by decide +kernel), none_of (by decide +kernel), by decide +kernel, none_of (by decide +kernel)⟩,
   ⟨ready_of (by decide +kernel), none_of (by decide +kernel), none_of (by decide +kernel)⟩,
   ⟨ready_of (by decide +kernel), none_of (by decide +kernel), none_of (by decide +kernel)⟩,
   ⟨ready_of (by decide +kernel), none_of (by decide +kernel), none_of (by decide +kernel)⟩⟩
/-- Stores: ST, ST4, STL, SST. -/
theorem test_hyp_stores :
    (let i := Instr.st false 2 4 .si none
     let c := issueOf 0 0 tmA sp i
     let ls := c.addrs (devM tmA) 4 none
     Ready tmA sp (storeUses i 2 none c) ∧ checkLanes (devM tmA) c 4 true ls = none ∧ postedLine (devM tmA) 0 ls = false ∧
       (serve (storeLane c .si 4 (fun _ => 5)) (devM tmA) [] (keepHighest ls)).stop = none) ∧
    (let i := Instr.st4 false 12 4 .wt none
     let c := issueOf 0 0 tmA sp i
     let ls := c.addrs (devM tmA) 4 none
     Ready tmA sp (store4Uses i 12 none c) ∧ checkLanes (devM tmA) c 16 true ls = none ∧
       (serve (store4Lane c .wt (fun _ _ => 5)) (devM tmA) [] (keepHighest ls)).stop = none) ∧
    (let i := Instr.stl false 2 4 .dev none
     let c := issueOf 0 0 tmA sp i
     let ls := c.addrs (devM tmA) 4 none
     released tmA 0 true = true ∧ checkLanes (devM tmA) c 4 true ls = none ∧
       (serve (storeLane c .wt 4 (fun _ => 5)) (releaseSys (devM tmA) 0 .dev) [] (keepHighest ls)).stop = none) ∧
    (let i := Instr.sst false 6 4 .wt 0
     let c := issueOf 0 0 tmA sp i
     let ls := [(0, scalarAddr (devM tmA) tmA 4 0)]
     Ready tmA sp { regOk := evenReg (4 : BitVec 6) } ∧ checkLanes (devM tmA) c 4 true ls = none ∧
       (serve (storeLane c .wt 4 (fun _ => 5)) (devM tmA) [] ls).stop = none) :=
  ⟨⟨ready_of (by decide +kernel), none_of (by decide +kernel), by decide +kernel, none_of (by decide +kernel)⟩,
   ⟨ready_of (by decide +kernel), none_of (by decide +kernel), none_of (by decide +kernel)⟩,
   ⟨by decide +kernel, none_of (by decide +kernel), none_of (by decide +kernel)⟩,
   ⟨ready_of (by decide +kernel), none_of (by decide +kernel), none_of (by decide +kernel)⟩⟩
/-- AccessFrames: the last word of the line. -/
theorem test_hyp_frames :
    (let t := tmS [(4, 128), (6, 124)]
     let s := devM t
     let a := scalarAddr s t 4 6
     t.replay = none ∧ evenReg (4 : BitVec 6) = true ∧ wordIndex a.toNat = 31 ∧ inWindow a = false ∧
       (inImageWindow s t.ctx a.toNat || inQueueImage s t.ctx a.toNat || inStopArea s t.ctx a.toNat) = false ∧
       checkLanes s (issueOf 0 0 t sp (.sst false 5 4 .wt 6)) 4 true [(0, a)] = none ∧ postedLine s 0 [(0, a)] = false ∧
       l2Find s (s.asid t.ctx) (a.toNat / 128) = some line1 ∧ line1.cmp = t.comp ∧ foreignSeal s line1 = false ∧ line1.w = true ∧ line1.dk = true ∧
       poisoned s (s.asid t.ctx) a.toNat = false ∧ line1.data.length = 32 ∧ line1.st.length = 32 ∧
       line1.st.getD (wordIndex a.toNat) (.u 0) = .u 0) :=
  ⟨rfl, by decide +kernel, by decide +kernel, by decide +kernel, by decide +kernel, none_of (by decide +kernel), by decide +kernel,
    by decide +kernel, rfl, by decide +kernel, rfl, rfl, by decide +kernel, by decide +kernel, by decide +kernel, by decide +kernel⟩
/-- Atomics: AADD on one word from the highest lane, and ACAS. -/
theorem test_hyp_atomics :
    (let i := Instr.aadd false 2 4 .wt none
     let x : Split := { sp with mask := 0x80000000 }
     let t : Team := { tmA with splits := [x] }
     let s := devM t
     let c := issueOf 0 0 t x i
     let ls := c.addrs s 4 none
     AtIssue s 0 0 t x ∧ Ready t x (atomicUses etAtomicAdd i 2 none c) ∧ ls.length = 1 ∧ checkLanes s c 4 true ls = none ∧
       postedLine s 0 ls = false ∧
       (serve (atomicLane c .wt .add (fun _ => 1) (fun _ => 0) (.vec 2 1)) s [] (freeOrder s.free ls)).stop = none) ∧
    (let i := Instr.acas false 2 4 .wt none
     let c := issueOf 0 0 tmA sp i
     Ready tmA sp (acasUses i 2 none c)) :=
  ⟨⟨⟨rfl, rfl, rfl⟩, ready_of (by decide +kernel), by decide +kernel, none_of (by decide +kernel), by decide +kernel, none_of (by decide +kernel)⟩,
    ready_of (by decide +kernel)⟩
/-- ReduceOnWrite. -/
theorem test_hyp_reduce_on_write :
    (let i := Instr.redor false 2 4 .wt none
     let c := issueOf 0 0 tmA sp i
     Ready tmA sp (redUses etWide i 2 none c) ∧ checkLanes (devM tmA) c 4 true (c.addrs (devM tmA) 4 none) = none) :=
  ⟨ready_of (by decide +kernel), none_of (by decide +kernel)⟩
/-- Fences: both scopes of waiting. -/
theorem test_hyp_fences : released tmA 0 (scopeRemote .sys) = true ∧ released tmA 0 false = true ∧ Scope.dev ≠ .sys := by decide +kernel
/-- RegionInstructions: a length of zero, one line, and a region that ends at VA 2^57. -/
theorem test_hyp_regions :
    (let t := tmS [(4, 128), (6, 128)]
     let s := devM t
     evenReg (4 : BitVec 6) = true ∧ (s.rs t 8).toNat = 0 ∧
       ((s.rs t 6).toNat ≠ 0 ∧ (s.rpair t 4).toNat + (s.rs t 6).toNat ≤ 2 ^ 57) ∧
       lockHit s t.ctx 128 128 true = false ∧ s.posted.any (fun p => p.tid == 0 && overlaps 128 128 (localVa s p.ctx p.va) 8) = false ∧
       (serve (ownrWord (issueOf 0 0 t sp (.ownr false 6 4))) s []
         (((regionWords 128 128).filter (fun v => !inWindow v)).map (fun v => (0, v)))).stop = none) ∧
    (let t := tmS [(4, 0xFFFFFF80), (5, 0x01FFFFFF), (6, 128)]
     ((dev t).rpair t 4).toNat + ((dev t).rs t 6).toNat = 2 ^ 57) :=
  ⟨⟨by decide +kernel, by decide +kernel, ⟨by decide +kernel, by decide +kernel⟩, by decide +kernel, by decide +kernel, none_of (by decide +kernel)⟩, by decide +kernel⟩
/-- ScratchpadAccess: offset 0x80 of handle 0. -/
theorem test_hyp_scratchpad :
    (let s := devD tmA
     let c := issueOf 0 0 tmA sp
     Ready tmA sp (loadUses (.spld false 2 4 none) 2 none (c (.spld false 2 4 none))) ∧
       checkSpad s (c (.spld false 2 4 none)) 4 false (spadLanes s (c (.spld false 2 4 none)) 4 none) = none ∧
     Ready tmA sp (storeUses (.spst false 2 4 none) 2 none (c (.spst false 2 4 none))) ∧
       checkSpad s (c (.spst false 2 4 none)) 4 true (spadLanes s (c (.spst false 2 4 none)) 4 none) = none ∧
     Ready tmA sp (atomicUses etAtomicAdd (.spaadd false 2 4 none) 2 none (c (.spaadd false 2 4 none))) ∧
       checkSpad s (c (.spaadd false 2 4 none)) 4 true (spadLanes s (c (.spaadd false 2 4 none)) 4 none) = none) :=
  ⟨ready_of (by decide +kernel), none_of (by decide +kernel), ready_of (by decide +kernel), none_of (by decide +kernel), ready_of (by decide +kernel), none_of (by decide +kernel)⟩
/-- Handles: HALLOC of 1 and of 524,288 bytes, with room and without, and the handle of HandleWaits for HFREE and HPASS. -/
theorem test_hyp_handles :
    (let t := tmS [(5, 0x80000), (6, 1), (7, 524288)]
     let s := devD t
     let full : State := { s with droves := [(0, { dr0 with handles := [(1, { buf1 with base := 0, size := Config.scratchpadBytes })] })] }
     s.drove 0 = some dr0 ∧ Ready t sp { sw := [9] } ∧ ((s.rs t 6).toNat = 1 ∧ (s.rs t 7).toNat = 524288) ∧
       (freeHandle dr0 = some 2 ∧ freeRun s 0 1536 = some 3072) ∧ freeRun full 0 1536 = none ∧
       namedHandle s (issueOf 0 0 t sp (.hfree false 5)) (s.rs t 5) = some 1 ∧ copyNamesHandle s 0 1 = false ∧
       released t 0 false = true) :=
  ⟨by decide +kernel, ready_of (by decide +kernel), ⟨by decide +kernel, by decide +kernel⟩, ⟨by decide +kernel, by decide +kernel⟩, by decide +kernel, by decide +kernel, by decide +kernel, by decide +kernel⟩

-- ## engines and the scheduler, as a team sees them

/-- EngineCommands: a block at s8 for every function: source 128, destination 256, 64 bytes; and commands of no bytes. -/
theorem test_hyp_engines :
    (let blk (w12 w13 w14 w15 : Word) : Team := tmS [(8, 128), (10, 256), (12, w12), (13, w13), (14, w14), (15, w15)]
     let ok (t : Team) (i : Instr) (f : CopyFn) : Bool :=
       let s := devD t
       let b := (List.range 8).map (fun k => s.rs t (8 + k))
       let c := issueOf 0 0 t sp i
       released t 0 (copyRemote f b) && blkLegal f b && (blkAligned f b).all (fun v => v % 4 == 0) && (spanTrap s c f b).isNone &&
         engineRoom s 0 .copy (16 * drayOf 0 + drayQueueOf 0 (blkQueue b)) 0 (copyLocks c f b 1).length
     let coll (t : Team) (f : CollFn) : Bool :=
       let s := devD t
       let b := (List.range 8).map (fun k => s.rs t (8 + k))
       let cd := collDesc f b
       released t 0 true && collLegal cd b && (blkPair b 0).toNat % collUnit cd == 0 && (blkPair b 2).toNat % collUnit cd == 0 &&
         ([((blkPair b 0).toNat, sendBytes cd (ctxMembers s 0)), ((blkPair b 2).toNat, recvBytes cd (ctxMembers s 0))].findSome? (vaSpanTrap s 0)).isNone &&
         engineRoom s 0 .coll 0 0 3
     AtIssue (devD (blk 64 0 0 0)) 0 0 (blk 64 0 0 0) sp ∧ Ready (blk 64 0 0 0) sp { sw := [0], regOk := sblkOk 8 } ∧
       ok (blk 64 0 0 0) (.dcopy false 0 8) .copy = true ∧ ok (blk 64 64 64 0x100) (.dcopy2 false 0 8) .copy2 = true ∧
       ok (blk 64 0 0 7) (.dfill false 0 8) .fill = true ∧ ok (blk 65536 512 0 0x100) (.dgath false 0 8) .gath = true ∧
       ok (blk 64 3 0 0) (.dgate false 0 8) .gate = true ∧ ok (blk 0 0 0 0) (.digest false 0 8) .digest = true ∧
       (ok (blk 0 0 0 0) (.dcopy false 0 8) .copy = true ∧ coll (blk 0 0 0 0) .gath = true) ∧
       coll (blk 64 0 0 0) .red = true ∧ coll (blk 64 0 0 0) .gath = true ∧ coll (blk 64 0 0 2) .scat = true ∧
       coll (blk 64 0 0 0) .xch = true) :=
  ⟨⟨rfl, rfl, rfl⟩, ready_of (by decide +kernel), by decide +kernel, by decide +kernel, by decide +kernel, by decide +kernel, by decide +kernel,
    by decide +kernel, ⟨by decide +kernel, by decide +kernel⟩, by decide +kernel, by decide +kernel, by decide +kernel, by decide +kernel⟩
/-- BankCommands: one pass and 8,192 passes; lanes, and none. -/
theorem test_hyp_bank_commands :
    (let t := tmS [(20, 256), (40, 1), (41, 8192)]
     let s := devD t
     let c := issueOf 0 0 t sp (.bkrun false 9 6 40)
     Ready t sp { sw := [9], regOk := evenReg (20 : BitVec 6) } ∧ (s.rpair t 20).toNat % 256 = 0 ∧ released t 0 false = true ∧
       lockRoom s 0 (dieOf 0) 1 = true ∧
       Ready t sp { vr := [6, 7], sw := [9], mode := .guard, regOk := evenReg (6 : BitVec 8) && decide ((40 : BitVec 6).toNat ≤ 55) } ∧
       (field (s.rs t 40).toNat 31 18 = 0 ∧ 0 < field (s.rs t 40).toNat 13 0 ∧ field (s.rs t 41).toNat 13 0 = 8192) ∧
       (rowTrap s c 1024 (pairAddrs s c 6) = none ∧ pairAddrs s c 6 ≠ [] ∧ pairAddrs s { c with x := { sp with mask := 0 } } 6 = []) ∧
       Ready t sp { vr := [6, 7], vw := [4], mode := .guard, regOk := evenReg (6 : BitVec 8) } ∧ rowTrap s c 4 (pairAddrs s c 6) = none) :=
  ⟨ready_of (by decide +kernel), by decide +kernel, by decide +kernel, by decide +kernel, ready_of (by decide +kernel), ⟨by decide +kernel, by decide +kernel, by decide +kernel⟩,
    ⟨none_of (by decide +kernel), by decide +kernel, by decide +kernel⟩, ready_of (by decide +kernel), none_of (by decide +kernel)⟩
/-- MatrixIssue and Rendezvous: a gang of two teams of 1,024 lanes on coaches 0 and 1, of which the other has entered. -/
def tmG : Team :=
  { tmM 0 [] with w := 1024, teams := 2, gang := [0, 1], gangRank := 0, xblk := 7 }
def mmi : Instr := .mm256 false 32 4 6
def devG (latched : Bool) : State :=
  let c := issueOf 0 0 tmG sp mmi
  let s := dev tmG
  let d : Drove := { dr0 with teams := [0, 1] }
  let u : Team := { tmG with teamId := 1, coach := 1, gangRank := 1, latch := if latched then some ⟨captureMM s c .mm256 32 4 6, 0, 0⟩ else none }
  { s with droves := [(0, d)], teams := [(0, tmG), (1, u)] }
theorem test_hyp_matrix : AtIssue (devG false) 0 0 tmG sp ∧
    (let t : Team := { tmG with xblk := 0 }
     Ready t sp { vw := regGroup 16 (shapeAcc .mm128), mode := .mat, regOk := wellFormed (.mm128 false 16 4 6) } ∧ tensorRoom (dev t) 0 = true) ∧
    Ready tmG sp { vw := regGroup 32 (shapeAcc .mm256), mode := .mat, regOk := wellFormed mmi && tmG.gang.length == shapeG .mm256 } ∧
    tmG.w = 1024 ∧ (((devG false).rpair tmG 4).toNat % 32 = 0 ∧ ((devG false).rpair tmG 6).toNat % 32 = 0) ∧ released tmG 0 false = true ∧
    tmG.latch = none ∧ tmG.gang.Nodup ∧ gangTids (devG false) 0 tmG.gang = [0, 1] ∧ ((devG false).team 1).map (fun u => u.latch) = some none ∧
    1 < tmG.gang.length ∧ Ready tmG sp { sw := [20] } ∧ evenReg (8 : BitVec 6) = true :=
  ⟨⟨rfl, rfl, rfl⟩, ⟨ready_of (by decide +kernel), by decide +kernel⟩, ready_of (by decide +kernel), rfl, ⟨by decide +kernel, by decide +kernel⟩, by decide +kernel, rfl, by decide +kernel,
    by decide +kernel, by decide +kernel, by decide +kernel, ready_of (by decide +kernel), by decide +kernel⟩
theorem test_hyp_rendezvous :
    (let s := devG true
     let mm := captureMM s (issueOf 0 0 tmG sp mmi) .mm256 32 4 6
     let s1 := s.setTeam 0 { tmG with latch := some ⟨mm, 0, 0⟩, openMM := 1 }
     let ms := latchMembers s1 0 tmG.gang
     AtIssue s 0 0 tmG sp ∧ ms.length = tmG.gang.length ∧ ms.all (fun g => mmMatches mm g.e.mm) = true ∧
       ms.all (fun g => tensorRoom s1 g.t.coach) = true ∧ (ms.map (·.tid)).Nodup ∧ 0 ∈ ms.map (·.tid)) :=
  ⟨⟨rfl, rfl, rfl⟩, by decide +kernel, by decide +kernel, by decide +kernel, by decide +kernel, by decide +kernel⟩
/-- The shapes of four and eight members. -/
theorem test_hyp_gangs_of_more :
    (let t : Team := { tmG with teams := 8, gang := [0, 1, 2, 3] }
     Ready t sp { vw := regGroup 64 (shapeAcc .mm512), mode := .mat, regOk := wellFormed (.mm512 false 64 4 6) && t.gang.length == shapeG .mm512 }) ∧
    (let t : Team := { tmG with teams := 8, gang := [0, 1, 2, 3, 4, 5, 6, 7] }
     Ready t sp { vw := regGroup 128 (shapeAcc .mm1024), mode := .mat, regOk := wellFormed (.mm1024 false 128 4 6) && t.gang.length == shapeG .mm1024 }) :=
  ⟨ready_of (by decide +kernel), ready_of (by decide +kernel)⟩
/-- PostsItemsSequences: the last entry of the table and the one after it, the largest count, items and none, a live sequence, and
a handle of none. -/
def key1 : KeySlot := ⟨.live, 1, 0, 0, 0, 1, []⟩
def seq1 : Seq := { handle := 0x40041001, slot := 1, base := 65536, units := 1, comp := 0, ended := false }
def ctxS : Context := { Context.blank with spec := { CtxRecord.zero with ncount := 8 }, seqs := [{ seq1 with handle := 0x1001 }] }
theorem test_hyp_posts :
    (let t := tmS [(5, 7), (6, 65535), (10, 65536), (12, 1), (14, 0x1001)]
     let s : State := { devD t with ctxs := [(0, ctxS)], keys := [(1, key1)] }
     AtIssue s 0 0 t sp ∧ released t 0 false = true ∧ ((s.rs t 5).toNat < nodeCount s t.ctx ∧ (s.rs t 6).toNat ≤ 65535) ∧
       (Ready t sp { vr := [7], mode := .guard } ∧ s.drove 0 = some dr0 ∧ dr0.iq = true ∧
         (lanesOf t.w (sp.mask &&& guardMask t sp.mode)).map (fun L => s.rv t 7 L) ≠ [] ∧ roomFor s 0 5 2 32 = true) ∧
       (Ready t sp { sw := [9], regOk := evenReg (10 : BitVec 6) } ∧ (s.rs t 12).toNat ≠ 0 ∧ (s.rs t 12).toNat ≤ 1048576 ∧
         (s.rpair t 10).toNat % 65536 = 0 ∧ (s.rpair t 10).toNat + 65536 * (s.rs t 12).toNat ≤ 2 ^ 56) ∧
       seqNamed s t.ctx t.comp (s.rs t 14) = some { seq1 with handle := 0x1001 } ∧ seqEnding s (s.rs t 14) = false ∧
       nodeCount s t.ctx ≤ (s.rs t 6).toNat ∧ seqNamed s t.ctx t.comp (s.rs t 5) = none ∧
       (lanesOf t.w ((0 : LaneMask) &&& guardMask t sp.mode)).map (fun L => s.rv t 7 L) = []) :=
  ⟨⟨rfl, rfl, rfl⟩, by decide +kernel, ⟨by decide +kernel, by decide +kernel⟩, ⟨ready_of (by decide +kernel), by decide +kernel, rfl, by decide +kernel, by decide +kernel⟩,
    ⟨ready_of (by decide +kernel), by decide +kernel, by decide +kernel, by decide +kernel, by decide +kernel⟩, by decide +kernel, by decide +kernel, by decide +kernel, none_of (by decide +kernel),
    by decide +kernel⟩

-- ## saving, restoring, jump tables

/-- A large page of context 0 at VA 0 in some stacks: level 4 and level 3 entries, and a leaf of level 2 with key slot
1, present and writable, bank-linear or not (R169, R170). -/
def leafOf (linear : Bool) : Nat := 3 + 2 ^ 40 + 2 ^ 45 + (if linear then 2 ^ 42 else 0)
def tables (sts : List Nat) (leaf : Nat) : List (Nat × Byte) :=
  sts.foldl (fun m st =>
    writeBytes (writeBytes (writeBytes m (privKey st 0) 8 0x11) (privKey st 0x1000) 8 0x21) (privKey st 0x2000) 8 leaf) []
def part0 : Partition :=
  { owned := [0, 1, 2], borrowed := [], borrowLimit := 2, slices := [0, 1], ports := [0, 1], member := 0, members := 1,
    schedule := [(0, 100)], epoch := 0, until_ := none, routes := [], armed := none }
/-- The device with these tables, one partition and key slot 1. -/
def devT (sts : List Nat) (linear : Bool) (t : Team) : State :=
  { devD t with mem := tables sts (leafOf linear), parts := [(0, part0)], keys := [(1, key1)],
                slices := [(0, .assigned 0), (1, .assigned 0)],
                ctxs := [(0, { ctxS with spec := { ctxS.spec with ncount := 8, rimg := 0x200000, nodetab := 0x10000 }, nc := 1, slots := [1] })] }
/-- SaveAndRestore, RFLUSH: the image at 2 MiB, its state block in stack 3. -/
theorem test_hyp_rflush : tm.pending.all (fun p => p.dest == .ack) = true ∧ (match writeImage (devT [3] false tm) 0 with | .ok _ => true | .error _ => false) = true :=
  ⟨rfl, by decide +kernel⟩

/-- A group of two members, and a base in the window of the other (R158). -/
def tmW : Team := tmS [(4, 128), (5, 0x01000400)]
def devW : State := { devD tmW with parts := [(0, { part0 with members := 2 })], ctxs := [(0, ctxS)] }
/-- SaveAndRestore, HSAVE into another member's window. -/
theorem test_hyp_hsave :
    (let s := devW
     let c := issueOf 0 0 tmW sp (.hsave false 4 .wt)
     let ws := hsaveImage tmW 0
     let us := unitAddrs (s.rpair tmW 4) (ws.length / 4)
     AtIssue s 0 0 tmW sp ∧ evenReg (4 : BitVec 6) = true ∧ (s.rpair tmW 4).toNat % 128 = 0 ∧ tmW.pending.all (fun p => p.dest == .ack) = true ∧
       sistersSettled s 0 tmW 0 = true ∧ tmW.replay = none ∧ unitsTrap s c (s.rpair tmW 4) (ws.length / 4) true = none ∧
       postedLine s 0 us = false ∧ (serve (store4Lane c .wt (fun k j => ws.getD (4 * k + j) 0)) s [] us).stop = none) :=
  ⟨⟨rfl, rfl, rfl⟩, by decide +kernel, by decide +kernel, rfl, by decide +kernel, rfl, none_of (by decide +kernel), by decide +kernel, none_of (by decide +kernel)⟩
/-- Words that are all at hand are read without effect. -/
theorem serve_at_hand (c : Issue) (pol : Pol) (s : State) (f : Nat × DWord → Word) : ∀ (ls : List (Nat × DWord)) (vs : List (Nat × List Word)),
    (∀ l, l ∈ ls → Store.find c.t.remoteWords l.2.toNat = some (f l)) →
    serve (fun s L va => needWord c pol s L va) s vs ls = ⟨s, vs ++ ls.map (fun l => (l.1, [f l])), none, []⟩
  | [], vs, _ => by simp [serve]
  | (L, va) :: r, vs, h => by
    have h0 : needWord c pol s L va = .ok (s, some [f (L, va)]) := by
      have := h (L, va) (by simp)
      simp [needWord, this]
    simp only [serve, h0]
    rw [serve_at_hand c pol s f r _ (fun l hl => h l (by simp [hl]))]
    simp
/-- Finding a word in a run of words that lie 4 bytes apart. -/
theorem find_run (f : Nat → Word) (b : Nat) : ∀ n a k, a ≤ k → k < a + n →
    Store.find ((List.range' a n).map (fun j => (b + 4 * j, f j))) (b + 4 * k) = some (f k)
  | 0, a, k, h, h' => by omega
  | n + 1, a, k, h, h' => by
    rcases Nat.eq_or_lt_of_le h with rfl | hlt
    · simp [List.range'_succ, Store.find]
    · have hne : ¬ (b + 4 * a = b + 4 * k) := by omega
      simp only [List.range'_succ, List.map_cons, Store.find, hne, if_false]
      exact find_run f b n (a + 1) k hlt (by omega)
/-- An image of one split, no gang, lane 0 to 31, with its words from another member's window at hand: words 304 and 306 are the
counts of splits and lanes. -/
def winBase : Nat := 0x0100040000000080
def imgWord (k : Nat) : Word :=
  if k = 302 ∨ k = 303 ∨ k = 521 then 0xFFFFFFFF else if k = 304 ∨ k = 520 then 1 else if k = 306 then 32 else 0
def tmR : Team := { tmW with remoteWords := (List.range 672).map (fun k => (winBase + 4 * k, imgWord k)) }
def devR : State := { devW with teams := [(0, tmR)] }
def hloadC : Issue := issueOf 0 0 tmR sp (.hload false 4 .wt)
theorem remote_run : tmR.remoteWords = (List.range 672).map (fun k => (winBase + 4 * k, imgWord k)) := by
  unfold tmR; with_reducible rfl
theorem at_hand (k : Nat) (hk : k < 672) :
    Store.find tmR.remoteWords ((0x0100040000000080 : DWord) + BitVec.ofNat 64 (4 * k)).toNat = some (imgWord k) := by
  have h0 : (0x0100040000000080 : DWord).toNat = winBase := rfl
  have h1 : winBase < 2 ^ 57 := by decide
  have hv : ((0x0100040000000080 : DWord) + BitVec.ofNat 64 (4 * k)).toNat = winBase + 4 * k := by
    rw [BitVec.toNat_add, h0, BitVec.toNat_ofNat]; omega
  rw [hv, remote_run, List.range_eq_range']
  exact find_run imgWord winBase 672 0 k (Nat.zero_le k) (by omega)
theorem read_at_hand (n : Nat) (hn : n ≤ 168) : (readUnits hloadC .wt devR 0x0100040000000080 n).stop = none ∧
    (readUnits hloadC .wt devR 0x0100040000000080 n).vals.map (fun v => v.2.getD 0 0) = (List.range (4 * n)).map imgWord := by
  have h := serve_at_hand hloadC .wt devR (fun l => imgWord l.1)
    ((List.range (4 * n)).map (fun k => (k, (0x0100040000000080 : DWord) + BitVec.ofNat 64 (4 * k)))) [] (fun l hl => by
      obtain ⟨k, hk, rfl⟩ := List.mem_map.mp hl
      exact at_hand k (by have := List.mem_range.mp hk; omega))
  unfold readUnits
  rw [h]
  refine ⟨rfl, ?_⟩
  simp [List.map_map, Function.comp_def]
theorem none_missing (n : Nat) (hn : n ≤ 672) :
    missingWords devR hloadC ((List.range n).map (fun k => (0x0100040000000080 : DWord) + BitVec.ofNat 64 (4 * k))) = [] := by
  refine List.filter_eq_nil_iff.mpr fun v hv => ?_
  obtain ⟨k, hk, rfl⟩ := List.mem_map.mp hv
  have := at_hand k (by have := List.mem_range.mp hk; omega)
  have h2 : Store.find hloadC.t.remoteWords ((0x0100040000000080 : DWord) + BitVec.ofNat 64 (4 * k)).toNat = some (imgWord k) := this
  rw [h2]; simp
/-- SaveAndRestore, HLOAD. -/
theorem test_hyp_hload :
    AtIssue devR 0 0 tmR sp ∧ sp.phase ≠ .handler ∧ tmR.splits.length = 1 ∧ devR.posted.any (fun p => p.tid == 0) = false ∧ tmR.tags.any (fun o => !o.done) = false ∧
       tmR.pending = [] ∧ tmR.latch = none ∧ tmR.openMM = 0 ∧ tmR.batches.any (fun b => b.left != 0) = false ∧ devR.rpair tmR 4 = 0x0100040000000080 ∧
       unitsTrap devR hloadC 0x0100040000000080 128 false = none ∧ unitsTrap devR hloadC 0x0100040000000080 168 false = none ∧
       imgWord 304 = 1 ∧ (hloadTeam tmR ((List.range 672).map imgWord)).isSome = true :=
  ⟨⟨rfl, rfl, rfl⟩, by decide +kernel, rfl, rfl, rfl, rfl, rfl, rfl, rfl, by decide +kernel, none_of (by decide +kernel), none_of (by decide +kernel),
    by decide +kernel, by decide +kernel⟩
/-- JumpTable: the table at 128 holds 8 everywhere; every lane names entry 0, lane 5 another one, and lane 5 one outside. -/
theorem test_hyp_jump_table :
    (let t (n : Word) (l : List (Nat × Word)) : Team := { tmS [(4, n), (6, 128)] with vregs := l }
     let s (n : Word) (l : List (Nat × Word)) : State := { devM (t n l) with l2 := [{ line1 with data := List.replicate 32 8 }] }
     let entry (n : Word) (l : List (Nat × Word)) (L : Nat) : Nat := ((s n l).rv (t n l) 3 L).toNat
     let lanes := lanesOf 32 sp.mask
     let ok (n : Word) (l : List (Nat × Word)) (k : Nat) : Bool :=
       let c := issueOf 0 0 (t n l) sp (.jtab false 4 3 6)
       let es := distinctSorted (lanes.map (entry n l))
       let firsts := keepFirst (lanes.map (fun L => (L, entry n l L)))
       let ls := firsts.map (fun e => (e.1, (128 : DWord) + BitVec.ofNat 64 (4 * e.2)))
       let sv := serve (needWord c .si) (s n l) [] ls
       es.length == k && lanes.all (fun L => decide (entry n l L < n.toNat)) && (checkLanes (s n l) c 4 false ls).isNone &&
         (missingWords (s n l) c (ls.map (·.2))).isEmpty && !postedLine (s n l) 0 ls && sv.stop.isNone &&
         (let got : List (Nat × Word) := (firsts.map (·.2)).zip (sv.vals.map (fun v => v.2.getD 0 0))
          es.all (fun e => (((got.find? (fun r : Nat × Word => r.1 == e)).map Prod.snd).getD 0).extractLsb' 0 2 == 0))
     AtIssue (s 1 []) 0 0 (t 1 []) sp ∧ Ready (t 1 []) sp { vr := [3], regOk := evenReg (6 : BitVec 6) } ∧ lanes ≠ [] ∧
       (s 1 []).rpair (t 1 []) 6 = 128 ∧ ok 1 [] 1 = true ∧ ok 2 [(1024 * 3 + 5, 1)] 2 = true ∧ sp.phase = .run ∧
       (∀ k, (t 2 []).split ((t 2 []).nextUid + k) = none) ∧
       lanes.find? (fun L => decide (1 ≤ entry 1 [(1024 * 3 + 5, 1)] L)) = some 5) :=
  ⟨⟨rfl, rfl, rfl⟩, ready_of (by decide +kernel), by decide +kernel, by decide +kernel, by decide +kernel, by decide +kernel, rfl,
    fun k => by simp [Team.split, tmS, tm, Split.fresh]; omega, by decide +kernel⟩

-- ## the PRIV family and the bank units

/-- A system team with a VA of 0 in s8, s9 and an operand word in s10. -/
def tmP (w : Word) : Team := { tmS [(10, w)] with sys := true }
/-- The same leaf in some stacks, MIGRATING or not. -/
def devQ (sts : List Nat) (mig : Bool) (w : Word) : State :=
  { devT [] false (tmP w) with mem := tables sts (leafOf false + (if mig then 2 ^ 63 else 0)) }
/-- PageMigration: no copy, sixteen copies, sixteen that migrate, one that migrates; both kinds of TLBINV, with and
without DROP, for a context that exists and one that does not. -/
theorem test_hyp_page_migration : AtIssue (devQ [] false 0) 0 0 (tmP 0) sp ∧
    Ready (tmP 0) sp { sw := [20], regOk := evenReg (8 : BitVec 6) && decide ((8 : BitVec 6).toNat ≤ 60) } ∧ ((tmP 0).s 10).toNat = 0 ∧
    pageCopies (devQ [] false 0) 0 0 = [] ∧
    (let c := pageCopies (devQ (List.range 16) false 0) 0 0
     c.length = 16 ∧ c.any (fun y => pteMig y.2.2.2) = false) ∧
    (let c := pageCopies (devQ (List.range 16) true 0) 0 0
     c.length = 16 ∧ c.any (fun y => pteMig y.2.2.2) = true ∧ (c.map (fun y => (y.2.1, withoutAcD y.2.2.2))).eraseDups.length = 1) ∧
    (let c := pageCopies (devQ [3] true 0) 0 0
     c.length = 1 ∧ c.any (fun y => pteMig y.2.2.2) = true) ∧
    (tlbinvLegal 0 = true ∧ tlbinvLegal 0x100 = true ∧ tlbinvLegal 0x1000 = true ∧ tlbinvLegal 1 = true ∧ tlbinvLegal 0x101 = true) ∧
    ((devQ [] false 0).ctx 0).isSome = true ∧ ((devQ [] false 1).ctx 1).isSome = false ∧
    (let d (b : Bool) : State := { devQ [] false 0x1000 with l2 := [{ line1 with dirty := b }] }
     let held (s : State) : Bool := s.l2.any (fun l => l.asid == 0 && rangesMeet (l.line * 128) 128 0 65536 && (l.dirty || l.st.any isOwned)) ||
       s.l1.any (fun l => l.asid == 0 && rangesMeet (l.line * 128) 128 0 65536 && l.words.any isReg)
     held (d true) = true ∧ held (d false) = false) :=
  ⟨⟨rfl, rfl, rfl⟩, ready_of (by decide +kernel), by decide +kernel, by decide +kernel, by decide +kernel, by decide +kernel, by decide +kernel,
    by decide +kernel, by decide +kernel, by decide +kernel, by decide +kernel, by decide +kernel⟩

/-- KeysSwitchesScrubs: the forms of KEYOP on a slot in each state. -/
theorem test_hyp_keyop :
    (let t (op k : Nat) : Team := tmP (BitVec.ofNat 32 (op + 65536 * k))
     let dev (st : SlotState) (sweep : List Nat) : State := { devT [] false (t 0 1) with keys := [(1, { key1 with st := st, sweep := sweep })] }
     AtIssue (dev .live []) 0 0 (t 0 1) sp ∧ Ready (t 0 1) sp { sw := [20], regOk := decide ((10 : BitVec 6).toNat ≤ 62) } ∧
       (∀ op, op < 5 → field ((t op 1).s 10).toNat 3 0 = op ∧ field ((t op 1).s 10).toNat 15 4 = 0 ∧ field ((t op 1).s 10).toNat 31 28 = 0 ∧
          field ((t op 1).s 10).toNat 27 16 = 1) ∧ (t 0 1).s 11 = 0 ∧
       freeSlot (dev .live []) = some 2 ∧ ((dev .live []).key 1).st = .live ∧ ((dev .rotating []).key 1).st = .rotating ∧
       ((dev .ended []).key 1).st = .ended ∧ ((dev .free []).key 1).st = .free ∧
       (sweepBusy (dev .live [3]) = true ∧ sweepBusy (dev .live []) = false) ∧ (dev .live []).moving = [] ∧
       (scrubBusy (dev .live []) = false ∧ scrubBusy { dev .live [] with slices := [(3, .scrubbing 0)] } = true) ∧ slotMapped (dev .ended []) 1 = false) ∧
    slotMapped (devT [3] false (tmP 0)) 1 = true :=
  ⟨⟨⟨rfl, rfl, rfl⟩, ready_of (by decide +kernel), by decide +kernel, by decide +kernel, by decide +kernel, rfl, rfl, rfl, rfl,
    ⟨by decide +kernel, by decide +kernel⟩, rfl, ⟨by decide +kernel, by decide +kernel⟩, by decide +kernel⟩, by decide +kernel⟩
/-- No slot is FREE when every slot is LIVE. -/
theorem test_hyp_no_free_slot : ∃ s : State, freeSlot s = none := by
  refine ⟨{ State.reset with keys := (List.range' 0 4096).map (fun k => (k, key1)) }, List.find?_eq_none.mpr fun k hk => ?_⟩
  have hlt : k < 4096 := List.mem_range.mp (List.mem_of_mem_drop hk)
  have hf : ∀ n a k, a ≤ k → k < a + n → Store.find ((List.range' a n).map (fun k => (k, key1))) k = some key1 := by
    intro n
    induction n with
    | zero => intro a k h h'; omega
    | succ n ih =>
      intro a k h h'
      simp only [List.range'_succ, List.map_cons, Store.find]
      split
      · rfl
      · exact ih (a + 1) k (by omega) (by omega)
  have hk' := hf 4096 0 k (Nat.zero_le k) (by omega)
  simp only [State.key, hk']
  decide
/-- SCRUB of a slice that is assigned, that drains with and without a page, and a poll. -/
theorem test_hyp_scrub :
    (let dev (sts : List Nat) (x : SliceState) : State := { devT sts false (tmP 0) with slices := [(0, x)] }
     Ready (tmP 0) sp { sw := [20] } ∧ field (0 : Word).toNat 30 4 = 0 ∧ (0 : Word).getLsbD 31 = false ∧
       field (0x80000000 : Word).toNat 30 4 = 0 ∧ (0x80000000 : Word).getLsbD 31 = true ∧
       (dev [] (.assigned 0)).slice 0 = .assigned 0 ∧ (dev [] (.draining 0)).slice 0 = .draining 0 ∧
       sliceMapped (dev [] (.draining 0)) 0 = false ∧ sliceMapped (dev [3] (.draining 0)) 0 = true) :=
  ⟨ready_of (by decide +kernel), by decide +kernel, by decide +kernel, by decide +kernel, by decide +kernel, rfl, rfl, by decide +kernel, by decide +kernel⟩
/-- CTXSW at 20,000 cycles from now, and one cycle too early; a context of the partition and another; with a switch
armed for the future and one whose time has come; alone and with another member. -/
theorem test_hyp_ctxsw :
    (let t (hi lo : Word) (w : Word) : Team := { tmS [(8, lo), (9, hi), (10, w)] with sys := true }
     let sw (time : Nat) : ArmedSwitch := ⟨0, time, [], none, 0⟩
     let dev (t : Team) (n : Nat) (a : Option ArmedSwitch) : State :=
       { devT [] false t with parts := [(0, { part0 with members := n, armed := a })] }
     let s := dev (t 0 20000 0) 1 none
     AtIssue s 0 0 (t 0 20000 0) sp ∧ Ready (t 0 20000 0) sp { sw := [20], regOk := evenReg (8 : BitVec 6) && decide ((8 : BitVec 6).toNat ≤ 60) } ∧
       ((s.rpair (t 0 20000 0) 8).toNat = s.clk.gtime.toNat + 20000 ∧ (s.rpair (t 0 19999 0) 8).toNat < s.clk.gtime.toNat + 20000) ∧
       (s.part 0).map (fun p => p.armed) = some none ∧ inPartition s 0 0 = true ∧ inPartition s 1 0 = false ∧
       (((List.range 1).filter (· != 0)) = [] ∧ ((List.range 2).filter (· != 0)) ≠ []) ∧
       (let x := dev (t 0 20000 0x80000000) 1 (some (sw 1))
        ((x.part 0).bind (fun p => p.armed)) = some (sw 1) ∧ x.clk.gtime.toNat < 1) ∧
       (let x := dev (t 0 20000 0x80000000) 1 (some (sw 0))
        ((x.part 0).bind (fun p => p.armed)) = some (sw 0) ∧ 0 ≤ x.clk.gtime.toNat)) :=
  ⟨⟨rfl, rfl, rfl⟩, ready_of (by decide +kernel), by decide +kernel, rfl, by decide +kernel, by decide +kernel, by decide +kernel,
    ⟨rfl, by decide +kernel⟩, ⟨rfl, by decide +kernel⟩⟩

/-- A run of context 0 on the rows from VA 0, outside the windows of the hardware, and bank unit 0 in the middle of it. -/
def run0 (n : Word) : BankRun := ⟨0, 0, 0, 0, 1, 0, n, [0x0007, 0x7C07, 0, 0, 0, 0, 0, 0], 0, 0, []⟩
def exec0 (n : Word) : BankExec := ⟨run0 n, 0, 0, none, none, none, 0, false, false⟩
def unit0 (ms : List (BitVec 256)) (m : Word) (n : Word) : BankUnit :=
  { BankUnit.empty with k := (run0 n).k, mode := m, mstack := ms, exec := some (exec0 n) }
def devU (b : BankUnit) : State :=
  { devT [0] true tm with
    cur := .bank 0, banks := [(0, b)]
    ctxs := [(0, { ctxS with spec := { ctxS.spec with ncount := 8, rimg := 0x200000, qsave := 0x1000000, stoparea := 0x2000000 }, nc := 1, slots := [1] })] }
/-- What an activation at unit 0 comes to: the state and the execution, or the cause. -/
def opened (s : State) (e : BankExec) (off : Int) (write : Bool) : Option OpenRow :=
  match activateRow s 0 e off write with | .ok _ e' => e'.row | .stop _ _ _ _ => none
def exec1 (s : State) (written : Bool) : BankExec :=
  { exec0 1 with row := (opened s (exec0 1) 0 true).map (fun r => { r with written := written }) }
/-- BankKernel: legal and illegal BSMAC parameters, stacks of 0, 3 and 4 masks; a row to open, the open one again, another
one, and one that has no page; the parts of a long word; a type for a shift and one that shifts refuse, jumps to both ends of
the kernel, and its last word. -/
theorem test_hyp_bank_kernel :
    (let s := devU (unit0 [] 0 1)
     s.cur = .bank 0 ∧ (s.bank 0).exec = some (exec0 1) ∧ bsmacLegal ((s.bank 0).k.getD 0 0) = true ∧ bsmacLegal ((s.bank 0).k.getD 1 0) = false ∧
       (getQ (s.bank 0) (1 : BitVec 2)).length = 256 ∧ (s.bank 0).mstack = [] ∧
       ((devU (unit0 [1, 1, 1] 0 1)).bank 0).mstack.length < 4 ∧ 4 ≤ ((devU (unit0 [1, 1, 1, 1] 0 1)).bank 0).mstack.length ∧
       ((exec0 1).prog = 0 ∧ (opened s (exec0 1) 0 false).map (·.off) = some 0 ∧ (opened s (exec0 1) 0 true).map (·.off) = some 0 ∧
         (exec1 s false).row.map (·.off) = some 0 ∧ (opened s (exec1 s false) 0 true).map (·.off) = some 0 ∧
         (let two : State := { s with mem := tables [0, 8] (leafOf true) }
          (opened two (exec1 s false) 1 false).map (·.off) = some 1) ∧ opened { s with mem := [] } (exec0 1) 0 false = none) ∧
       (({ exec1 s false with prog := 16 } : BankExec).prog < 32 ∧ 32 ≤ ({ exec1 s false with prog := 32 } : BankExec).prog ∧
         inImageWindow s 0 (openVa (exec1 s false)).toNat = false ∧ writesWindow s 0 (openVa (exec1 s false)).toNat (.write 0) = false) ∧
       ((exec0 1).upc < 63 ∧ 63 ≤ ({ exec0 1 with upc := 63 } : BankExec).upc) ∧
       bankTypeOk .shl .i32 = true ∧ bankTypeOk .shl .f32 = false ∧
       (0 ≤ ((exec0 1).upc : Int) + (0 : BitVec 24).toInt ∧ ((exec0 1).upc : Int) + (63 : BitVec 24).toInt ≤ 63)) :=
  ⟨rfl, rfl, by decide +kernel, by decide +kernel, by decide +kernel, rfl, by decide +kernel, by decide +kernel,
    ⟨rfl, by decide +kernel, by decide +kernel, by decide +kernel, by decide +kernel, by decide +kernel, none_of (by decide +kernel)⟩,
    ⟨by decide +kernel, by decide +kernel, by decide +kernel, by decide +kernel⟩, ⟨by decide +kernel, by decide +kernel⟩,
    by decide +kernel, by decide +kernel, by decide +kernel, by decide +kernel⟩
/-- BankKernel, after BKEND: a row to precharge, of a last pass and of one before, written with the key alive and with the key
gone; and the end of the last pass. -/
theorem test_hyp_bank_end :
    (let s0 := devU (unit0 [] 0 1)
     let e (n : Word) (w : Bool) : BankExec := { exec1 s0 w with run := run0 n, ending := true }
     let s (n : Word) (w : Bool) : State := devU { unit0 [] 0 n with exec := some (e n w) }
     let done : State := devU { unit0 [] 0 1 with exec := some { e 1 true with row := none } }
     ctxActive (s 1 true) 0 = true ∧ ((s 1 true).bank 0).busy ≤ bankCycle (s 1 true) ∧ (e 1 true).opening = none ∧
       rowBoundary 0 (s 1 true) = none ∧ rowBoundary 0 (s 2 true) = none ∧
       (e 1 true).row.map (fun r => (r.written, rowKeyLive (s 1 true) r, rowKeyLive { s 1 true with keys := [] } r)) = some (true, true, false) ∧
       rowBoundary 0 { s 1 true with keys := [] } = none ∧
       ¬(e 1 true).pass + 1 < field (run0 1).ctl.toNat 13 0 ∧ (e 2 true).pass + 1 < field (run0 2).ctl.toNat 13 0 ∧
       ((done.bank 0).exec.map (fun x => (x.ending, x.row.isNone, x.opening.isNone))) = some (true, true, true)) :=
  ⟨by decide +kernel, by decide +kernel, rfl, none_of (by decide +kernel), none_of (by decide +kernel), by decide +kernel,
    none_of (by decide +kernel), by decide +kernel, by decide +kernel, by decide +kernel⟩
/-- BankEvents: a run on its way to unit 0; an image at the head of its queue; a run to admit; an idle bank with a refresh due,
with a lane to read, and with a request that finds it free and one that does not; a kernel that has reached a boundary, with a
request for its open row that came before, and one that has not; refresh at the start and exactly 1,950 cycles after the last. -/
theorem test_hyp_bank_events :
    (let s : State := { devU BankUnit.empty with cur := .idle, bankFlight := [.run (run0 1)] }
     firstOfTeam [] s.bankFlight = [.run (run0 1)] ∧ ctxActive s 0 = true ∧
       (match bankTrans s 0 0 0 false with | .ok (_, tr) => unitOf tr == 0 | .error _ => false) = true ∧ nmuWaiting s 0 0 < 256) ∧
    (let b : BankUnit := { BankUnit.empty with queue := [.image 0 1 2 [7]] }
     let s := devU b
     (0 : Nat) ≠ 131072 ∧ b.exec = none ∧ headItem s b = some (.image 0 1 2 [7])) ∧
    (let s := devU { BankUnit.empty with queue := [.run (run0 1)] }
     toRestore s 0 = none ∧ admitChoice s (unitChannel 0) = some (0, run0 1)) ∧
    (let q : OrdReq := ⟨1, 0, false, 0⟩
     let at_ (n : DWord) (b : BankUnit) : State := { devU b with clk := { State.reset.clk with gtime := n } }
     let rd : BankItem := .read 0 0 0 9 3 1 0 0
     (let b (f : Bool) (n : Nat) : BankUnit := { BankUnit.empty with reqs := [q], refresh := f, busy := n }
      (b true 0).exec = none ∧ (b true 0).refresh = true ∧ (b false 0).refresh = false ∧
        bankAsks (at_ 2 (b false 0)) { BankUnit.empty with queue := [rd] } = [.read rd 0] ∧
        bankAsks (at_ 2 (b false 0)) (b false 0) = [.req q] ∧ max (b false 0).busy q.at_ ≤ bankCycle (at_ 2 (b false 0)) ∧
        bankCycle (at_ 2 (b false 9)) < max (b false 9).busy q.at_) ∧
     (let s0 := devU (unit0 [] 0 1)
      let e : BankExec := { exec1 s0 false with advanced := true }
      let b : BankUnit := { unit0 [] 0 1 with exec := some e, reqs := [q], busy := 1 }
      e.stalled = none ∧ b.busy ≤ bankCycle (at_ 20 b) ∧ bankCycle (at_ 0 b) < b.busy ∧ runOver e = false ∧ b.refresh = false ∧
        ((bankAsks (at_ 20 b) b).filter (fun a => decide (a.since < b.busy))).take 4 = [q].map .req ∧ openRowNumber e = some q.row)) ∧
    (let s : State := { devU { BankUnit.empty with lastRefresh := 50 } with clk := { State.reset.clk with gtime := 4000 } }
     BankUnit.empty.lastRefresh = 0 ∧ (s.bank 0).lastRefresh + 1950 ≤ bankCycle s) :=
  ⟨⟨rfl, by decide +kernel, by decide +kernel, by decide +kernel⟩, ⟨by decide +kernel, rfl, by decide +kernel⟩,
    ⟨none_of (by decide +kernel), by decide +kernel⟩,
    ⟨⟨rfl, rfl, rfl, by decide +kernel, by decide +kernel, by decide +kernel, by decide +kernel⟩,
      rfl, by decide +kernel, by decide +kernel, by decide +kernel, rfl, by decide +kernel, by decide +kernel⟩, rfl, by decide +kernel⟩

-- ## events: the host, firmware and management

/-- A device whose boot has come to a state, with the host's link up. -/
def devBt (st : BootState) : State :=
  { State.reset with boot := { Boot.reset with powered := true, st := st, certified := true }, host := { HostSide.reset with linkUp := true } }
/-- BootAndHost: every boot state; no byte and all of the window's last bytes; windows of 8 bytes and of 4. -/
theorem test_hyp_boot : ((devBt .romWait).host.linkUp = true ∧ (devBt .romWait).boot.powered = true ∧ (devBt .romWait).boot.st = .romWait) ∧
    (2 ^ 28 - 2 + ([1, 2] : List Byte).length ≤ 2 ^ 28) ∧ (devBt .failed).boot.st = .failed ∧ (devBt .verify).boot.st = .verify ∧
    verifyError (devBt .verify) = 1 ∧ (devBt .derive_).boot.st = .derive_ ∧ ([1, 0, 0, 0, 0, 0, 0, 0] : List Byte).length = 8 :=
  ⟨⟨rfl, rfl, rfl⟩, by decide, rfl, rfl, by decide +kernel, rfl, rfl⟩
/-- SecureMessages: a responder before and after each negotiation, the last leaf and none left, no session free, a
session in each state, and a TDI in each state. -/
theorem test_hyp_secure :
    (let h (f : HostSide → HostSide) : State := { devBt .ready with host := f (devBt .ready).host }
     let lv (n : Nat) (c : Bool) : State := { h (fun x => { x with spdmAlgs := true }) with boot := { (devBt .ready).boot with leaves := n, certified := c } }
     let ss (e : Bool) (td : TdiState) : State :=
       { h (fun x => { x with spdmAlgs := true, sessions := [⟨0, e, 0⟩], tdi := [(0, td)] }) with parts := [(0, part0)] }
     let full := h (fun x => { x with spdmAlgs := true, sessions := [⟨0, true, 0⟩, ⟨1, true, 0⟩, ⟨2, true, 0⟩, ⟨3, true, 0⟩] })
     (devBt .ready).host.linkUp = true ∧ (devBt .ready).boot.st = .ready ∧ (h (fun x => { x with spdmVersion := true })).host.spdmVersion = true ∧
       (h (fun x => { x with spdmCaps := true })).host.spdmCaps = true ∧ (lv 0 true).host.spdmAlgs = true ∧
       ((lv 32767 true).boot.leaves < 32768 ∧ freeSession (lv 32767 true) = some 0) ∧ 32768 ≤ (lv 32768 true).boot.leaves ∧
       (lv 0 false).boot.certified = false ∧ freeSession full = none ∧ hasSession (ss false .run) 0 false = true ∧ hasSession (ss true .run) 0 true = true ∧
       (ss true .run).host.sessions.any (·.established) = true ∧ ((ss true .unlocked).part 0).isSome = true ∧
       tdiOf (ss true .unlocked) 0 = .unlocked ∧ tdiOf (ss true .locked) 0 = .locked ∧ tdiOf (ss true .run) 0 = .run) :=
  ⟨rfl, rfl, rfl, rfl, rfl, ⟨by decide +kernel, by decide +kernel⟩, by decide +kernel, rfl, by decide +kernel, by decide +kernel,
    by decide +kernel, by decide +kernel, by decide +kernel, by decide +kernel, by decide +kernel, by decide +kernel⟩
/-- ManagementAndClocks: the last slice and the last port; the caps and clocks at both ends of their ranges; ten
milliseconds without a flit; a second of good time; an advisory that is due. -/
theorem test_hyp_management :
    (let ck (f : Clocks → Clocks) : State := { devD tm with clk := f Clocks.reset, parts := [(0, { part0 with members := 2 })] }
     advUnitOk .slice 15 = true ∧ advUnitOk .port 17 = true ∧ advUnitOk .lpddr 0 = true ∧ advUnitOk .cxl 0 = true ∧ advUnitOk .hostLink 0 = true ∧
       (ck (fun c => { c with mhz := 1850 })).clk.mhz + 50 ≤ 1900 ∧ (100 ≤ (ck id).clk.mhz ∧ (ck id).clk.mhz ≤ 1900) ∧
       (ck id).clk.stopped = false ∧ ((ck id).ctx 0).map (fun x => x.halt) = some none ∧
       (let s := ck (fun c => { c with gtime := 10000000 })
        s.clk.tsyncLost = false ∧ s.clk.lastSync.toNat + 10000000 ≤ s.clk.gtime.toNat ∧ (s.part 0).map (fun p => decide (1 < p.members)) = some true) ∧
       (let s := ck (fun c => { c with tsyncLost := true, gtime := 1000000000, lastSync := 1000000000 })
        s.clk.tsyncLost = true ∧ timeQuiet s = false ∧ timeOff s = false ∧ s.clk.goodSince.toNat + 1000000000 ≤ s.clk.gtime.toNat) ∧
       (17 ∉ State.reset.portsDown) ∧
       (let s : State := { devT [] false tm with mgmt := { Mgmt.reset with crossed := [(0, 1)] } }
        s.mgmt.crossed.contains (advCode .slice, 1) = true ∧ tm.sys = false ∧ (s.ctx 0).isSome = true ∧ advises s .slice 1 0 = true ∧
          tm.events.getLsbD 0 = false)) :=
  ⟨by decide +kernel, by decide +kernel, by decide +kernel, by decide +kernel, by decide +kernel, by decide +kernel, by decide +kernel, rfl, rfl,
    by decide +kernel, by decide +kernel, by decide +kernel, by decide +kernel⟩

-- ## events: halts and errors

def halt0 : HaltCause := ⟨0, .gate, 2, 0, 0, 0⟩
def haltRec0 : HaltRec := { h := halt0, time := 0, finished := false, unwritten := false, team := none, lost := [], cycle := 0, bank := none }
def devC (f : Context → Context) : State := { devT [] false tm with ctxs := [(0, f { ctxS with
    spec := { ctxS.spec with ncount := 8, nodetab := 0x10000, rimg := 0x200000, qsave := 0x1000000, stoparea := 0x2000000 } })] }
/-- HaltsAndErrors: a context that runs and one that has halted; a port of the partition and another; a watchdog on the cycle
it expires, and one whose droves have retired; a remote request one nanosecond short of its time and at it, and one that is
dead; a clean, a dirty and a registered line; a frame in use whose image has other words, and frames kept; the last coach; a dirty
page of the CXL tier; a halt to finish whose stop area the memory manager has given up. -/
theorem test_hyp_halts :
    (let rec_ : NodeRec := { recordOf [] with wdog := 2, droves := 1 }
     let wn (n : Nat) : State := { devC (fun c => { c with nodes := [(3, { Node.idle with st := .active, recd := some rec_, placed := 1, retired := n })] }) with
       clk := { Clocks.reset with cycle := 8192 } }
     let wd := wn 0
     let rm (g : DWord) : State := { devD tm with remote := [⟨5, 0, 0, 1, 64, 0, false⟩], clk := { Clocks.reset with gtime := g } }
     let ln (l : L2Line) : State := { devD tm with l2 := [l] }
     halt0.ctx < 16 ∧ ((devC id).ctx 0).map (fun c => c.halt) = some none ∧
       ((devC (fun c => { c with halt := some haltRec0 })).ctx 0).map (fun c => c.halt.isSome) = some true ∧
       ((nodeAt wd 0 3).recd.map (fun r => r.wdog != 0) = some true ∧ (nodeAt wd 0 3).st = .active ∧ (nodeAt wd 0 3).placed ≠ 0 ∧
         ctxActive wd 0 = true ∧ (nodeAt wd 0 3).wdog + 4096 * 2 ≤ wd.clk.cycle.toNat ∧ (nodeAt wd 0 3).retired ≠ rec_.droves ∧
         (nodeAt (wn 1) 0 3).retired = rec_.droves) ∧
       ((devC id).ownsPort 0 1 = true ∧ (devC id).ownsPort 0 2 = false) ∧
       ({ rm 0 with remote := [⟨5, 0, 0, 1, 64, 0, true⟩] } : State).remote.find? (fun r => r.id == 5) = some ⟨5, 0, 0, 1, 64, 0, true⟩ ∧
       ((rm 0).remote.find? (fun r => r.id == 5) = some ⟨5, 0, 0, 1, 64, 0, false⟩ ∧ ((rm 0).team 0).map (·.ctx) = some 0 ∧
         (rm 999999).clk.gtime.toNat < 1000000 ∧ 1000000 ≤ (rm 1000000).clk.gtime.toNat) ∧
       (l2Find (ln line1) 0 1 = some line1 ∧ line1.dirty = false ∧ regPinned line1 = false ∧ regPinned { line1 with st := [.o 0 0] } = true) ∧
       (tm.frame = .inUse ∧ frameClean (devT [3] false tm) 0 tm = false ∧
         (let s := match writeImage (devT [3] false tm) 0 with | .ok s => s | .error _ => State.reset
          (s.team 0).map (fun t => frameClean s 0 t) = some true) ∧
         ({ tm with frame := .evictable 0 true 0 } : Team).frame = .evictable 0 true 0) ∧ (511 < 512) ∧
       (let s : State := { devT [] false tm with mem := tables (List.range 16) (leafOf false + 2 ^ 44 + 2 ^ 62), cxlDown := true }
        (s.ctxs.filter (fun c => decide (c.1 < 16))).flatMap (fun c =>
          ((ctxLeaves s c.1).filter (fun l => pteTier l.2.2 == .cxl)).map (fun l => (c.1, l.1))) = [(0, 0)] ∧
        (pageCopies s 0 0).any (fun x => pteD x.2.2.2) = true) ∧
       (let s : State := { devC (fun c => { c with halt := some { haltRec0 with lost := [512, 520, 552] }, running := false }) with teams := [] }
        (s.ctx 0).map (fun c => (haltRecords s 0 c haltRec0).waiting) = some false)) :=
  ⟨by decide +kernel, rfl, rfl,
    ⟨by decide +kernel, by decide +kernel, by decide +kernel, by decide +kernel, by decide +kernel, by decide +kernel, by decide +kernel⟩,
    ⟨by decide +kernel, by decide +kernel⟩, rfl,
    ⟨by decide +kernel, by decide +kernel, by decide +kernel, by decide +kernel⟩, ⟨by decide +kernel, rfl, by decide +kernel, by decide +kernel⟩,
    ⟨rfl, by decide +kernel, by decide +kernel, rfl⟩, by decide, ⟨by decide +kernel, by decide +kernel⟩, by decide +kernel⟩

/-- NodesAndDroves: an arm with a record of PRED 1 and of PRED 2, an arm of an entry that is not IDLE, decrements of a
WAITING entry by less than its count and by all of it; windows shut and open; a ready node; a placed drove; a team that
may retire. -/
def eventWords (pred : Nat) : List Word := (List.range 32).map (fun i => if i = 5 then 0x01000000 else if i = 10 then BitVec.ofNat 32 pred else 0)
def devN (pred : Nat) (f : Context → Context) : State :=
  { devC f with l2 := [{ line1 with line := 512, data := eventWords pred }], host := { HostSide.reset with linkUp := true, tdi := [(0, .run)] } }
def launch0 : NodeRec := { recordOf [] with droves := 1, w := 32, teams := 1 }
theorem test_hyp_nodes :
    (let arm (pred : Nat) (st : NodeState) : State := devN pred (fun c => { c with posts := [.arm 0 0], nodes := [(0, { Node.idle with st := st })] })
     let ok (pred : Nat) : Bool := (match schedRead (arm pred .idle) 0 0x10000 32 with
       | .ok (s', ws) => (match parseRecord 8 ws, s'.ctx 0 with | some r, some c' => r.pred == pred && c'.posts == [.arm 0 0] | _, _ => false) | .error _ => false)
     ((arm 1 .idle).ctx 0).map (fun c => (c.running, c.halt, c.posts, c.spec.nodetab)) = some (true, none, [.arm 0 0], 0x10000) ∧ ok 1 = true ∧ ok 2 = true ∧
       (nodeAt (arm 1 .idle) 0 0).st = .idle ∧ (nodeAt (arm 1 .ready) 0 0).st ≠ .idle) ∧
    (let s := devN 1 (fun c => { c with posts := [.dec 0 0 3], nodes := [(0, { Node.idle with st := .waiting, c := 3 })] })
     (s.ctx 0).map (·.posts) = some [.dec 0 0 3] ∧ (nodeAt s 0 0).st = .waiting ∧ (nodeAt s 0 0).c ≤ 3 ∧ 2 < (nodeAt s 0 0).c) ∧
    (let s := devN 1 id
     let v : DWord := 0x8000000000000000
     let w : DWord := 0x0000000100000007
     s.host.linkUp = true ∧ windowOpen s 1 = none ∧ (windowOpen s 0).isSome = true ∧ schedOpen s 0 = true ∧ (v.getLsbD 63 = true ∧ w.getLsbD 63 = false) ∧
       (field v.toNat 62 48 = 0 ∧ field v.toNat 31 18 = 0 ∧ field v.toNat 17 0 < 8) ∧ (field w.toNat 62 48 = 0 ∧ field w.toNat 31 18 = 0 ∧ field w.toNat 17 0 < 8) ∧
       field w.toNat 47 32 = 1 ∧ field (7 : DWord).toNat 47 32 = 0 ∧ (armEntry s 0 0).2 = true) :=
  ⟨⟨by decide +kernel, by decide +kernel, by decide +kernel, rfl, by decide +kernel⟩, ⟨rfl, rfl, by decide +kernel, by decide +kernel⟩,
    ⟨rfl, by decide +kernel, by decide +kernel, by decide +kernel, by decide +kernel, by decide +kernel, by decide +kernel, by decide +kernel, by decide +kernel, by decide +kernel⟩⟩
theorem test_hyp_droves :
    (let s := devN 1 (fun c => { c with policy := List.replicate 16 0x10000, ready := [(2, [5])] })
     runningCtx s 0 = some 0 ∧ ((s.ctx 0).map (fun c => c.policy != [] && decide (c.opens.length < 8) && nextQueue c == some (2, 0, 1) &&
       readyQueue c 2 == [5])) = some true) ∧
    (let s : State := { devN 1 (fun c => { c with opens := [5], nodes := [(5, { Node.idle with st := .active, recd := some launch0 })] }) with
       mem := tables [0] (leafOf false) }
     let s0 := (placedDroves s 0).foldl resumeDrove s
     let x := nodeAt s0 0 5
     let f := firstPlacement s0 0 5 0 x launch0
     runningCtx s 0 = some 0 ∧ (s0.ctx 0).map (fun c => (c.requeue, c.opens)) = some ([], [5]) ∧ x.recd = some launch0 ∧
       (indexedTrains s0 0).find? (fun y => newFits s0 y.1 launch0) = some (0, 0) ∧
       (match entryPage s0 0 x launch0 with | .ok c => c == 0 | .error _ => false) = true ∧ f.2.2 = true ∧
       (match placeNew f.1 0 5 0 0 0 f.2.1 launch0 with | .ok _ => true | .error _ => false) = true) ∧
    (let s : State := { devN 1 (fun c => { c with nodes := [(5, { Node.idle with st := .active, recd := some { launch0 with cwva := 8 }, placed := 1, retired := 1, cwSent := true })] }) with
       remote := [⟨1, 0, schedTid 0 5, 1, 8, 0, false⟩] }
     nodeDone (nodeAt s 0 5) = true ∧ ctxActive s 0 = true ∧ (storeCompletion s 0 5 (nodeAt s 0 5) { launch0 with cwva := 8 }).2 = false) ∧
    (let done (r : NodeRec) (n : Node) : Bool :=
       let s := devN 1 (fun c => { c with nodes := [(5, { n with recd := some r })] })
       nodeDone (nodeAt s 0 5) && ctxActive s 0 && r.cwva == 0 && r.succ == []
     done launch0 { Node.idle with st := .active, placed := 1, retired := 1 } = true ∧ done { launch0 with event := true } { Node.idle with st := .ready } = true) ∧
    (let t : Team := { tm with retiring := true }
     (devD t).team 0 = some t ∧ mayRetire (devD t) 0 t = true ∧ (devD t).drove 0 = some dr0 ∧ dr0.alive = 1 ∧ t.sysLines = []) :=
  ⟨⟨by decide +kernel, by decide +kernel⟩,
    ⟨by decide +kernel, by decide +kernel, by decide +kernel, by decide +kernel, by decide +kernel, by decide +kernel, by decide +kernel⟩,
    ⟨by decide +kernel, by decide +kernel, by decide +kernel⟩, ⟨by decide +kernel, by decide +kernel⟩, ⟨rfl, by decide +kernel, rfl, rfl, rfl⟩⟩
/-- SwitchesAndEviction: no context that runs, another one and the same; arms and their withdrawal on the partition's port and on
another, for a context that is there and one that is not; an arm that waits for one member, at its time limit, and its acks. -/
theorem test_hyp_switches :
    (let s (run : Nat → Bool) : State := { devC id with ctxs := [(0, { ctxS with running := run 0 }), (1, { ctxS with running := run 1 })] }
     (switchTarget part0 0).map (·.1) = some (some 0) ∧ runningCtx (s (fun _ => false)) 0 = none ∧ mayRun (s (fun _ => false)) 0 0 = true ∧
       runningCtx (s (· == 1)) 0 = some 1 ∧ runningCtx (s (· == 0)) 0 = some 0) ∧
    (let a (w : Bool) : SwitchArm := ⟨0, 1, w, 0, 90000⟩
     (a true).part = 0 ∧ (a true).withdraw = true ∧ (a false).withdraw = false ∧ inPartition (devC id) (a false).ctx 0 = true ∧ inPartition (devC id) 5 0 = false ∧ part0.armed = none ∧
       1 ∈ part0.ports ∧ 2 ∉ part0.ports) ∧
    (let g : ArmedSwitch := ⟨0, 90000, [1], some (0, 0, 9), 0⟩
     let s (n : DWord) : State := { devT [] false tm with parts := [(0, { part0 with armed := some g })], clk := { Clocks.reset with gtime := n } }
     ((s 1000000).part 0).bind (·.armed) = some g ∧ (s 1000000).team 0 = some tm ∧ tm.split 0 = some sp ∧ g.at_.toNat + 1000000 ≤ (s 1000000).clk.gtime.toNat) :=
  ⟨⟨by decide +kernel, rfl, rfl, rfl, rfl⟩, ⟨rfl, rfl, rfl, rfl, rfl, rfl, by decide, by decide⟩, ⟨rfl, rfl, rfl, by decide +kernel⟩⟩
/-- A drove that stalls in the team slot that a requeued one waits for. -/
theorem test_hyp_eviction :
    (let t : Team := { tm with splits := [{ sp with demoted := some ⟨0, 0, 0⟩ }] }
     let d : Drove := { dr0 with queues := [], handles := [], stalled := some 0, iq := false }
     let t1 : Team := { tm with drove := 1, running := false, image := 1 }
     let d1 : Drove := { dr0 with train := none, teams := [1], queues := [], handles := [], iq := false }
     let s : State := { devC (fun c => { c with requeue := [1] }) with
       teams := [(0, t), (1, t1)], droves := [(0, d), (1, d1)], clk := { Clocks.reset with cycle := 95000 }, parts := [(0, { part0 with owned := [0] })] }
     s.drove 0 = some d ∧ (s.ctx d.ctx).map (·.requeue) = some [1] ∧ ctxActive s d.ctx = true ∧ tryRequeued s d.ctx [1] = none ∧
       evictable s d.ctx = [(0, d)] ∧ (tryRequeued (evictDrove s 0) d.ctx [1]).isSome = true) :=
  ⟨rfl, rfl, by decide +kernel, none_of (by decide +kernel), by decide +kernel, by decide +kernel⟩

-- ## events: coaches and memory

/-- An update of the word at 128, posted with a policy. -/
def post0 (pol : Pol) : PostedOp := ⟨1, 0, 0, 0, 0, false, 0, 0, 0, 0, 128, pol, .i32, false, .add, 5, 0, false⟩
/-- CoachEvents: a team that may issue, with an advisory due and without, and none that may; a spilled split with a free entry,
and with none where another gives way; a split that has spun 32 times; a demotion on the cycle it ends and before; a team to
clear; an acquire to grant; a write in flight to each kind of register, and one whose value another member sends. -/
theorem test_hyp_coach :
    (let ev : Team := { tm with events := 1, evmask := 1, tvec := 64 }
     let c (t : Team) : Option Bool := (chooseTeam (restoreDue (devD t) 0) 0).map (fun y => eventDue y.2.1)
     c tm = some false ∧ c ev = some true ∧ c { tm with running := false } = none ∧ State.reset.clk.stopped = false) ∧
    (let x : Split := { sp with uid := 1, entry := none }
     let t : Team := { tm with splits := [sp, x] }
     let full : Team := { tm with splits := (List.range 8).map (fun k => { sp with uid := k + 2, entry := some k, waits := if k = 3 then [.xacq] else [] }) ++ [x], pend := 1 }
     t.split 1 = some x ∧ x.onChip = false ∧ splitReady (devD t) 0 t x = true ∧ freeEntry t.splits = some 1 ∧
       (restoreNext (noteReady (devD t) 0 t)).map (·.uid) = some 1 ∧
       full.split 1 = some x ∧ splitReady (devD full) 0 full x = true ∧ freeEntry full.splits = none ∧
       (let v := noteReady (devD full) 0 full
        (restoreNext v).map (·.uid) = some 1 ∧ freeEntry v.splits = none ∧
          (restoreVictim ((devD full).setTeam 0 v) 0 v).map (·.uid) = some 5)) ∧
    (let x : Split := { sp with spin := some ⟨0, 4, 32, [], none, none, false, true⟩ }
     ({ tm with splits := [x] } : Team).split 0 = some x ∧ x.demoted = none) ∧
    (let x : Split := { sp with demoted := some ⟨0, 0, 4⟩ }
     let s (n : DWord) : State := { devD { tm with splits := [x] } with clk := { Clocks.reset with cycle := n } }
     ({ tm with splits := [x] } : Team).split 0 = some x ∧ 0 + 4096 ≤ (s 4096).clk.cycle.toNat ∧ (s 4095).clk.cycle.toNat < 0 + 4096) ∧
    (let k : Coach := { Coach.empty with clears := [0] }
     let s : State := { devD { tm with clearing := true } with coaches := [(0, k)] }
     s.coaches.find? (fun e => e.2.clears.head? == some 0) = some (0, k) ∧ s.coach 0 = k ∧ 0 ∉ ([] : List Nat)) ∧
    (let t : Team := { tm with pend := 2 }
     let s : State := { devD t with coaches := [(0, { Coach.empty with acquire := [(0, 4, 0)] })] }
     (s.coach 0).acquire = [(0, 4, 0)] ∧ ctxActive s t.ctx = true ∧ t.running = true ∧ 4 ≤ availableLines s 0 ∧
       (match makeRoom 0 4 [] s with | .ok s' => s'.team 0 == some t | .error _ => false) = true) ∧
    (let ev : Team := { tm with events := 1, evmask := 1, tvec := 64 }
     ((enterHandler (devD ev) 0 0 ⟨.ckptAdvise, ev.advisory, 0⟩).team 0).isSome = true) ∧
    (let q : PostedOp := { post0 .wt with remote := true }
     let s : State := { devC id with posted := [q], remote := [⟨1, 0, 0, 1, 128, 0, false⟩] }
     tm.pending = [] ∧ (s.posted.filter (fun p => p.tid == 0 && p.remote))[0]? = some q ∧
       s.remote.find? (fun y => y.id == q.id) = some ⟨1, 0, 0, 1, 128, 0, false⟩) ∧
    (let q (d : Dest) (r : Option Nat) : Pending := ⟨[0], [], d, [(3, [9]), (4, [9])], r, false⟩
     let s : State := { devC id with remote := [⟨7, 0, 0, 1, 64, 0, false⟩] }
     ({ tm with pending := [q (.vec 4 1) none] } : Team).pending = [q (.vec 4 1) none] ∧ (regGroup 4 1).any tm.filling = false ∧ (3 : Nat) < 1024 ∧ ((q (.vec 4 1) none).lanes.map (·.1)).Nodup ∧ tm.frame ≠ .image ∧
       ({ tm with pending := [q (.scal 63 1) (some 7)] } : Team).pending = [q (.scal 63 1) (some 7)] ∧
       s.remote.find? (fun y => some y.id == some 7) = some ⟨7, 0, 0, 1, 64, 0, false⟩ ∧ s.ownsPort (s.partOf 0) 1 = true ∧
       s.ownsPort (s.partOf 0) 2 = false) :=
  ⟨⟨by decide +kernel, by decide +kernel, by decide +kernel, rfl⟩,
    ⟨by decide +kernel, rfl, by decide +kernel, by decide +kernel, by decide +kernel, by decide +kernel, by decide +kernel, by decide +kernel,
      by decide +kernel, by decide +kernel, by decide +kernel⟩,
    ⟨rfl, rfl⟩, ⟨rfl, by decide +kernel, by decide +kernel⟩, ⟨rfl, rfl, by decide⟩, ⟨rfl, by decide +kernel, rfl, by decide +kernel, by decide +kernel⟩,
    by decide +kernel, ⟨rfl, by decide +kernel, by decide +kernel⟩,
    ⟨rfl, by decide +kernel, by decide, by decide, by decide, rfl, by decide +kernel, by decide +kernel, by decide +kernel⟩⟩
/-- CoachEvents: a register line on its way from its image at 2 MiB, with the page in stack 2. -/
theorem test_hyp_line_fill :
    (let t : Team := { tm with lines := [⟨0, 0, .filling, false, 0⟩] }
     t.lines.any (fun l => l.line == 0 && l.st == .filling) = true ∧ t.lines.any (fun l => l.line == 0 && l.st != .filling && l.dirty) = false ∧
       (match hwReadLines (devT [2] false t) 0 0 32 (imageBase (devT [2] false t) t) with | .ok _ => true | .error _ => false) = true) :=
  ⟨by decide +kernel, by decide +kernel, by decide +kernel⟩
/-- MemoryEvents: a walk that succeeds; an answer of the memory manager that it may give and one that it may not; a fault on a
page that has come, on one that has not, and in the region of an ended sequence; updates posted to the L2, to the NMU and to
another member. -/
theorem test_hyp_memory :
    (let s := devT [0] false tm
     (match translate s 0 0 128 false with | .ok _ => true | .error _ => false) = true ∧ (s.ctx 0).isSome = true ∧ canonical 128 = true ∧
       inWindow 128 = false ∧ (rawTrans s 0 128).isSome = true ∧ (applyFix s ⟨[]⟩).isSome = true ∧
       (inEndedRegion s 0 128 = false ∧
         inEndedRegion { s with ctxs := [(0, { ctxS with seqs := [{ seq1 with handle := 0x1001, base := 0, ended := true }] })] } 0 128 = true) ∧
       applyFix (devT [] false tm)
         ⟨[(0, 0x11), (0x1000, 0x21), (0x2000, BitVec.ofNat 64 (leafOf false + 2 ^ 44))]⟩ = none) ∧
    (let t : Team := { tm with fault := some (3, 128) }
     let s := devT [] false t
     (s.ctx 0).map (·.halt) = some none ∧ s.inbound = [] ∧ rawTrans s 0 128 = none ∧
       s.teams.find? (fun e => e.2.ctx == 0 && !e.2.sys && stalledOn s 0 (128 / 65536) (e.2.fault.map (·.2))) = some (0, t)) ∧
    (let s : State := { devM tm with posted := [post0 .wt] }
     postedAt s 0 = some (post0 .wt) ∧ postedAtNmu s (post0 .wt) = false ∧
       (match route s 0 128 .wt with
        | .here a pol l1 => (match perform s ⟨0, 0, if l1 then 0 else noCoach⟩ a 4 pol (.atomic .add 5 0) .i32 false with | .ok _ => true | .error _ => false)
        | _ => false) = true) ∧
    (let s : State := { devT [0] false tm with posted := [post0 .nc] }
     postedAt s 0 = some (post0 .nc) ∧ postedAtNmu s (post0 .nc) = true ∧
       (match route s 0 128 .nc with
        | .here a pol l1 => (match perform s ⟨0, 0, if l1 then 0 else noCoach⟩ a 4 pol (.atomic .add 5 0) .i32 false with | .ok _ => true | .error _ => false)
        | _ => false) = true) ∧
    (let p : PostedOp := { post0 .wt with va := 0x0100040000000080 }
     let s : State := { devW with posted := [p] }
     (postedAt s 0).isSome = true ∧ (match route s 0 p.va .wt with | .away _ => true | _ => false) = true) :=
  ⟨⟨by decide +kernel, by decide +kernel, by decide +kernel, by decide +kernel, by decide +kernel, by decide +kernel, ⟨by decide +kernel, by decide +kernel⟩,
      none_of (by decide +kernel)⟩,
    ⟨by decide +kernel, rfl, none_of (by decide +kernel), by decide +kernel⟩,
    ⟨by decide +kernel, by decide +kernel, by decide +kernel⟩, ⟨by decide +kernel, by decide +kernel, by decide +kernel⟩,
    by decide +kernel, by decide +kernel⟩
/-- Registration, a forwarded read, a write-back that is current and one that is stale, a request of another member. -/
theorem test_hyp_registered :
    (let own (w : L1Word) (st : WordState) : State :=
       { devD tm with l2 := [{ line1 with st := (List.replicate 32 (.u 0)).set 0 st }],
                      l1 := [⟨1, 0, 1, 0, true, 0, (List.replicate 32 .none).set 0 w, 0⟩] }
     let s := own (.reg 9 3 true) (.o 1 3)
     ((devM tm).teams.any (fun e => e.2.coach == 0 && e.2.ctx == 0 && !e.2.sys) = true ∧
       (match homeLine (devM tm) 0 (compOf (devM tm) 0 128) 128 true with | .ok (_, none) => true | _ => false) = true) ∧
       ((l2Find s 0 1).map (fun l => l.st.getD 0 (.u 0)) = some (.o 1 3) ∧ (1 : Nat) ≠ 0 ∧
         (match placeWord s 0 1 0 with | .ok v => v == 9 | .error _ => false) = true ∧
         s.teams.any (fun e => e.2.coach == 0 && e.2.ctx == 0 && e.2.comp == 0 && !e.2.sys) = true) ∧
       (l1Word s 1 0 1 0 = .reg 9 3 true ∧ (l2Find s 0 1).map (fun l => (l.st.length, l.data.length)) = some (32, 32)) ∧
       (l1Word (own .none (.u 4)) 1 0 1 0 = .none ∧ (l2Find (own .none (.u 4)) 0 1).map (fun l => l.st.getD 0 (.u 0)) = some (.u 4))) ∧
    (let r (va : Nat) : RemoteReq := ⟨1, 1, 0, 0, va, 4, .wt, .n32, false, .read⟩
     let s : State := { devM tm with parts := [(0, part0)] }
     (s.ctx 0).map (·.halt) = some none ∧ (s.ownsPort 0 1 = true ∧ s.ownsPort 0 2 = false) ∧
       (match inboundAccess s (r 128) with | .ok _ => true | .error _ => false) = true ∧
       (match inboundAccess { s with poison := [.page 0 0 65536] } (r 128) with | .ok _ => false | .error q => !causeParks q) = true ∧
       (match inboundAccess s (r 256) with | .ok _ => false | .error q => causeParks q) = true ∧
       l1Word s 1 0 1 0 = .none ∧ l2Find s 0 2 = none) :=
  ⟨⟨⟨by decide +kernel, by decide +kernel⟩, ⟨by decide +kernel, by decide, by decide +kernel, by decide +kernel⟩, ⟨by decide +kernel, by decide +kernel⟩, by decide +kernel, by decide +kernel⟩,
    ⟨by decide +kernel, ⟨by decide +kernel, by decide +kernel⟩, by decide +kernel, by decide +kernel, by decide +kernel, by decide +kernel, rfl⟩⟩

-- ## events: engines and tenancy

/-- EngineEvents: a copy of 64 bytes from line 1 onto itself in queue 0; a DIGEST of it; a GATE command that no gate admits. -/
def cmd0 (fn : CopyFn) : CopyCmd :=
  { fn := fn, blk := [128, 0, 128, 0, 64, 0, 0, 0], tid := 0, ctx := 0, comp := 0, drove := 0, coach := 0, tag := 1, off := 0,
    stalled := none, started := false, msg := [] }
def devY (fn : CopyFn) : State := { devM tm with drays := [(0, { queues := [(0, [cmd0 fn])], turn := 0 })] }
theorem test_hyp_dray :
    (let turned (s : State) : State := { s with drays := Store.insert s.drays 0 { s.dray 0 with turn := 1 } }
     let s := devY .copy
     drayTurn s (s.dray 0) = some 0 ∧ queueCommand s ((s.dray 0).queue 0) = some (cmd0 .copy) ∧
       gateStop (turned s) (cmd0 .copy) = none ∧ (cmd0 .copy).fn ≠ .digest) ∧
    (let s := devY .digest
     let s0 : State := { s with drays := Store.insert s.drays 0 { s.dray 0 with turn := 1 } }
     queueCommand s ((s.dray 0).queue 0) = some (cmd0 .digest) ∧ gateStop s0 (cmd0 .digest) = none ∧ (cmd0 .digest).off ≠ 64 + 32 ∧
       (let r := digestBytes (cmd0 .digest) (min 64 ((([] : List Byte).length / 4096 + 1) * 4096) - 0) s0 []
        r.2.2 = none ∧ r.2.1.length = 64)) ∧
    (let s := devY .gate
     let s0 : State := { s with drays := Store.insert s.drays 0 { s.dray 0 with turn := 1 } }
     drayTurn s (s.dray 0) = some 0 ∧ queueCommand s ((s.dray 0).queue 0) = some (cmd0 .gate) ∧ (cmd0 .gate).started = false ∧
       (gateFails s0 (cmd0 .gate)).isSome = true ∧ (match gateStop s0 (cmd0 .gate) with | some (.halt .gate _ _) => true | _ => false) = true ∧
       (s.ctx 0).map (·.halt) = some none) :=
  ⟨⟨by decide +kernel, by decide +kernel, none_of (by decide +kernel), by decide⟩,
    ⟨by decide +kernel, none_of (by decide +kernel), by decide, none_of (by decide +kernel), by decide +kernel⟩,
    ⟨by decide +kernel, by decide +kernel, rfl, by decide +kernel, by decide +kernel, rfl⟩⟩
/-- A share whose rows all lie in line 1: before that line is fetched, with the line pinned, with the line consumed, and with
its first step done. -/
def mm0 : MMInstr := ⟨.mm128, 0, 16, 128, 128, 0, 0, 0, 0, 0, [], 0⟩
def share0 (steps n : Nat) (pins : List Nat) (eaten : List (Nat × List (Option Word))) : Share := ⟨0, mm0, 1, steps, n, pins, eaten, none⟩
def devX (h : Share) : State := { devM tm with coaches := [(0, { Coach.empty with tensor := [h] })] }
def agent0 : Agent := ⟨0, 0, noCoach⟩
def eaten1 : List (Nat × List (Option Word)) := [(1, List.replicate 32 (some 7))]
theorem test_hyp_tile_fetch :
    (let h := share0 0 0 [] []
     ((devX h).coach 0).tensor = [h] ∧ shareActive (devX h) h = true ∧ h.fetched < (shareLines mm0).length ∧ (shareLines mm0).getD 0 0 = 1 ∧
       shareAgent (devX h) h = some agent0 ∧
       (match fetchOperandLine (devX h) agent0 1 with
        | .ok s' => (s'.coach 0).tensor == [h] && decide (tileWays s' (s'.asid 0) 1 < 2) | .error _ => false) = true) :=
  ⟨rfl, by decide +kernel, by decide +kernel, by decide +kernel, rfl, by decide +kernel⟩
/-- A share with further lines to fetch, whose rows lie 1,024 bytes apart, and its pinned line. -/
def share1 : Share := { share0 0 1 [1] [] with mm := { mm0 with tsa := 1024 } }
theorem test_hyp_tensor_consume : ((devX share1).coach 0).tensor = [share1] ∧ shareActive (devX share1) share1 = true ∧
    shareAgent (devX share1) share1 = some agent0 ∧ share1.pins = [1] ∧ share1.fetched < (shareLines share1.mm).length ∧
    (match consumeLine (devX share1) agent0 1 with | .ok (s', _) => (s'.coach 0).tensor == [share1] | .error _ => false) = true :=
  ⟨rfl, by decide +kernel, rfl, rfl, by decide +kernel, by decide +kernel⟩
theorem test_hyp_tensor_step :
    (let h (k : Nat) := share0 k 1 [] eaten1
     (∀ k, k < 2 → (match stepRows (h k) with | .ok _ => true | .error _ => false) = true) ∧ (h 0).pins = [] ∧
       (shareLines (h 0).mm).length ≤ (h 0).fetched ∧ (devX (h 1)).team 0 = some tm ∧
       (regGroup mm0.d (shapeAcc mm0.shape)).any tm.filling = false ∧ ∀ k v, (k, v) ∈ (devX (h 1)).teams → v.latch = none) :=
  ⟨by decide +kernel, rfl, by decide +kernel, rfl, by decide +kernel, fun k v hv => by
    simp only [devX, devM, devD, dev, List.mem_singleton, Prod.mk.injEq] at hv
    rw [hv.2]; rfl⟩
/-- The chunks of a collective: the expected number, one below and one above it, also where the numbers wrap, with the tandem
frozen and its receive region open, full or closed; the cycle on which the region closes; a chunk to send. -/
def coll0 : CollCmd :=
  { k := 1, desc := ⟨.gath, 4, 0, 0⟩, send := 128, recv := 128, tid := 0, ctx := 0, comp := 0, tag := 1, die := 0, stalled := none,
    sent := [], got := [], wrote := 0 }
theorem test_hyp_collectives :
    (let ch (n : Word) : Chunk := ⟨n, 1, coll0.desc, 0, [1, 2, 3, 4]⟩
     let s (opn : Option DWord) (len : Nat) (e : Word) : State :=
       { devC (fun c => { c with running := false, rxOpen := opn, spec := { c.spec with rxlen := len } }) with
         mem := tables (List.range 16) (leafOf false), links := [⟨0, 1, 0, e, []⟩] }
     let late : State := { s (some 0) 2 2 with clk := { Clocks.reset with gtime := 5000 } }
     let x := s (some 0) 2 2
     (x.ctx 0 ≠ none ∧ x.ownsPort 0 1 = true ∧ x.ownsPort 0 2 = false) ∧
       ((ch 1).seq ≠ (linkOf x 0 1).expect ∧ ((linkOf x 0 1).expect - (ch 1).seq).toNat < 2 ^ 31) ∧
       ((ch 3).seq ≠ (linkOf x 0 1).expect ∧ 2 ^ 31 ≤ ((linkOf x 0 1).expect - (ch 3).seq).toNat) ∧
       ((linkOf (s none 0 0) 0 1).expect - (ch 0xFFFFFFFF).seq).toNat < 2 ^ 31 ∧
       ((ch 2).seq = (linkOf x 0 1).expect ∧ ctxActive x 0 = false ∧ (storeChunk x 0 1 (ch 2)).isSome = true ∧
         x.clk.gtime < 0 + 5000 ∧ (0 : DWord) + 5000 ≤ late.clk.gtime ∧ storeChunk (s (some 0) 0 2) 0 1 (ch 2) = none) ∧
       (((s none 0 2).ctx 0).map (·.rxOpen) = some none ∧ (0 : DWord) + 5000 ≤ 5000 ∧ (4999 : DWord) < 0 + 5000)) ∧
    (let s : State := { devM tm with colls := [coll0], parts := [(0, { part0 with members := 2 })] }
     let s1 := finishReady (applyStored s 0) 0
     ctxActive s 0 = true ∧ 1 < ctxMembers s 0 ∧ collToSend s1 0 1 = some coll0 ∧ 1 ≠ ctxMember s1 0 ∧ collToSend s1 0 0 = some coll0 ∧
       0 = ctxMember s1 0 ∧ (match collRead s1 coll0 128 4 with | .ok _ => true | .error _ => false) = true) :=
  ⟨⟨⟨by decide +kernel, by decide +kernel, by decide +kernel⟩, ⟨by decide +kernel, by decide +kernel⟩, ⟨by decide +kernel, by decide +kernel⟩,
    by decide +kernel, ⟨by decide +kernel, by decide +kernel, by decide +kernel, by decide +kernel, by decide +kernel, none_of (by decide +kernel)⟩,
    ⟨rfl, by decide, by decide⟩⟩,
    ⟨by decide +kernel, by decide +kernel, by decide +kernel, by decide +kernel, by decide +kernel, by decide +kernel, by decide +kernel⟩⟩
/-- TenancyEvents: a train of partition 0 lent to partition 1, its reclaim, the forced deadline on its cycle and before. -/
theorem test_hyp_trains :
    (let p1 : Partition := { part0 with owned := [3], borrowed := [], borrowLimit := 1 }
     let s : State := { State.reset with parts := [(0, part0), (1, p1)] }
     let b : State := { State.reset with parts := [(0, part0), (1, { p1 with borrowed := [2] })] }
     let r : Reclaim := ⟨2, 0, 1, 0, true⟩
     let d (n : DWord) : State := { b with reclaims := [r], clk := { Clocks.reset with cycle := n } }
     trainOwner s 2 = some 0 ∧ (s.part 1) = some p1 ∧ trainBorrower s 2 = none ∧ trainOpen s 2 = true ∧
       s.droves.any (fun e => e.2.train == some 2) = false ∧ p1.borrowed.length < p1.borrowLimit ∧
       (trainOwner b 2 = some 0 ∧ trainBorrower b 2 = some 1 ∧ b.reclaims.any (·.train == 2) = false ∧ borrowedDroves b 1 2 = []) ∧
       ((d 190000).reclaims.find? (·.train == 2) = some r ∧ r.force = true ∧ r.start + 190000 ≤ (d 190000).clk.cycle.toNat ∧ (d 189999).clk.cycle.toNat < r.start + 190000) ∧
       (((drainFrames (d 0) 1 2).bind (fun e => drainLines e 1 2)).isSome = true ∧ (d 0).part 1 = some { p1 with borrowed := [2] })) :=
  ⟨rfl, rfl, rfl, by decide +kernel, rfl, by decide +kernel, ⟨rfl, rfl, rfl, rfl⟩, ⟨by decide +kernel, rfl, by decide +kernel, by decide +kernel⟩, by decide +kernel, rfl⟩
/-- Sequences to open and to end, for a team that runs and one that does not; an ended region that still has its slot. -/
theorem test_hyp_sequences :
    (let t (w : Wait) : Team := { tm with splits := [{ sp with waits := [w] }] }
     let q : Seq := { seq1 with handle := 0x1001 }
     (t (.seqopen 9 65536 1)).split 0 = some { sp with waits := [.seqopen 9 65536 1] } ∧
       (((devC id).ctx 0).map (fun c => c.seqs.any (fun q => q.ended && seqMeets q 65536 65536 && stillEnding (devC id) 0 q)) = some false) ∧
       tm.running = true ∧ stillEnding { devC id with keys := [(1, { key1 with st := .ended })] } 0 { seq1 with handle := 0x80001001, ended := true } = true ∧
       (t (.seqend 0x1001)).split 0 = some { sp with waits := [.seqend 0x1001] } ∧
       (((devC id).ctx 0).bind (fun c => c.seqs.find? (fun q => q.handle == 0x1001 && !q.ended))) = some q ∧
       (devC id).locks.any (fun l => l.ctx == 0 && l.spad.isNone && seqMeets q l.lo l.len) = false) :=
  ⟨by decide +kernel, by decide +kernel, rfl, by decide +kernel, by decide +kernel, by decide +kernel, rfl⟩
/-- Key slots and blocks: an ENDED slot; a rotation with a block left, and its last engine with none; a block of a MIGRATING
page to move, within the device and to another, one of a page that does not migrate, and one that arrives. -/
theorem test_hyp_keys :
    (let s (k : KeySlot) (xs : List (Nat × Nat)) : State := { devQ (List.range 16) true 0 with keys := [(1, k)], seals := xs }
     let rot : KeySlot := { key1 with st := .rotating, keys := 2, old := 1, sweep := [0] }
     let r := s rot [(0, 1)]
     let m (src dst : Option Nat) : Migration := { slot := 1, linear := false, src := src, dst := dst, data := none, session := 0, peer := 1, port := 1 }
     let live : State := { s key1 [] with host := { HostSide.reset with sessions := [⟨0, true, 0⟩] } }
     let s2 : State := { settleBlock live 0 with moving := [(0, 0)] }
     ((s { key1 with st := .ended } []).key 1).st = .ended ∧
       ((r.key 1).st = .rotating ∧ 0 ∈ (r.key 1).sweep ∧
         r.seals.find? (fun e => e.2 == (r.key 1).old && sweepUnit r (r.key 1).ctx e.1 == 0) = some (0, 1) ∧ (r.key 1).keys ≠ 0) ∧
       (((s rot []).key 1).sweep = [0] ∧ (s rot []).seals.find? (fun e => e.2 == ((s rot []).key 1).old && sweepUnit (s rot []) 0 e.1 == 0) = none) ∧
       ((live.key 1).st = .live ∧ sweepBusy live = false ∧ movingPage live 0 1 0 = some (0, false) ∧ (scrubBusy live = false ∧ scrubBusy { live with slices := [(3, .scrubbing 7)] } = true) ∧
         movingPage { live with mem := tables (List.range 16) (leafOf false) } 0 1 0 = none ∧
         (match readBlock s2 key1 false 0 with | .ok _ => true | .error _ => false) = true ∧
         (live.moving.contains (0, 0) = false ∧ s2.moving.contains (0, 0) = true) ∧ blockOpen s2 (s2.partOf 0) 64 = true ∧
         transferOpen s2 0 (m (some 0) none) = true ∧ live.ownsPort 0 1 = true)) :=
  ⟨rfl, ⟨rfl, by decide +kernel, by decide +kernel, by decide +kernel⟩, ⟨rfl, rfl⟩,
    ⟨rfl, by decide +kernel, by decide +kernel, ⟨by decide +kernel, by decide +kernel⟩, by decide +kernel, by decide +kernel,
      ⟨by decide +kernel, by decide +kernel⟩, by decide +kernel, by decide +kernel, by decide +kernel⟩⟩
/-- Slices and contexts: the last slice free, one of two that drains, the last row but one of a scrub; the legal record
of a context of one compartment; a context that may end. -/
theorem test_hyp_slices :
    (let s : State := { devT [] false tm with slices := [(0, .assigned 0), (1, .assigned 0), (3, .scrubbing (2 ^ 22 - 2))] }
     s.part 0 = some part0 ∧ 15 < 16 ∧ s.slice 15 = .free ∧ (s.slice 0 = .assigned 0 ∧ 1 ∈ part0.slices ∧ (1 : Nat) ≠ 0 ∧ s.slice 1 = .assigned 0) ∧
       s.slice 3 = .scrubbing (2 ^ 22 - 2) ∧ 2 ^ 22 - 2 + 1 < 2 ^ 22 ∧ scrubWaits s 3 = false ∧
       scrubWaits { s with keys := [(1, { key1 with sweep := [0] })] } 3 = true) ∧
    (let x : CtxSpec := { part := 0, cfg := none, record := { CtxRecord.zero with ctxid := 15, asid := 65535, ncount := 1 }, nc := 1, seqmax := 4095, gates := [], ptes := [], load := [] }
     let s : State := { devBt .ready with parts := [(0, part0)] }
     creationLegal s x = true ∧ creationLegal s { x with part := 7 } = false ∧ (applyFix (newContext s x) ⟨x.ptes⟩).isSome = true) ∧
    (let s := devC (fun c => { c with running := false })
     let h := devC (fun c => { c with running := false, halt := some { haltRec0 with finished := true } })
     (s.ctx 0).map (fun c => (c.running, c.halt)) = some (false, none) ∧
       (h.ctx 0).map (fun c => (c.running, c.halt.map (·.finished))) = some (false, some true)) :=
  ⟨⟨rfl, by decide, rfl, ⟨rfl, by decide +kernel, by decide, rfl⟩, rfl, by decide, by decide +kernel, by decide +kernel⟩,
    ⟨by decide +kernel, by decide +kernel, by decide +kernel⟩, rfl, rfl⟩

-- ## results that the spec works out

/-- The state that an instruction leads to, or reset. -/
def after (i : Instr) (s : State) : State := match exec i s with | .next n => n | _ => State.reset
/-- spec/06, the example of R162: the home slice of VA 0x12_3456_7880 under ASID 0x42. -/
theorem test_home_slice : homeSlice 0x1234567880 0x42 = 0x53 := by decide +kernel
/-- R151, R152, the example after R152: 1.0, 1.0 and 16,777,216.0 in lanes 0 to 2. -/
theorem test_vred_tree :
    (let t : Team := { tmM 8 [] with vregs := [(1024 * 4, 0x3F800000), (1024 * 4 + 1, 0x3F800000), (1024 * 4 + 2, 0x4B800000)] }
     let x : Split := { spM 8 with mask := 7 }
     let n := after (.vredAdd false 5 4) (dev { t with splits := [x] })
     (n.team 0).map (fun u => u.s 5)) = some 0x4B800001 := by decide +kernel
/-- R157, its example. -/
theorem test_bsmac : bsmacWord false 0x00C80973 0x00000D00 1000 = 400 ∧ bsmacCycles 0x00C80973 = 32 := by decide +kernel
/-- spec/06, the example of R168: a bank-linear 2 MiB page of frame 0x5060A0, offset 0x123400. -/
theorem test_bank_linear : (let t := placement 0x123400 0 1 (0x5060A0 * 16 + 2 ^ 42 + 1)
    (t.stack, t.key % 2 ^ 36, unitOf t)) = (13, 0x5060B2000, 109190) := by decide +kernel
/-- R140, its example: F64 1 + 3 * 2^-25 to F32, with two values of u. -/
theorem test_stochastic : cvtElem .f64 .f32 ⟨.stoch, false, false, 0x12345678⟩ 0x3FF0000018000000 = 0x3F800001 ∧
    cvtElem .f64 .f32 ⟨.stoch, false, false, 0xD0000000⟩ 0x3FF0000018000000 = 0x3F800000 := by decide +kernel
/-- R154, R155, their example: a block of exponent 0x7F. -/
theorem test_bfp : bfpAddBlock 0x7F [0x20000000, 3, 0] [0x40400000, 0x31000001, 0] = (0x80, [0x40000000, 3, 0]) ∧
    bfpOutBlock 0x80 [0x40000000, 3] = [0x40800000, 0x32400000] := by decide +kernel
/-- R150, its example: products of 2^16, -2^16 and 2^-18, and c = 2^-40. -/
theorem test_matrix_element : matrixElem .e4m3 .e4m3 false 0x01F878 0x017878 [] [] 0x2B800000 = 0x36800000 := by decide +kernel
/-- R399, the example of REFILL: lanes 2 and 5 get 40 and 41, and lane 6 retires. -/
theorem test_refill :
    (let t : Team := { tmS [] with preds := [(2, 0x64)] }
     let d : Drove := { dr0 with queues := [(1, (0, [40, 41]))] }
     let s : State := { devD { t with splits := [{ sp with mask := 0xFF }] } with droves := [(0, d)] }
     let n := after (.refill false 3 2 1) s
     ((n.team 0).map (fun u => u.v 3 2 == 40 && u.v 3 5 == 41 && !(u.p 2).getLsbD 2 && !(u.p 2).getLsbD 5 &&
       u.splits.map (·.mask) == [0xBF])) = some true) := by decide +kernel
/-- R393, the example of ARRIVE: with REMAIN 2 the first arrival leaves the phase at 0 and the second changes it. -/
theorem test_barrier : phaseOf (after (.arrive false 5 6) (devB 2 tmB)) 0 0x200 = false ∧
    phaseOf (after (.arrive false 5 6) (devB 1 tmB)) 0 0x200 = true := by decide +kernel
/-- R405: SLI with 0x8000 sets the high bits, and SLIH with 0x1234 then gives 0x12348000. -/
theorem test_sli : ((after (.sli false 9 0x8000) (dev tm)).team 0).map (fun u => u.s 9) = some 0xFFFF8000 ∧
    ((after (.slih false 9 0x1234) (dev (tmS [(9, 0xFFFF8000)]))).team 0).map (fun u => u.s 9) = some 0x12348000 := by decide +kernel
/-- R368, the example of HALLOC: 2,000 bytes become handle 1. -/
theorem test_halloc :
    (let s : State := { devD (tmS [(6, 2000)]) with droves := [(0, { dr0 with handles := [(0, { buf1 with base := 0 })] })] }
     ((after (.halloc false 5 6) s).team 0).map (fun u => u.s 5)) = some 0x00080000 := by decide +kernel
/-- R29, its example: on train 5 physical position 3 is fused off; the message from position 2 to 3 takes 4 cc, else 2. -/
theorem test_repaired_row : (let s : State := { State.reset with boot := { Boot.reset with repair := [(0, 5, 3)] } }
    (List.range 8).map (physicalPosition s 5) = [0, 1, 2, 4, 5, 6, 7, 8] ∧ trainRoute s 5 2 3 = 4 ∧ trainRoute s 6 2 3 = 2) := by
  decide +kernel
/-- R338: BOOTSTS holds STATE in bits 3:0 and ERR in 23:16, and the host reads it in BAR0; BAR2 reads as zero (R275). -/
theorem test_boot_status : (let s : State := { devBt .failed with boot := { (devBt .failed).boot with err := 4 } }
    hostRead s 0 0 4 = numBytes 4 (bootsts s).toNat ∧ (bootsts s).extractLsb' 16 8 = 4 ∧ hostRead s 2 0 8 = List.replicate 8 0) := by
  decide +kernel

end Sys2Proof.Tests
end

