-- ==== Sys2Proof/Proofs/Barriers.lean ====
section
/-! The barrier instructions (R181, R357, R363, R393): what an arrival does to the teams, and O29. -/
namespace Sys2Proof.Machine
open Sys2Proof

/-- A team after a phase change of the barrier word at `off` (R181). -/
def wokenTeam (drove off : Nat) (t : Team) : Team :=
  if t.drove == drove then
    { t with splits := t.splits.map (fun x =>
        { x with waits := x.waits.map (fun w => if w == .barrier off then .acquire else w) }) }
  else t

theorem find_map_values {α : Type} (f : α → α) (m : List (Nat × α)) (k : Nat) :
    Store.find (m.map (fun e => (e.1, f e.2))) k = (Store.find m k).map f := by
  induction m with
  | nil => rfl
  | cons e r ih => by_cases h : e.1 = k <;> simp [Store.find, h, ih]

theorem team_wakeBarrier (s : State) (drove off k : Nat) :
    (wakeBarrier s drove off).team k = (s.team k).map (wokenTeam drove off) := by
  have h : (wakeBarrier s drove off).teams = s.teams.map (fun e => (e.1, wokenTeam drove off e.2)) :=
    List.map_congr_left (fun e _ => by unfold wokenTeam; split <;> rfl)
  unfold State.team
  rw [h, find_map_values]

/-- Waking changes the waits of splits, and removes none. -/
theorem split_wokenTeam {t : Team} {uid : Nat} {x : Split} (drove off : Nat) (h : t.split uid = some x) :
    ∃ y, (wokenTeam drove off t).split uid = some y := by
  unfold wokenTeam
  split
  · simp only [Team.split, List.find?_map]
    exact ⟨_, congrArg (Option.map _) h⟩
  · exact ⟨x, h⟩

/-- Team `tid` is there, with its split `uid`. -/
def HasSplit (s : State) (tid uid : Nat) : Prop := ∃ t x, s.team tid = some t ∧ t.split uid = some x

theorem HasSplit.wakeBarrier {s : State} {tid uid : Nat} (h : HasSplit s tid uid) (drove off : Nat) :
    HasSplit (wakeBarrier s drove off) tid uid := by
  obtain ⟨t, x, ht, hx⟩ := h
  obtain ⟨y, hy⟩ := split_wokenTeam drove off hx
  exact ⟨_, y, by rw [team_wakeBarrier, ht]; rfl, hy⟩

theorem HasSplit.of_teams {s e : State} {tid uid : Nat} (h : HasSplit s tid uid) (he : e.teams = s.teams) :
    HasSplit e tid uid := by
  unfold HasSplit State.team at *
  rwa [he]

/-- A write to the scratchpad removes no split: at most it wakes some (R181). -/
theorem HasSplit.spadWrite {s : State} {tid uid : Nat} (h : HasSplit s tid uid) (drove : Nat) (sa : Word) (w v : Nat) :
    HasSplit (spadWrite s drove sa w v) tid uid := by
  unfold Machine.spadWrite
  split
  · exact h
  · split
    · exact h
    · next hd =>
      extract_lets off hd' s' word
      have h' : HasSplit s' tid uid := h.of_teams (modDrove_teams _ _ _)
      split
      · exact h'.wakeBarrier _ _
      · exact h'

theorem HasSplit.arrivalOn {s : State} {tid uid : Nat} (h : HasSplit s tid uid) (drove off : Nat) :
    HasSplit (arrivalOn s drove off).1 tid uid := by
  unfold Machine.arrivalOn
  split
  · exact h
  · split
    · exact h
    · extract_lets
      split
      · exact h.spadWrite _ _ _ _
      · split <;> exact h.spadWrite _ _ _ _

/-- The phase that an arrival answers is the one before it (R181). -/
theorem arrivalOn_phase (s : State) (drove off : Nat) : (arrivalOn s drove off).2 = phaseOf s drove off := by
  unfold arrivalOn phaseOf
  cases s.drove drove with
  | none => rfl
  | some d =>
    dsimp only
    cases Store.find d.handles 0 with
    | none => rfl
    | some h =>
      dsimp only
      split
      · rfl
      · split <;> rfl

theorem hasSplit_of_atIssue {s : State} {tid uid : Nat} {t : Team} {x : Split} (h : AtIssue s tid uid t x) :
    HasSplit s tid uid := ⟨t, x, h.2.1, h.2.2⟩

/-- An instruction that uses no register and no MODE is always ready. -/
theorem ready_noRegs (t : Team) (x : Split) : Ready t x {} := by
  refine ⟨rfl, rfl, rfl, ?_, rfl, .inr rfl⟩
  unfold writeHeld
  rw [List.any_eq_false]
  intro p _
  split <;> simp

section
variable {s : State} {tid uid : Nat} {t : Team} {x : Split} {sw : Bool} {d a b : BitVec 6} {imm : BitVec 16} {sd : Word}

/-- R357: ARRIVE gives the phase before its arrival, or at REMAIN = 0 a free value. -/
theorem completes_arrive (hs : AtIssue s tid uid t x) (hr : Ready t x { sw := [d.toNat] })
    (hok : barrierTrap s (issueOf tid uid t x (.arrive sw d a)) (s.rs t a.toNat) = none) (hrel : released t uid false = true) :
    ∃ u, (arrivalOn s t.drove (s.rs t a.toNat).toNat).1.team tid = some u ∧
      Completes (.arrive sw d a) s ((arrivalOn s t.drove (s.rs t a.toNat).toNat).1.setTeam tid (u.setS d.toNat
        (if barrierSpent s t.drove (s.rs t a.toNat).toNat then Config.freeWord s.free 3 0
          else if phaseOf s t.drove (s.rs t a.toNat).toNat then 1 else 0))) tid uid sw (x.pc + 4) [] := by
  obtain ⟨u, y, hu, hy⟩ := (hasSplit_of_atIssue hs).arrivalOn t.drove (s.rs t a.toNat).toNat
  refine ⟨u, hu, completes_next (u := fun _ => { sw := [d.toNat] }) hs rfl hr ?_ (team_setTeam_self _ _ _) (xe := y) ?_⟩
  · dsimp only [issueOf] at hok ⊢
    rw [hok, hrel, ← modTeam_some (fun t => t.setS d.toNat _) hu]
    rfl
  · unfold Team.split at hy ⊢
    rwa [setS_splits]

/-- R393: PWAIT waits while the phase is the one named. -/
theorem completes_pwait_waits (hs : AtIssue s tid uid t x) (hb : (s.rs t b.toNat).toNat ≤ 1)
    (hok : barrierTrap s (issueOf tid uid t x (.pwait sw a b)) (s.rs t a.toNat) = none)
    (hph : phaseOf s t.drove (s.rs t a.toNat).toNat = (s.rs t b.toNat).getLsbD 0) :
    Completes (.pwait sw a b) s s tid uid sw (x.pc + 4) [.barrier (s.rs t a.toNat).toNat] := by
  refine completes_park (u := fun _ => {}) hs rfl (ready_noRegs t x) ?_ hs.2.1 hs.2.2
  dsimp only [issueOf] at hok ⊢
  rw [if_neg (by omega), hok]
  exact if_pos (beq_iff_eq.mpr hph)

/-- R393: a phase other than the one named lets PWAIT go on, with its acquire. -/
theorem completes_pwait_goes (hs : AtIssue s tid uid t x) (hb : (s.rs t b.toNat).toNat ≤ 1)
    (hok : barrierTrap s (issueOf tid uid t x (.pwait sw a b)) (s.rs t a.toNat) = none)
    (hph : phaseOf s t.drove (s.rs t a.toNat).toNat ≠ (s.rs t b.toNat).getLsbD 0) :
    Completes (.pwait sw a b) s (acquireRemoval s t.coach t.asid) tid uid sw (x.pc + 4) [] := by
  refine completes_next (u := fun _ => {}) hs rfl (ready_noRegs t x) ?_ hs.2.1 hs.2.2
  dsimp only [issueOf] at hok ⊢
  rw [if_neg (by omega), hok]
  exact if_neg (mt beq_iff_eq.mp hph)

/-- R363: DBAR goes on at once where its arrival completes the phase. -/
theorem completes_dbar_goes (hs : AtIssue s tid uid t x) (hsd : sd = imm.setWidth 32 <<< 3)
    (hok : barrierTrap s (issueOf tid uid t x (.dbar sw imm)) sd = none) (hrel : released t uid false = true)
    (hph : phaseOf (arrivalOn s t.drove sd.toNat).1 t.drove sd.toNat ≠ phaseOf s t.drove sd.toNat) :
    Completes (.dbar sw imm) s (acquireRemoval (arrivalOn s t.drove sd.toNat).1 t.coach t.asid) tid uid sw (x.pc + 4) [] := by
  subst hsd
  obtain ⟨u, y, hu, hy⟩ := (hasSplit_of_atIssue hs).arrivalOn t.drove (imm.setWidth 32 <<< 3 : Word).toNat
  refine completes_next (u := fun _ => {}) hs rfl (ready_noRegs t x) ?_ hu hy
  dsimp only [issueOf] at hok ⊢
  rw [hok, hrel, arrivalOn_phase]
  exact if_pos (bne_iff_ne.mpr hph)

/-- R363: DBAR waits on its word where the phase stays. -/
theorem completes_dbar_waits (hs : AtIssue s tid uid t x) (hsd : sd = imm.setWidth 32 <<< 3)
    (hok : barrierTrap s (issueOf tid uid t x (.dbar sw imm)) sd = none) (hrel : released t uid false = true)
    (hph : phaseOf (arrivalOn s t.drove sd.toNat).1 t.drove sd.toNat = phaseOf s t.drove sd.toNat) :
    Completes (.dbar sw imm) s (arrivalOn s t.drove sd.toNat).1 tid uid sw (x.pc + 4) [.barrier sd.toNat] := by
  subst hsd
  obtain ⟨u, y, hu, hy⟩ := (hasSplit_of_atIssue hs).arrivalOn t.drove (imm.setWidth 32 <<< 3 : Word).toNat
  refine completes_park (u := fun _ => {}) hs rfl (ready_noRegs t x) ?_ hu hy
  dsimp only [issueOf] at hok ⊢
  rw [hok, hrel, arrivalOn_phase]
  exact if_neg (fun h => bne_iff_ne.mp h hph)

end

/-- Settles O29: the arrival leaves the issuing split in place, so that each word completes on the state after it. -/
theorem barriers : Obligations.Barriers := by
  unfold Obligations.Barriers
  intro s tid uid t x sw d a b imm hs ok sa sd after
  refine ⟨fun hr hok hrel => ?_, fun hb hok => ⟨?_, ?_⟩, fun hok hrel => ⟨?_, ?_⟩⟩
  · obtain ⟨u, hu, hc⟩ := completes_arrive (a := a) hs hr hok hrel
    exact ⟨u, _, hu, fun h => by rw [h]; rfl, hc⟩
  · exact completes_pwait_waits hs hb hok
  · exact completes_pwait_goes hs hb hok
  · exact completes_dbar_goes hs rfl hok hrel
  · exact completes_dbar_waits hs rfl hok hrel

end Sys2Proof.Machine
end

