-- ==== Sys2Proof/Proofs/BankKernel.lean ====
section
/-! The words of a bank unit (R93, R223, R224, R231, R235 to R237, R240, R243): what a result of a word's meaning comes to
in the machine, one lemma for each form of result, and O49. Where a lemma asks that `exec` of a word is `bankAs` of some
meaning, `Eq.refl` of the word's own function is the proof: both sides unfold to it. -/
namespace Sys2Proof.Machine
open Sys2Proof

-- ## results of a bank unit's word

/-- The word's effect: the state `s'`, the unit `b'` with its kernel as `e'`, and `n` bank cycles (R243). -/
def BankGoes (s : State) (u : Nat) (i : Instr) (s' : State) (b' : BankUnit) (e' : BankExec) (n : Nat) : Prop :=
  exec i s = .next (s'.setBank u { b' with
    exec := some { e' with advanced := true }, reqs := (s'.bank u).reqs, busy := (s.bank u).busy + n })

/-- The word is BANK_FAULT (R237). -/
def BankStops (s : State) (u : Nat) (i : Instr) : Prop := exec i s = .next (bankFaultHalt s u)

/-- The word's effect, and the kernel goes on at the next word; there is none past word 63 (R231). -/
def BankLands (s : State) (u : Nat) (i : Instr) (s' : State) (b' : BankUnit) (e' : BankExec) (n : Nat) : Prop :=
  (e'.upc < 63 → BankGoes s u i s' b' { e' with upc := e'.upc + 1, stalled := none, prog := 0 } n) ∧
    (63 ≤ e'.upc → BankStops s u i)

/-- A word of `n` bank cycles in parts of 32, with its effect in the last (R243). -/
def BankLong (s : State) (u : Nat) (e : BankExec) (i : Instr) (b' : BankUnit) (n : Nat) : Prop :=
  (e.prog + 32 < n → BankGoes s u i s (s.bank u) { e with prog := e.prog + 32 } 32) ∧
    (n ≤ e.prog + 32 → BankLands s u i s b' e (n - e.prog))

/-- A word that works on the row at `off`, and does `f` once that row is open (R235, R236, R243). -/
def BankRows (s : State) (u : Nat) (e : BankExec) (i : Instr) (off : Int) (write : Bool)
    (f : State → BankExec → OpenRow → Nat → Prop) : Prop :=
  (∀ r, e.row = some r → 0 < e.prog →
    (e.prog < 32 → BankGoes s u i s (s.bank u) { e with prog := 32 } 16) ∧ (32 ≤ e.prog → f s e r 16)) ∧
  (∀ s' e' r, e.prog = 0 → activateRow s u e off write = .ok s' e' → e'.row = some r →
    ((∀ r0, e.row = some r0 → r0.off ≠ off) → BankGoes s u i s' (s.bank u) { e' with prog := 16, stalled := none } 16) ∧
    (∀ r0, e.row = some r0 → r0.off = off → f s' e' r 32)) ∧
  (∀ s' e' c va, e.prog = 0 → activateRow s u e off write = .stop s' e' c va →
    exec i s = .next (bankCause (s'.setBank u { s'.bank u with exec := some e' }) u c va))

/-- The machine's answer to a result (R237, R243). -/
def bankAnswer (s : State) (u : Nat) (r : BankRes) : Host.Outcome State Fault Refusal :=
  match r with
  | .ok s' b' e' n => .next (s'.setBank u { b' with
      exec := some { e' with advanced := true }, reqs := (s'.bank u).reqs, busy := b'.busy + n })
  | .fault => .next (bankFaultHalt s u)
  | .cause s' e' c va => .next (bankCause (s'.setBank u { s'.bank u with exec := some e' }) u c va)

section
variable {s s' : State} {u : Nat} {e e' : BankExec} {b' : BankUnit} {i : Instr} {n : Nat}
  {body : Nat → BankUnit → BankExec → BankRes} (hc : s.cur = .bank u) (he : (s.bank u).exec = some e)
include hc he

/-- A bank word answers what its meaning results in (R243). -/
theorem bankAs_eq : bankAs i s body = bankAnswer s u (body u (s.bank u) e) := by
  unfold bankAs
  rw [hc]; dsimp only
  rw [he]; dsimp only
  cases body u (s.bank u) e <;> rfl

theorem bankGoes_of (hi : exec i s = bankAs i s body) (hb : body u (s.bank u) e = .ok s' b' e' n)
    (hbusy : b'.busy = (s.bank u).busy) : BankGoes s u i s' b' e' n := by
  unfold BankGoes
  rw [hi, bankAs_eq hc he, hb, ← hbusy]
  rfl

theorem bankStops_of (hi : exec i s = bankAs i s body) (hb : body u (s.bank u) e = .fault) : BankStops s u i := by
  unfold BankStops
  rw [hi, bankAs_eq hc he, hb]
  rfl

theorem bankLands_of (hi : exec i s = bankAs i s body) (hb : body u (s.bank u) e = bankNext s' b' e' n)
    (hbusy : b'.busy = (s.bank u).busy) : BankLands s u i s' b' e' n :=
  ⟨fun h => bankGoes_of hc he hi (hb.trans (if_neg (by omega))) hbusy,
    fun h => bankStops_of hc he hi (hb.trans (if_pos h))⟩

theorem bankLong_of (hi : exec i s = bankAs i s body) (hb : body u (s.bank u) e = bankLong s (s.bank u) b' e n)
    (hbusy : b'.busy = (s.bank u).busy) : BankLong s u e i b' n :=
  ⟨fun h => bankGoes_of hc he hi (hb.trans (if_pos h)) rfl,
    fun h => bankLands_of hc he hi (hb.trans (if_neg (by omega))) hbusy⟩

end

-- ## words on a row

section
variable {s : State} {u : Nat} {b : BankUnit} {e : BankExec} {k : BitVec 3} {write : Bool}
  {g : State → BankExec → OpenRow → Nat → BankRes}

/-- A row that was activated for the word: its second part (R243). -/
theorem withRow_part {r : OpenRow} (hr : e.row = some r) (hp : 0 < e.prog) :
    withRow s u b e k write g = if e.prog < 32 then .ok s b { e with prog := 32 } 16 else g s e r 16 := by
  obtain ⟨p, hp⟩ := Nat.exists_eq_add_of_lt hp
  unfold withRow
  rw [hr, show e.prog = p + 1 by omega]

/-- A row that cannot be had is a cause (R229). -/
theorem withRow_stop {s' : State} {e' : BankExec} {c : Cause} {va : DWord} (hp : e.prog = 0)
    (ha : activateRow s u e (rowOffset b k) write = .stop s' e' c va) : withRow s u b e k write g = .cause s' e' c va := by
  unfold withRow
  rw [hp]
  cases e.row <;> (dsimp only; rw [ha])

/-- The first part of a word on a row that was not open (R243). -/
theorem withRow_activated {s' : State} {e' : BankExec} (hp : e.prog = 0)
    (ha : activateRow s u e (rowOffset b k) write = .ok s' e') (hr : ∀ r, e.row = some r → r.off ≠ rowOffset b k) :
    withRow s u b e k write g = .ok s' b { e' with prog := 16, stalled := none } 16 := by
  unfold withRow
  rw [hp]
  cases h : e.row with
  | none => dsimp only; rw [ha]; rfl
  | some r => dsimp only; rw [ha]; exact if_neg (by simpa using hr r h)

/-- A row that is open costs nothing (R235). -/
theorem withRow_open {s' : State} {e' : BankExec} {r0 r : OpenRow} (hp : e.prog = 0)
    (ha : activateRow s u e (rowOffset b k) write = .ok s' e') (h0 : e.row = some r0) (ho : r0.off = rowOffset b k)
    (hr : e'.row = some r) : withRow s u b e k write g = g s' e' r 32 := by
  unfold withRow
  rw [hp, h0]
  dsimp only
  rw [ha]
  exact (if_pos (by simpa using ho)).trans (by rw [hr])

end

/-- The parts of a word on a row, where its effect on the open row is `f`. -/
theorem bankRows_of {s : State} {u : Nat} {e : BankExec} {i : Instr} {k : BitVec 3} {write : Bool}
    {g : BankUnit → State → BankExec → OpenRow → Nat → BankRes} {f : State → BankExec → OpenRow → Nat → Prop}
    (hc : s.cur = .bank u) (he : (s.bank u).exec = some e)
    (hi : exec i s = bankAs i s (fun u b e => withRow s u b e k write (g b)))
    (hf : ∀ s' e' r n, withRow s u (s.bank u) e k write (g (s.bank u)) = g (s.bank u) s' e' r n → f s' e' r n) :
    BankRows s u e i (rowOffset (s.bank u) k) write f := by
  refine ⟨fun r hr hp => ⟨fun h => ?_, fun h => ?_⟩, fun s' e' r hp ha hr => ⟨fun h => ?_, fun r0 h0 ho => ?_⟩,
    fun s' e' c va hp ha => ?_⟩
  · exact bankGoes_of hc he hi ((withRow_part hr hp).trans (if_pos h)) rfl
  · exact hf _ _ _ _ ((withRow_part hr hp).trans (if_neg (by omega)))
  · exact bankGoes_of hc he hi (withRow_activated hp ha h) rfl
  · exact hf _ _ _ _ (withRow_open hp ha h0 ho hr)
  · rw [hi, bankAs_eq hc he, withRow_stop hp ha]
    rfl

-- ## rows of words

theorem maskedRow_eq (m : BitVec 256) (old new : List Word) (f : Nat → Word) (h : ∀ i, i < 256 → new.getD i 0 = f i) :
    maskedRow m old new = (List.range 256).map (fun i => if m.getLsbD i then f i else old.getD i 0) := by
  unfold maskedRow
  refine List.map_congr_left (fun i hi => ?_)
  rw [h i (List.mem_range.mp hi)]

/-- Row register d with `f` in the words that the mask sets (R223). -/
def withMaskedRow (b : BankUnit) (d : BitVec 2) (f : Nat → Word) : BankUnit :=
  setQ b d ((List.range 256).map (fun i => if (bankMask b).getLsbD i then f i else (getQ b d).getD i 0))

theorem setQ_maskedRow (b : BankUnit) (d : BitVec 2) (new : List Word) (f : Nat → Word)
    (h : ∀ i, i < 256 → new.getD i 0 = f i) : setQ b d (maskedRow (bankMask b) (getQ b d) new) = withMaskedRow b d f := by
  unfold withMaskedRow
  rw [maskedRow_eq _ _ _ _ h]

theorem getD_map_range (f : Nat → Word) {i : Nat} (h : i < 256) : ((List.range 256).map f).getD i 0 = f i := by
  simp [List.getD, h]

theorem getD_replicate_row (w : Word) {i : Nat} (h : i < 256) : (List.replicate 256 w).getD i 0 = w := by
  rw [List.getD_eq_getElem?_getD, List.getElem?_replicate_of_lt h]
  rfl

theorem getD_zipWith_row (f : Word → Word → Word) {xs ys : List Word} (hx : xs.length = 256) (hy : ys.length = 256) {i : Nat}
    (h : i < 256) : (List.zipWith f xs ys).getD i 0 = f (xs.getD i 0) (ys.getD i 0) := by
  simp [List.getD, hx, hy, h]

/-- The bits that MPUSH gathers from a row (R224). -/
theorem getLsbD_foldl_bits (p : Nat → Bool) (xs : List Nat) (m : BitVec 256) {j : Nat} (hj : j < 256) :
    (xs.foldl (fun (m : BitVec 256) i => if p i then m ||| (1 <<< i) else m) m).getLsbD j =
      (m.getLsbD j || xs.contains j && p j) := by
  induction xs generalizing m with
  | nil => simp
  | cons i xs ih =>
    have h1 : (BitVec.ofNat 256 (1 <<< i)).getLsbD j = (i == j) := by
      rw [BitVec.getLsbD_ofNat, Nat.one_shiftLeft, Nat.testBit_two_pow]
      simp [hj, Bool.beq_eq_decide_eq]
    rw [List.foldl_cons, ih, List.contains_cons]
    by_cases h : i = j
    · subst h
      cases hp : p i <;> simp [h1]
    · cases hp : p i <;> simp [h1, beq_false_of_ne h, beq_false_of_ne (Ne.symm h)]

-- ## BSMAC, the masks, BKEND and the rows

section
variable {s : State} {u : Nat} {e : BankExec} {sw : Bool} {d a : BitVec 2} {k : BitVec 3} (hc : s.cur = .bank u)
  (he : (s.bank u).exec = some e)
include hc he

/-- BSMAC on whole rows (R156, R157). -/
theorem bsmac_long (hk : bsmacLegal ((s.bank u).k.getD k.toNat 0) = true) (ha : (getQ (s.bank u) a).length = 256)
    (hd : (getQ (s.bank u) d).length = 256) :
    BankLong s u e (.bsmac sw d a k) (withMaskedRow (s.bank u) d (fun i =>
      bsmacWord (modeSat (s.bank u).mode) ((s.bank u).k.getD k.toNat 0) ((getQ (s.bank u) a).getD i 0)
        ((getQ (s.bank u) d).getD i 0))) (bsmacCycles ((s.bank u).k.getD k.toNat 0)) := by
  refine bankLong_of hc he (Eq.refl (execBsmac sw d a k s)) ?_ rfl
  dsimp only
  rw [hk, setQ_maskedRow _ _ _ _ (fun i hi => getD_zipWith_row _ ha hd hi)]
  rfl

/-- A BSMAC parameter that is not legal (R156). -/
theorem bsmac_stops (hk : bsmacLegal ((s.bank u).k.getD k.toNat 0) = false) : BankStops s u (.bsmac sw d a k) := by
  refine bankStops_of hc he (Eq.refl (execBsmac sw d a k s)) ?_
  dsimp only
  rw [hk]
  rfl

/-- MPUSH of the non-zero words, within the mask above (R224). -/
theorem mpush_lands (hl : (s.bank u).mstack.length < 4) : ∃ mk : BitVec 256,
    BankLands s u (.mpush sw a) s { s.bank u with mstack := mk :: (s.bank u).mstack } e 32 ∧
    ∀ i, i < 256 → mk.getLsbD i = ((bankMask (s.bank u)).getLsbD i && decide ((getQ (s.bank u) a).getD i 0 ≠ 0)) := by
  refine ⟨_, bankLands_of hc he (Eq.refl (execMpush sw a s)) (if_neg (by omega)) rfl, fun i hi => ?_⟩
  rw [BitVec.getLsbD_and, getLsbD_foldl_bits (fun i => (getQ (s.bank u) a).getD i 0 != 0) _ _ hi]
  simp [hi, bne, Bool.beq_eq_decide_eq]

theorem mpush_stops (hl : 4 ≤ (s.bank u).mstack.length) : BankStops s u (.mpush sw a) :=
  bankStops_of hc he (Eq.refl (execMpush sw a s)) (if_pos hl)

/-- MPOP leaves the masks below (R224). -/
theorem mpop_lands {m : BitVec 256} {r : List (BitVec 256)} (hm : (s.bank u).mstack = m :: r) :
    BankLands s u (.mpop sw) s { s.bank u with mstack := r } e 1 := by
  refine bankLands_of hc he (Eq.refl (execMpop sw s)) ?_ rfl
  dsimp only
  rw [hm]

/-- MFLIP: the other words of the mask below, or of all (R224). -/
theorem mflip_lands {m : BitVec 256} {r : List (BitVec 256)} (hm : (s.bank u).mstack = m :: r) :
    BankLands s u (.mflip sw) s { s.bank u with mstack := (r.headD (BitVec.allOnes 256) &&& ~~~m) :: r } e 1 := by
  refine bankLands_of hc he (Eq.refl (execMflip sw s)) ?_ rfl
  dsimp only
  rw [hm]
  cases r <;> rfl

/-- A pop of an empty mask stack (R224). -/
theorem mpop_stops (hm : (s.bank u).mstack = []) : BankStops s u (.mpop sw) := by
  refine bankStops_of hc he (Eq.refl (execMpop sw s)) ?_
  rw [hm]

theorem mflip_stops (hm : (s.bank u).mstack = []) : BankStops s u (.mflip sw) := by
  refine bankStops_of hc he (Eq.refl (execMflip sw s)) ?_
  rw [hm]

/-- BKEND takes one bank cycle; inside a long word it is not legal (R231, R235). -/
theorem bkend_goes (hp : e.prog = 0) :
    BankGoes s u (.bkend sw) s (s.bank u) { e with ending := true, stalled := none } 1 :=
  bankGoes_of hc he (Eq.refl (execBkend sw s)) (if_neg (by simp [hp])) rfl

theorem bkend_stops (hp : e.prog ≠ 0) : BankStops s u (.bkend sw) :=
  bankStops_of hc he (Eq.refl (execBkend sw s)) (if_pos (bne_iff_ne.mpr hp))

/-- What ROWLD does on the open row (R236, R250). -/
def RowLoaded (s : State) (u : Nat) (i : Instr) (d : BitVec 2) (s' : State) (e' : BankExec) (r : OpenRow) (n : Nat) : Prop :=
  ∃ ws : List Word,
    (inImageWindow (drainRow s' r.t) e'.run.ctx (openVa e').toNat = false →
      ws = readWords (drainRow s' r.t).mem (rowKey r.t) 256) ∧
    BankLands s u i (drainRow s' r.t)
      (setQ (s.bank u) d (maskedRow (bankMask (s.bank u)) (getQ (s.bank u) d) ws))
      { e' with row := some { r with written := r.written || bufferedDirty s' r.t } } n

/-- What ROWST does on the open row (R236). -/
def RowStored (s : State) (u : Nat) (i : Instr) (a : BitVec 2) (s' : State) (e' : BankExec) (r : OpenRow) (n : Nat) : Prop :=
  ∃ ws : List Word,
    (writesWindow (sealBlock (drainRow s' r.t) r.t) e'.run.ctx (openVa e').toNat (.write 0) = false →
      ws = getQ (s.bank u) a) ∧
    BankLands s u i { sealBlock (drainRow s' r.t) r.t with
      mem := writeWords (sealBlock (drainRow s' r.t) r.t).mem (rowKey r.t)
        (maskedRow (bankMask (s.bank u)) (readWords (sealBlock (drainRow s' r.t) r.t).mem (rowKey r.t) 256) ws) }
      (s.bank u) { e' with row := some { r with written := true } } n

theorem rowld_rows : BankRows s u e (.rowld sw d k) (rowOffset (s.bank u) k) false (RowLoaded s u (.rowld sw d k) d) := by
  refine bankRows_of hc he (Eq.refl (execRowld sw d k s)) (fun s' e' r n h => ?_)
  exact ⟨_, fun hw => if_neg (by simpa using hw), bankLands_of hc he (Eq.refl (execRowld sw d k s)) h rfl⟩

theorem rowst_rows : BankRows s u e (.rowst sw a k) (rowOffset (s.bank u) k) true (RowStored s u (.rowst sw a k) a) := by
  refine bankRows_of hc he (Eq.refl (execRowst sw a k s)) (fun s' e' r n h => ?_)
  exact ⟨_, fun hw => if_neg (by simpa using hw), bankLands_of hc he (Eq.refl (execRowst sw a k s)) h rfl⟩

-- ## the coach instructions that a bank unit executes (R93, R235)

/-- An arithmetic word works under the unit's own MODE (R93, R94). -/
theorem alu_lands {op : VOp} {x y : BReg} (hop : bankTypeOk op (modeEt (s.bank u).mode) = true) :
    BankLands s u (.bankSubsetInstruction (.alu op d x y)) s (withMaskedRow (s.bank u) d (fun i =>
      (vop op (bankNum (s.bank u).mode) (((bankOperand (s.bank u) x).getD i 0).setWidth 64)
        (((bankOperand (s.bank u) y).getD i 0).setWidth 64) (((getQ (s.bank u) d).getD i 0).setWidth 64)).setWidth 32)) e 32 := by
  refine bankLands_of hc he (Eq.refl (execBankSubsetInstruction (.alu op d x y) s)) ?_ rfl
  dsimp only [bankOpRes]
  rw [hop, setQ_maskedRow _ _ _ _ (fun i hi => getD_map_range _ hi)]
  rfl

/-- A type that the operation does not accept (R94, R418). -/
theorem alu_stops {op : VOp} {x y : BReg} (hop : bankTypeOk op (modeEt (s.bank u).mode) = false) :
    BankStops s u (.bankSubsetInstruction (.alu op d x y)) := by
  refine bankStops_of hc he (Eq.refl (execBankSubsetInstruction (.alu op d x y) s)) ?_
  dsimp only [bankOpRes]
  rw [hop]
  rfl

theorem sel_lands {x y : BReg} :
    BankLands s u (.bankSubsetInstruction (.sel d x y)) s
      (setQ (s.bank u) d (maskedRow (bankMask (s.bank u)) (bankOperand (s.bank u) y) (bankOperand (s.bank u) x))) e 32 :=
  bankLands_of hc he (Eq.refl (execBankSubsetInstruction (.sel d x y) s)) rfl rfl

theorem cmp_lands {cb : Comb} {cd : Cond} {x y : BReg} :
    BankLands s u (.bankSubsetInstruction (.cmp cb cd d x y)) s (withMaskedRow (s.bank u) d (fun i =>
      if combine cb ((getQ (s.bank u) d).getD i 0 != 0)
          (elemCond cd (modeEt (s.bank u).mode) (modeFtz (s.bank u).mode) ((bankOperand (s.bank u) x).getD i 0).toNat
            ((bankOperand (s.bank u) y).getD i 0).toNat) then 1 else 0)) e 32 := by
  refine bankLands_of hc he (Eq.refl (execBankSubsetInstruction (.cmp cb cd d x y) s)) ?_ rfl
  dsimp only [bankOpRes]
  rw [setQ_maskedRow _ _ _ _ (fun i hi => getD_map_range _ hi)]

theorem vli_lands {imm : BitVec 16} :
    BankLands s u (.bankSubsetInstruction (.vli d imm)) s (withMaskedRow (s.bank u) d (fun _ => imm.signExtend 32)) e 32 := by
  refine bankLands_of hc he (Eq.refl (execBankSubsetInstruction (.vli d imm) s)) ?_ rfl
  dsimp only [bankOpRes]
  rw [setQ_maskedRow _ _ _ _ (fun i hi => getD_replicate_row _ hi)]

/-- A jump to a word of the kernel (R231). -/
theorem bra_goes {o : BitVec 24} (h : 0 ≤ (e.upc : Int) + o.toInt ∧ (e.upc : Int) + o.toInt ≤ 63) :
    BankGoes s u (.bankSubsetInstruction (.bra o)) s (s.bank u) { e with upc := ((e.upc : Int) + o.toInt).toNat } 1 :=
  bankGoes_of hc he (Eq.refl (execBankSubsetInstruction (.bra o) s)) (if_neg (by simp; omega)) rfl

/-- A jump out of the kernel (R231). -/
theorem bra_stops {o : BitVec 24} (h : (e.upc : Int) + o.toInt < 0 ∨ 63 < (e.upc : Int) + o.toInt) :
    BankStops s u (.bankSubsetInstruction (.bra o)) :=
  bankStops_of hc he (Eq.refl (execBankSubsetInstruction (.bra o) s)) (if_pos (by simpa using h))

theorem modeLo_lands {imm : BitVec 16} (h : bankModeLoOk imm = true) :
    BankLands s u (.bankSubsetInstruction (.modeLo imm)) s
      { s.bank u with mode := (s.bank u).mode.extractLsb' 16 16 ++ imm } e 1 := by
  refine bankLands_of hc he (Eq.refl (execBankSubsetInstruction (.modeLo imm) s)) ?_ rfl
  dsimp only [bankOpRes]
  rw [h]
  rfl

theorem modeLo_stops {imm : BitVec 16} (h : bankModeLoOk imm = false) :
    BankStops s u (.bankSubsetInstruction (.modeLo imm)) := by
  refine bankStops_of hc he (Eq.refl (execBankSubsetInstruction (.modeLo imm) s)) ?_
  dsimp only [bankOpRes]
  rw [h]
  rfl

end

-- ## after BKEND

theorem step_of_spent {s s' : State} {u : Nat} (hc : s.cur = .bank u) (hf : fetchBank s u = .spent s') :
    step s = .next s'.endTurn := by
  unfold step
  rw [hc]; dsimp only
  rw [hf]
  rfl

/-- A precharge keeps the row, unless it was written and its key has gone (R240). -/
theorem closeRow_kept {s : State} {e : BankExec} {r : OpenRow} (hr : e.row = some r)
    (hk : r.written = true → rowKeyLive s r = true) : closeRow s e = (s, { e with row := none }, true) := by
  unfold closeRow
  rw [hr]
  exact if_neg (by simpa using hk)

theorem closeRow_dropped {s : State} {e : BankExec} {r : OpenRow} (hr : e.row = some r) (hw : r.written = true)
    (hk : rowKeyLive s r = false) : closeRow s e = (dropRow s r, { e with row := none }, false) := by
  unfold closeRow
  rw [hr]
  exact if_pos (by simp [hw, hk])

@[simp] theorem settleBankTag_banks (s : State) (tid : Nat) (tag : Word) : (settleBankTag s tid tag).banks = s.banks := by
  unfold settleBankTag endTag
  split
  · rfl
  · exact modTeam_banks _ _ _

@[simp] theorem settleBankTag_mem (s : State) (tid : Nat) (tag : Word) : (settleBankTag s tid tag).mem = s.mem := by
  unfold settleBankTag endTag
  split
  · rfl
  · exact modTeam_mem _ _ _

@[simp] theorem endRun_mem (s : State) (u : Nat) (e : BankExec) : (endRun s u e).mem = s.mem := settleBankTag_mem _ _ _

/-- The unit after its run (R231); with KEEP its registers stay (R234). -/
theorem endRun_bank (s : State) (u : Nat) (e : BankExec) : (endRun s u e).bank u = { s.bank u with
    exec := none
    q := if e.run.ctl.getLsbD 16 then (s.bank u).q else List.replicate 4 zeroRow
    kept := if e.run.ctl.getLsbD 16 then
        Store.insert (s.bank u).kept e.run.ctx ⟨{ e with row := none, opening := none, prog := 0, ending := false }, false,
          (s.bank u).q, (s.bank u).k, (s.bank u).mode, (s.bank u).mstack⟩
      else (s.bank u).kept
    mstack := [] } := by
  unfold State.bank endRun
  rw [settleBankTag_banks]
  exact congrArg (Option.getD · BankUnit.empty) (Store.find_insert_self _ _ _)

/-- A unit of a running context whose bank cycles have passed has its turn (R243). -/
theorem fetchBank_ready {s : State} {u : Nat} {e : BankExec} (ha : ctxActive s e.run.ctx = true)
    (hb : (s.bank u).busy ≤ bankCycle s) :
    (!ctxActive s e.run.ctx || decide (bankCycle s < (s.bank u).busy)) = false := by
  rw [ha, decide_eq_false (Nat.not_lt.mpr hb)]
  rfl

section
variable {s : State} {u : Nat} {e : BankExec} (he : (s.bank u).exec = some e) (ha : ctxActive s e.run.ctx = true)
  (hb : (s.bank u).busy ≤ bankCycle s) (hend : e.ending = true) (hop : e.opening = none)
include he ha hb hend hop

/-- Once the precharge is over, the run ends (R231, R232). -/
theorem fetchBank_over (hr : e.row = none) : fetchBank s u = .spent (endRun s u e) := by
  have hover : runOver e = true := by simp only [runOver, hend, hr, hop, Option.isNone_none, Bool.and_self]
  unfold fetchBank
  simp only [he, fetchBank_ready ha hb, hover, if_true, Bool.false_eq_true, if_false]

/-- At the boundary after BKEND the row is precharged (R231). -/
theorem fetchBank_ending {r : OpenRow} (hr : e.row = some r) (hrb : rowBoundary u s = none) :
    fetchBank s u = .spent (endPass s u e) := by
  have hover : runOver e = false := by simp only [runOver, hr, Option.isNone_some, Bool.and_false, Bool.false_and]
  unfold fetchBank
  simp only [he, fetchBank_ready ha hb, hover, hrb, hop, hend, if_true, Bool.false_eq_true, if_false]

/-- The next pass begins, or the run is over, eight bank cycles after the boundary (R231, R240). -/
theorem step_endPass (hc : s.cur = .bank u) {r : OpenRow} (hr : e.row = some r) (hrb : rowBoundary u s = none)
    (hk : r.written = true → rowKeyLive s r = true) :
    step s = .next (s.setBank u { s.bank u with
      busy := (s.bank u).busy + 8, mstack := []
      exec := some (if e.pass + 1 < field e.run.ctl.toNat 13 0 then
        { e with row := none, pass := e.pass + 1, upc := 0, opening := some 0, ending := false, advanced := true }
        else { e with row := none, advanced := true }) }).endTurn := by
  rw [step_of_spent hc (fetchBank_ending he ha hb hend hop hr hrb)]
  unfold endPass
  rw [closeRow_kept hr hk]

/-- A written row whose key has gone halts the context (R240). -/
theorem step_endPass_keyEnded (hc : s.cur = .bank u) {r : OpenRow} (hr : e.row = some r) (hrb : rowBoundary u s = none)
    (hw : r.written = true) (hk : rowKeyLive s r = false) :
    step s = .next (bankCause ((dropRow s r).setBank u { s.bank u with exec := some { e with row := none } }) u .keyEnded
      (openVa e)).endTurn := by
  rw [step_of_spent hc (fetchBank_ending he ha hb hend hop hr hrb)]
  unfold endPass
  rw [closeRow_dropped hr hw hk]
  rfl

end

/-- Settles O49: each word by the lemma for its form of result. -/
theorem bankKernel : Obligations.BankKernel := by
  unfold Obligations.BankKernel
  intro s u e sw d a k hc he b m goes stops lands on long q row off loaded stored rows
  refine ⟨bankLong_of hc he (Eq.refl (execBfpadd sw d a s)) rfl rfl, bankLands_of hc he (Eq.refl (execBfpout sw d a s)) rfl rfl,
    bsmac_long hc he, bsmac_stops hc he, mpush_lands hc he, mpush_stops hc he,
    fun m0 r hm => ⟨mpop_lands hc he hm, mflip_lands hc he hm⟩, fun hm => ⟨mpop_stops hc he hm, mflip_stops hc he hm⟩,
    rowld_rows hc he, rowst_rows hc he, bkend_goes hc he, bkend_stops hc he,
    fun ha hb hend hop => ⟨fun r hr hrb => ⟨?_, ?_⟩, fun hr => ?_⟩, ?_⟩
  · exact step_endPass he ha hb hend hop hc hr hrb
  · exact step_endPass_keyEnded he ha hb hend hop hc hr hrb
  · refine ⟨endRun s u e, step_of_spent hc (fetchBank_over he ha hb hend hop hr), ?_, endRun_mem s u e, fun hkeep => ?_⟩
    · rw [endRun_bank]
    · rw [endRun_bank, hkeep]
      exact ⟨rfl, _, Store.find_insert_self _ _ _, rfl, rfl, rfl⟩
  · intro x g
    exact ⟨fun op y z => alu_lands hc he, fun op y z => alu_stops hc he, fun y z => sel_lands hc he,
      fun cb cd y z => cmp_lands hc he, fun imm => vli_lands hc he, fun o => ⟨bra_goes hc he, bra_stops hc he⟩,
      fun imm => ⟨modeLo_lands hc he, modeLo_stops hc he⟩,
      bankLands_of hc he (Eq.refl (execBankSubsetInstruction .modeHi s)) rfl rfl⟩

end Sys2Proof.Machine
end

