-- ==== Sys2Proof/Proofs/SpecialRegisters.lean ====
section
/-! The specials (R95, R96, R384, R385): what MFS reads and latches, what MTS writes and where it traps, and O24. -/
namespace Sys2Proof.Machine
open Sys2Proof

/-- A split after MFS has read the special `n`: a _LO counter latches its high half (R96). -/
def latchAfterRead (s : State) (n : BitVec 5) (y : Split) : Split :=
  if n = 7 then { y with gtimeLatch := some ((s.clk.gtime >>> 32).setWidth 32) }
  else if n = 9 then { y with cycleLatch := some ((s.clk.cycle >>> 32).setWidth 32) } else y

theorem latchAfterRead_uid (s : State) (n : BitVec 5) (y : Split) : (latchAfterRead s n y).uid = y.uid := by
  unfold latchAfterRead
  split
  · rfl
  · split <;> rfl

theorem latchAfterRead_eq_id {s : State} {n : BitVec 5} (h7 : n ≠ 7) (h9 : n ≠ 9) : latchAfterRead s n = id := by
  funext y; unfold latchAfterRead; rw [if_neg h7, if_neg h9]; rfl

/-- The statements' change of a split is the model's. -/
theorem withSplit_eq_modSplit (t : Team) (uid : Nat) (f : Split → Split) : withSplit t uid f = t.modSplit uid f := by
  simp only [withSplit, Team.modSplit, beq_iff_eq]

theorem modSplit_id (t : Team) (uid : Nat) : t.modSplit uid id = t := by
  simp [Team.modSplit]

/-- An instruction that names no vector register and no scalar as its destination waits for no pending write. -/
theorem writeHeld_noDest (t : Team) (x : Split) {u : Uses} (hv : u.vw = []) (hs : u.sw = []) : writeHeld t x u = false := by
  unfold writeHeld
  rw [List.any_eq_false, hv, hs]
  intro p _
  split <;> simp

/-- MTS of a special that may be written is ready: it reads and writes no register that could be held. -/
theorem ready_mts (t : Team) (x : Split) {n : BitVec 5} (hn : specialWritable n.toNat = true) :
    Ready t x { spec := [n.toNat], regOk := specialWritable n.toNat } :=
  ⟨hn, rfl, rfl, writeHeld_noDest t x rfl rfl, rfl, .inr rfl⟩

section
variable {s : State} {tid uid : Nat} {t : Team} {x : Split} {sw : Bool} {d a : BitVec 6} {n : BitVec 5} (hs : AtIssue s tid uid t x)
include hs

/-- R384: MFS writes the value of the special to D, and the latch of a _LO counter. -/
theorem completes_mfs (hr : Ready t x { sw := [d.toNat] }) :
    Completes (.mfs sw d n) s (s.setTeam tid ((t.setS d.toNat
      (specialValue s (issueOf tid uid t x (.mfs sw d n)) n.toNat)).modSplit uid (latchAfterRead s n))) tid uid sw (x.pc + 4) [] := by
  have hx : (t.setS d.toNat (specialValue s (issueOf tid uid t x (.mfs sw d n)) n.toNat)).split uid = some x := by
    unfold Team.split; rw [setS_splits]; exact hs.2.2
  refine completes_next (u := fun _ => { sw := [d.toNat] }) hs rfl hr ?_ (team_setTeam_self _ _ _)
    (split_modSplit_self _ (latchAfterRead_uid s n) hx)
  refine congrArg (fun u => Res.next (s.setTeam tid u)) ?_
  split
  · next h => rw [show n = 7 from BitVec.eq_of_toNat_eq h]; rfl
  · next h => rw [show n = 9 from BitVec.eq_of_toNat_eq h]; rfl
  · next h7 h9 =>
    rw [latchAfterRead_eq_id (fun h => h7 (by rw [h]; rfl)) (fun h => h9 (by rw [h]; rfl)), modSplit_id]; rfl

/-- R385: MTS of a special that may be written, and of TVEC and TPC where the address is aligned. -/
theorem completes_mts {u : Team} (hn : specialWritable n.toNat = true)
    (ha : (n = 0x0B ∨ n = 0x0C) → (s.rs t a.toNat).extractLsb' 0 2 = 0)
    (hu : writeSpecial t uid n.toNat (s.rs t a.toNat) = u) (hsp : u.splits = t.splits) :
    Completes (.mts sw n a) s (s.setTeam tid u) tid uid sw (x.pc + 4) [] := by
  refine completes_next (u := fun _ => { spec := [n.toNat], regOk := specialWritable n.toNat }) hs rfl (ready_mts t x hn) ?_
    (team_setTeam_self _ _ _) (xe := x) (by unfold Team.split; rw [hsp]; exact hs.2.2)
  subst hu
  refine if_neg ?_
  simpa [issueOf] using ha

/-- An instruction that ends in a cause takes it one cycle later, and nothing else has happened (R294). -/
theorem answers_trap {i : Instr} {u : Issue → Uses} {body : Issue → Res} {c : Cause} {info : Word} {addr : DWord}
    (hi : exec i s = issueAs false i sw u oneCycle s body)
    (hc : checked (issueOf tid uid t x i) (u (issueOf tid uid t x i)) s body = .trap c info addr) :
    Answers i s (takeCause (s.tick 1) tid uid ⟨c, info, addr⟩) tid :=
  ⟨_, hi.trans (issueAs_of hs hc rfl), OnlyTeam.refl _ _, fun te h => ⟨te, h, teamKept_refl te, rfl, rfl⟩⟩

/-- R385: TVEC and TPC take no misaligned address. -/
theorem answers_mts_misaligned (hn : n = 0x0B ∨ n = 0x0C) (ha : (s.rs t a.toNat).extractLsb' 0 2 ≠ 0) :
    Answers (.mts sw n a) s (takeCause (s.tick 1) tid uid ⟨.misalign, 0x80000000, t.codeHi ++ s.rs t a.toNat⟩) tid := by
  refine answers_trap (u := fun _ => { spec := [n.toNat], regOk := specialWritable n.toNat }) hs rfl ?_
  refine (checked_ready (ready_mts t x ?_) s _).trans ?_
  · rcases hn with rfl | rfl <;> rfl
  · refine if_pos ?_
    simpa [issueOf] using ⟨hn, ha⟩

/-- R95, R385: a special that may not be written. -/
theorem answers_mts_readOnly (hn : specialWritable n.toNat = false) :
    Answers (.mts sw n a) s (takeCause (s.tick 1) tid uid
      ⟨.illegalReg, (issueOf tid uid t x (.mts sw n a)).word, t.codeHi ++ x.pc⟩) tid := by
  refine answers_trap (u := fun _ => { spec := [n.toNat], regOk := specialWritable n.toNat }) hs rfl ?_
  unfold checked staticTrap
  dsimp only
  rw [hn]
  rfl

end

theorem specialWritable_iff (n : BitVec 5) : specialWritable n.toNat = true ↔
    n ∈ [0#5, 0x0B#5, 0x0C#5, 0x12#5, 0x13#5, 0x14#5, 0x15#5, 0x16#5, 0x17#5, 0x18#5] := by
  revert n; decide

/-- R22, R23: COACHID of a coach that runs teams. -/
theorem coachNumber_of_lt {c : Nat} (h : c < 512) : coachNumber c = c := if_pos h

/-- Settles O24: the values by the table of specials, and one lemma for each form of MFS and MTS. -/
theorem specialRegisters : Obligations.SpecialRegisters := by
  unfold Obligations.SpecialRegisters
  intro s tid uid t x sw d a n hs c v is wr
  have latched : ∀ {l : Option Word} {w : Word}, l = some w → l.getD 0 = w := fun h => by rw [h]; rfl
  have unset : ∀ {l : Option Word}, l = none → l.getD 0 = 0 := fun h => by rw [h]; rfl
  have written : ∀ {u : Team}, specialWritable n.toNat = true → n ≠ 0x0B → n ≠ 0x0C →
      writeSpecial t uid n.toNat v = u → u.splits = t.splits → wr u :=
    fun hn hb hc => completes_mts hs hn (fun h => (h.elim hb hc).elim)
  refine ⟨fun hr => ?_, ⟨rfl, rfl, rfl, rfl, rfl, fun hc => ?_, rfl, fun _ => latched, unset, rfl, fun _ => latched, unset,
    rfl, rfl, rfl, rfl, rfl, rfl, rfl, rfl, rfl, rfl, rfl, rfl, rfl, rfl, rfl, rfl, rfl, rfl, rfl, rfl, rfl⟩, ?_⟩
  · rw [withSplit_eq_modSplit]; exact completes_mfs hs hr
  · have h := coachNumber_of_lt hc
    exact ⟨by simp only [is, specialValue, c, issueOf, h], by simp only [is, specialValue, c, issueOf, h]⟩
  refine ⟨?tvec, ?tpc, ?tsa, ?tsb, ?tsca, ?tscb, ?events, ?eventsKept, ?evmask, ?seed, answers_mts_misaligned hs,
    fun hn => answers_mts_readOnly hs (Bool.eq_false_iff.mpr (mt (specialWritable_iff n).mp hn))⟩
  case tvec => rintro rfl ha; exact completes_mts hs rfl (fun _ => ha) rfl rfl
  case tpc => rintro rfl ha; exact completes_mts hs rfl (fun _ => ha) rfl rfl
  case events => rintro rfl h; exact written rfl (by decide) (by decide) (if_pos h) rfl
  case eventsKept => rintro rfl h; exact written rfl (by decide) (by decide) (if_neg (Bool.eq_false_iff.mp h)) rfl
  all_goals rintro rfl; exact written rfl (by decide) (by decide) rfl rfl

end Sys2Proof.Machine
end

