-- ==== Sys2Proof/Proofs/Halts.lean ====
section
/-! What a halt does (R298, R300, R302): one equation for the contexts, the teams that stop, and the frame, which is
everything but contexts, teams and flits. -/
namespace Sys2Proof.Machine
open Sys2Proof

-- ## sending flits

/-- Flits have been sent, and nothing else has changed. -/
def OnlySends (s e : State) : Prop := { e with outbox := s.outbox } = s

theorem OnlySends.refl (s : State) : OnlySends s s := rfl

theorem OnlySends.trans {a b c : State} (h1 : OnlySends a b) (h2 : OnlySends b c) : OnlySends a c := by
  unfold OnlySends at *
  exact (congrArg (fun z : State => { z with outbox := a.outbox }) h2).trans h1

theorem OnlySends.ctxs {s e : State} (h : OnlySends s e) : e.ctxs = s.ctxs := by have := congrArg State.ctxs h; exact this
theorem OnlySends.teams {s e : State} (h : OnlySends s e) : e.teams = s.teams := by have := congrArg State.teams h; exact this
theorem OnlySends.mem {s e : State} (h : OnlySends s e) : e.mem = s.mem := by have := congrArg State.mem h; exact this

theorem onlySends_send (s : State) (part member ctx src dst : Nat) (f : Flit) :
    OnlySends s (s.send part member ctx src dst f) := by
  unfold State.send; split <;> rfl

theorem onlySends_foldl {α : Type} {f : State → α → State} (hf : ∀ a x, OnlySends a (f a x)) (xs : List α) (s : State) :
    OnlySends s (xs.foldl f s) := by
  induction xs generalizing s with
  | nil => rfl
  | cons x xs ih => exact (hf s x).trans (ih _)

-- ## what a halt changes

/-- The record of a context's first cause (R298). -/
def firstHalt (s : State) (h : HaltCause) : HaltRec :=
  ⟨h, s.clk.gtime, false, false, none, [], s.clk.cycle, if h.cause == .bankFault then some h.unit else none⟩

/-- A context that a cause has reached: the first halts it, a later one goes to its record (R298, R300). -/
def haltedBy (s : State) (h : HaltCause) (c : Context) : Context :=
  match c.halt with
  | some r => { c with halt := some (laterCause s.clk.cycle r h) }
  | none => { c with
      halt := some (firstHalt s h)
      running := false
      rxOpen := if c.running then some s.clk.gtime else c.rxOpen }

/-- The teams of a context have stopped (R298). -/
def stopTeams (ctx : Nat) (teams : List (Nat × Team)) : List (Nat × Team) :=
  teams.map (fun e => if e.2.ctx == ctx && !e.2.sys then (e.1, { e.2 with running := false }) else e)

theorem haltContext_none {s : State} {h : HaltCause} (hc : s.ctx h.ctx = none) : haltContext s h = s := by
  unfold haltContext; rw [hc]

/-- The first cause of a context: it halts, its teams stop, and its members are told. -/
theorem haltContext_first {s : State} {h : HaltCause} {c : Context} (hc : s.ctx h.ctx = some c) (hh : c.halt = none) :
    OnlySends { s with ctxs := Store.insert s.ctxs h.ctx (haltedBy s h c), teams := stopTeams h.ctx s.teams } (haltContext s h) := by
  unfold haltContext
  split
  · next hn => rw [hc] at hn; cases hn
  · next c' hc' =>
    obtain rfl : c = c' := Option.some.inj (hc.symm.trans hc')
    split
    · next hr => rw [hh] at hr; cases hr
    · extract_lets s1 s2
      have h2 : s2 = { s with ctxs := Store.insert s.ctxs h.ctx (haltedBy s h c), teams := stopTeams h.ctx s.teams } := by
        unfold s2 s1 State.modCtx haltedBy; rw [hc, hh]; rfl
      rw [← h2]
      split
      · exact OnlySends.refl _
      · exact onlySends_foldl (fun a m => onlySends_send _ _ _ _ _ _ _) _ _

/-- The contexts after a cause: it reaches the one that it names. -/
theorem ctx_haltContext (s : State) (h : HaltCause) (k : Nat) :
    (haltContext s h).ctx k = if k = h.ctx then (s.ctx k).map (haltedBy s h) else s.ctx k := by
  cases hc : s.ctx h.ctx with
  | none =>
    rw [haltContext_none hc]
    split
    · next hk => rw [hk, hc]; rfl
    · rfl
  | some c =>
    cases hh : c.halt with
    | none =>
      have h1 := (haltContext_first hc hh).ctxs
      split
      · next hk =>
        subst hk
        rw [hc]
        exact (congrArg (Store.find · _) h1).trans (Store.find_insert_self _ _ _)
      · next hk => exact (congrArg (Store.find · _) h1).trans (Store.find_insert_ne _ _ hk)
    | some r =>
      rw [haltContext_again hc hh]
      split
      · next hk =>
        subst hk
        rw [ctx_modCtx_self, hc]
        simp only [Option.map_some, haltedBy, hh]
      · next hk => exact ctx_modCtx_ne _ _ hk

/-- A halt changes contexts and teams and sends flits; the rest of the state is left alone. -/
theorem haltContext_frame (s : State) (h : HaltCause) :
    { haltContext s h with ctxs := s.ctxs, teams := s.teams, outbox := s.outbox } = s := by
  cases hc : s.ctx h.ctx with
  | none => rw [haltContext_none hc]
  | some c =>
    cases hh : c.halt with
    | none => exact congrArg (fun z : State => { z with ctxs := s.ctxs, teams := s.teams, outbox := s.outbox }) (haltContext_first hc hh)
    | some r => rw [haltContext_again hc hh]; unfold State.modCtx; rw [hc]

@[simp] theorem haltContext_coaches (s : State) (h : HaltCause) : (haltContext s h).coaches = s.coaches := by
  have := congrArg State.coaches (haltContext_frame s h); exact this
@[simp] theorem haltContext_l2 (s : State) (h : HaltCause) : (haltContext s h).l2 = s.l2 := by
  have := congrArg State.l2 (haltContext_frame s h); exact this

-- ## a context that a first cause has halted

/-- Context `k` has halted for a cause that `q` describes, its records are not written yet, and it does not run. -/
def Stopped (e : State) (k : Nat) (q : HaltCause → Prop) : Prop :=
  ∃ x r, e.ctx k = some x ∧ x.halt = some r ∧ r.finished = false ∧ x.running = false ∧ q r.h

theorem Stopped.mono {e : State} {k : Nat} {p q : HaltCause → Prop} (hs : Stopped e k p) (h : ∀ g, p g → q g) : Stopped e k q := by
  obtain ⟨x, r, hx, hr, hf, hn, hp⟩ := hs
  exact ⟨x, r, hx, hr, hf, hn, h _ hp⟩

/-- R298: the first cause is the one in the halt record. -/
theorem stopped_haltContext {s : State} {h : HaltCause} {c : Context} (hc : s.ctx h.ctx = some c) (hh : c.halt = none) :
    Stopped (haltContext s h) h.ctx (· = h) := by
  refine ⟨haltedBy s h c, firstHalt s h, ?_, ?_, rfl, ?_, rfl⟩
  · rw [ctx_haltContext, if_pos rfl, hc]; rfl
  · simp only [haltedBy, hh]
  · simp only [haltedBy, hh]

/-- R298: no team of a context that halts runs on. -/
theorem not_running_haltContext {s : State} {h : HaltCause} {c : Context} (hc : s.ctx h.ctx = some c) (hh : c.halt = none)
    {k : Nat} {t : Team} (ht : (k, t) ∈ (haltContext s h).teams) (htc : t.ctx = h.ctx) (hsys : t.sys = false) :
    t.running = false := by
  have h1 : (haltContext s h).teams = stopTeams h.ctx s.teams := (haltContext_first hc hh).teams
  rw [h1] at ht
  obtain ⟨⟨j, u⟩, -, hu⟩ := List.mem_map.mp ht
  split at hu
  · cases hu; rfl
  · next hstop => cases hu; simp [htc, hsys] at hstop

/-- Noting the team that raised the cause leaves the context halted (R302). -/
theorem Stopped.setHaltTeam {e : State} {k : Nat} {q : HaltCause → Prop} (hs : Stopped e k q) (team : Option Nat) :
    Stopped (e.modCtx k (fun c => { c with halt := c.halt.map (fun r => { r with team := team }) })) k q := by
  obtain ⟨x, r, hx, hr, hf, hn, hq⟩ := hs
  exact ⟨{ x with halt := x.halt.map (fun r => { r with team := team }) }, { r with team := team },
    by rw [ctx_modCtx_self, hx]; rfl, congrArg (Option.map _) hr, hf, hn, hq⟩

/-- R302: the first cause of a team halts its context with origin 0 and the coach as unit. -/
theorem stopped_haltTeam {s : State} {tid : Nat} {t : Team} {c : Context} (ht : s.team tid = some t)
    (hc : s.ctx t.ctx = some c) (hh : c.halt = none) (uid : Nat) (k : TrapInfo) :
    Stopped (haltTeam s tid uid k) t.ctx (· = ⟨t.ctx, k.cause, 0, t.coach, k.tinfo, k.taddr⟩) := by
  unfold haltTeam
  split
  · next hn => rw [ht] at hn; cases hn
  · next t' ht' =>
    obtain rfl : t = t' := Option.some.inj (ht.symm.trans ht')
    extract_lets s1 h primary s2
    have hc1 : s1.ctx t.ctx = some c := by
      unfold s1 State.ctx; rw [modTeam_ctxs]; exact hc
    have h2 : Stopped s2 t.ctx (· = h) := stopped_haltContext (h := h) hc1 hh
    split
    · exact h2.setHaltTeam _
    · exact h2

-- ## contexts halted one after another

/-- Context `k`, if it is there, has halted. -/
def Halted (s : State) (k : Nat) : Prop := ∀ x, s.ctx k = some x → x.halt.isSome = true

theorem haltedBy_isSome (s : State) (h : HaltCause) (c : Context) : (haltedBy s h c).halt.isSome = true := by
  unfold haltedBy; split <;> rfl

theorem halted_haltContext (s : State) (h : HaltCause) : Halted (haltContext s h) h.ctx := by
  intro x hx
  rw [ctx_haltContext, if_pos rfl, Option.map_eq_some_iff] at hx
  obtain ⟨c, -, rfl⟩ := hx
  exact haltedBy_isSome s h c

/-- A halted context stays halted through every later cause. -/
theorem Halted.haltContext {s : State} {k : Nat} (hs : Halted s k) (h : HaltCause) : Halted (haltContext s h) k := by
  by_cases hk : k = h.ctx
  · subst hk; exact halted_haltContext s h
  · intro x hx
    rw [ctx_haltContext, if_neg hk] at hx
    exact hs x hx

end Sys2Proof.Machine
end

