-- ==== Sys2Proof/Proofs/HaltsAndErrors.lean ====
section
/-! The events that halt contexts and report errors (R28, R68, R200, R298 to R302, R307 to R310, R329, R333), and O54. -/
namespace Sys2Proof.Machine
open Sys2Proof

-- ## the halt of a context and its records

/-- R298: the first cause. -/
theorem exec_contextHalt_first {s : State} {h : HaltCause} {c : Context} (h16 : h.ctx < 16) (hc : s.ctx h.ctx = some c)
    (hh : c.halt = none) :
    ∃ e, exec (.contextHalt h) s = .next e ∧ e.mem = s.mem ∧ Stopped e h.ctx (· = h) ∧
      (∀ k t, (k, t) ∈ e.teams → t.ctx = h.ctx → t.sys = false → t.running = false) :=
  ⟨haltContext s h, if_pos h16, haltContext_mem s h, stopped_haltContext hc hh, fun _ _ => not_running_haltContext hc hh⟩

/-- R300: team before engine, then ascending unit number. -/
theorem causeBefore_iff (a b : HaltCause) : causeBefore a b = true ↔
    if a.origin = 0 then b.origin ≠ 0 ∨ a.unit < b.unit else b.origin ≠ 0 ∧ a.unit < b.unit := by
  unfold causeBefore
  by_cases h : a.origin = 0 <;> simp [h]

/-- R300: a later cause is the one recorded only where it came in the same cycle and goes before. -/
theorem laterCause_h {cycle : DWord} {g : HaltRec} (h : HaltCause) (hf : g.finished = false) :
    (laterCause cycle g h).h = if g.cycle = cycle ∧
      (if h.origin = 0 then g.h.origin ≠ 0 ∨ h.unit < g.h.unit else g.h.origin ≠ 0 ∧ h.unit < g.h.unit) then h else g.h := by
  unfold laterCause
  rw [hf]
  refine ite_congr (propext ?_) (fun _ => rfl) (fun _ => rfl)
  rw [Bool.and_eq_true, beq_iff_eq, causeBefore_iff]

theorem laterCause_time (cycle : DWord) (g : HaltRec) (h : HaltCause) : (laterCause cycle g h).time = g.time := by
  unfold laterCause; split <;> rfl

theorem laterCause_finished (cycle : DWord) (g : HaltRec) (h : HaltCause) : (laterCause cycle g h).finished = g.finished := by
  unfold laterCause; split <;> rfl

/-- R300: a later cause. -/
theorem exec_contextHalt_later {s : State} {h : HaltCause} {c : Context} {g : HaltRec} (h16 : h.ctx < 16)
    (hc : s.ctx h.ctx = some c) (hh : c.halt = some g) (hf : g.finished = false) :
    ∃ e x r, exec (.contextHalt h) s = .next e ∧ e.ctx h.ctx = some x ∧ x.halt = some r ∧ e.mem = s.mem ∧ e.teams = s.teams ∧
      r.time = g.time ∧ r.finished = false ∧
      r.h = (if g.cycle = s.clk.cycle ∧
        (if h.origin = 0 then g.h.origin ≠ 0 ∨ h.unit < g.h.unit else g.h.origin ≠ 0 ∧ h.unit < g.h.unit) then h else g.h) := by
  refine ⟨haltContext s h, haltedBy s h c, laterCause s.clk.cycle g h, if_pos h16, ?_, ?_, haltContext_mem s h, ?_,
    laterCause_time _ _ _, (laterCause_finished _ _ _).trans hf, laterCause_h h hf⟩
  · rw [ctx_haltContext, if_pos rfl, hc]; rfl
  · simp only [haltedBy, hh]
  · rw [haltContext_again hc hh, modCtx_teams]

theorem partOf_eq {s : State} {ctx : Nat} {c : Context} (hc : s.ctx ctx = some c) : s.partOf ctx = c.part := by
  unfold State.partOf; rw [hc]; rfl

/-- R298, R334: a halt flit of another member, on a port of the partition. -/
theorem exec_remoteHaltFlit_owned {s : State} {ctx port : Nat} {c : Context} (mem : Nat) (h16 : ctx < 16) (hc : s.ctx ctx = some c)
    (hh : c.halt = none) (hp : s.ownsPort c.part port = true) :
    ∃ e, exec (.remoteHaltFlit ctx ⟨port, mem⟩) s = .next e ∧
      Stopped e ctx (fun g => g.cause = .remoteFault ∧ g.origin = 7 ∧ g.unit = mem ∧ g.tinfo = BitVec.ofNat 32 (mem % 2 ^ 14)) := by
  let h : HaltCause := ⟨ctx, .remoteFault, 7, mem, BitVec.ofNat 32 (mem % 2 ^ 14),
    Config.freeWord s.free 10 0 ++ Config.freeWord s.free 10 1⟩
  refine ⟨haltContext s h, ?_, (stopped_haltContext (h := h) hc hh).mono (fun g hg => by subst hg; exact ⟨rfl, rfl, rfl, rfl⟩)⟩
  show execRemoteHaltFlit ctx ⟨port, mem⟩ s = _
  unfold execRemoteHaltFlit
  rw [partOf_eq hc, hp]
  exact if_pos h16

/-- R334: on any other port it is dropped and counted. -/
theorem exec_remoteHaltFlit_dropped {s : State} {ctx port : Nat} {c : Context} (mem : Nat) (hc : s.ctx ctx = some c)
    (hp : s.ownsPort c.part port = false) : exec (.remoteHaltFlit ctx ⟨port, mem⟩) s = .next s.dropFlit := by
  show execRemoteHaltFlit ctx ⟨port, mem⟩ s = _
  unfold execRemoteHaltFlit
  rw [partOf_eq hc, hp]
  rfl

theorem ctxActive_iff {s : State} {ctx : Nat} : ctxActive s ctx = true ↔
    ∃ c, s.ctx ctx = some c ∧ c.running = true ∧ c.halt = none := by
  unfold ctxActive
  cases s.ctx ctx <;> simp

/-- R68: the budget of a launch is used up before its last drove has retired. -/
theorem exec_watchdog_expired {s : State} {ctx entry : Nat} {r : NodeRec} (hr : (nodeAt s ctx entry).recd = some r)
    (hst : (nodeAt s ctx entry).st = .active) (hw : r.wdog ≠ 0) (hp : (nodeAt s ctx entry).placed ≠ 0)
    (ha : ctxActive s ctx = true) (ht : (nodeAt s ctx entry).wdog + 4096 * r.wdog ≤ s.clk.cycle.toNat)
    (hd : (nodeAt s ctx entry).retired ≠ r.droves) :
    ∃ e, exec (.watchdog ctx entry) s = .next e ∧
      Stopped e ctx (fun g => g.cause = .watchdog ∧ g.origin = 4 ∧ g.unit = entry ∧ g.tinfo = BitVec.ofNat 32 entry) := by
  obtain ⟨c, hc, -, hh⟩ := ctxActive_iff.mp ha
  let s1 := s.modCtx ctx (fun c => { c with schedStop := some (entry, 4) })
  let h : HaltCause := ⟨ctx, .watchdog, 4, entry, BitVec.ofNat 32 entry, 0⟩
  have hc1 : s1.ctx ctx = some { c with schedStop := some (entry, 4) } := by
    unfold s1; rw [ctx_modCtx_self, hc]; rfl
  refine ⟨haltContext s1 h, ?_, (stopped_haltContext (h := h) hc1 hh).mono (fun g hg => by subst hg; exact ⟨rfl, rfl, rfl, rfl⟩)⟩
  show execWatchdog ctx entry s = _
  unfold execWatchdog
  extract_lets n
  rw [hr]
  have hnow : decide (s.now < n.wdog + 4096 * r.wdog) = false := decide_eq_false (Nat.not_lt.mpr ht)
  refine if_neg ?_
  simp [n, hst, hw, hp, ha, hd, hnow]

/-- R68: once the last drove has retired nothing happens. -/
theorem exec_watchdog_retired {s : State} {ctx entry : Nat} {r : NodeRec} (hr : (nodeAt s ctx entry).recd = some r)
    (hd : (nodeAt s ctx entry).retired = r.droves) : exec (.watchdog ctx entry) s = .next s := by
  show execWatchdog ctx entry s = _
  unfold execWatchdog
  extract_lets n
  rw [hr]
  refine if_pos ?_
  simp [n, hd]

/-- R299: with no record waiting for a page, the halt ends and the host is told. -/
theorem exec_haltFinish {s : State} {ctx : Nat} {c : Context} {g : HaltRec} (hc : s.ctx ctx = some c) (hh : c.halt = some g)
    (hf : g.finished = false) (hw : (haltRecords s ctx c g).waiting = false) :
    exec (.haltFinish ctx) s = .next (((clearUnits (haltRecords s ctx c g).s ctx).modCtx ctx (fun x => { x with
      halt := x.halt.map (fun z => { z with finished := true, unwritten := (haltRecords s ctx c g).lost }) })).interrupt (16 + ctx)) := by
  show execHaltFinish ctx s = _
  unfold execHaltFinish
  simp only [hc, hh, hf, hw, Bool.false_eq_true, if_false]

/-- R299: nothing of the context is left in a tensor core. -/
theorem clearUnits_tensor {s : State} {ctx k : Nat} {y : Coach} {z : Share} (hy : (k, y) ∈ (clearUnits s ctx).coaches)
    (hz : z ∈ y.tensor) : z.tid / 8192 ≠ ctx := by
  obtain ⟨⟨j, x⟩, -, hx⟩ := List.mem_map.mp hy
  cases hx
  exact bne_iff_ne.mp (List.mem_filter.mp hz).2

/-- R299: the end of a halt: the host's interrupt, the halt record, and the tensor cores without the context. -/
theorem haltFinish_ends {s : State} {ctx : Nat} {c : Context} {g : HaltRec} (hc : s.ctx ctx = some c) (hh : c.halt = some g)
    (hf : g.finished = false) (hw : (haltRecords s ctx c g).waiting = false) :
    ∃ e, exec (.haltFinish ctx) s = .next e ∧
      e.host.interrupts = (haltRecords s ctx c g).s.host.interrupts ++ [16 + ctx] ∧ e.mem = (haltRecords s ctx c g).s.mem ∧
      (∀ x, (haltRecords s ctx c g).s.ctx ctx = some x → ∃ y, e.ctx ctx = some y ∧
        y.halt = x.halt.map (fun z => { z with finished := true, unwritten := (haltRecords s ctx c g).lost })) ∧
      (∀ k y, (k, y) ∈ e.coaches → ∀ z, z ∈ y.tensor → z.tid / 8192 ≠ ctx) := by
  have raised (e : State) : (e.interrupt (16 + ctx)).host.interrupts = e.host.interrupts ++ [16 + ctx] := rfl
  refine ⟨_, exec_haltFinish hc hh hf hw, ?_, ?_, fun x hx => ?_, fun k y hy z hz => ?_⟩
  · rw [raised, modCtx_host]; rfl
  · rw [interrupt_mem, modCtx_mem]; rfl
  · have hx' : (clearUnits (haltRecords s ctx c g).s ctx).ctx ctx = some x := hx
    exact ⟨_, (ctx_modCtx_self _ _ _).trans (congrArg (Option.map _) hx'), rfl⟩
  · rw [interrupt_coaches, modCtx_coaches] at hy
    exact clearUnits_tensor hy hz

-- ## requests between members

/-- R302, R307, R308: a request that fails halts the context of the unit that waits for it. -/
theorem stopped_remoteHalt {s : State} {r : RemoteOut} {t : Team} {c : Context} (ht : s.team r.tid = some t) (htc : t.ctx = r.ctx)
    (hc : s.ctx r.ctx = some c) (hh : c.halt = none) (k : Cause) :
    Stopped (remoteHalt s r k) r.ctx (fun g => g.cause = k ∧ g.taddr = r.va ∧ g.tinfo = BitVec.ofNat 32 (r.member % 2 ^ 14)) := by
  unfold remoteHalt
  extract_lets s1 info
  have hc1 : s1.ctx r.ctx = some c := hc
  have engine (origin unit : Nat) : Stopped (haltContext s1 ⟨r.ctx, k, origin, unit, info, r.va⟩) r.ctx
      (fun g => g.cause = k ∧ g.taddr = r.va ∧ g.tinfo = info) :=
    (stopped_haltContext (h := ⟨r.ctx, k, origin, unit, info, r.va⟩) hc1 hh).mono (fun g hg => by subst hg; exact ⟨rfl, rfl, rfl⟩)
  split
  · next hn => rw [show s1.team r.tid = some t from ht] at hn; cases hn
  · next t' ht' =>
    obtain rfl : t = t' := Option.some.inj (ht.symm.trans ht')
    extract_lets mark
    split
    · rw [← htc] at hc1 ⊢
      exact (stopped_haltTeam ht' hc1 hh mark ⟨k, info, r.va⟩).mono (fun g hg => by subst hg; exact ⟨rfl, rfl, rfl⟩)
    · split
      · exact engine 2 _
      · exact engine 3 _

/-- What a fault completion does with the request that it names (R307, R308, R334). -/
theorem exec_remoteFaultCompletion {s : State} {id : Nat} {r : RemoteOut} (port : Nat)
    (hr : s.remote.find? (fun r => r.id == id) = some r) :
    exec (.remoteFaultCompletion ⟨port, id⟩) s =
      if !s.ownsPort (s.partOf r.ctx) port then .next s.dropFlit
      else if r.dead then .next (discardReply s r) else .next (remoteHalt s r .remoteFault) := by
  show execRemoteFaultCompletion ⟨port, id⟩ s = _
  unfold execRemoteFaultCompletion
  rw [hr]

/-- A request that is not given up is the first of its number that is not. -/
theorem find_alive {xs : List RemoteOut} {id : Nat} {r : RemoteOut} (hr : xs.find? (fun r => r.id == id) = some r)
    (hd : r.dead = false) : xs.find? (fun r => r.id == id && !r.dead) = some r := by
  obtain ⟨hid, as, bs, rfl, has⟩ := List.find?_eq_some_iff_append.mp hr
  refine List.find?_eq_some_iff_append.mpr ⟨by simp [hd, hid], as, bs, rfl, fun a ha => ?_⟩
  have hne : (a.id == id) = false := by simpa using has a ha
  rw [hne]; rfl

/-- What the timer of a request does (R308). -/
theorem exec_remoteTimeout {s : State} {id : Nat} {r : RemoteOut} (hr : s.remote.find? (fun r => r.id == id) = some r)
    (hd : r.dead = false) :
    exec (.remoteTimeout id) s =
      if s.clk.gtime.toNat < r.sent.toNat + 1000000 then .next s else .next (remoteHalt s r .remoteTimeout) := by
  show execRemoteTimeout id s = _
  unfold execRemoteTimeout
  rw [find_alive hr hd]

-- ## errors that are reported

theorem pageSize_pos (level : Nat) : 0 < pageSize level := by
  unfold pageSize; split <;> decide

theorem mem_poisoned {s : State} {asid va size : Nat} (hs : 0 < size) (h : Poison.page asid (va / size * size) size ∈ s.poison) :
    poisoned s asid va = true := by
  refine List.any_eq_true.mpr ⟨_, h, ?_⟩
  have h1 := Nat.div_mul_le_self va size
  have h2 := Nat.lt_div_mul_add hs (a := va)
  simp [h1, h2]

/-- R309: the page of an address is poisoned, whatever its size. -/
theorem poisoned_poisonPage (s : State) (asid va : Nat) : poisoned (poisonPage s asid va) asid va = true := by
  unfold poisonPage
  extract_lets size p
  have hs : 0 < size := by
    unfold size; split
    · exact pageSize_pos _
    · decide
  split
  · next h => exact mem_poisoned hs (List.contains_iff_mem.mp h)
  · exact mem_poisoned hs (List.mem_append_right _ (List.mem_singleton.mpr rfl))

/-- Poisoning a page changes the list of poisoned pages alone. -/
theorem poisonPage_eq (s : State) (asid va : Nat) : ∃ ps, poisonPage s asid va = { s with poison := ps } := by
  unfold poisonPage
  extract_lets size p
  split
  · exact ⟨s.poison, rfl⟩
  · exact ⟨_, rfl⟩

/-- R309: a clean line that nobody registered is dropped. -/
theorem exec_l2Error_clean {s : State} {asid line : Nat} {l : L2Line} (hl : l2Find s asid line = some l)
    (hd : l.dirty = false) (hp : regPinned l = false) :
    exec (.uncorrectableError (.l2Line asid line)) s = .next (dropL2 s asid line) := by
  show execUncorrectableError (.l2Line asid line) s = _
  unfold execUncorrectableError
  simp [hl, hd, hp]

/-- R309: a dirty line, or one with registered words, poisons its page. -/
theorem exec_l2Error_lost {s : State} {asid line : Nat} {l : L2Line} (hl : l2Find s asid line = some l)
    (hd : l.dirty = true ∨ regPinned l = true) :
    exec (.uncorrectableError (.l2Line asid line)) s = .next (poisonPage s asid (line * 128)) := by
  show execUncorrectableError (.l2Line asid line) s = _
  unfold execUncorrectableError
  simp [hl, hd]

theorem exec_frameError {s : State} {tid : Nat} {t : Team} (ht : s.team tid = some t) :
    exec (.uncorrectableError (.stateFrame tid)) s = .next (loseFrame s tid t) := by
  show execUncorrectableError (.stateFrame tid) s = _
  unfold execUncorrectableError
  simp only [ht]

/-- R114, R309: a frame that the coach's store has lost halts the context of its team. -/
theorem frameError_stops {s : State} {tid : Nat} {t : Team} {c : Context} (ht : s.team tid = some t) (hc : s.ctx t.ctx = some c)
    (hh : c.halt = none) (hl : loseFrame s tid t = storeLost s tid) :
    ∃ e, exec (.uncorrectableError (.stateFrame tid)) s = .next e ∧
      Stopped e t.ctx (fun g => g.cause = .poison ∧ g.unit = t.coach) :=
  ⟨storeLost s tid, by rw [exec_frameError ht, hl],
    (stopped_haltTeam ht hc hh 0 _).mono (fun g hg => by subst hg; exact ⟨rfl, rfl⟩)⟩

-- ## units that fail

/-- A property that every halt keeps holds after the halts of a failed unit. -/
theorem failContexts_induction {p : State → Prop} (hp : ∀ s h, p s → p (haltContext s h)) {s : State} (hs : p s)
    (cs : List Nat) (origin unit : Nat) : p (failContexts s cs origin unit) := by
  unfold failContexts
  refine List.foldlRecOn _ _ hs (fun s hs c _ => ?_)
  split
  · exact hp _ _ hs
  · exact hs

/-- R310: every context that the unit served has halted. -/
theorem halted_failContexts {s : State} {cs : List Nat} {k : Nat} (hk : k ∈ cs) (h16 : k < 16) (origin unit : Nat) :
    Halted (failContexts s cs origin unit) k := by
  unfold failContexts
  have hk' : k ∈ cs.eraseDups := List.mem_eraseDups.mpr hk
  generalize cs.eraseDups = ds at hk'
  obtain ⟨as, bs, rfl⟩ := List.append_of_mem hk'
  rw [List.foldl_append, List.foldl_cons, if_pos h16]
  refine List.foldlRecOn (motive := fun e => Halted e k) _ _ (halted_haltContext _ _) (fun s hs c _ => ?_)
  split
  · exact hs.haltContext _
  · exact hs

/-- R197, R200: no word is registered to a coach that has been lost. -/
theorem loseWords_notOwned {s : State} {sel : Nat → Bool} {l : L2Line} {w : WordState} {coach : Nat} (hl : l ∈ (loseWords s sel).l2)
    (hw : w ∈ l.st) (hsel : sel coach = true) (n : BitVec 16) : w ≠ .o coach n := by
  obtain ⟨l0, -, rfl⟩ := List.mem_map.mp hl
  obtain ⟨w0, -, rfl⟩ := List.mem_map.mp hw
  split
  · split
    · nofun
    · next hc => rintro ⟨rfl, rfl⟩; exact hc hsel
  · next hn => exact hn coach n

/-- R28, R200, R310: a coach fails. -/
theorem exec_coachFailure (s : State) {coach : Nat} (h : coach < 512) :
    ∃ e, exec (.coachFailure coach) s = .next e ∧ (e.coach coach).failed = true ∧
      (∀ l w, l ∈ e.l2 → w ∈ l.st → ∀ n, w ≠ .o coach n) ∧
      (∀ k x, k ∈ coachContexts s coach → k < 16 → e.ctx k = some x → x.halt.isSome = true) := by
  let s1 := loseWords (s.modCoach coach (fun k => { k with failed := true })) (· == coach)
  refine ⟨failContexts s1 (coachContexts s coach) 0 coach, if_neg (by omega), ?_, ?_,
    fun _ x hk h16 hx => halted_failContexts hk h16 _ _ x hx⟩
  · refine failContexts_induction (p := fun e => (e.coach coach).failed = true) (fun e g he => ?_) ?_ _ _ _
    · unfold State.coach at *; rwa [haltContext_coaches]
    · exact congrArg Coach.failed (coach_modCoach_self s coach (fun k => { k with failed := true }))
  · refine failContexts_induction (p := fun e => ∀ l w, l ∈ e.l2 → w ∈ l.st → ∀ n, w ≠ .o coach n) (fun e g he => ?_) ?_ _ _ _
    · rwa [haltContext_l2]
    · exact fun l w hl hw n => loseWords_notOwned hl hw (beq_self_eq_true coach) n

/-- R310: an engine fails. -/
theorem exec_engineFailure (s : State) (unit : EngineUnit) :
    ∃ e, exec (.engineFailure unit) s = .next e ∧ e.mem = s.mem ∧
      ∀ k x, k ∈ engineContexts s unit → k < 16 → e.ctx k = some x → x.halt.isSome = true :=
  ⟨_, rfl, failContexts_induction (p := fun e => e.mem = s.mem) (fun _ _ he => (haltContext_mem _ _).trans he) rfl _ _ _,
    fun _ x hk h16 hx => halted_failContexts hk h16 _ _ x hx⟩

-- ## the links of the host and of the CXL tier

theorem find_filter_some {α : Type} {f : Nat × α → Bool} {m : List (Nat × α)} {k : Nat} {x : α}
    (h : Store.find (m.filter f) k = some x) : ∃ y, f (k, y) = true := by
  induction m with
  | nil => cases h
  | cons e r ih =>
    obtain ⟨j, v⟩ := e
    rw [List.filter_cons] at h
    split at h
    · next hf =>
      by_cases hj : j = k
      · exact ⟨v, hj ▸ hf⟩
      · rw [Store.find, if_neg hj] at h; exact ih h
    · exact ih h

/-- Dropping entries by their key leaves the other keys as they are. -/
theorem get_filter_key {α : Type} (d : α) {p : Nat → Bool} (m : List (Nat × α)) {k : Nat} (h : p k = true) :
    Store.get d (m.filter (fun e => p e.1)) k = Store.get d m k := by
  induction m with
  | nil => rfl
  | cons e r ih =>
    obtain ⟨j, v⟩ := e
    rw [List.filter_cons]
    by_cases hj : j = k
    · subst hj; simp [h, Store.get]
    · split <;> simp [Store.get, hj, ih]

theorem onlySends_haltFlits (s : State) : OnlySends s (haltFlits s) := by
  unfold haltFlits
  refine onlySends_foldl (fun a c => ?_) _ _
  split
  · exact onlySends_foldl (fun b m => onlySends_send b _ _ _ _ _ _) _ _
  · exact OnlySends.refl a

/-- What the scrubs after a reset, and the boot that starts again, leave alone. -/
def ScrubFrame (s e : State) : Prop :=
  { e with
    banks := s.banks, nmuBuf := s.nmuBuf, slices := s.slices, boot := s.boot
    host := { e.host with interrupts := s.host.interrupts } } = s

theorem ScrubFrame.trans {a b c : State} (h1 : ScrubFrame a b) (h2 : ScrubFrame b c) : ScrubFrame a c := by
  unfold ScrubFrame at *
  have h3 := congrArg (fun z : State => { z with
    banks := a.banks, nmuBuf := a.nmuBuf, slices := a.slices, boot := a.boot
    host := { z.host with interrupts := a.host.interrupts } }) h2
  exact h3.trans h1

theorem scrubFrame_foldl {α : Type} {f : State → α → State} (hf : ∀ a x, ScrubFrame a (f a x)) (xs : List α) (s : State) :
    ScrubFrame s (xs.foldl f s) := by
  induction xs generalizing s with
  | nil => rfl
  | cons x xs ih => exact (hf s x).trans (ih _)

/-- R329, R341: what has been cleared before the scrubs begin. -/
theorem loseTenants_cleared (s : State) : ∃ e, ScrubFrame e (loseTenants s) ∧ e.host.linkUp = false ∧ e.host.sessions = [] ∧
    e.keys = [] ∧ e.l2 = [] ∧ e.l1 = [] ∧ e.ctxs = s.ctxs.filter (fun c => decide (16 ≤ c.1)) ∧
    e.teams = s.teams.filter (fun e => e.2.sys) ∧
    e.mem = s.mem.filter (fun e => decide (e.1 < 4 * 2 ^ 48) || decide (20 * 2 ^ 48 ≤ e.1)) := by
  unfold loseTenants
  extract_lets flits noCoach host cleared scrubbed
  have hflits : OnlySends s flits := onlySends_haltFlits s
  have hscrub : ScrubFrame cleared scrubbed := scrubFrame_foldl (fun a x => by split <;> rfl) _ _
  refine ⟨cleared, ?_, rfl, rfl, rfl, rfl, rfl, congrArg (List.filter _) hflits.ctxs,
    congrArg (List.filter _) hflits.teams, congrArg (List.filter _) hflits.mem⟩
  split
  · exact hscrub.trans rfl
  · exact hscrub

/-- R329: a hot reset leaves nothing of the tenants, and keeps the memory that is not theirs. -/
theorem exec_hostHotReset (s : State) :
    ∃ e, exec .hostHotReset s = .next e ∧ e.host.linkUp = false ∧ e.host.sessions = [] ∧ e.keys = [] ∧ e.l2 = [] ∧ e.l1 = [] ∧
      (∀ k x, e.ctx k = some x → 16 ≤ k) ∧ (∀ k t, (k, t) ∈ e.teams → t.sys = true) ∧
      (∀ k, k < 4 * 2 ^ 48 ∨ 20 * 2 ^ 48 ≤ k → Store.get 0 e.mem k = Store.get 0 s.mem k) ∧
      (s.host.linkUp = true → exec .hostLinkDown s = .next e) := by
  obtain ⟨c, hframe, hup, hsessions, hkeys, hl2, hl1, hctxs, hteams, hmem⟩ := loseTenants_cleared s
  unfold ScrubFrame at hframe
  refine ⟨loseTenants s, rfl, ?_, ?_, ?_, ?_, ?_, fun k x hx => ?_, fun k t ht => ?_, fun k hk => ?_, fun h => if_pos h⟩
  · exact (congrArg (fun z : State => z.host.linkUp) hframe).trans hup
  · exact (congrArg (fun z : State => z.host.sessions) hframe).trans hsessions
  · exact (congrArg State.keys hframe).trans hkeys
  · exact (congrArg State.l2 hframe).trans hl2
  · exact (congrArg State.l1 hframe).trans hl1
  · have hx' : Store.find (s.ctxs.filter (fun c => decide (16 ≤ c.1))) k = some x := by
      rw [← hctxs, ← congrArg State.ctxs hframe]; exact hx
    obtain ⟨y, hy⟩ := find_filter_some hx'
    exact of_decide_eq_true hy
  · have ht' : (k, t) ∈ s.teams.filter (fun e => e.2.sys) := by
      rw [← hteams, ← congrArg State.teams hframe]; exact ht
    exact (List.mem_filter.mp ht').2
  · rw [(congrArg State.mem hframe).trans hmem]
    exact get_filter_key 0 (p := fun j => decide (j < 4 * 2 ^ 48) || decide (20 * 2 ^ 48 ≤ j)) s.mem (by simpa using hk)

theorem cxlDown_retirePage (s : State) (ctx va : Nat) : (retirePage s ctx va).cxlDown = s.cxlDown := by
  unfold retirePage; split <;> rfl

theorem cxlDown_poisonPage (s : State) (asid va : Nat) : (poisonPage s asid va).cxlDown = s.cxlDown := by
  obtain ⟨ps, h⟩ := poisonPage_eq s asid va
  rw [h]

/-- R333: the link is down after the event, whatever becomes of the pages. -/
theorem exec_cxlLinkDown (s : State) : ∃ e, exec .cxlLinkDown s = .next e ∧ e.cxlDown = true := by
  refine ⟨_, rfl, List.foldlRecOn (motive := fun e : State => e.cxlDown = true) _ _ rfl (fun e he p _ => ?_)⟩
  dsimp only
  split
  · rw [cxlDown_retirePage]; exact he
  · rw [cxlDown_poisonPage]; exact he

/-- The pages of the CXL tier: context and address. -/
def cxlPages (s : State) : List (Nat × Nat) :=
  (s.ctxs.filter (fun c => decide (c.1 < 16))).flatMap (fun c =>
    ((ctxLeaves s c.1).filter (fun l => pteTier l.2.2 == .cxl)).map (fun l => (c.1, l.1)))

/-- R309, R333, log 69: a dirty page of the tier is poisoned. -/
theorem exec_cxlLinkDown_dirty {s : State} {k va : Nat} (hp : cxlPages s = [(k, va)])
    (hd : (pageCopies { s with cxlDown := true } k va).any (fun x => pteD x.2.2.2) = true) :
    exec .cxlLinkDown s = .next (poisonPage { s with cxlDown := true } (({ s with cxlDown := true } : State).asid k) va) := by
  show execCxlLinkDown s = _
  unfold execCxlLinkDown
  extract_lets s1 pages
  have hp' : pages = [(k, va)] := hp
  have hd' : (pageCopies s1 k va).any (fun x => pteD x.2.2.2) = true := hd
  rw [hp']
  simp only [List.zipIdx_cons, List.zipIdx_nil, List.foldl_cons, List.foldl_nil, hd']
  rfl

/-- R333: with no page in the tier there is nothing to lose. -/
theorem exec_cxlLinkDown_noPage {s : State} (hp : cxlPages s = []) :
    exec .cxlLinkDown s = .next { s with cxlDown := true } := by
  show execCxlLinkDown s = _
  unfold execCxlLinkDown
  extract_lets s1 pages
  have hp' : pages = [] := hp
  rw [hp']
  rfl

/-- Settles O54: one lemma for each event, over what a first cause does to its context. -/
theorem haltsAndErrors : Obligations.HaltsAndErrors := by
  unfold Obligations.HaltsAndErrors
  intro s ctx mem entry id asid line coach tid port c h unit stops dropped
  refine ⟨exec_contextHalt_first, fun g => exec_contextHalt_later, fun h16 hc hh => ⟨exec_remoteHaltFlit_owned mem h16 hc hh,
      exec_remoteHaltFlit_dropped mem hc⟩,
    fun r hr hst hw hp ha => ⟨exec_watchdog_expired hr hst hw hp ha, exec_watchdog_retired hr⟩, ?remote, ?dead,
    fun l => exec_l2Error_clean, ?lost, ?frame, exec_coachFailure s, exec_engineFailure s unit, exec_hostHotReset s,
    exec_cxlLinkDown s, ⟨exec_cxlLinkDown_noPage, fun k va => exec_cxlLinkDown_dirty⟩, fun g => haltFinish_ends⟩
  case remote =>
    intro r t hr hd ht htc hc hh
    have hcompl := exec_remoteFaultCompletion port hr
    have htime := exec_remoteTimeout hr hd
    rw [partOf_eq hc, hd] at hcompl
    refine ⟨fun hp => ⟨remoteHalt s r .remoteFault, ?_, ?_⟩, fun hp => ?_,
      fun hs => ⟨remoteHalt s r .remoteTimeout, ?_, ?_⟩, fun hs => ?_⟩
    · rw [hcompl, hp]; rfl
    · exact stopped_remoteHalt ht htc hc hh _
    · rw [hcompl, hp]; rfl
    · rw [htime, if_neg (Nat.not_lt.mpr hs)]
    · exact Stopped.mono (stopped_remoteHalt ht htc hc hh .remoteTimeout) (fun g ⟨hcause, haddr, _⟩ => And.intro hcause haddr)
    · rw [htime, if_pos hs]
  case dead =>
    intro r hr hd hp
    refine ⟨discardReply s r, ?_, rfl, rfl, rfl⟩
    rw [exec_remoteFaultCompletion port hr, hp, hd]; rfl
  case lost =>
    intro l hl hd
    obtain ⟨ps, hps⟩ := poisonPage_eq s asid (line * 128)
    exact ⟨_, exec_l2Error_lost hl hd, poisoned_poisonPage _ _ _, by rw [hps], by rw [hps]⟩
  case frame =>
    intro t ht hc hh lost
    refine ⟨fun hf => ⟨fun hcl => frameError_stops ht hc hh ?_, fun hcl => ?_⟩, fun k n hf => frameError_stops ht hc hh ?_,
      fun k n hf => ?_⟩
    · simp [loseFrame, hf, hcl]
    · rw [exec_frameError ht]; simp [loseFrame, hf, hcl]
    · simp only [loseFrame, hf]
    · rw [exec_frameError ht, ← modTeam_some (fun t => { t with frame := .image }) ht]; simp only [loseFrame, hf]

end Sys2Proof.Machine
end

