-- ==== Sys2Proof/Proofs/VectorResults.lean ====
section
/-! The one-source vector instructions (R65, R127, R137, R422): what the write of a register group in some lanes does to the
registers, the results that an issue ends in, and O15. -/
namespace Sys2Proof.Machine
open Sys2Proof

-- ## register groups

theorem lt_of_mem_lanesOf {n : Nat} {m : LaneMask} {L : Nat} (h : L ∈ lanesOf n m) : L < 1024 :=
  BitVec.lt_of_getLsbD (List.mem_filter.mp h).2

/-- R127: a group is written in its own lane and in its own registers only. -/
theorem v_setGroup_ne (t : Team) {et : ET} {r L k M : Nat} (x : DWord) (hL : L < 1024) (hM : M < 1024)
    (h : M ≠ L ∨ (k ≠ r ∧ (et64 et → k ≠ r + 1))) : (t.setGroup et r L x).v k M = t.v k M := by
  have low : (t.setV r L (x.setWidth 32)).v k M = t.v k M :=
    v_setV_ne t _ hL hM (fun he => by obtain ⟨rfl, rfl⟩ := Prod.mk.inj he; simp at h)
  unfold Team.setGroup
  split
  · next h64 =>
    rw [v_setV_ne _ _ hL hM (fun he => by obtain ⟨rfl, rfl⟩ := Prod.mk.inj he; simp [h64] at h), low]
  · exact low

theorem v_setGroup_low (t : Team) (et : ET) (r : Nat) {L : Nat} (x : DWord) (hL : L < 1024) :
    (t.setGroup et r L x).v r L = x.setWidth 32 := by
  unfold Team.setGroup
  split
  · rw [v_setV_ne _ _ hL hL (by simp), v_setV_self]
  · exact v_setV_self t r L _

theorem v_setGroup_high (t : Team) {et : ET} (r L : Nat) (x : DWord) (h : et64 et = true) :
    (t.setGroup et r L x).v (r + 1) L = (x >>> 32).setWidth 32 := by
  unfold Team.setGroup
  rw [if_pos h, v_setV_self]

theorem setGroup_vregs (t : Team) (et : ET) (r L : Nat) (x : DWord) :
    { t.setGroup et r L x with vregs := t.vregs } = t := by
  unfold Team.setGroup; split <;> rfl

/-- R65: the lanes written take their values, every other lane and register keeps its own. -/
theorem vectorWritten_writeLanes (t : Team) (et : ET) (d : Nat) {lanes : List Nat} (f : Nat → DWord)
    (h : ∀ L ∈ lanes, L < 1024) : VectorWritten t (writeLanes t et d lanes f) et d lanes f := by
  induction lanes generalizing t with
  | nil => exact ⟨rfl, fun L hL => absurd hL (List.not_mem_nil), fun _ _ _ _ => rfl⟩
  | cons L ls ih =>
    have hL : L < 1024 := h L (List.mem_cons_self ..)
    obtain ⟨hframe, hin, hout⟩ := ih (t.setGroup et d L (f L)) (fun M hM => h M (List.mem_cons_of_mem _ hM))
    have hw : writeLanes t et d (L :: ls) f = writeLanes (t.setGroup et d L (f L)) et d ls f := rfl
    rw [hw]
    refine ⟨?_, fun M hM => ?_, fun r M hM hne => ?_⟩
    · exact (congrArg (fun u : Team => { u with vregs := t.vregs }) hframe).trans (setGroup_vregs t et d L (f L))
    · by_cases hls : M ∈ ls
      · exact hin M hls
      · obtain rfl : M = L := (List.mem_cons.mp hM).resolve_right hls
        exact ⟨(hout d M hL (.inl hls)).trans (v_setGroup_low t et d (f M) hL),
          fun h64 => (hout (d + 1) M hL (.inl hls)).trans (v_setGroup_high t d M (f M) h64)⟩
    · rw [hout r M hM (hne.imp_left (fun hn hc => hn (List.mem_cons_of_mem _ hc)))]
      exact v_setGroup_ne t (f L) hL hM (hne.imp_left (fun hn hc => hn (hc ▸ List.mem_cons_self ..)))

theorem VectorWritten.splits {t u : Team} {et : ET} {d : Nat} {lanes : List Nat} {f : Nat → DWord}
    (h : VectorWritten t u et d lanes f) : u.splits = t.splits := by
  have hsp := congrArg Team.splits h.1
  exact hsp

-- ## results of an issue

section
variable {s : State} {tid uid : Nat} {t : Team} {x : Split} {i : Instr} {sw : Bool} {u : Issue → Uses} {cost : Issue → Nat}
  {body : Issue → Res} (hs : AtIssue s tid uid t x)
include hs

/-- A ready instruction that writes its team's registers completes with them. -/
theorem completes_setTeam {te : Team} (hi : exec i s = issueAs false i sw u cost s body)
    (hr : Ready t x (u (issueOf tid uid t x i))) (hb : body (issueOf tid uid t x i) = .next (s.setTeam tid te))
    (hsp : te.splits = t.splits) : Completes i s (s.setTeam tid te) tid uid sw (x.pc + 4) [] :=
  completes_next hs hi hr hb (team_setTeam_self _ _ _) (xe := x) (by unfold Team.split; rw [hsp]; exact hs.2.2)

/-- A ready instruction that writes a register group in the lanes that pass the guard (R65). -/
theorem vectorResult_writeLanes {et : ET} {d : Nat} {f : Nat → DWord} (hi : exec i s = issueAs false i sw u cost s body)
    (hr : Ready t x (u (issueOf tid uid t x i)))
    (hb : body (issueOf tid uid t x i) = .next (s.setTeam tid (writeLanes t et d (issueOf tid uid t x i).lanes f))) :
    VectorResult i s tid uid t x sw et d (issueOf tid uid t x i).lanes f := by
  have hw := vectorWritten_writeLanes t et d (lanes := (issueOf tid uid t x i).lanes) f (fun _ => lt_of_mem_lanesOf)
  exact ⟨_, hw, completes_setTeam hs hi hr hb hw.splits⟩

/-- R422: a fixed-latency one-source instruction. -/
theorem vectorResult_vecFn {fn : VFn} {ok : ET → Bool} {d a : BitVec 8} (hi : exec i s = vecFn i sw fn ok d a s)
    (hr : Ready t x (uses2 i ok d.toNat a.toNat (modeEt x.mode))) :
    VectorResult i s tid uid t x sw (modeEt x.mode) d.toNat (issueOf tid uid t x i).lanes (fun L =>
      vfn fn ((issueOf tid uid t x i).num L) (s.rgroup t (modeEt x.mode) a.toNat L)) :=
  vectorResult_writeLanes (u := fun c => uses2 i ok d.toNat a.toNat c.et) hs (by exact hi) hr rfl

end

/-- Settles O15: each instruction is `vecFn` of its function, and VCVT writes a group of ET from one of CVS. -/
theorem vectorUnary : Obligations.VectorUnary := by
  unfold Obligations.VectorUnary
  intro s tid uid t x sw d a hs et src r cv
  have unary : ∀ {i : Instr} {fn : VFn} {ok : ET → Bool}, exec i s = vecFn i sw fn ok d a s → r i fn ok :=
    fun hi hr => vectorResult_vecFn hs hi hr
  exact ⟨unary rfl, unary rfl, unary rfl, unary rfl, unary rfl,
    fun hr => vectorResult_writeLanes hs (Eq.refl (execVcvt sw d a s)) hr rfl⟩

end Sys2Proof.Machine
end

