-- ==== Sys2Proof/Proofs/Reductions.lean ====
section
/-! Reductions, scans, mask words, counts and VEXTR (R151, R152, R392, R424, R426, R427), and O20. -/
namespace Sys2Proof.Machine
open Sys2Proof

/-- A vector group A into a scalar group D: the form of VRED and VEXTR (R75, R127). -/
def usesToScalar (ok : ET → Bool) (d a : Nat) (et : ET) : Uses :=
  { vr := etRegs et a, sw := etRegs et d, mode := .num ok, regOk := etEven et d && etEven et a }

theorem setSGroup_splits (t : Team) (et : ET) (r : Nat) (v : DWord) : (t.setSGroup et r v).splits = t.splits := by
  unfold Team.setSGroup; split <;> simp

section
variable {s : State} {tid uid : Nat} {t : Team} {x : Split} {i : Instr} {sw : Bool} {u : Issue → Uses} {cost : Issue → Nat}
  {body : Issue → Res} (hs : AtIssue s tid uid t x)
include hs

/-- A ready instruction that writes one scalar. -/
theorem scalarResult_setS {d : Nat} {v : Word} (hi : exec i s = issueAs false i sw u cost s body)
    (hr : Ready t x (u (issueOf tid uid t x i))) (hb : body (issueOf tid uid t x i) = .next (s.setTeam tid (t.setS d v))) :
    ScalarResult i s tid uid t x sw d v :=
  completes_setTeam hs hi hr hb (setS_splits t d v)

/-- A ready instruction whose meaning is a cause takes it after its passes, and nothing else has happened (R40, R294). -/
theorem answers_causeOfBody {c : Cause} {info : Word} {addr : DWord} (hi : exec i s = issueAs false i sw u cost s body)
    (hr : Ready t x (u (issueOf tid uid t x i))) (hb : body (issueOf tid uid t x i) = .trap c info addr) :
    Answers i s (takeCause (s.tick (cost (issueOf tid uid t x i))) tid uid ⟨c, info, addr⟩) tid :=
  ⟨_, hi.trans (issueAs_of hs ((checked_ready (c := issueOf tid uid t x i) hr s body).trans hb) rfl), OnlyTeam.refl _ _,
    fun te h => ⟨te, h, teamKept_refl te, rfl, rfl⟩⟩

/-- R151, R426: VRED writes the reduction of every contributing lane. -/
theorem completes_vecRed {op : RedOp} {d : BitVec 6} {a : BitVec 8} (hi : exec i s = vecRed i sw op d a s)
    (hr : Ready t x (usesToScalar (redTypes op) d.toNat a.toNat (modeEt x.mode))) :
    Completes i s (s.setTeam tid (t.setSGroup (modeEt x.mode) d.toNat (reduce op ((issueOf tid uid t x i).num 0)
      (redLeaves s (issueOf tid uid t x i) a.toNat 1023)))) tid uid sw (x.pc + 4) [] :=
  completes_setTeam (u := fun c => usesToScalar (redTypes op) d.toNat a.toNat c.et) hs (by exact hi) hr rfl
    (setSGroup_splits _ _ _ _)

/-- R152, R426: VSCAN writes in each lane the reduction of the contributing lanes up to it. -/
theorem vectorResult_vecScan {op : RedOp} {d a : BitVec 8} (hi : exec i s = vecScan i sw op d a s)
    (hr : Ready t x (uses2 i (redTypes op) d.toNat a.toNat (modeEt x.mode))) :
    VectorResult i s tid uid t x sw (modeEt x.mode) d.toNat (issueOf tid uid t x i).lanes (fun L =>
      reduce op ((issueOf tid uid t x i).num 0) (redLeaves s (issueOf tid uid t x i) a.toNat L)) :=
  vectorResult_writeLanes (u := fun c => uses2 i (redTypes op) d.toNat a.toNat c.et) hs (by exact hi) hr rfl

end

section
variable {s : State} {tid uid : Nat} {t : Team} {x : Split} {sw : Bool} {d b : BitVec 6} {a : BitVec 8} {p : BitVec 3}
  (hs : AtIssue s tid uid t x)
include hs

/-- R427: VBAL with a mask word of the team. -/
theorem scalarResult_vbal (hr : Ready t x { sw := [d.toNat], mode := .guard }) (hj : (s.rs t b.toNat).toNat < t.m) :
    ScalarResult (.vbal sw d p b) s tid uid t x sw d.toNat
      (maskWord (x.mask &&& guardMask t x.mode &&& t.p p.toNat) (s.rs t b.toNat).toNat) := by
  refine scalarResult_setS (u := fun _ => { sw := [d.toNat], mode := .guard }) hs rfl hr ?_
  exact if_neg (Nat.not_le.mpr hj)

theorem answers_vbal_beyond (hr : Ready t x { sw := [d.toNat], mode := .guard }) (hj : t.m ≤ (s.rs t b.toNat).toNat) :
    Answers (.vbal sw d p b) s (takeCause (s.tick (passes x.mask)) tid uid
      ⟨.tableRange, s.rs t b.toNat, t.codeHi ++ x.pc⟩) tid := by
  refine answers_causeOfBody (u := fun _ => { sw := [d.toNat], mode := .guard }) (cost := passCost) hs rfl hr ?_
  exact if_pos hj

variable (hr : Ready t x (usesToScalar etAny d.toNat a.toNat (modeEt x.mode)))
include hr

/-- R424: lane j passes the guard, active or not: its value is in flight. -/
theorem completes_vextr_passing (hj : (s.rs t b.toNat).toNat < t.w)
    (hg : (guardMask t x.mode).getLsbD (s.rs t b.toNat).toNat = true) :
    Completes (.vextr sw d a b) s (s.setTeam tid (InFlight t uid (.scal d.toNat (etRegs (modeEt x.mode) d.toNat).length)
      [(0, groupWords (modeEt x.mode) (s.rgroup t (modeEt x.mode) a.toNat (s.rs t b.toNat).toNat))])) tid uid sw (x.pc + 4) [] := by
  refine completes_setTeam (u := fun c => usesToScalar etAny d.toNat a.toNat c.et) hs rfl hr ?_ rfl
  exact (if_neg (Nat.not_le.mpr hj)).trans (if_pos hg)

/-- R424: lane j does not pass the guard: no effect. -/
theorem completes_vextr_notPassing (hj : (s.rs t b.toNat).toNat < t.w)
    (hg : ¬(guardMask t x.mode).getLsbD (s.rs t b.toNat).toNat = true) :
    Completes (.vextr sw d a b) s s tid uid sw (x.pc + 4) [] := by
  refine completes_next (u := fun c => usesToScalar etAny d.toNat a.toNat c.et) hs rfl hr ?_ hs.2.1 hs.2.2
  exact (if_neg (Nat.not_le.mpr hj)).trans (if_neg hg)

theorem answers_vextr_beyond (hj : t.w ≤ (s.rs t b.toNat).toNat) :
    Answers (.vextr sw d a b) s (takeCause (s.tick (passes x.mask)) tid uid
      ⟨.tableRange, s.rs t b.toNat, t.codeHi ++ x.pc⟩) tid := by
  refine answers_causeOfBody (cost := passCost) (u := fun c => usesToScalar etAny d.toNat a.toNat c.et) hs rfl hr ?_
  exact if_pos hj

end

/-- Settles O20: `vecRed` and `vecScan` for each operator, and one lemma for each branch of VBAL and VEXTR. -/
theorem reductionsScansExtraction : Obligations.ReductionsScansExtraction := by
  unfold Obligations.ReductionsScansExtraction
  intro s tid uid t x sw d b v a p hs
  refine ⟨?reductions, fun hr => ⟨answers_vbal_beyond hs hr, scalarResult_vbal hs hr, ?count⟩,
    fun hr => ⟨answers_vextr_beyond hs hr, fun hj => ?extraction⟩⟩
  case reductions =>
    intro et c r
    have both : ∀ {i j : Instr} {op : RedOp}, exec i s = vecRed i sw op d a s → exec j s = vecScan j sw op v a s → r i j op :=
      fun hi hj => ⟨completes_vecRed hs hi, vectorResult_vecScan hs hj⟩
    exact ⟨both rfl rfl, both rfl rfl, both rfl rfl, both rfl rfl, both rfl rfl, both rfl rfl⟩
  case count => exact scalarResult_setS (u := fun _ => { sw := [d.toNat], mode := .guard }) hs rfl hr rfl
  case extraction =>
    split
    · next hg => exact completes_vextr_passing hs hr hj hg
    · next hg => exact completes_vextr_notPassing hs hr hj hg

end Sys2Proof.Machine
end

