-- ==== Sys2Proof/Proofs/IntegerElements.lean ====
section
/-! The element operations on 32-bit integers (R126, R128, R135, R354, R419, R422): the value of an element, what narrowing
writes, one lemma for each operation, and O14. -/
namespace Sys2Proof.Machine
open Sys2Proof

-- ## 32-bit integer elements

/-- The integer that a word is under I32, and under N32 (R126). -/
def wordVal (et : ET) (w : Word) : Int := if et = .i32 then w.toInt else (w.toNat : Int)

/-- The word that a result becomes: the nearest value of the type with SAT, else modulo 2^32 (R135). -/
def narrowWord (et : ET) (sat : Bool) (z : Int) : Word :=
  BitVec.ofInt 32 (if sat = true then
    max (if et = .i32 then -2147483648 else 0) (min z (if et = .i32 then 2147483647 else 4294967295)) else z)

theorem ofNat_toBits (z : Int) : BitVec.ofNat 32 (toBits 32 z) = BitVec.ofInt 32 z := by
  apply BitVec.eq_of_toNat_eq
  simp only [toBits, BitVec.toNat_ofNat, BitVec.toNat_ofInt]
  omega

theorem ofInt_wordVal (et : ET) (w : Word) : BitVec.ofInt 32 (wordVal et w) = w := by
  unfold wordVal
  split
  · exact BitVec.ofInt_toInt
  · simp

theorem sextNat_toNat (w : Word) : sextNat 32 w.toNat = w.toInt := by
  have := w.isLt
  rw [BitVec.toInt_eq_toNat_cond, sextNat, Nat.mod_eq_of_lt this]
  split <;> split <;> omega

section
variable {et : ET} (h : et = .i32 ∨ et = .n32)
include h

theorem etFloat_word : etFloat et = false := by rcases h with rfl | rfl <;> rfl
theorem etBits_word : etBits et = 32 := by rcases h with rfl | rfl <;> rfl

theorem etInt_word (w : Word) : etInt et w.toNat = wordVal et w := by
  rcases h with rfl | rfl
  · exact sextNat_toNat w
  · exact congrArg Int.ofNat (Nat.mod_eq_of_lt w.isLt)

theorem elem_word (w : Word) : elem et 0 (w.setWidth 64) = w.toNat := by
  have := w.isLt
  simp only [elem, etBits_word h, BitVec.toNat_setWidth]
  omega

/-- R128: the low register of a one-element group is the element modulo 2^32, signed or not. -/
theorem mapElems_word (f : Nat → Nat) : (mapElems et f).setWidth 32 = BitVec.ofNat 32 (f 0) := by
  apply BitVec.eq_of_toNat_eq
  rcases h with rfl | rfl
  · show (BitVec.setWidth 32 (BitVec.ofNat 64 (toBits 32 (sextNat 32 (f 0))))).toNat = _
    simp only [toBits, sextNat, BitVec.toNat_setWidth, BitVec.toNat_ofNat]
    split <;> omega
  · show (BitVec.setWidth 32 (BitVec.ofNat 64 (f 0 % 2 ^ 32))).toNat = _
    simp only [BitVec.toNat_setWidth, BitVec.toNat_ofNat]
    omega

theorem etMin_word : etMin et = if et = .i32 then -2147483648 else 0 := by rcases h with rfl | rfl <;> rfl
theorem etMax_word : etMax et = if et = .i32 then 2147483647 else 4294967295 := by rcases h with rfl | rfl <;> rfl

/-- R12: clamping to the range of a type that is not empty. -/
theorem satTo_word (z : Int) : satTo et z = max (etMin et) (min z (etMax et)) := by
  have hle : etMin et ≤ etMax et := by rcases h with rfl | rfl <;> decide
  unfold satTo
  split
  · omega
  · split <;> omega

theorem ofNat_narrow (sat : Bool) (z : Int) : BitVec.ofNat 32 (narrow et sat z) = narrowWord et sat z := by
  unfold narrow narrowWord
  rw [etBits_word h, ofNat_toBits, satTo_word h, etMin_word h, etMax_word h]

/-- An operation that narrows an integer result, `f` being its floating result. -/
theorem ofNat_narrow_of_float (f : Nat) (sat : Bool) (z : Int) :
    BitVec.ofNat 32 (if etFloat et then f else narrow et sat z) = narrowWord et sat z := by
  rw [if_neg (by rw [etFloat_word h]; exact Bool.false_ne_true), ofNat_narrow h]

end

-- ## operations

/-- A two-source operation on words, as a 32-bit register takes it. -/
def vopWord (o : VOp) (m : NumMode) (a b c : Word) : Word :=
  (vop o m (a.setWidth 64) (b.setWidth 64) (c.setWidth 64)).setWidth 32

/-- A one-source function on a word. -/
def vfnWord (o : VFn) (m : NumMode) (a : Word) : Word := (vfn o m (a.setWidth 64)).setWidth 32

/-- A shift of a signed word by 32 gives its sign, as one by 31 does. -/
theorem toInt_div_two_pow_far (a : Word) : a.toInt / 2 ^ 32 = a.toInt / 2 ^ 31 := by
  have h1 := BitVec.toInt_lt (x := a)
  have h2 := BitVec.le_toInt (x := a)
  omega

theorem foldl_count_eq_length_filter (p : Nat → Bool) (l : List Nat) (n : Nat) :
    l.foldl (fun acc i => if p i then acc + 1 else acc) n = n + (l.filter p).length := by
  induction l generalizing n with
  | nil => rfl
  | cons i l ih =>
    rw [List.foldl_cons, ih, List.filter_cons]
    split
    · rw [List.length_cons]; omega
    · rfl

section
variable {m : NumMode} (h : m.et = .i32 ∨ m.et = .n32) (a b c : Word)
include h

theorem vopWord_eq (o : VOp) :
    vopWord o m a b c = BitVec.ofNat 32 (vopElem o m.et (m.rnd 0) a.toNat b.toNat c.toNat) := by
  unfold vopWord vop
  rw [mapElems_word h, elem_word h, elem_word h, elem_word h]

theorem vfnWord_eq (o : VFn) : vfnWord o m a = BitVec.ofNat 32 (vfnElem o m.et (m.rnd 0) a.toNat) := by
  unfold vfnWord vfn
  rw [mapElems_word h, elem_word h]

theorem vopWord_add : vopWord .add m a b c = narrowWord m.et m.sat (wordVal m.et a + wordVal m.et b) := by
  rw [vopWord_eq h, ← etInt_word h a, ← etInt_word h b]; exact ofNat_narrow_of_float h _ _ _

theorem vopWord_sub : vopWord .sub m a b c = narrowWord m.et m.sat (wordVal m.et a - wordVal m.et b) := by
  rw [vopWord_eq h, ← etInt_word h a, ← etInt_word h b]; exact ofNat_narrow_of_float h _ _ _

theorem vopWord_mul : vopWord .mul m a b c = narrowWord m.et m.sat (wordVal m.et a * wordVal m.et b) := by
  rw [vopWord_eq h, ← etInt_word h a, ← etInt_word h b]; exact ofNat_narrow_of_float h _ _ _

theorem vopWord_mad :
    vopWord .mad m a b c = narrowWord m.et m.sat (wordVal m.et a * wordVal m.et b + wordVal m.et c) := by
  rw [vopWord_eq h, ← etInt_word h a, ← etInt_word h b, ← etInt_word h c]; exact ofNat_narrow_of_float h _ _ _

theorem vopWord_mulh :
    vopWord .mulh m a b c = BitVec.ofInt 32 (wordVal m.et a * wordVal m.et b / 2 ^ 32) := by
  simp only [vopWord_eq h, vopElem, etBits_word h, etInt_word h, ofNat_toBits]; rfl

theorem vopWord_min : vopWord .min m a b c = if wordVal m.et b < wordVal m.et a then b else a := by
  simp only [vopWord_eq h, vopElem, etFloat_word h, etInt_word h, Bool.false_eq_true, if_false]
  split <;> simp

theorem vopWord_max : vopWord .max m a b c = if wordVal m.et a < wordVal m.et b then b else a := by
  simp only [vopWord_eq h, vopElem, etFloat_word h, etInt_word h, Bool.false_eq_true, if_false]
  split <;> simp

theorem vopWord_and : vopWord .and m a b c = a &&& b := by
  simp only [vopWord_eq h, vopElem, BitVec.ofNat_and, BitVec.ofNat_toNat, BitVec.setWidth_eq]

theorem vopWord_or : vopWord .or m a b c = a ||| b := by
  simp only [vopWord_eq h, vopElem, BitVec.ofNat_or, BitVec.ofNat_toNat, BitVec.setWidth_eq]

theorem vopWord_xor : vopWord .xor m a b c = a ^^^ b := by
  simp only [vopWord_eq h, vopElem, BitVec.ofNat_xor, BitVec.ofNat_toNat, BitVec.setWidth_eq]

theorem vopWord_shl : vopWord .shl m a b c = if b.toNat < 32 then a <<< b.toNat else 0 := by
  simp only [vopWord_eq h, vopElem, etBits_word h]
  split
  · next hb => rw [if_neg (by omega)]; rfl
  · next hb =>
    rw [if_pos (by omega)]
    apply BitVec.eq_of_toNat_eq
    simp

theorem vopWord_shr : vopWord .shr m a b c = if b.toNat < 32 then a >>> b.toNat else 0 := by
  simp only [vopWord_eq h, vopElem, etBits_word h]
  split
  · next hb => rw [if_neg (by omega)]; rfl
  · next hb =>
    rw [if_pos (by omega)]
    apply BitVec.eq_of_toNat_eq
    rw [BitVec.toNat_ofNat, BitVec.toNat_ushiftRight, Nat.mod_eq_of_lt]
    exact Nat.lt_of_le_of_lt (Nat.shiftRight_le _ _) a.isLt

theorem vopWord_sra : vopWord .sra m a b c = BitVec.ofInt 32 (a.toInt / 2 ^ (min b.toNat 31)) := by
  simp only [vopWord_eq h, vopElem, etBits_word h, ofNat_toBits, sextNat_toNat]
  rcases Nat.lt_or_ge b.toNat 32 with hb | hb
  · rw [Nat.min_eq_left (by omega), Nat.min_eq_left (by omega)]; simp
  · rw [Nat.min_eq_right hb, Nat.min_eq_right (by omega)]
    exact congrArg _ (toInt_div_two_pow_far a)

theorem vfnWord_abs : vfnWord .abs m a = narrowWord m.et m.sat ((wordVal m.et a).natAbs : Int) := by
  rw [vfnWord_eq h, ← etInt_word h a]; exact ofNat_narrow_of_float h _ _ _

theorem vfnWord_neg : vfnWord .neg m a = narrowWord m.et m.sat (-(wordVal m.et a)) := by
  rw [vfnWord_eq h, ← etInt_word h a]; exact ofNat_narrow_of_float h _ _ _

theorem vfnWord_not : vfnWord .not m a = ~~~a := by
  apply BitVec.eq_of_toNat_eq
  have := a.isLt
  simp only [vfnWord_eq h, vfnElem, etBits_word h, BitVec.toNat_ofNat, BitVec.toNat_not]
  omega

theorem vfnWord_clz : vfnWord .clz m a = if a = 0 then 32 else BitVec.ofNat 32 (31 - Nat.log2 a.toNat) := by
  have hz : a.toNat = 0 ↔ a = 0 := BitVec.toNat_inj (x := a) (y := 0)
  simp only [vfnWord_eq h, vfnElem, etBits_word h, clz, beq_iff_eq, hz]
  split <;> rfl

theorem vfnWord_popc :
    vfnWord .popc m a = BitVec.ofNat 32 ((List.range 32).filter (fun i => a.getLsbD i)).length := by
  simp only [vfnWord_eq h, vfnElem, etBits_word h, popc, foldl_count_eq_length_filter, Nat.zero_add]; rfl

end

-- ## without saturation

section
variable {m : NumMode} (hsat : m.sat = false)
include hsat

theorem narrowWord_wrapping (z : Int) : narrowWord m.et m.sat z = BitVec.ofInt 32 z := by
  rw [hsat]; rfl

/-- Sums, differences and products of the values are those of the words modulo 2^32. -/
theorem narrowWord_wrap_add (a b : Word) : narrowWord m.et m.sat (wordVal m.et a + wordVal m.et b) = a + b := by
  rw [narrowWord_wrapping hsat, BitVec.ofInt_add, ofInt_wordVal, ofInt_wordVal]

theorem narrowWord_wrap_sub (a b : Word) : narrowWord m.et m.sat (wordVal m.et a - wordVal m.et b) = a - b := by
  rw [narrowWord_wrapping hsat, Int.sub_eq_add_neg, BitVec.ofInt_add, BitVec.ofInt_neg, ofInt_wordVal, ofInt_wordVal,
    BitVec.sub_eq_add_neg]

theorem narrowWord_wrap_mul (a b : Word) : narrowWord m.et m.sat (wordVal m.et a * wordVal m.et b) = a * b := by
  rw [narrowWord_wrapping hsat, BitVec.ofInt_mul, ofInt_wordVal, ofInt_wordVal]

theorem narrowWord_wrap_mad (a b c : Word) :
    narrowWord m.et m.sat (wordVal m.et a * wordVal m.et b + wordVal m.et c) = c + a * b := by
  rw [narrowWord_wrapping hsat, BitVec.ofInt_add, BitVec.ofInt_mul, ofInt_wordVal, ofInt_wordVal, ofInt_wordVal, BitVec.add_comm]

end

-- ## indivisible updates

/-- The word that an indivisible update writes. -/
def atomicWord (o : AtOp) (et : ET) (m v c : Word) : Word :=
  (atomicNew o et false (m.setWidth 64) (v.setWidth 64) (c.setWidth 64)).setWidth 32

/-- The rounding of an indivisible update (R354): RM and SAT are ignored. -/
def atomicMode (et : ET) : NumMode := ⟨et, .rne, false, false, []⟩

section
variable {et : ET} (h : et = .i32 ∨ et = .n32) (m v c : Word)
include h

theorem atomicWord_add : atomicWord .add et m v c = m + v :=
  (vopWord_add (m := atomicMode et) h m v 0).trans (narrowWord_wrap_add (m := atomicMode et) rfl m v)

theorem atomicWord_min : atomicWord .min et m v c = if wordVal et v < wordVal et m then v else m :=
  vopWord_min (m := atomicMode et) h m v 0

theorem atomicWord_max : atomicWord .max et m v c = if wordVal et m < wordVal et v then v else m :=
  vopWord_max (m := atomicMode et) h m v 0

end

section
variable (et : ET) (m v c : Word)

theorem setWidth_setWidth_word (w : Word) : (w.setWidth 64).setWidth 32 = w := by
  rw [BitVec.setWidth_setWidth_of_le _ (by decide), BitVec.setWidth_eq]

theorem atomicWord_and : atomicWord .and et m v c = m &&& v := by
  simp only [atomicWord, atomicNew, BitVec.setWidth_and, setWidth_setWidth_word]

theorem atomicWord_or : atomicWord .or et m v c = m ||| v := by
  simp only [atomicWord, atomicNew, BitVec.setWidth_or, setWidth_setWidth_word]

theorem atomicWord_xor : atomicWord .xor et m v c = m ^^^ v := by
  simp only [atomicWord, atomicNew, BitVec.setWidth_xor, setWidth_setWidth_word]

theorem atomicWord_xchg : atomicWord .xchg et m v c = v := setWidth_setWidth_word v

/-- R355: the whole words are compared. -/
theorem atomicWord_cas : atomicWord .cas et m v c = if m = c then v else m := by
  have heq : m.setWidth 64 = c.setWidth 64 ↔ m = c :=
    ⟨fun he => by rw [← setWidth_setWidth_word m, he, setWidth_setWidth_word], congrArg _⟩
  simp only [atomicWord, atomicNew, heq, apply_ite (BitVec.setWidth 32), setWidth_setWidth_word]

end

/-- Settles O14: one lemma for each operation, with the wrapping results as narrowing without SAT. -/
theorem integerOperations : Obligations.IntegerOperations := by
  unfold Obligations.IntegerOperations
  refine ⟨fun m a b c hsat h => ?wrapping, fun m a b c h => ?general, fun m v c => ?atomic⟩
  case wrapping =>
    refine ⟨(vopWord_add h a b c).trans (narrowWord_wrap_add hsat a b),
      (vopWord_sub h a b c).trans (narrowWord_wrap_sub hsat a b),
      (vopWord_mul h a b c).trans (narrowWord_wrap_mul hsat a b),
      (vopWord_mad h a b c).trans (narrowWord_wrap_mad hsat a b c),
      vopWord_and h a b c, vopWord_or h a b c, vopWord_xor h a b c,
      fun he => (vopWord_mulh h a b c).trans ?_, fun he => (vopWord_mulh h a b c).trans ?_⟩
    · rw [he]; rfl
    · rw [he]; exact BitVec.ofInt_natCast 32 (a.toNat * b.toNat / 2 ^ 32)
  case general =>
    exact ⟨vopWord_add h a b c, vopWord_sub h a b c, vopWord_mul h a b c, vopWord_mad h a b c, vopWord_mulh h a b c,
      vopWord_min h a b c, vopWord_max h a b c, vopWord_and h a b c, vopWord_or h a b c, vopWord_xor h a b c,
      vopWord_shl h a b c, vopWord_shr h a b c, vopWord_sra h a b c, vfnWord_abs h a, vfnWord_neg h a, vfnWord_not h a,
      vfnWord_clz h a, vfnWord_popc h a⟩
  case atomic =>
    refine ⟨atomicWord_add (.inr rfl) m v c, atomicWord_add (.inl rfl) m v c, atomicWord_and _ m v c, atomicWord_or _ m v c,
      atomicWord_xor _ m v c, atomicWord_xchg _ m v c, atomicWord_cas _ m v c, ?_, ?_,
      atomicWord_min (.inl rfl) m v c, atomicWord_max (.inl rfl) m v c⟩
    · exact (atomicWord_min (.inr rfl) m v c).trans (by simp [wordVal])
    · exact (atomicWord_max (.inr rfl) m v c).trans (by simp [wordVal])

end Sys2Proof.Machine
end

