-- ==== Sys2Proof/Proofs/TagWaits.lean ====
section
/-! What follows an instruction that has set the PC of its split itself; waits, polls and YIELDC of a tag (R219, R232, R263,
R264), and O28. -/
namespace Sys2Proof.Machine
open Sys2Proof

-- ## the notes that follow an instruction

/-- A team after the spin detector's note for a split and the marking of dirty register lines (R113, R286). -/
def Noted (uid : Nat) (t u : Team) : Prop :=
  TeamKept t u ∧ u.pending = t.pending ∧ (∀ v, v ≠ uid → u.split v = t.split v) ∧
    ∀ y, t.split uid = some y → ∃ z, u.split uid = some z ∧ { z with spin := y.spin, demoted := y.demoted, dueAt := y.dueAt } = y

theorem noted_markDirty_modSplit (t : Team) (uid : Nat) {f : Split → Split} (rs : List Nat)
    (hf : ∀ y, { f y with spin := y.spin, demoted := y.demoted, dueAt := y.dueAt } = y) :
    Noted uid t (markDirty (t.modSplit uid f) rs) := by
  have hfu : ∀ y, (f y).uid = y.uid := fun y => by have := congrArg Split.uid (hf y); exact this
  refine ⟨(teamKept_of_splitsOnly (splitsOnly_modSplit t uid f)).trans (teamKept_markDirty _ _), markDirty_pending _ _,
    fun v hv => ?_, fun y hy => ⟨f y, ?_, hf y⟩⟩
  · rw [markDirty_split, split_modSplit_ne _ _ hfu hv]
  · rw [markDirty_split]; exact split_modSplit_self f hfu hy

/-- After an instruction that sets the PCs itself, only its team is noted on. -/
theorem afterIssue_done (c : Issue) (u : Uses) (s0 : State) {s : State} {t : Team} (h : s.team c.tid = some t) :
    OnlyTeam s (afterIssue c u (.done s0) s) c.tid ∧
      ∃ v, (afterIssue c u (.done s0) s).team c.tid = some v ∧ Noted c.uid t v := by
  obtain ⟨f, hf, hs⟩ := spinLog_team h c.uid c.x.pc (u.written c.t c.x) u
  unfold afterIssue
  dsimp only
  rw [hs]
  refine ⟨(onlyTeam_setTeam _ _ _).trans (onlyTeam_modTeam _ _ _), _, ?_, noted_markDirty_modSplit t c.uid u.vw hf⟩
  rw [team_modTeam_self, team_setTeam_self]; rfl

/-- An instruction whose effect advances its split itself completes. -/
theorem completes_done {s e : State} {tid uid : Nat} {t te : Team} {x xe : Split} {i : Instr} {sw : Bool} {u : Issue → Uses}
    {cost : Issue → Nat} {body : Issue → Res} {pc : Word} {ws : List Wait} (hs : AtIssue s tid uid t x)
    (hi : exec i s = issueAs false i sw u cost s body) (hr : Ready t x (u (issueOf tid uid t x i)))
    (hb : body (issueOf tid uid t x i) = .done (advance e tid uid sw pc ws)) (ht : e.team tid = some te)
    (hx : te.split uid = some xe) : Completes i s e tid uid sw pc ws := by
  let c := issueOf tid uid t x i
  have hd : checked c (u c) s body = .done (advance e tid uid sw pc ws) :=
    (checked_ready (c := c) hr s body).trans hb
  have ha : ((advance e tid uid sw pc ws).tick (cost c)).team tid = some (advanced te uid sw pc ws e.clk.cycle.toNat) := by
    rw [team_tick, advance_eq ht, team_setTeam_self]
  obtain ⟨hframe, v, hv, hkept, hpend, hother, hself⟩ := afterIssue_done c (u c) (advance e tid uid sw pc ws) ha
  refine ⟨_, v, te, xe, hi.trans (issueAs_of hs hd rfl), ?_, hv, ht, hx, (teamKept_advanced _ _ _ _ _ _).trans hkept,
    fun hj => ?_⟩
  · refine OnlyTeam.trans ?_ hframe
    exact (onlyTeam_modTeam _ _ _).trans (onlyTeam_tick _ _ _)
  · obtain ⟨hp, ho, y, hy, hpc, hcount, hwaits, hk⟩ := advanced_noJoin hx hj sw ws e.clk.cycle.toNat
    obtain ⟨z, hz, hzy⟩ := hself y hy
    refine ⟨hpend.trans hp, fun w hw => (hother w hw).trans (ho w hw), z, hz, ?_, ?_, ?_, ?_⟩
    · rw [← hpc, ← hzy]
    · rw [← hcount, ← hzy]
    · rw [← hwaits, ← hzy]
    · have := congrArg (fun q : Split => { q with
        pc := xe.pc, icount := xe.icount, waits := xe.waits, parkedAt := xe.parkedAt, spin := xe.spin, demoted := xe.demoted,
        dueAt := xe.dueAt }) hzy
      exact this.trans hk

-- ## observing a tag

@[simp] theorem removeRanges_teams (s : State) (coach asid : Nat) (rs : List (Nat × Nat)) :
    (removeRanges s coach asid rs).teams = s.teams := by
  unfold removeRanges; split <;> rfl

/-- An observation takes no split from the issuing team: at most accumulators land (R198, R220). -/
theorem observe_keeps_split {s : State} {tid uid : Nat} {t : Team} {x : Split} (ht : s.team tid = some t)
    (hx : t.split uid = some x) (k : TagKind) (n : Word) :
    ∃ u, (observe s tid k n).team tid = some u ∧ u.split uid = some x := by
  have removed : ∀ rs, (removeRanges s t.coach t.asid rs).team tid = some t := fun rs =>
    (congrArg (Store.find · tid) (removeRanges_teams s _ _ rs)).trans ht
  unfold observe
  rw [ht]
  dsimp only
  split
  · exact ⟨landBatch t n, by rw [team_modTeam_self, removed]; rfl, hx⟩
  · exact ⟨t, removed _, hx⟩

/-- Only a matrix batch has accumulators: the observation of another tag leaves the teams alone (R198). -/
theorem observe_teams_of_ne_mm (s : State) (tid : Nat) {k : TagKind} (hk : k ≠ .mm) (n : Word) :
    (observe s tid k n).teams = s.teams := by
  have hmm : (k == TagKind.mm && n != 0) = false := by rw [beq_false_of_ne hk, Bool.false_and]
  unfold observe
  rw [hmm]
  split
  · rfl
  · exact removeRanges_teams _ _ _ _

-- ## the three forms

section
variable {s : State} {tid uid : Nat} {t : Team} {x : Split} {i : Instr} {sw : Bool} {d a : BitVec 6} {imm : BitVec 16}
  {k : TagKind} {n : Word} (hs : AtIssue s tid uid t x) (hn : s.rs t a.toNat = n)
include hs hn

/-- R219, R232, R263: a wait that its counter's window admits observes a complete tag and parks on another. -/
theorem waitTag_answers (hi : exec i s = waitTag i sw k a s) (hw : wellFormed i = true) :
    (tagLegal (t.counter k) n = false →
      Answers i s (takeCause (s.tick 1) tid uid ⟨.illegalOp, (issueOf tid uid t x i).word, t.codeHi ++ x.pc⟩) tid) ∧
    (tagLegal (t.counter k) n = true →
      (tagComplete t k n = true → Completes i s (observe s tid k n) tid uid sw (x.pc + 4) []) ∧
      (tagComplete t k n = false → Completes i s s tid uid sw (x.pc + 4) [.tag k n false])) := by
  subst hn
  unfold waitTag issueCtl at hi
  have hr : Ready t x { regOk := wellFormed i } := hw ▸ ready_noRegs t x
  refine ⟨fun hl => ?_, fun hl => ⟨fun hc => ?_, fun hc => ?_⟩⟩
  · exact answers_causeOfBody (cost := oneCycle) hs hi hr (by simp only [issueOf, hl]; rfl)
  · obtain ⟨u, hu, hx⟩ := observe_keeps_split hs.2.1 hs.2.2 k (s.rs t a.toNat)
    exact completes_next hs hi hr (by simp only [issueOf, hl, hc]; rfl) hu hx
  · exact completes_park hs hi hr (by simp only [issueOf, hl, hc]; rfl) hs.2.1 hs.2.2

/-- R264: a YIELDC goes to its target, with the observation of a complete tag or parked on another. -/
theorem yieldTag_answers (hi : exec i s = yieldTag i sw k a imm s) (hw : wellFormed i = true) :
    (tagLegal (t.counter k) n = false →
      Answers i s (takeCause (s.tick 1) tid uid ⟨.illegalOp, (issueOf tid uid t x i).word, t.codeHi ++ x.pc⟩) tid) ∧
    (tagLegal (t.counter k) n = true →
      (tagComplete t k n = true → Completes i s (observe s tid k n) tid uid sw (targetK x.pc imm) []) ∧
      (tagComplete t k n = false → Completes i s s tid uid sw (targetK x.pc imm) [.tag k n true])) := by
  subst hn
  unfold yieldTag issueCtl at hi
  have hr : Ready t x { regOk := wellFormed i } := hw ▸ ready_noRegs t x
  refine ⟨fun hl => ?_, fun hl => ⟨fun hc => ?_, fun hc => ?_⟩⟩
  · exact answers_causeOfBody (cost := oneCycle) hs hi hr (by simp only [issueOf, hl]; rfl)
  · obtain ⟨u, hu, hx⟩ := observe_keeps_split hs.2.1 hs.2.2 k (s.rs t a.toNat)
    exact completes_goto hs hi hr (by simp only [issueOf, hl, hc]; rfl) hu hx
  · exact completes_done hs hi hr (by simp only [issueOf, hl, hc]; rfl) hs.2.1 hs.2.2

/-- R263: a poll answers one with the observation of a complete tag, and zero of another. -/
theorem pollTag_answers (hi : exec i s = pollTag i sw k d a s) (hw : wellFormed i = true) (hk : k ≠ .mm)
    (hr : Ready t x { sw := [d.toNat] }) :
    (tagLegal (t.counter k) n = false →
      Answers i s (takeCause (s.tick 1) tid uid ⟨.illegalOp, (issueOf tid uid t x i).word, t.codeHi ++ x.pc⟩) tid) ∧
    (tagLegal (t.counter k) n = true →
      (tagComplete t k n = true →
        Completes i s ((observe s tid k n).setTeam tid (t.setS d.toNat 1)) tid uid sw (x.pc + 4) []) ∧
      (tagComplete t k n = false → ScalarResult i s tid uid t x sw d.toNat 0)) := by
  subst hn
  unfold pollTag issueCtl at hi
  have hr : Ready t x { sw := [d.toNat], regOk := wellFormed i } := hw ▸ hr
  refine ⟨fun hl => ?_, fun hl => ⟨fun hc => ?_, fun hc => ?_⟩⟩
  · exact answers_causeOfBody (cost := oneCycle) hs hi hr (by simp only [issueOf, hl]; rfl)
  · have ht : (observe s tid k (s.rs t a.toNat)).team tid = some t :=
      (congrArg (Store.find · tid) (observe_teams_of_ne_mm s tid hk _)).trans hs.2.1
    refine completes_next hs hi hr ?_ (team_setTeam_self _ _ _) (xe := x) ?_
    · rw [← modTeam_some (fun t => t.setS d.toNat 1) ht]
      simp only [issueOf, hl, hc]; rfl
    · unfold Team.split; rw [setS_splits]; exact hs.2.2
  · exact scalarResult_setS hs hi hr (by simp only [issueOf, hl, hc]; rfl)

end

/-- Settles O28: one lemma for each of the three forms, whatever the kind of tag. -/
theorem tagWaits : Obligations.TagWaits := by
  unfold Obligations.TagWaits
  intro s tid uid t x sw d a imm hs n target bad w y q
  have wait : ∀ {i k}, exec i s = waitTag i sw k a s → wellFormed i = true → w i k := fun hi hw => waitTag_answers hs rfl hi hw
  have yieldc : ∀ {i k}, exec i s = yieldTag i sw k a imm s → wellFormed i = true → y i k :=
    fun hi hw => yieldTag_answers hs rfl hi hw
  have poll : ∀ {i k}, exec i s = pollTag i sw k d a s → wellFormed i = true → k ≠ .mm → q i k :=
    fun hi hw hk hr => pollTag_answers hs rfl hi hw hk hr
  exact ⟨wait rfl rfl, wait rfl rfl, wait rfl rfl, wait rfl rfl, yieldc rfl rfl, yieldc rfl rfl, yieldc rfl rfl,
    yieldc rfl rfl, poll rfl rfl (by decide), poll rfl rfl (by decide)⟩

end Sys2Proof.Machine
end

