-- ==== Sys2Proof/Proofs/PrefetchEviction.lean ====
section
/-! PFL2 (R214) in a full set of the L2: the line that it brings in evicts a dirty line, and the write-back of that line is
one that R317 answers with INTEGRITY. The halt stops the teams of the line's context, so that PFL2 does not leave the teams
as they were, and O42 fails. -/
namespace Sys2Proof.Machine
open Sys2Proof

/-- Line i of context 0 in the L2, under key slot 1, dirty for i = 1; these lines have one set, that of line 0 (R163). -/
def heldLine (i : Nat) : L2Line :=
  ⟨0, i * (2 ^ 32 + 2 ^ 40), 1, true, 0, true, i == 1, List.replicate 32 0, List.replicate 32 (.u 0), 0, i⟩

/-- A team whose PFL2 names the line at VA 0: s4:s5 is 0 and s6 is 1. -/
def prefetchTeam : Team := { Team.blank with scalars := [(6, 1)], splits := [Split.fresh 0 0 (allLanes 32)] }

/-- The page tables of context 0 map the VA of `heldLine 1` to block 0 of stack 0, under key slot 1 (R169, R170). -/
def heldPageTables : List (Nat × Byte) :=
  writeBytes (writeBytes (writeBytes [] (privKey 0 0) 8 0x11) (privKey 0 0x1808) 8 0x21) (privKey 0 0x2000) 8 (3 + 2 ^ 40 + 2 ^ 45)

/-- The set of line 0 is full, and its oldest line is dirty and in a block sealed under other keys than its slot's (R317).
Line 0 lies in a page of the HOST tier, which the TLB holds. -/
def fullSetState : State :=
  { State.reset with
    cur := .split 0 0
    teams := [(0, prefetchTeam)]
    ctxs := [(0, Context.blank)]
    keys := [(1, ⟨.live, 1, 0, 0, 0, 0, []⟩)]
    seals := [(0, 2)]
    tlb := [⟨0, 0, 2, 0, BitVec.ofNat 64 (1 + 2 ^ 40 + 3 * 2 ^ 43)⟩]
    l2 := (List.range 12).map (fun i => heldLine (i + 1))
    mem := heldPageTables }

theorem prefetchTeam_base : fullSetState.rpair prefetchTeam (4 : BitVec 6).toNat = 0 := by decide
theorem prefetchTeam_length : fullSetState.rs prefetchTeam (6 : BitVec 6).toNat = 1 := by decide

/-- Line 0 can be had; the line that leaves for it has halted its context, and the team has stopped. -/
theorem fetchOperandLine_halts :
    ∃ e, fetchOperandLine fullSetState ⟨prefetchTeam.ctx, prefetchTeam.comp, prefetchTeam.coach⟩ 0 = .ok e ∧
      (e.ctx 0).map (fun c => c.halt.map (·.h.cause)) = some (some .integrity) ∧
      (e.team 0).map (·.running) = some false := by
  have h : (fetchOperandLine fullSetState ⟨prefetchTeam.ctx, prefetchTeam.comp, prefetchTeam.coach⟩ 0).toOption.map (fun e =>
      ((e.ctx 0).map (fun c => c.halt.map (·.h.cause)), (e.team 0).map (·.running))) =
        some (some (some .integrity), some false) := by
    decide +kernel
  cases hf : fetchOperandLine fullSetState ⟨prefetchTeam.ctx, prefetchTeam.comp, prefetchTeam.coach⟩ 0 with
  | error c => rw [hf] at h; cases h
  | ok e =>
    rw [hf] at h
    obtain ⟨hcause, hstop⟩ := Prod.mk.inj (Option.some.inj h)
    exact ⟨e, rfl, hcause, hstop⟩

/-- Refutes O42: PFL2 of one line evicts a dirty line whose write-back halts its context with INTEGRITY (R317), and the
context's team no longer runs, so that the teams are not those before. -/
theorem not_matrixIssue : ¬ Obligations.MatrixIssue := by
  unfold Obligations.MatrixIssue
  intro h
  obtain ⟨-, -, -, -, -, hpfl2⟩ :=
    h fullSetState 0 0 prefetchTeam (Split.fresh 0 0 (allLanes 32)) false 0 0 4 6 ⟨rfl, rfl, rfl⟩
  obtain ⟨-, hteams⟩ := hpfl2 rfl
  obtain ⟨e, hfetch, -, hstop⟩ := fetchOperandLine_halts
  have hkept : e.teams = fullSetState.teams := by
    rw [prefetchTeam_base, prefetchTeam_length] at hteams
    simpa [hfetch] using hteams
  rw [State.team, hkept] at hstop
  exact absurd hstop (by decide)

end Sys2Proof.Machine
end

