-- ==== Sys2Proof/Proofs/Rendezvous.lean ====
section
/-! The rendezvous of a gang (R209, R218): what a member's entry into its queue changes, the entry of every member, and O43. -/
namespace Sys2Proof.Machine
open Sys2Proof

-- ## one member enters

theorem TeamKept.latch {t u : Team} (h : TeamKept t u) : u.latch = t.latch := by
  have := congrArg Team.latch h.1; exact this

/-- A member's team when its share is in the queue: the latch is empty, and the accumulators are in flight (R209, R220). -/
def memberEntered (m : LatchMember) : Team :=
  if m.t.accs.contains (m.e.mm.accUse m.e.batch) then { m.t with latch := none }
  else { m.t with latch := none, accs := m.t.accs ++ [m.e.mm.accUse m.e.batch] }

theorem memberEntered_latch (m : LatchMember) : (memberEntered m).latch = none := by unfold memberEntered; split <;> rfl
theorem memberEntered_split (m : LatchMember) (uid : Nat) : (memberEntered m).split uid = m.t.split uid := by
  unfold memberEntered; split <;> rfl
theorem memberEntered_pendingOf (m : LatchMember) (uid : Nat) : pendingOf (memberEntered m) uid = pendingOf m.t uid := by
  unfold memberEntered; split <;> rfl

/-- The state when a member's share is in its queue, its split not yet moved on. -/
def shareQueued (s : State) (m : LatchMember) : State := enterShare (clearLatch s m) m.tid m.t.coach m.e.mm m.e.batch

theorem latchEnter_eq (s : State) (m : LatchMember) : latchEnter s m =
    match m.t.split m.e.split with
    | some x => advance (shareQueued s m) m.tid m.e.split (m.e.mm.word.getLsbD 31) (x.pc + 4) []
    | none => shareQueued s m := rfl

theorem team_shareQueued_self {s : State} {m : LatchMember} (h : s.team m.tid = some m.t) :
    (shareQueued s m).team m.tid = some (memberEntered m) := by
  have hc : ((clearLatch s m).modCoach m.t.coach (fun k =>
      { k with tensor := k.tensor ++ [⟨m.tid, m.e.mm, m.e.batch, 0, 0, [], [], none⟩] })).team m.tid =
        some { m.t with latch := none } := by
    show (clearLatch s m).team m.tid = _
    unfold clearLatch
    rw [team_modTeam_self, h]; rfl
  unfold shareQueued enterShare
  rw [team_modTeam_self, hc]; rfl

theorem coach_modTeam (s : State) (tid : Nat) (f : Team → Team) (c : Nat) : (s.modTeam tid f).coach c = s.coach c := by
  unfold State.modTeam; split <;> rfl

/-- The share stands at the end of its coach's queue, and every other queue is as it was (R206). -/
theorem tensor_shareQueued (s : State) (m : LatchMember) (c : Nat) :
    ((shareQueued s m).coach c).tensor = (s.coach c).tensor ++
      if c = m.t.coach then [⟨m.tid, m.e.mm, m.e.batch, 0, 0, [], [], none⟩] else [] := by
  unfold shareQueued enterShare
  rw [coach_modTeam]
  by_cases hc : c = m.t.coach
  · subst hc
    rw [coach_modCoach_self, if_pos rfl, clearLatch, coach_modTeam]
  · rw [coach_modCoach_ne _ _ hc, if_neg hc, List.append_nil, clearLatch, coach_modTeam]

theorem coach_latchEnter (s : State) (m : LatchMember) (c : Nat) : (latchEnter s m).coach c = (shareQueued s m).coach c := by
  rw [latchEnter_eq]
  split
  · exact coach_modTeam _ _ _ _
  · rfl

theorem team_latchEnter_ne (s : State) {m : LatchMember} {k : Nat} (h : k ≠ m.tid) : (latchEnter s m).team k = s.team k := by
  have hq : (shareQueued s m).team k = s.team k := by
    unfold shareQueued enterShare clearLatch
    rw [team_modTeam_ne _ _ h]
    exact team_modTeam_ne _ _ h
  rw [latchEnter_eq]
  split
  · exact (team_modTeam_ne _ _ h).trans hq
  · exact hq

theorem latchEnter_mem (s : State) (m : LatchMember) : (latchEnter s m).mem = s.mem := by
  have hq : (shareQueued s m).mem = s.mem := by
    unfold shareQueued enterShare clearLatch
    rw [modTeam_mem, modCoach_mem, modTeam_mem]
  rw [latchEnter_eq]
  split
  · exact (advance_mem _ _ _ _ _ _).trans hq
  · exact hq

-- ## every member enters

/-- Member g has entered: its latch is empty, its share is in its coach's queue, and its split has gone on (R209). -/
def MemberGoesOn (n : State) (g : LatchMember) : Prop :=
  ∃ u, n.team g.tid = some u ∧ u.latch = none ∧
    (∃ h, h ∈ (n.coach g.t.coach).tensor ∧ h.tid = g.tid ∧ h.mm = g.e.mm ∧ h.batch = g.e.batch) ∧
    ∀ z, g.t.split g.e.split = some z → NoJoin z (z.pc + 4) → ∃ y, u.split g.e.split = some y ∧ y.pc = z.pc + 4 ∧
      y.icount = z.icount + 1 ∧ y.waits = (if g.e.mm.word.getLsbD 31 && pendingOf g.t g.e.split then [.switch] else [])

theorem memberGoesOn_latchEnter {s : State} {m : LatchMember} (h : s.team m.tid = some m.t) :
    MemberGoesOn (latchEnter s m) m := by
  have hq := team_shareQueued_self h
  have hshare : ∃ h, h ∈ ((latchEnter s m).coach m.t.coach).tensor ∧ h.tid = m.tid ∧ h.mm = m.e.mm ∧ h.batch = m.e.batch := by
    rw [coach_latchEnter, tensor_shareQueued, if_pos rfl]
    exact ⟨_, List.mem_append_right _ (List.mem_singleton.mpr rfl), rfl, rfl, rfl⟩
  cases hx : m.t.split m.e.split with
  | none =>
    have he : latchEnter s m = shareQueued s m := by rw [latchEnter_eq, hx]
    exact ⟨memberEntered m, by rw [he]; exact hq, memberEntered_latch m, hshare, fun z hz => by rw [hx] at hz; cases hz⟩
  | some x =>
    have he : latchEnter s m = (shareQueued s m).setTeam m.tid (advanced (memberEntered m) m.e.split (m.e.mm.word.getLsbD 31)
        (x.pc + 4) [] (shareQueued s m).clk.cycle.toNat) := by
      rw [latchEnter_eq, hx]; exact advance_eq hq _ _ _ _
    refine ⟨_, by rw [he]; exact team_setTeam_self _ _ _, ?_, hshare, fun z hz hj => ?_⟩
    · rw [(teamKept_advanced _ _ _ _ _ _).latch, memberEntered_latch]
    · obtain rfl : x = z := Option.some.inj (hx.symm.trans hz)
      obtain ⟨-, -, y, hy, hpc, hcount, hwaits, -⟩ := advanced_noJoin ((memberEntered_split m _).trans hx) hj
        (m.e.mm.word.getLsbD 31) [] (shareQueued s m).clk.cycle.toNat
      rw [memberEntered_pendingOf] at hwaits
      exact ⟨y, hy, hpc, hcount, hwaits⟩

/-- The entry of a member of another team leaves what has been reached. -/
theorem MemberGoesOn.latchEnter {s : State} {g m : LatchMember} (h : MemberGoesOn s g) (hne : g.tid ≠ m.tid) :
    MemberGoesOn (latchEnter s m) g := by
  obtain ⟨u, hu, hlatch, ⟨sh, hsh, hsame⟩, hsplit⟩ := h
  refine ⟨u, (team_latchEnter_ne s hne).trans hu, hlatch, ⟨sh, ?_, hsame⟩, hsplit⟩
  rw [coach_latchEnter, tensor_shareQueued]
  exact List.mem_append_left _ hsh

theorem MemberGoesOn.foldl {s : State} {g : LatchMember} (h : MemberGoesOn s g) (ms : List LatchMember)
    (hne : g.tid ∉ ms.map (·.tid)) : MemberGoesOn (ms.foldl Machine.latchEnter s) g := by
  induction ms generalizing s with
  | nil => exact h
  | cons m ms ih =>
    obtain ⟨hm, hms⟩ := not_or.mp (mt List.mem_cons.mpr hne)
    exact ih (h.latchEnter hm) hms

/-- The members of different teams enter one after another, and each finds its team as the rendezvous found it. -/
theorem memberGoesOn_foldl {s : State} {ms : List LatchMember} (hnd : (ms.map (·.tid)).Nodup)
    (ht : ∀ m, m ∈ ms → s.team m.tid = some m.t) : ∀ g, g ∈ ms → MemberGoesOn (ms.foldl latchEnter s) g := by
  induction ms generalizing s with
  | nil => simp
  | cons m ms ih =>
    obtain ⟨hm, hnd'⟩ := List.nodup_cons.mp hnd
    intro g hg
    rcases List.mem_cons.mp hg with rfl | hg'
    · exact (memberGoesOn_latchEnter (ht g List.mem_cons_self)).foldl ms hm
    · refine ih hnd' (fun k hk => ?_) g hg'
      have hne : k.tid ≠ m.tid := fun e => hm (List.mem_map.mpr ⟨k, hk, e⟩)
      exact (team_latchEnter_ne s hne).trans (ht k (List.mem_cons_of_mem _ hk))

theorem foldl_latchEnter_mem (ms : List LatchMember) (s : State) : (ms.foldl latchEnter s).mem = s.mem := by
  induction ms generalizing s with
  | nil => rfl
  | cons m ms ih => exact (ih _).trans (latchEnter_mem s m)

/-- What follows the issue does not undo an entry: it notes on one team's split, and leaves the queues alone. -/
theorem MemberGoesOn.noted {e n : State} {g : LatchMember} {tid uid : Nat} {t u : Team} (h : MemberGoesOn e g)
    (ho : OnlyTeam e n tid) (ht : e.team tid = some t) (hu : n.team tid = some u) (hn : Noted uid t u) : MemberGoesOn n g := by
  have hcoach : ∀ c, n.coach c = e.coach c := fun c => by
    have := congrArg (fun q : State => q.coach c) ho.1; exact this
  obtain ⟨v, hv, hlatch, hshare, hsplit⟩ := h
  rw [← hcoach] at hshare
  by_cases hg : g.tid = tid
  · obtain ⟨hkept, -, hother, hself⟩ := hn
    obtain rfl : v = t := Option.some.inj (hv.symm.trans (hg ▸ ht))
    refine ⟨u, hg ▸ hu, hkept.latch.trans hlatch, hshare, fun z hz hj => ?_⟩
    obtain ⟨y, hy, hpc, hcount, hwaits⟩ := hsplit z hz hj
    by_cases hs : g.e.split = uid
    · obtain ⟨y', hy', hyy⟩ := hself y (hs ▸ hy)
      exact ⟨y', hs ▸ hy', by rw [← hpc, ← hyy], by rw [← hcount, ← hyy], by rw [← hwaits, ← hyy]⟩
    · exact ⟨y, (hother _ hs).trans hy, hpc, hcount, hwaits⟩
  · exact ⟨v, (ho.2 _ hg).trans hv, hlatch, hshare, hsplit⟩

-- ## the rendezvous

theorem mem_latchMembers {s : State} {drove : Nat} {gang : List Nat} {m : LatchMember} (h : m ∈ latchMembers s drove gang) :
    s.team m.tid = some m.t := by
  obtain ⟨tid, -, hm⟩ := List.mem_filterMap.mp h
  split at hm
  · next t ht =>
    split at hm
    · obtain ⟨e, -, rfl⟩ := Option.map_eq_some_iff.mp hm
      exact ht
    · cases hm
  · cases hm

/-- Bases that are multiples of 32 are no cause (R215). -/
theorem mmMisaligned_none {mm : MMInstr} (ha : mm.a.toNat % 32 = 0) (hb : mm.b.toNat % 32 = 0) : mmMisaligned mm = none := by
  simp [mmMisaligned, ha, hb]

/-- A rendezvous whose members are all there, agree and have room: each enters (R209). -/
theorem settleLatch_enters {s : State} {tid : Nat} {t : Team} {e : LatchEntry} (ht : s.team tid = some t)
    (he : t.latch = some e) (hlen : (latchMembers s t.drove e.mm.gang).length = e.mm.gang.length)
    (hmatch : (latchMembers s t.drove e.mm.gang).all (fun g => mmMatches e.mm g.e.mm) = true)
    (haligned : mmMisaligned e.mm = none)
    (hroom : (latchMembers s t.drove e.mm.gang).all (fun g => tensorRoom s g.t.coach) = true) :
    settleLatch s tid = (latchMembers s t.drove e.mm.gang).foldl latchEnter s := by
  unfold settleLatch
  rw [ht]
  simp only [Option.bind_some, he, Option.map_some, hlen, hmatch, haligned, hroom, bne_self_eq_false, Bool.not_true,
    Bool.false_eq_true, if_false, if_true]

section
variable {s : State} {tid uid : Nat} {t : Team} {x : Split} {i : Instr} {sw : Bool} {m : MShape} {d : BitVec 8} {a b : BitVec 6}

/-- A ready instruction of a gang enters its coach's latch, and the rendezvous is tried (R209). -/
theorem exec_gangInstr (hs : AtIssue s tid uid t x) (hi : exec i s = matrixOp i sw m d a b s) (hm : (m == .mm128) = false)
    (hr : Ready t x { vw := regGroup d.toNat (shapeAcc m), mode := .mat, regOk := wellFormed i && t.gang.length == shapeG m })
    (hw : t.w = 1024) (hrel : released t uid false = true) (hl : t.latch = none) :
    ∃ u, exec i s = .next (afterIssue (issueOf tid uid t x i) u
      (.done (enterLatch s (issueOf tid uid t x i) (captureMM s (issueOf tid uid t x i) m d a b)))
      ((enterLatch s (issueOf tid uid t x i) (captureMM s (issueOf tid uid t x i) m d a b)).tick 1)) := by
  unfold matrixOp at hi
  have hr' : Ready t x { vw := regGroup d.toNat (shapeAcc m), mode := .mat, wrote := some 0,
                         regOk := wellFormed i && (m == .mm128 || t.gang.length == shapeG m) } := by
    rw [hm, Bool.false_or]; exact hr
  refine ⟨_, hi.trans (issueAs_of hs ((checked_ready (c := issueOf tid uid t x i) hr' s _).trans ?_) rfl)⟩
  simp only [issueOf, hw, hm, hl, hrel]
  rfl

theorem captureMM_gang (c : Issue) (hm : (m == .mm128) = false) : (captureMM s c m d a b).gang = c.t.gang := by
  unfold captureMM; rw [hm]; rfl

end

/-- Settles O43: the members enter one after another, and what follows the issue leaves them so. -/
theorem rendezvous : Obligations.Rendezvous := by
  unfold Obligations.Rendezvous
  intro s tid uid t x sw d a b m i hs hshape hr hw ha hb hrel hl mm s1 ms hlen hmatch hroom hnd hmem
  obtain ⟨hi, hm⟩ : exec i s = matrixOp i sw m d a b s ∧ (m == .mm128) = false := by
    rcases hshape with ⟨rfl, rfl⟩ | ⟨rfl, rfl⟩ | ⟨rfl, rfl⟩ <;> exact ⟨rfl, rfl⟩
  have hgang : mm.gang = t.gang := captureMM_gang _ hm
  have hteam : s1.team tid = some (withSplit { t with latch := some ⟨mm, uid, 0⟩, openMM := t.openMM + 1 } uid (fun y =>
      { y with waits := [.latch], parkedAt := s.clk.cycle.toNat })) := team_setTeam_self _ _ _
  have henter : enterLatch s (issueOf tid uid t x i) mm = ms.foldl latchEnter s1 := by
    have hstep := settleLatch_enters (e := ⟨mm, uid, 0⟩) hteam rfl
    dsimp only [withSplit] at hstep
    rw [hgang] at hstep
    refine Eq.trans ?_ (hstep hlen hmatch (mmMisaligned_none ha hb) hroom)
    unfold enterLatch s1
    rw [withSplit_eq_modSplit]
    rfl
  obtain ⟨u, hexec⟩ := exec_gangInstr hs hi hm hr hw hrel hl
  rw [show captureMM s (issueOf tid uid t x i) m d a b = mm from rfl, henter] at hexec
  have hall := memberGoesOn_foldl hnd (fun g hg => mem_latchMembers hg)
  obtain ⟨g, hg, hgt⟩ := List.mem_map.mp hmem
  obtain ⟨v, hv, -⟩ := hall g hg
  obtain ⟨ho, n, hn, hnoted⟩ := afterIssue_done (issueOf tid uid t x i) u (ms.foldl latchEnter s1)
    (s := (ms.foldl latchEnter s1).tick 1) (t := v) (by rw [team_tick]; exact hgt ▸ hv)
  refine ⟨_, hexec, ?_, fun g hg => ?_⟩
  · rw [afterIssue_mem]
    exact foldl_latchEnter_mem ms s1
  · exact (hall g hg).noted ((onlyTeam_tick _ _ _).trans ho) (hgt ▸ hv) hn hnoted

end Sys2Proof.Machine
end

