-- ==== Sys2Proof/Proofs/EngineCommands.lean ====
section
/-! The issue of copy commands and of collectives (R232, R256, R262, R265, R266): the tag that one takes, the state that it
leaves, and O40. -/
namespace Sys2Proof.Machine
open Sys2Proof

-- ## a tag that has just been taken

theorem nextTag_ne_zero (n : Word) : nextTag n ≠ 0 := by
  unfold nextTag
  split
  · decide
  · next h => simp only [beq_iff_eq] at h; bv_omega

theorem tagBlocks_self (t n : Word) : tagBlocks t n n = true := decide_eq_true (Nat.le_refl _)

/-- While an operation of the tag has not ended, the tag is not complete (R232, R262). -/
theorem tagComplete_of_open {t : Team} {k : TagKind} {n : Word} {o : TagOp} (hk : k ≠ .mm) (hn : n ≠ 0) (ho : o ∈ t.tags)
    (hkind : o.kind = k) (htag : o.tag = n) (hopen : o.done = false) : tagComplete t k n = false := by
  have hall : t.tags.all (fun o => o.kind != k || o.done || !tagBlocks (t.counter k) n o.tag) = false := by
    refine List.all_eq_false.mpr ⟨o, ho, ?_⟩
    rw [hkind, hopen, htag, tagBlocks_self]
    simp
  unfold tagComplete
  rw [beq_false_of_ne hn, Bool.false_or]
  cases k with
  | mm => exact absurd rfl hk
  | copy | coll | bank => exact hall

/-- The team when an operation takes its tag: the operation is listed, and D holds the tag (R232, R262). -/
def tagTaken (t : Team) (o : TagOp) (d : BitVec 6) : Team := ({ t with tags := t.tags ++ [o] } : Team).setS d.toNat o.tag

theorem tagTaken_splits (t : Team) (o : TagOp) (d : BitVec 6) : (tagTaken t o d).splits = t.splits := setS_splits _ _ _

/-- The tag that an operation with bytes to move takes is not complete yet (R262). -/
theorem tagComplete_tagTaken {t : Team} {o : TagOp} {n : Word} (d : BitVec 6) (hk : o.kind ≠ .mm) (htag : o.tag = nextTag n)
    (hopen : o.done = false) : tagComplete (tagTaken t o d) o.kind (nextTag n) = false := by
  refine tagComplete_of_open hk (nextTag_ne_zero n) ?_ rfl htag hopen
  unfold tagTaken
  rw [setS_tags]
  exact List.mem_append_right _ List.mem_cons_self

-- ## an instruction of the engines that completes

section
variable {s : State} {tid uid : Nat} {t : Team} {x : Split} {i : Instr} {sw : Bool} (hs : AtIssue s tid uid t x)
include hs

/-- A ready control instruction whose effect gives its own team new registers and tags, and no other team anything. -/
theorem completes_issueCtl {d : Nat} {body : Issue → Res} {e : State} {te : Team} (hi : exec i s = issueCtl i sw [d] s body)
    (hr : Ready t x { sw := [d], regOk := wellFormed i }) (hb : body (issueOf tid uid t x i) = .next e)
    (hteams : e.teams = (s.setTeam tid te).teams) (hsp : te.splits = t.splits) : Completes i s e tid uid sw (x.pc + 4) [] := by
  unfold issueCtl at hi
  refine completes_next hs hi hr hb (te := te) (xe := x) ?_ ?_
  · exact (congrArg (Store.find · tid) hteams).trans (team_setTeam_self s tid te)
  · unfold Team.split
    rw [hsp]
    exact hs.2.2

end

-- ## copy commands and DIGEST (R256)

/-- The command moves nothing: it enters no queue, and its tag is done at once. A DIGEST of no bytes still writes its digest
(R257). -/
def copyEmpty (f : CopyFn) (b : List Word) : Bool := blkTotal f b == 0 && f != .digest

/-- The operation under the tag of a copy command (R198, R260, R262). -/
def copyOp (t : Team) (f : CopyFn) (b : List Word) : TagOp :=
  ⟨.copy, nextTag t.copyCtr, copyEmpty f b, if blkDkind b == 0 && !copyEmpty f b then [dstSpan f b] else [], blkHandles f b⟩

/-- The ranges that a copy command locks (R201). -/
def copyRanges (c : Issue) (f : CopyFn) (b : List Word) : List LockEntry :=
  if copyEmpty f b then [] else copyLocks c f b (nextTag c.t.copyCtr)

/-- The issuing team of a copy command with its tag. -/
def copyTeam (t : Team) (d : BitVec 6) (f : CopyFn) (b : List Word) : Team :=
  tagTaken { t with copyCtr := nextTag t.copyCtr } (copyOp t f b) d

/-- The state in which a copy command has its tag and its locks. -/
def copyTaken (s : State) (c : Issue) (d : BitVec 6) (f : CopyFn) (b : List Word) : State :=
  { s.setTeam c.tid (copyTeam c.t d f b) with locks := s.locks ++ copyRanges c f b }

/-- The queue that the block names, of the dray of the team's coach (R251). -/
def copyQueueOf (t : Team) (b : List Word) : Nat := drayQueueOf t.coach (blkQueue b)

/-- The command as it stands in its queue (R251). -/
def copyCommand (c : Issue) (f : CopyFn) (b : List Word) : CopyCmd :=
  ⟨f, b, c.tid, c.t.ctx, c.t.comp, c.t.drove, c.t.coach, nextTag c.t.copyCtr, 0, none, false, []⟩

/-- The state in which the command is also the last of its queue (R256). -/
def copyQueued (s : State) (c : Issue) (d : BitVec 6) (f : CopyFn) (b : List Word) : State :=
  (copyTaken s c d f b).setQueue (drayOf c.t.coach) (copyQueueOf c.t b)
    ((s.dray (drayOf c.t.coach)).queue (copyQueueOf c.t b) ++ [copyCommand c f b])

/-- The state after the issue. -/
def copyIssued (s : State) (c : Issue) (d : BitVec 6) (f : CopyFn) (b : List Word) : State :=
  if copyEmpty f b then copyTaken s c d f b else copyQueued s c d f b

theorem copyIssued_teams (s : State) (c : Issue) (d : BitVec 6) (f : CopyFn) (b : List Word) :
    (copyIssued s c d f b).teams = (s.setTeam c.tid (copyTeam c.t d f b)).teams := by
  unfold copyIssued
  split <;> rfl

section
variable {s : State} {tid uid : Nat} {t : Team} {x : Split} {i : Instr} {sw : Bool} {f : CopyFn} {d a : BitVec 6} {b : List Word}
  (hs : AtIssue s tid uid t x) (hr : Ready t x { sw := [d.toNat], regOk := sblkOk a }) (hi : exec i s = copyIssue i sw f d a s)
  (hw : wellFormed i = sblkOk a) (hb : (List.range 8).map (fun k => s.rs t (a.toNat + k)) = b) (hlegal : blkLegal f b = true)
  (halign : (blkAligned f b).all (fun v => v % 4 == 0) = true) (hspan : spanTrap s (issueOf tid uid t x i) f b = none)
  (hroom : engineRoom s t.ctx .copy (16 * drayOf t.coach + copyQueueOf t b) (dieOf t.coach)
    (copyRanges (issueOf tid uid t x i) f b).length = true) (hrel : released t uid (copyRemote f b) = true)
include hs hr hi hw hb hlegal halign hspan hroom hrel

/-- R256: a legal command with room, and with its release behind it. -/
theorem copyIssue_completes : Completes i s (copyIssued s (issueOf tid uid t x i) d f b) tid uid sw (x.pc + 4) [] := by
  have hmod : (blkAligned f b).find? (fun v => v % 4 != 0) = none :=
    List.find?_eq_none.mpr (fun v hv => by simpa using List.all_eq_true.mp halign v hv)
  refine completes_issueCtl hs hi (hw ▸ hr) ?_ (copyIssued_teams _ _ _ _ _) (tagTaken_splits _ _ _)
  unfold copyRanges copyQueueOf copyEmpty at hroom
  dsimp only [issueOf] at hspan hroom ⊢
  simp only [hb, hlegal, hmod, hspan, hroom, hrel, Bool.not_true, Bool.false_eq_true, if_false]
  exact (apply_ite Res.next _ _ _).symm

/-- R256, R262: a command of no bytes enters no queue; another is queued, and its tag is not complete. -/
theorem copyIssue_settles :
    (copyEmpty f b = true → Completes i s (copyTaken s (issueOf tid uid t x i) d f b) tid uid sw (x.pc + 4) []) ∧
    (copyEmpty f b = false → tagComplete (copyTeam t d f b) .copy (nextTag t.copyCtr) = false ∧
      Completes i s (copyQueued s (issueOf tid uid t x i) d f b) tid uid sw (x.pc + 4) []) := by
  have hc := copyIssue_completes hs hr hi hw hb hlegal halign hspan hroom hrel
  unfold copyIssued at hc
  refine ⟨fun he => ?_, fun he => ⟨?_, ?_⟩⟩
  · rwa [if_pos he] at hc
  · exact tagComplete_tagTaken (o := copyOp t f b) d (by simp [copyOp]) rfl he
  · rwa [if_neg (Bool.eq_false_iff.mp he)] at hc

end

-- ## collectives (R265, R266)

/-- The parts of memory of a collective (first byte, length): its send buffer, its receive buffer and the receive region of its
context (R267, R268). -/
def collSend (s : State) (t : Team) (f : CollFn) (b : List Word) : Nat × Nat :=
  ((blkPair b 0).toNat, sendBytes (collDesc f b) (ctxMembers s t.ctx))
def collRecv (s : State) (t : Team) (f : CollFn) (b : List Word) : Nat × Nat :=
  ((blkPair b 2).toNat, recvBytes (collDesc f b) (ctxMembers s t.ctx))
def collRegion (s : State) (t : Team) : Nat × Nat :=
  ((s.ctx t.ctx).map (fun y => (y.spec.rxreg.toNat, 65536 * y.spec.rxlen))).getD (0, 0)

/-- The collective moves nothing: its tag is done at once. -/
def collEmpty (f : CollFn) (b : List Word) : Bool := (collDesc f b).len == 0

/-- A range that a collective locks (R201). -/
def collLock (c : Issue) (dst : Bool) (sp : Nat × Nat) : LockEntry :=
  ⟨c.t.ctx, dieOf c.t.coach, none, sp.1, sp.2, dst, c.tid, .coll, nextTag c.t.collCtr⟩

/-- The ranges that a collective locks (R201). -/
def collRanges (s : State) (c : Issue) (f : CollFn) (b : List Word) : List LockEntry :=
  if collEmpty f b then []
  else [collLock c false (collSend s c.t f b), collLock c true (collRecv s c.t f b), collLock c true (collRegion s c.t)].filter
    (fun l => l.len != 0)

/-- The operation under the tag of a collective (R198, R262). -/
def collOpTaken (s : State) (t : Team) (f : CollFn) (b : List Word) : TagOp :=
  ⟨.coll, nextTag t.collCtr, collEmpty f b,
    if collEmpty f b then [] else [collRecv s t f b, collRegion s t].filter (fun r => r.2 != 0), []⟩

/-- The issuing team of a collective with its tag. -/
def collTeam (s : State) (t : Team) (d : BitVec 6) (f : CollFn) (b : List Word) : Team :=
  tagTaken { t with collCtr := nextTag t.collCtr } (collOpTaken s t f b) d

/-- The number that the collective takes in its context (R266). -/
def collNumber (s : State) (t : Team) : Nat := ((s.ctx t.ctx).map (fun y => y.collNum)).getD 0 + 1

/-- The state in which a collective has its tag and its number (R266). -/
def collNumbered (s : State) (c : Issue) (d : BitVec 6) (f : CollFn) (b : List Word) : State :=
  (s.setTeam c.tid (collTeam s c.t d f b)).modCtx c.t.ctx (fun y => { y with
    collNum := collNumber s c.t
    empties := if collEmpty f b then y.empties ++ [(collNumber s c.t, collDesc f b)] else y.empties })

/-- The state in which its ranges are locked as well. -/
def collTaken (s : State) (c : Issue) (d : BitVec 6) (f : CollFn) (b : List Word) : State :=
  { collNumbered s c d f b with locks := s.locks ++ collRanges s c f b }

/-- The collective as the tandem of the coach's die holds it (R265). -/
def collCommand (s : State) (c : Issue) (f : CollFn) (b : List Word) : CollCmd :=
  ⟨collNumber s c.t, collDesc f b, blkPair b 0, blkPair b 2, c.tid, c.t.ctx, c.t.comp, nextTag c.t.collCtr, dieOf c.t.coach,
    none, [], [], 0⟩

/-- The state in which the peers also know of a collective of no bytes (R266, log 83). -/
def collAnnounced (s : State) (c : Issue) (d : BitVec 6) (f : CollFn) (b : List Word) : State :=
  announceEmpty (collTaken s c d f b) c.t.ctx (dieOf c.t.coach) (collNumber s c.t) (collDesc f b)

/-- The state in which the collective is also the last of the tandems' (R265). -/
def collQueued (s : State) (c : Issue) (d : BitVec 6) (f : CollFn) (b : List Word) : State :=
  { collTaken s c d f b with colls := s.colls ++ [collCommand s c f b] }

/-- The state after the issue. -/
def collIssued (s : State) (c : Issue) (d : BitVec 6) (f : CollFn) (b : List Word) : State :=
  if collEmpty f b then collAnnounced s c d f b else collQueued s c d f b

theorem collNumbered_locks (s : State) (c : Issue) (d : BitVec 6) (f : CollFn) (b : List Word) :
    (collNumbered s c d f b).locks = s.locks := modCtx_locks _ _ _

theorem collTaken_colls (s : State) (c : Issue) (d : BitVec 6) (f : CollFn) (b : List Word) :
    (collTaken s c d f b).colls = s.colls := modCtx_colls _ _ _

/-- An announcement sends chunks, and gives no team anything. -/
theorem announceEmpty_teams (s : State) (ctx die k : Nat) (d : CollDesc) : (announceEmpty s ctx die k d).teams = s.teams := by
  unfold announceEmpty
  refine List.foldlRecOn _ _ (motive := fun e : State => e.teams = s.teams) rfl (fun e he m _ => ?_)
  exact (send_teams _ _ _ _ _ _ _).trans he

theorem collTaken_teams (s : State) (c : Issue) (d : BitVec 6) (f : CollFn) (b : List Word) :
    (collTaken s c d f b).teams = (s.setTeam c.tid (collTeam s c.t d f b)).teams := modCtx_teams _ _ _

theorem collIssued_teams (s : State) (c : Issue) (d : BitVec 6) (f : CollFn) (b : List Word) :
    (collIssued s c d f b).teams = (s.setTeam c.tid (collTeam s c.t d f b)).teams := by
  unfold collIssued
  split
  · exact (announceEmpty_teams _ _ _ _ _).trans (collTaken_teams s c d f b)
  · exact collTaken_teams s c d f b

section
variable {s : State} {tid uid : Nat} {t : Team} {x : Split} {i : Instr} {sw : Bool} {f : CollFn} {d a : BitVec 6} {b : List Word}
  (hs : AtIssue s tid uid t x) (hr : Ready t x { sw := [d.toNat], regOk := sblkOk a }) (hi : exec i s = collIssue i sw f d a s)
  (hw : wellFormed i = sblkOk a) (hb : (List.range 8).map (fun k => s.rs t (a.toNat + k)) = b)
  (hlegal : collLegal (collDesc f b) b = true) (hsend : (blkPair b 0).toNat % collUnit (collDesc f b) = 0)
  (hrecv : (blkPair b 2).toNat % collUnit (collDesc f b) = 0)
  (hspan : [collSend s t f b, collRecv s t f b].findSome? (vaSpanTrap s t.ctx) = none)
  (hroom : engineRoom s t.ctx .coll 0 (dieOf t.coach) (collRanges s (issueOf tid uid t x i) f b).length = true)
  (hrel : released t uid true = true)
include hs hr hi hw hb hlegal hsend hrecv hspan hroom hrel

/-- R265, R266: a legal collective with room, and with its release behind it. -/
theorem collIssue_completes : Completes i s (collIssued s (issueOf tid uid t x i) d f b) tid uid sw (x.pc + 4) [] := by
  have hmod : [blkPair b 0, blkPair b 2].find? (fun v => v.toNat % collUnit (collDesc f b) != 0) = none := by
    simp [hsend, hrecv]
  refine completes_issueCtl hs hi (hw ▸ hr) ?_ (collIssued_teams _ _ _ _ _) (tagTaken_splits _ _ _)
  unfold collSend collRecv at hspan
  unfold collRanges collSend collRecv collRegion collLock collEmpty at hroom
  dsimp only [issueOf] at hroom ⊢
  simp only [hb, hlegal, hmod, hspan, hroom, hrel, Bool.not_true, Bool.false_eq_true, if_false]
  unfold collIssued
  by_cases he : collEmpty f b = true
  · rw [if_pos he, collAnnounced, collTaken, ← collNumbered_locks s (issueOf tid uid t x i) d f]
    refine (if_pos he).trans ?_
    dsimp only
    rfl
  · rw [if_neg he, collQueued, ← collTaken_colls s (issueOf tid uid t x i) d f, collTaken,
      ← collNumbered_locks s (issueOf tid uid t x i) d f]
    refine (if_neg he).trans ?_
    dsimp only
    rfl

/-- R262, R266: a collective of no bytes is announced; another enters the tandem, and its tag is not complete. -/
theorem collIssue_settles :
    (collEmpty f b = true → Completes i s (collAnnounced s (issueOf tid uid t x i) d f b) tid uid sw (x.pc + 4) []) ∧
    (collEmpty f b = false → tagComplete (collTeam s t d f b) .coll (nextTag t.collCtr) = false ∧
      Completes i s (collQueued s (issueOf tid uid t x i) d f b) tid uid sw (x.pc + 4) []) := by
  have hc := collIssue_completes hs hr hi hw hb hlegal hsend hrecv hspan hroom hrel
  unfold collIssued at hc
  refine ⟨fun he => ?_, fun he => ⟨?_, ?_⟩⟩
  · rwa [if_pos he] at hc
  · exact tagComplete_tagTaken (o := collOpTaken s t f b) d (by simp [collOpTaken]) rfl he
  · rwa [if_neg (Bool.eq_false_iff.mp he)] at hc

end

/-- Settles O40: one lemma for the copy commands and DIGEST, and one for the collectives. -/
theorem engineCommands : Obligations.EngineCommands := by
  unfold Obligations.EngineCommands
  intro s tid uid t x sw d a hs hr b die copy coll
  have hcopy : ∀ {i f}, exec i s = copyIssue i sw f d a s → wellFormed i = sblkOk a → copy i f :=
    fun hi hw => copyIssue_settles hs hr hi hw rfl
  have hcoll : ∀ {i f}, exec i s = collIssue i sw f d a s → wellFormed i = sblkOk a → coll i f := by
    intro i f hi hw
    refine fun hlegal hsend hrecv hspan hroom hrel => ?_
    obtain ⟨hempty, hqueued⟩ := collIssue_settles hs hr hi hw rfl hlegal hsend hrecv hspan hroom hrel
    exact ⟨hempty, fun he => ⟨(hqueued he).1, (hqueued he).2⟩⟩
  exact ⟨hcopy rfl rfl, hcopy rfl rfl, hcopy rfl rfl, hcopy rfl rfl, hcopy rfl rfl, hcopy rfl rfl,
    hcoll rfl rfl, hcoll rfl rfl, hcoll rfl rfl, hcoll rfl rfl⟩

end Sys2Proof.Machine
end

