-- ==== Sys2Proof/Proofs/BankEvents.lean ====
section
/-! The events of a bank unit (R223, R226, R230, R234, R242 to R245): what the service of BKREAD lanes leaves alone, the answer
of each event, and O50. -/
namespace Sys2Proof.Machine
open Sys2Proof

-- ## the service of BKREAD lanes (R234)

/-- The removal of one item leaves every other in the queue. -/
theorem mem_dropItem_of_ne {x y : BankItem} {q : List BankItem} (hy : y ∈ q) (hne : y ≠ x) : y ∈ dropItem x q := by
  induction q with
  | nil => exact hy
  | cons z r ih =>
    unfold dropItem
    split
    · next h =>
      obtain rfl : z = x := by simpa using h
      exact (List.mem_cons.mp hy).resolve_left hne
    · rcases List.mem_cons.mp hy with rfl | hr
      · exact List.mem_cons_self
      · exact List.mem_cons_of_mem _ (ih hr)

@[simp] theorem serveRead_mem (u : Nat) (s : State) (i : BankItem) : (serveRead u s i).mem = s.mem := by
  cases i with
  | read => exact modTeam_mem _ _ _
  | run | load | image => rfl

@[simp] theorem serveRead_bankFlight (u : Nat) (s : State) (i : BankItem) : (serveRead u s i).bankFlight = s.bankFlight := by
  cases i with
  | read => exact modTeam_bankFlight _ _ _
  | run | load | image => rfl

/-- A served lane leaves the queue; a run stays there. -/
theorem run_mem_queue_serveRead {u : Nat} {s : State} {r : BankRun} (i : BankItem) (h : .run r ∈ (s.bank u).queue) :
    .run r ∈ ((serveRead u s i).bank u).queue := by
  cases i with
  | run | load | image => exact h
  | read tid ctx comp id lane q at_ va =>
    have hbank : (serveRead u s (.read tid ctx comp id lane q at_ va)).bank u =
        { s.bank u with queue := dropItem (.read tid ctx comp id lane q at_ va) (s.bank u).queue } := by
      unfold State.bank serveRead
      dsimp only
      rw [modTeam_banks]
      exact congrArg (Option.getD · BankUnit.empty) (Store.find_insert_self _ _ _)
    rw [hbank]
    exact mem_dropItem_of_ne h (by simp)

/-- What holds of a state and is kept by the service of one lane holds after the service of all. -/
theorem serveIdle_induct {P : State → Prop} {u : Nat} {s : State} (hs : P s) (hstep : ∀ e i, P e → P (serveRead u e i)) :
    P (serveIdle u s) := by
  unfold serveIdle
  split
  · exact hs
  · exact List.foldlRecOn _ _ hs (fun e he i _ => hstep e i he)

@[simp] theorem serveIdle_mem (u : Nat) (s : State) : (serveIdle u s).mem = s.mem :=
  serveIdle_induct (P := fun e => e.mem = s.mem) rfl (fun e i he => (serveRead_mem u e i).trans he)

@[simp] theorem serveIdle_bankFlight (u : Nat) (s : State) : (serveIdle u s).bankFlight = s.bankFlight :=
  serveIdle_induct (P := fun e => e.bankFlight = s.bankFlight) rfl (fun e i he => (serveRead_bankFlight u e i).trans he)

theorem run_mem_queue_serveIdle {u : Nat} {s : State} {r : BankRun} (h : .run r ∈ (s.bank u).queue) :
    .run r ∈ ((serveIdle u s).bank u).queue :=
  serveIdle_induct (P := fun e => .run r ∈ (e.bank u).queue) h (fun _ i => run_mem_queue_serveRead i)

/-- A bank with a kernel serves no lane out of turn. -/
theorem serveIdle_of_exec {u : Nat} {s : State} (h : (s.bank u).exec ≠ none) : serveIdle u s = s :=
  if_pos (Option.isSome_iff_ne_none.mpr h)

theorem bank_settleBankTag (s : State) (tid : Nat) (tag : Word) (u : Nat) :
    (settleBankTag s tid tag).bank u = s.bank u :=
  congrArg (fun m => (Store.find m u).getD BankUnit.empty) (settleBankTag_banks s tid tag)

-- ## arrival, delivery and admission (R226, R230, R242)

/-- The state in which a run has come to unit `u`, before the lanes of an idle unit are served. -/
def runQueued (s s' : State) (u : Nat) (r : BankRun) : State :=
  State.setBank { s' with bankFlight := dropItem (.run r) s'.bankFlight } u { s'.bank u with
    queue := (s'.bank u).queue ++ [.run { r with since := s.free }] }

/-- R230: the first run of its team on its way arrives where its row is. -/
theorem exec_bankRunArrival {s s' : State} {u : Nat} {r : BankRun} {rest : List BankItem} {tr : Trans}
    (hfirst : firstOfTeam [] s.bankFlight = .run r :: rest) (hact : ctxActive s r.ctx = true)
    (htr : bankTrans s r.ctx r.comp r.va false = .ok (s', tr)) (hu : unitOf tr = u) (hroom : nmuWaiting s r.ctx u < 256) :
    exec (.bankRunArrival u) s = .next (serveIdle u (runQueued s s' u r)) := by
  change execBankRunArrival u s = _
  unfold execBankRunArrival
  rw [hfirst, List.filter_cons_of_pos (by simp [itemRow, hact, htr, hu, hroom])]
  dsimp only [itemRow]
  rw [htr]
  rfl

/-- R226, R230: an image at the head of an idle unit's queue. -/
theorem exec_bkloadDelivery {s : State} {u tid slot : Nat} {tag : Word} {ws : List Word} (hu : u ≠ 131072)
    (hidle : (s.bank u).exec = none) (hhead : headItem s (s.bank u) = some (.image tid tag slot ws)) :
    exec (.bkloadDelivery u) s = .next (settleBankTag (s.setBank u { s.bank u with
      queue := dropItem (.image tid tag slot ws) (s.bank u).queue
      slots := Store.insert (s.bank u).slots (4 * (tid / 8192) + slot) ws }) tid tag) := by
  change execBkloadDelivery u s = _
  unfold execBkloadDelivery
  rw [if_neg (by simpa [Config.bankUnits] using hu)]
  dsimp only
  rw [hidle, hhead]

/-- R242: the unit whose turn it is starts its run, in a state whose memory is as before. -/
theorem exec_bankRunAdmit {s : State} {u : Nat} {r : BankRun} (hres : toRestore s u = none)
    (hadm : admitChoice s (unitChannel u) = some (u, r)) :
    ∃ e : State, exec (.bankRunAdmit u) s = .next (e.setBank u (startRun e (e.bank u) r)) ∧ e.mem = s.mem := by
  have hexec : exec (.bankRunAdmit u) s = execBankRunAdmit u s := rfl
  unfold execBankRunAdmit at hexec
  rw [hres, hadm] at hexec
  simp only [bne_self_eq_false, Bool.false_eq_true, if_false] at hexec
  exact ⟨_, hexec, serveIdle_mem _ _⟩

-- ## boundaries and refresh (R243 to R245)

theorem exec_bankRowBoundary (s : State) (u : Nat) : exec (.bankRowBoundary u) s = .next ((rowBoundary u s).getD s) := rfl

section
variable {s : State} {u : Nat} (hidle : (s.bank u).exec = none)
include hidle

theorem rowBoundary_idle : rowBoundary u s = idleService u s := by
  unfold rowBoundary
  dsimp only
  rw [hidle]

/-- R244: a refresh that fell due while a kernel ran comes before what waits. -/
theorem rowBoundary_refresh (href : (s.bank u).refresh = true) : rowBoundary u s =
    some (s.setBank u { s.bank u with refresh := false, lastRefresh := (s.bank u).busy, busy := (s.bank u).busy + 40 }) := by
  rw [rowBoundary_idle hidle]
  unfold idleService
  dsimp only
  rw [href]
  rfl

/-- R234: at an idle bank a BKREAD lane is served at once. -/
theorem rowBoundary_read {i : BankItem} {at_ : Nat} {rest : List BankAsk} (href : (s.bank u).refresh = false)
    (hasks : bankAsks s (s.bank u) = .read i at_ :: rest) : rowBoundary u s = some (serveRead u s i) := by
  rw [rowBoundary_idle hidle]
  unfold idleService
  dsimp only
  rw [href, hasks]
  rfl

/-- R245: at an idle bank the oldest request is served alone, from its arrival or the end of the one before. -/
theorem rowBoundary_req {r : OrdReq} {rest : List BankAsk} (href : (s.bank u).refresh = false)
    (hasks : bankAsks s (s.bank u) = .req r :: rest) : rowBoundary u s =
      if bankCycle s < max (s.bank u).busy r.at_ then none
      else some (s.setBank u { s.bank u with
        reqs := (s.bank u).reqs.erase r
        served := (s.bank u).served ++ [(r.id, max (s.bank u).busy r.at_ + 8 + (if r.write then 4 else 12))]
        busy := max (s.bank u).busy r.at_ + 8 + (if r.write then 4 else 12) + 8 }) := by
  rw [rowBoundary_idle hidle]
  unfold idleService
  dsimp only
  rw [href, hasks]
  rfl

end

/-- No lane is among requests, and serving them serves none. -/
theorem serveReads_requests (u : Nat) (rs : List OrdReq) (s : State) : serveReads u (rs.map .req) s = s := by
  induction rs with
  | nil => rfl
  | cons r rs ih => exact ih

theorem askedRows_requests (rs : List OrdReq) : askedRows (rs.map .req) = rs := by
  unfold askedRows
  rw [List.filterMap_map]
  exact List.filterMap_some

section
variable {s : State} {u : Nat} {e : BankExec} (he : (s.bank u).exec = some e) (hst : e.stalled = none)
include he hst

/-- R243: a kernel's boundary is where its last interval ends, and no sooner. -/
theorem rowBoundary_early (h : bankCycle s < (s.bank u).busy) : rowBoundary u s = none := by
  unfold rowBoundary boundaryCycle
  dsimp only
  rw [he]
  simp [hst, h]

/-- R243, R244: at a boundary, requests for the open row that came before it are served on that row, up to four. -/
theorem rowBoundary_openRow {rs : List OrdReq} (hb : (s.bank u).busy ≤ bankCycle s) (hover : runOver e = false)
    (hadv : e.advanced = true) (href : (s.bank u).refresh = false)
    (htaken : ((bankAsks s (s.bank u)).filter (fun a => decide (a.since < (s.bank u).busy))).take 4 = rs.map .req)
    (hne : rs ≠ []) (hrow : ∀ r, r ∈ rs → openRowNumber e = some r.row) :
    rowBoundary u s = some (s.setBank u { s.bank u with
      reqs := rs.foldl List.erase (s.bank u).reqs
      served := (s.bank u).served ++ (serveRequests 0 0 (s.bank u).busy rs).1
      busy := (serveRequests 0 0 (s.bank u).busy rs).2
      exec := some { e with advanced := false } }) := by
  have hall : rs.all (fun r => openRowNumber e == some r.row) = true :=
    List.all_eq_true.mpr (fun r hr => by simpa using hrow r hr)
  have hcycle : boundaryCycle (s.bank u) e (bankAsks s (s.bank u)) = (s.bank u).busy := by simp [boundaryCycle, hst]
  unfold rowBoundary
  dsimp only
  rw [he]
  dsimp only
  rw [hcycle, htaken, hover, hadv, href, askedRows_requests, serveReads_requests, if_neg (by simp [hne, hb]),
    if_neg (by simp [hne])]
  unfold suspendKernel
  dsimp only
  rw [href, hall]
  rfl

end

section
variable {s : State} {u : Nat} (h : (s.bank u).lastRefresh = 0 ∨ (s.bank u).lastRefresh + 1950 ≤ bankCycle s)
include h

/-- R244: where no refresh came in the last 1,950 bank cycles, one is due. -/
theorem execRefreshDue_of_due : execRefreshDue u s = match (s.bank u).exec with
    | some _ => .next (s.setBank u { s.bank u with refresh := true })
    | none => .next (s.setBank u { s.bank u with
        busy := max (s.bank u).busy (bankCycle s) + 40, lastRefresh := bankCycle s }) := by
  unfold execRefreshDue
  exact if_neg (by simp; omega)

theorem exec_refreshDue_idle (hidle : (s.bank u).exec = none) : exec (.refreshDue u) s = .next (s.setBank u { s.bank u with
    busy := max (s.bank u).busy (bankCycle s) + 40, lastRefresh := bankCycle s }) := by
  refine (execRefreshDue_of_due h).trans ?_
  rw [hidle]

theorem exec_refreshDue_kernel {e : BankExec} (he : (s.bank u).exec = some e) :
    exec (.refreshDue u) s = .next (s.setBank u { s.bank u with refresh := true }) := by
  refine (execRefreshDue_of_due h).trans ?_
  rw [he]

end

/-- Settles O50: the answer of each event by its lemma. -/
theorem bankEvents : Obligations.BankEvents := by
  unfold Obligations.BankEvents
  intro s u b now
  refine ⟨?arrival, ?delivery, ?admission, fun row wr id => rfl, ?due, ?idle, ?kernel, ?refresh⟩
  case arrival =>
    intro r rest tr s' hfirst hact htr hu hroom
    refine ⟨_, exec_bankRunArrival hfirst hact htr hu hroom, serveIdle_bankFlight _ _, ?_, serveIdle_mem _ _, fun he => ?_⟩
    · exact run_mem_queue_serveIdle (by simp [runQueued])
    · rw [serveIdle_of_exec (by simpa [runQueued] using he)]
      simp [runQueued]
  case delivery =>
    intro tid tag slot ws hu hidle hhead
    refine ⟨_, exec_bkloadDelivery hu hidle hhead, ?_, ?_, settleBankTag_mem _ _ _⟩
    · rw [bank_settleBankTag, bank_setBank_self]
      exact Store.find_insert_self _ _ _
    · rw [bank_settleBankTag, bank_setBank_self]
  case admission =>
    intro r hres hadm
    obtain ⟨e, hexec, hmem⟩ := exec_bankRunAdmit hres hadm
    refine ⟨_, hexec, ?_⟩
    rw [bank_setBank_self]
    exact ⟨rfl, rfl, rfl, rfl, hmem, _, rfl, rfl, rfl, rfl, rfl, rfl⟩
  case due =>
    intro hidle href
    rw [exec_bankRowBoundary, rowBoundary_refresh hidle href]
    rfl
  case idle =>
    intro hidle href
    refine ⟨fun i at_ rest hasks => ?_, fun r rest hasks => ⟨fun hearly => ?_, fun hready => ?_⟩⟩
    · rw [exec_bankRowBoundary, rowBoundary_read hidle href hasks]
      rfl
    · rw [exec_bankRowBoundary, rowBoundary_req hidle href hasks, if_pos hearly]
      rfl
    · rw [exec_bankRowBoundary, rowBoundary_req hidle href hasks, if_neg (Nat.not_lt.mpr hready)]
      rfl
  case kernel =>
    intro e he hst
    refine ⟨fun hearly => ?_, fun rs hb hover hadv href htaken hne hrow => ?_⟩
    · rw [exec_bankRowBoundary, rowBoundary_early he hst hearly]
      rfl
    · rw [exec_bankRowBoundary, rowBoundary_openRow he hst hb hover hadv href htaken hne hrow]
      rfl
  case refresh =>
    intro h
    exact ⟨exec_refreshDue_idle h, fun e => exec_refreshDue_kernel h⟩

end Sys2Proof.Machine
end

