-- ==== Sys2Proof/Proofs/BootAndHost.lean ====
section
/-! Power-up, staging, verification and derivation, and the accesses of the host to the BARs (R275, R330, R338 to R342),
and O51. -/
namespace Sys2Proof.Machine
open Sys2Proof

-- ## staged bytes

/-- The staging window is a range of its own, byte after byte (R330, log 3). -/
theorem stagingKey_eq_add {off : Nat} (h : off < 2 ^ 28) : stagingKey off = 21 * 2 ^ 48 + off := by
  unfold stagingKey
  rw [← Nat.shiftLeft_add_eq_or_of_lt (Nat.lt_trans h (by decide)), Nat.shiftLeft_eq]

theorem stagingKey_inj {a b : Nat} (ha : a < 2 ^ 28) (hb : b < 2 ^ 28) (h : stagingKey a = stagingKey b) : a = b := by
  rw [stagingKey_eq_add ha, stagingKey_eq_add hb] at h
  exact Nat.add_left_cancel h

/-- Memory with bytes staged from an offset on; `start` is the place of the first of them in the write. -/
def staged (off start : Nat) (bytes : List Byte) (m : List (Nat × Byte)) : List (Nat × Byte) :=
  (bytes.zipIdx start).foldl (fun m e => Store.put 0 m (stagingKey (off + e.2)) e.1) m

theorem staged_cons (off start : Nat) (b : Byte) (bytes : List Byte) (m : List (Nat × Byte)) :
    staged off start (b :: bytes) m = staged off (start + 1) bytes (Store.put 0 m (stagingKey (off + start)) b) := rfl

theorem get_staged_out {off start k : Nat} {bytes : List Byte} (m : List (Nat × Byte))
    (hk : ∀ i, i < bytes.length → k ≠ stagingKey (off + (start + i))) :
    Store.get 0 (staged off start bytes m) k = Store.get 0 m k := by
  induction bytes generalizing start m with
  | nil => rfl
  | cons b bytes ih =>
    rw [staged_cons, ih, Store.get_put_ne _ _ _ (by simpa using hk 0 (Nat.zero_lt_succ _))]
    intro i hi
    rw [Nat.add_assoc start, Nat.add_comm 1]
    exact hk (i + 1) (Nat.succ_lt_succ hi)

theorem get_staged {off start i : Nat} {bytes : List Byte} {b : Byte} (m : List (Nat × Byte))
    (hroom : off + (start + bytes.length) ≤ 2 ^ 28) (hb : bytes[i]? = some b) :
    Store.get 0 (staged off start bytes m) (stagingKey (off + (start + i))) = b := by
  induction bytes generalizing start i m with
  | nil => cases hb
  | cons a bytes ih =>
    rw [List.length_cons] at hroom
    rw [staged_cons]
    cases i with
    | zero =>
      cases hb
      refine (get_staged_out _ (fun j hj heq => ?_)).trans (Store.get_put_self _ _ _ _)
      have := stagingKey_inj (by omega) (by omega) heq
      omega
    | succ i =>
      rw [show start + (i + 1) = start + 1 + i by omega]
      exact ih _ (by omega) (by simpa using hb)

section
variable {s : State}

theorem stageBytes_open {off : Nat} {bytes : List Byte} (hp : s.boot.powered = true) (hst : s.boot.st = .romWait)
    (hroom : off + bytes.length ≤ 2 ^ 28) : stageBytes s off bytes = { s with mem := staged off 0 bytes s.mem } := by
  unfold stageBytes
  rw [hp, hst, decide_eq_true hroom]
  rfl

-- ## the host's writes to the BARs (R275, R330)

theorem exec_hostRegisterWrite_bar0 (hup : s.host.linkUp = true) (off : Nat) (bytes : List Byte) :
    exec (.hostRegisterWrite 0 off bytes) s = .next (writeBar0 s off bytes) := by
  show execHostRegisterWrite 0 off bytes s = _
  unfold execHostRegisterWrite
  rw [hup]; rfl

theorem exec_hostRegisterWrite_bar2 (hup : s.host.linkUp = true) (off : Nat) (bytes : List Byte) :
    exec (.hostRegisterWrite 2 off bytes) s = .next (writeBar2 s off bytes) := by
  show execHostRegisterWrite 2 off bytes s = _
  unfold execHostRegisterWrite
  rw [hup]; rfl

theorem exec_hostRegisterWrite_bar4 (hup : s.host.linkUp = true) (off : Nat) (bytes : List Byte) :
    exec (.hostRegisterWrite 4 off bytes) s = .next (stageBytes s off bytes) := by
  show execHostRegisterWrite 4 off bytes s = _
  unfold execHostRegisterWrite
  rw [hup]; rfl

/-- R275: an 8-byte write of offset 0 of a window is a node release; one of another length is counted. -/
theorem writeBar2_window {ctx : Nat} (hctx : ctx < 16) (bytes : List Byte) :
    writeBar2 s (4096 * ctx) bytes = if bytes.length = 8 then releaseNode s ctx (bytesValue bytes) else badRelease s := by
  unfold writeBar2
  rw [if_neg (by omega), Nat.mul_mod_right, Nat.mul_div_cancel_left ctx (by decide)]
  by_cases h : bytes.length = 8 <;> simp [h]

/-- R6: what is written into the second byte of BOOTCMD is not kept. -/
theorem cmdByte_one_and_one (w : Word) (b : Byte) : cmdByte w 1 b &&& 1 = w &&& 1 := by
  unfold cmdByte
  ext i hi
  simp only [BitVec.getElem_and, BitVec.getElem_or, BitVec.getElem_not]
  cases i with
  | zero => simp
  | succ i => simp

/-- R6, R338: a write of the reserved bits of BOOTCMD only, in READY. -/
theorem writeBar0_reserved (hp : s.boot.powered = true) (hst : s.boot.st = .ready) (b : Byte) :
    writeBar0 s 9 [b] = { s with boot := { s.boot with cmd := s.boot.cmd &&& 1 } } := by
  rw [← cmdByte_one_and_one s.boot.cmd b]
  unfold writeBar0
  simp [hp, hst]

/-- R275, R330: BAR2 reads as zero. -/
theorem hostRead_bar2 (off n : Nat) : hostRead s 2 off n = List.replicate n 0 := by
  unfold hostRead; simp [List.map_const']

/-- R330: BAR4 reads as zero outside ROM_WAIT. -/
theorem hostRead_bar4_closed (hst : s.boot.st ≠ .romWait) (off n : Nat) : hostRead s 4 off n = List.replicate n 0 := by
  unfold hostRead; simp [hst, List.map_const']

-- ## the boot (R338 to R342)

theorem exec_bootGo (hp : s.boot.powered = true) (hup : s.host.linkUp = true) : exec .bootGo s = .next (writeGo s) := by
  show execBootGo s = _
  unfold execBootGo
  rw [hp, hup]; rfl

theorem writeGo_romWait (hst : s.boot.st = .romWait) :
    writeGo s = bootTo { s with boot := { s.boot with cmd := s.boot.cmd &&& 0xFFFFFFFE, err := 0 } } .verify := by
  unfold writeGo; rw [hst]

theorem writeGo_failed (hst : s.boot.st = .failed) :
    writeGo s = bootTo { s with boot := { s.boot with cmd := s.boot.cmd &&& 0xFFFFFFFE } } .romWait := by
  unfold writeGo; rw [hst]

/-- GO is bit 0 of BOOTCMD (R338). -/
theorem go_cleared (w : Word) : (w &&& 0xFFFFFFFE).getLsbD 0 = false := by
  rw [BitVec.getLsbD_and]; exact Bool.and_false _

/-- R338: VERIFY ends in FAILED with its error, or in DERIVE with the next position of the cold-boot counter burnt. -/
theorem exec_bootVerifyDone (hst : s.boot.st = .verify) :
    ∃ n, exec .bootVerifyDone s = .next n ∧
      (verifyError s = 0 → n.boot.st = .derive_ ∧ n.boot.counter = min 8192 (s.boot.counter + 1) ∧
        n.boot.certified = decide (s.boot.counter < 8192) ∧ n.host.interrupts = s.host.interrupts ++ [34]) ∧
      (verifyError s ≠ 0 → n.boot.st = .failed ∧ n.boot.err = verifyError s ∧ n.boot.counter = s.boot.counter) := by
  show ∃ n, execBootVerifyDone s = .next n ∧ _
  unfold execBootVerifyDone
  rw [hst]
  by_cases he : verifyError s = 0
  · simp only [he]
    exact ⟨_, rfl, fun _ => ⟨rfl, rfl, rfl, rfl⟩, fun h => absurd rfl h⟩
  · refine ⟨_, (if_pos (bne_iff_ne.mpr he)), fun h => absurd h he, fun _ => ⟨rfl, rfl, rfl⟩⟩

/-- The first teams of firmware, among those of a device (log 12). -/
def withFirmware (count : Nat) (teams : List (Nat × Team)) : List (Nat × Team) :=
  (List.range count).foldl (fun m n => Store.insert m (systemTeam + n) (firmwareTeam n)) teams

theorem find_withFirmware {count k : Nat} (hk : k < count) (teams : List (Nat × Team)) :
    Store.find (withFirmware count teams) (systemTeam + k) = some (firmwareTeam k) := by
  induction count with
  | zero => exact absurd hk (Nat.not_lt_zero k)
  | succ count ih =>
    have hstep : withFirmware (count + 1) teams =
        Store.insert (withFirmware count teams) (systemTeam + count) (firmwareTeam count) := by
      unfold withFirmware; rw [List.range_succ, List.foldl_append, List.foldl_cons, List.foldl_nil]
    rw [hstep]
    by_cases h : k = count
    · subst h; exact Store.find_insert_self _ _ _
    · rw [Store.find_insert_ne _ _ (by omega)]
      exact ih (by omega)

/-- R341, R342: READY, with the teams of the system coaches. -/
theorem exec_bootDeriveDone (hst : s.boot.st = .derive_) :
    ∃ n, exec .bootDeriveDone s = .next n ∧ n.boot.st = .ready ∧ n.boot.err = (if s.boot.certified then 0 else 5) ∧
      n.boot.leaves = 0 ∧ (∀ k, k < 8 → ∃ t, n.team (131072 + k) = some t ∧ t.sys = true) ∧
      n.host.interrupts = s.host.interrupts ++ [34] := by
  show ∃ n, execBootDeriveDone s = .next n ∧ _
  unfold execBootDeriveDone
  rw [hst]
  exact ⟨_, rfl, rfl, rfl, rfl, fun k hk => ⟨firmwareTeam k, find_withFirmware hk s.teams, rfl⟩, rfl⟩

end

/-- Settles O51: power-up by evaluation, each event and each kind of BAR write by its lemma. -/
theorem bootAndHost : Obligations.BootAndHost := by
  unfold Obligations.BootAndHost
  intro s off ctx bytes
  refine ⟨⟨_, rfl, rfl, rfl, rfl, rfl, rfl, rfl, rfl, rfl, rfl⟩, ?staging, ?go, ?again, exec_bootVerifyDone, exec_bootDeriveDone,
    ?window, ?reserved, fun n => ⟨hostRead_bar2 off n, fun h => hostRead_bar4_closed h off n⟩⟩
  case staging =>
    intro hup hp hst hroom
    refine ⟨{ s with mem := staged off 0 bytes s.mem }, ?_, ?_, fun i b hb => ?_, fun k hk => ?_, rfl, rfl⟩
    · rw [← stageBytes_open hp hst hroom]; exact if_pos hup
    · rw [exec_hostRegisterWrite_bar4 hup, stageBytes_open hp hst hroom]
    · rw [← Nat.zero_add i]; exact get_staged s.mem (by omega) hb
    · exact get_staged_out s.mem (fun i hi => by rw [Nat.zero_add]; exact hk i hi)
  case go =>
    intro hup hp hst
    exact ⟨_, (exec_bootGo hp hup).trans (congrArg _ (writeGo_romWait hst)), rfl, rfl, go_cleared _, rfl, rfl⟩
  case again =>
    intro hup hp hst
    exact ⟨_, (exec_bootGo hp hup).trans (congrArg _ (writeGo_failed hst)), rfl, go_cleared _⟩
  case window =>
    intro hup hctx
    refine ⟨fun h => ?_, fun h => ?_⟩
    · rw [exec_hostRegisterWrite_bar2 hup, writeBar2_window hctx, if_pos h]; rfl
    · rw [exec_hostRegisterWrite_bar2 hup, writeBar2_window hctx, if_neg h]; rfl
  case reserved =>
    intro hup hp hst b
    refine ⟨_, (exec_hostRegisterWrite_bar0 hup 9 [b]).trans (congrArg _ (writeBar0_reserved hp hst b)), rfl, rfl⟩

end Sys2Proof.Machine
end

