-- ==== Sys2Proof/Proofs/ManagementAndClocks.lean ====
section
/-! The management mailbox, the clocks and the global time, the fabric's ports, counted errors and the advisory (R289, R297,
R309, R335 to R337, R347 to R350), and O53. -/
namespace Sys2Proof.Machine
open Sys2Proof

theorem mem_of_find {α : Type} {m : List (Nat × α)} {k : Nat} {x : α} (h : Store.find m k = some x) : (k, x) ∈ m := by
  induction m with
  | nil => cases h
  | cons e r ih =>
    obtain ⟨j, v⟩ := e
    by_cases hj : j = k
    · rw [Store.find, if_pos hj] at h
      cases h; subst hj
      exact List.mem_cons_self
    · rw [Store.find, if_neg hj] at h
      exact List.mem_cons_of_mem _ (ih h)

-- ## management (R349)

/-- A context whose OWN fallbacks count from zero again (R349). -/
def clearOwnfall (x : Context) : Context := { x with ownfall := 0 }

/-- R349: clearing the counters leaves no context with a count. -/
theorem exec_mgmtClearCounters (s : State) :
    ∃ e, exec .mgmtClearCounters s = .next e ∧ e.mgmt.corrected = [] ∧ e.mgmt.badrel = 0 ∧ e.mgmt.portdrop = 0 ∧
      e.mgmt.stalewb = 0 ∧ e.mgmt.ownfall = 0 ∧ (∀ c x, e.ctx c = some x → x.ownfall = 0) := by
  refine ⟨_, rfl, rfl, rfl, rfl, rfl, rfl, fun c x hx => ?_⟩
  have hx' : Store.find (s.ctxs.map (fun e => (e.1, clearOwnfall e.2))) c = some x := hx
  rw [find_map_values, Option.map_eq_some_iff] at hx'
  obtain ⟨y, -, rfl⟩ := hx'
  rfl

theorem exec_mgmtWriteThresholds (s : State) {kind : AdvKind} {n : Nat} (h : advUnitOk kind n = true) (v : Nat) :
    ∃ e, exec (.mgmtWriteThresholds kind n v) s = .next e ∧
      Store.find e.mgmt.thresholds (1024 * advCode kind + n) = some v :=
  ⟨_, if_neg (by simp [h]), Store.find_insert_self _ _ _⟩

theorem exec_mgmtSetPowerCap (s : State) {n : Nat} (hlo : 1400 ≤ n) (hhi : n ≤ 2800) :
    ∃ e, exec (.mgmtSetPowerCap n) s = .next e ∧ e.clk = { s.clk with powerCap := n } :=
  ⟨_, if_neg (by simp; omega), rfl⟩

-- ## clocks (R348)

theorem exec_clockStep_up {s : State} (h : s.clk.mhz + 50 ≤ 1900) :
    ∃ e, exec (.clockStep true) s = .next e ∧ e.clk.mhz = s.clk.mhz + 50 ∧ e.clk.gtime = s.clk.gtime ∧
      e.clk.cycle = s.clk.cycle :=
  ⟨_, if_neg (by simp; omega), rfl, rfl, rfl⟩

theorem exec_clockStep_down {s : State} (hlo : 100 ≤ s.clk.mhz) (hhi : s.clk.mhz ≤ 1900) :
    ∃ e, exec (.clockStep false) s = .next e ∧ e.clk.mhz = s.clk.mhz - 50 ∧ e.clk.gtime = s.clk.gtime ∧
      e.clk.cycle = s.clk.cycle :=
  ⟨_, if_neg (by simp; omega), rfl, rfl, rfl⟩

-- ## halts of many contexts (R337, R348)

/-- A context that has halted does not run. -/
def HaltedIdle (s : State) (k : Nat) : Prop := ∀ x, s.ctx k = some x → x.halt.isSome = true → x.running = false

theorem haltedBy_idle (s : State) (h : HaltCause) {c : Context} (hc : c.halt.isSome = true → c.running = false) :
    (haltedBy s h c).running = false := by
  unfold haltedBy
  split
  · next r hr => exact hc (by rw [hr]; rfl)
  · rfl

theorem HaltedIdle.haltContext {s : State} {k : Nat} (hs : HaltedIdle s k) (h : HaltCause) : HaltedIdle (haltContext s h) k := by
  intro x hx hh
  rw [ctx_haltContext] at hx
  split at hx
  · obtain ⟨c, hc, rfl⟩ := Option.map_eq_some_iff.mp hx
    exact haltedBy_idle s h (hs c hc)
  · exact hs x hx hh

@[simp] theorem haltContext_clk (s : State) (h : HaltCause) : (haltContext s h).clk = s.clk := by
  have := congrArg State.clk (haltContext_frame s h); exact this

/-- A property that every halt keeps holds after all of them. -/
theorem haltAll_induction {p : State → Prop} (hp : ∀ s h, p s → p (haltContext s h)) {s : State} (hs : p s) (info : Word)
    (sel : Context → Bool) : p (haltAll s info sel) :=
  List.foldlRecOn _ _ hs (fun _ ha _ _ => hp _ _ ha)

theorem haltAll_mem (s : State) (info : Word) (sel : Context → Bool) : (haltAll s info sel).mem = s.mem :=
  haltAll_induction (p := fun e => e.mem = s.mem) (fun _ _ he => (haltContext_mem _ _).trans he) rfl info sel

theorem haltAll_clk (s : State) (info : Word) (sel : Context → Bool) : (haltAll s info sel).clk = s.clk :=
  haltAll_induction (p := fun e => e.clk = s.clk) (fun _ _ he => (haltContext_clk _ _).trans he) rfl info sel

/-- A context that is not resident has nothing to halt. -/
theorem haltAll_ctx_none {s : State} {k : Nat} (hk : s.ctx k = none) (info : Word) (sel : Context → Bool) :
    (haltAll s info sel).ctx k = none :=
  haltAll_induction (p := fun e => e.ctx k = none) (fun e h he => by rw [ctx_haltContext, he, Option.map_none, ite_self]) hk
    info sel

/-- Every tenant's context that is selected has halted. -/
theorem halted_haltAll {s : State} {k : Nat} {c : Context} {sel : Context → Bool} (hc : s.ctx k = some c) (h16 : k < 16)
    (hsel : sel c = true) (info : Word) : Halted (haltAll s info sel) k := by
  have hmem : (k, c) ∈ s.ctxs.filter (fun c => decide (c.1 < 16) && sel c.2) :=
    List.mem_filter.mpr ⟨mem_of_find hc, by simp [h16, hsel]⟩
  unfold haltAll
  obtain ⟨as, bs, hsplit⟩ := List.append_of_mem hmem
  rw [hsplit, List.foldl_append, List.foldl_cons]
  exact List.foldlRecOn (motive := fun e => Halted e k) _ _ (halted_haltContext _ _) (fun _ hs _ _ => hs.haltContext _)

/-- A tenant's context that was not halted before, and that is selected, has halted and does not run. -/
theorem haltAll_stops {s : State} {k : Nat} {c x : Context} {sel : Context → Bool} {info : Word} (hc : s.ctx k = some c)
    (hh : c.halt = none) (h16 : k < 16) (hsel : sel c = true) (hx : (haltAll s info sel).ctx k = some x) :
    x.halt.isSome = true ∧ x.running = false := by
  have hidle : HaltedIdle s k := fun y hy hyh => by
    rw [hc] at hy; cases hy; rw [hh] at hyh; cases hyh
  have hhalt : x.halt.isSome = true := halted_haltAll hc h16 hsel info x hx
  exact ⟨hhalt, haltAll_induction (p := fun e => HaltedIdle e k) (fun _ h he => he.haltContext h) hidle info sel x hx hhalt⟩

/-- R348: at 115 °C every context halts, and the coach clock stops. -/
theorem exec_thermalHalt {s : State} (hrun : s.clk.stopped = false) :
    ∃ e, exec .thermalHalt s = .next e ∧ e.clk = { s.clk with stopped := true } ∧ e.mem = s.mem ∧
      ∀ c, c < 16 → (∀ x, s.ctx c = some x → x.halt = none) →
        ∀ x, e.ctx c = some x → x.halt.isSome = true ∧ x.running = false := by
  refine ⟨_, if_neg (by rw [hrun]; nofun), rfl, haltAll_mem s 2 _, fun k h16 hnone x hx => ?_⟩
  have hx' : (haltAll s 2 (fun _ => true)).ctx k = some x := hx
  cases hc : s.ctx k with
  | none => rw [haltAll_ctx_none hc] at hx'; cases hx'
  | some c => exact haltAll_stops hc (hnone c hc) h16 rfl hx'

/-- R337: with no time-sync flit for 10 ms, the contexts of partitions with other members halt. -/
theorem exec_tsyncLost_quiet {s : State} (hl : s.clk.tsyncLost = false)
    (hq : s.clk.lastSync.toNat + 10000000 ≤ s.clk.gtime.toNat) :
    ∃ e, exec .tsyncLost s = .next e ∧ e.clk = { s.clk with tsyncLost := true } ∧
      ∀ c x p, c < 16 → s.ctx c = some x → x.halt = none → s.part x.part = some p → 1 < p.members →
        ∀ y, e.ctx c = some y → y.halt.isSome = true ∧ y.running = false := by
  have hquiet : timeQuiet s = true := decide_eq_true hq
  let lost : State := { s with clk := { s.clk with tsyncLost := true } }
  refine ⟨_, if_neg (by simp [hl, hquiet]), haltAll_clk lost 1 _, fun k x p h16 hx hh hp hm y hy => ?_⟩
  refine haltAll_stops (s := lost) hx hh h16 ?_ hy
  have hp' : lost.part x.part = some p := hp
  simp only [lost] at hp'
  rw [hp']
  exact decide_eq_true hm

theorem exec_tsyncRecovered {s : State} (hl : s.clk.tsyncLost = true) (hq : timeQuiet s = false) (ho : timeOff s = false)
    (hg : s.clk.goodSince.toNat + 1000000000 ≤ s.clk.gtime.toNat) :
    exec .tsyncRecovered s = .next { s with clk := { s.clk with tsyncLost := false } } :=
  if_neg (by simp [hl, hq, ho, hg])

-- ## the fabric's ports (R335, R350)

theorem exec_ectoupPortDown {s : State} {port : Nat} (hp : port < 18) (hup : port ∉ s.portsDown) :
    exec (.ectoupPortDown port) s = .next
      ((s.ctxs.filter (fun c => ctxActive s c.1)).foldl (fun e c => resendKept e c.1 (usesPort s c.1 port))
        { s with portsDown := s.portsDown ++ [port] }) :=
  if_neg (by simp [hup]; omega)

-- ## counted errors and the advisory (R297, R309)

theorem exec_correctedError (s : State) (site : ErrSite) :
    ∃ e, exec (.correctedError site) s = .next e ∧
      Store.get 0 e.mgmt.corrected (counterKey (errorUnit s site)) =
        Store.get 0 s.mgmt.corrected (counterKey (errorUnit s site)) + 1 ∧ e.mem = s.mem ∧ e.teams = s.teams := by
  refine ⟨_, rfl, ?_, rfl, rfl⟩
  rw [Store.get_eq_find]
  exact congrArg (Option.getD · 0) (Store.find_insert_self _ _ _)

@[simp] theorem touchFrame_events (t : Team) : t.touchFrame.events = t.events := by
  unfold Team.touchFrame; split <;> rfl
@[simp] theorem touchFrame_advisory (t : Team) : t.touchFrame.advisory = t.advisory := by
  unfold Team.touchFrame; split <;> rfl

/-- A team after the advisory `code` has been posted to the contexts listed (R297). -/
def advisedTeam (ctxs : List Nat) (code : Nat) (t : Team) : Team :=
  if ctxs.contains t.ctx && !t.sys && !t.events.getLsbD 0 then
    ({ t with events := t.events ||| 1, advisory := BitVec.ofNat 32 code } : Team).touchFrame
  else t

theorem advisedTeam_due {ctxs : List Nat} {t : Team} (code : Nat) (hc : t.ctx ∈ ctxs) (hsys : t.sys = false)
    (hev : t.events.getLsbD 0 = false) :
    (advisedTeam ctxs code t).events = t.events ||| 1 ∧ (advisedTeam ctxs code t).advisory = BitVec.ofNat 32 code := by
  unfold advisedTeam
  rw [if_pos (by rw [List.contains_iff_mem.mpr hc, hsys, hev]; rfl)]
  exact ⟨touchFrame_events _, touchFrame_advisory _⟩

/-- R297: an advisory that is due reaches the teams of the contexts concerned, and the host. -/
theorem exec_ckptAdvisory {s : State} {kind : AdvKind} {n : Nat} (h : s.mgmt.crossed.contains (advCode kind, n) = true) :
    ∃ e, exec (.ckptAdvisory kind n) s = .next e ∧ e.host.interrupts = s.host.interrupts ++ [32] ∧
      ∀ tid t c, s.team tid = some t → t.sys = false → s.ctx t.ctx = some c → advises s kind n t.ctx = true →
        t.events.getLsbD 0 = false → ∃ u, e.team tid = some u ∧ u.events = t.events ||| 1 ∧
          u.advisory = BitVec.ofNat 32 (256 * advCode kind + n % 256) := by
  let hit : List Nat := (s.ctxs.filter (fun c => advises s kind n c.1)).map (·.1)
  let code : Nat := 256 * advCode kind + n % 256
  refine ⟨_, if_neg (by rw [h]; nofun), rfl, fun tid t c ht hsys hc hadv hev => ?_⟩
  have hhit : t.ctx ∈ hit := List.mem_map_of_mem (f := (·.1)) (List.mem_filter.mpr ⟨mem_of_find hc, hadv⟩)
  obtain ⟨hevents, hadvisory⟩ := advisedTeam_due code hhit hsys hev
  have hteams : s.teams.map (fun (e : Nat × Team) =>
      if hit.contains e.2.ctx && !e.2.sys && !e.2.events.getLsbD 0 then
        (e.1, ({ e.2 with events := e.2.events ||| 1, advisory := BitVec.ofNat 32 code } : Team).touchFrame)
      else e) = s.teams.map (fun e => (e.1, advisedTeam hit code e.2)) :=
    List.map_congr_left (fun e _ => by unfold advisedTeam; split <;> rfl)
  refine ⟨advisedTeam hit code t, (congrArg (Store.find · tid) hteams).trans ?_, hevents, hadvisory⟩
  rw [find_map_values]
  exact congrArg (Option.map _) ht

/-- Settles O53: the answers that are plain by evaluation, the others by the lemma of their event. -/
theorem managementAndClocks : Obligations.ManagementAndClocks := by
  unfold Obligations.ManagementAndClocks
  intro s train n port kind site gt m reply halts key
  exact ⟨⟨_, rfl, rfl⟩, exec_mgmtClearCounters s, rfl, fun h => exec_mgmtWriteThresholds s h, ⟨_, rfl, rfl, rfl⟩,
    exec_mgmtSetPowerCap s, ⟨_, rfl, rfl⟩, rfl, rfl, exec_clockStep_up, exec_clockStep_down, exec_thermalHalt, rfl,
    ⟨_, rfl, rfl, rfl, rfl⟩, exec_tsyncLost_quiet, exec_tsyncRecovered, exec_ectoupPortDown, rfl, rfl,
    exec_correctedError s site, exec_ckptAdvisory⟩

end Sys2Proof.Machine
end

