-- ==== Sys2Proof/Proofs/SwitchesAndEviction.lean ====
section
/-! The gang switch, the eviction of a drove, and the arms of a switch between members (R279, R288, R305, R361, R362), and
O56. -/
namespace Sys2Proof.Machine
open Sys2Proof

-- ## the switch to the scheduled context (R279, R305)

section
variable {s : State} {part ctx : Nat} {p p' : Partition} (hp : s.part part = some p)
  (htarget : switchTarget p s.clk.gtime.toNat = some (some ctx, p')) (hmay : mayRun s part ctx = true)
include hp htarget hmay

/-- A switch to a context that may run: nothing but the schedule moves on where it runs already; else the running one stops
and it starts. -/
theorem exec_gangSwitch : exec (.gangSwitch part) s =
    if runningCtx s part = some ctx then .next { s with parts := Store.insert s.parts part p' }
    else .next (startContext (stopHaltedBanks ((runningCtx s part).elim { s with parts := Store.insert s.parts part p' }
      (stopContext { s with parts := Store.insert s.parts part p' })) part ctx) ctx) := by
  show execGangSwitch part s = _
  unfold execGangSwitch
  have htake : (some ctx).filter (mayRun s part) = some ctx := by rw [Option.filter_some, if_pos hmay]
  simp only [hp, htarget, htake]
  cases runningCtx s part with
  | none => rfl
  | some old =>
    by_cases h : old = ctx
    · subst h; simp
    · simp [h]

end

-- ## eviction (R288)

theorem minBy_singleton {α : Type} (key : α → Nat) (x : α) : minBy key [x] = some x := rfl

/-- R288: the only drove that has stalled long enough gives way, and joins the tail of the requeue list. -/
theorem exec_droveEviction {s s' : State} {drove : Nat} {d : Drove} {c : Context} (hd : s.drove drove = some d)
    (hc : s.ctx d.ctx = some c) (hact : ctxActive s d.ctx = true) (hwait : c.requeue ≠ [])
    (hnone : tryRequeued s d.ctx c.requeue = none) (hev : evictable s d.ctx = [(drove, d)])
    (hfit : tryRequeued (evictDrove s drove) d.ctx c.requeue = some s') :
    exec (.droveEviction drove) s = .next (s'.modCtx d.ctx (fun c => { c with requeue := c.requeue ++ [drove] })) := by
  show execDroveEviction drove s = _
  unfold execDroveEviction
  simp [hd, hc, hact, hwait, hnone, hev, hfit, minBy_singleton]

-- ## answers of firmware (R362)

/-- A team after firmware has answered `v` to its split `uid`, which waited with destination `d`. -/
def answeredTeam (t : Team) (uid : Nat) (d : BitVec 6) (v : Word) : Team :=
  (t.setS d.toNat v).modSplit uid (fun x => { x with waits := x.waits.filter (· != .firmware d) })

/-- s0 stays zero (R103). -/
theorem s_answeredTeam (t : Team) (uid : Nat) (d : BitVec 6) (v : Word) :
    (answeredTeam t uid d v).s d.toNat = if d = 0 then 0 else v := by
  have hs : (answeredTeam t uid d v).s d.toNat = (t.setS d.toNat v).s d.toNat := rfl
  rw [hs]
  by_cases h : d = 0
  · subst h; rfl
  · rw [if_neg h]
    exact s_setS_self t v (fun h0 => h (BitVec.eq_of_toNat_eq h0))

theorem split_answeredTeam {t : Team} {uid : Nat} {x : Split} (h : t.split uid = some x) (d : BitVec 6) (v : Word) :
    (answeredTeam t uid d v).split uid = some { x with waits := x.waits.filter (· != .firmware d) } := by
  have hx : (t.setS d.toNat v).split uid = some x := by unfold Team.split; rw [setS_splits]; exact h
  exact split_modSplit_self _ (fun _ => rfl) hx

theorem team_answerFirmware {s : State} {tid : Nat} {t : Team} (ht : s.team tid = some t) (uid : Nat) (d : BitVec 6) (v : Word) :
    (answerFirmware s (some (tid, uid, d)) v).team tid = some (answeredTeam t uid d v) := by
  unfold answerFirmware
  exact (team_modTeam_self _ _ _).trans (congrArg (Option.map _) ht)

theorem part_answerFirmware (s : State) (w : Option (Nat × Nat × BitVec 6)) (v : Word) (k : Nat) :
    (answerFirmware s w v).part k = s.part k := by
  unfold answerFirmware State.part
  split
  · rfl
  · rw [modTeam_parts]

theorem outbox_answerFirmware (s : State) (w : Option (Nat × Nat × BitVec 6)) (v : Word) :
    (answerFirmware s w v).outbox = s.outbox := by
  unfold answerFirmware
  split
  · rfl
  · exact modTeam_outbox _ _ _

-- ## an arm that is withdrawn (R362)

section
variable {s : State} {part : Nat} {p : Partition} (hp : s.part part = some p)
include hp

theorem disarm_none (ha : p.armed = none) (v : Word) : disarm s part v = s := by
  unfold disarm; rw [hp, Option.bind_some, ha]

theorem disarm_some {g : ArmedSwitch} (ha : p.armed = some g) (v : Word) :
    disarm s part v = answerFirmware (s.modPart part (fun p => { p with armed := none })) g.split v := by
  unfold disarm; rw [hp, Option.bind_some, ha]

theorem part_disarm (v : Word) : (disarm s part v).part part = some { p with armed := none } := by
  cases ha : p.armed with
  | none => rw [disarm_none hp ha, hp, ← ha]
  | some g => rw [disarm_some hp ha, part_answerFirmware, part_modPart_self, hp]; rfl

theorem outbox_disarm (v : Word) : (disarm s part v).outbox = s.outbox := by
  cases ha : p.armed with
  | none => rw [disarm_none hp ha]
  | some g => rw [disarm_some hp ha, outbox_answerFirmware, modPart_outbox]

/-- The CTXSW that waited for the arm has its answer. -/
theorem team_disarm {g : ArmedSwitch} (ha : p.armed = some g) {tid uid : Nat} {d : BitVec 6} {t : Team}
    (hg : g.split = some (tid, uid, d)) (ht : s.team tid = some t) (v : Word) :
    (disarm s part v).team tid = some (answeredTeam t uid d v) := by
  rw [disarm_some hp ha, hg]
  refine team_answerFirmware ?_ uid d v
  unfold State.team; rw [modPart_teams]; exact ht

/-- The withdrawal goes to the other members, and changes nothing more here. -/
theorem onlySends_withdrawSwitch (v : Word) : OnlySends (disarm s part v) (withdrawSwitch s part v) := by
  unfold withdrawSwitch
  rw [hp]
  exact onlySends_foldl (fun a m => onlySends_send a _ _ _ _ _ _) _ _

/-- R362: a withdrawn arm is gone, and the CTXSW that waited for it reads `v`. -/
theorem withdrawSwitch_answers {g : ArmedSwitch} (ha : p.armed = some g) {tid uid : Nat} {d : BitVec 6} {t : Team}
    (hg : g.split = some (tid, uid, d)) (ht : s.team tid = some t) (v : Word) :
    ∃ u q, (withdrawSwitch s part v).team tid = some u ∧ u.s d.toNat = (if d = 0 then 0 else v) ∧
      (withdrawSwitch s part v).part part = some q ∧ q.armed = none := by
  have hsends := onlySends_withdrawSwitch hp v
  have hparts : (withdrawSwitch s part v).parts = (disarm s part v).parts := by have := congrArg State.parts hsends; exact this
  exact ⟨_, _, (congrArg (Store.find · tid) hsends.teams).trans (team_disarm hp ha hg ht v), s_answeredTeam t uid d v,
    (congrArg (Store.find · part) hparts).trans (part_disarm hp v), rfl⟩

-- ## arms from other members (R334, R362)

theorem ownsPort_eq (port : Nat) : s.ownsPort part port = decide (port ∈ p.ports) := by
  unfold State.ownsPort
  rw [hp, Option.map_some, Option.getD_some, List.contains_eq_mem]

theorem modPart_eq (f : Partition → Partition) : s.modPart part f = { s with parts := Store.insert s.parts part (f p) } := by
  unfold State.modPart; rw [hp]

/-- What an arm or a withdrawal from another member does. -/
theorem exec_switchArmReceived {a : SwitchArm} (ha : a.part = part) (port : Nat) :
    exec (.switchArmReceived ⟨port, a⟩) s =
      if port ∉ p.ports then .next s.dropFlit
      else if a.withdraw then .next (disarm s part 4)
      else if !inPartition s a.ctx part then
        .next (s.send part a.sender a.ctx switchUnit switchUnit (.armAck part a.sender false))
      else if p.armed.isSome then .next s
      else .next (({ s with
        parts := Store.insert s.parts part { p with armed := some ⟨a.ctx, a.time.toNat, [], none, s.clk.gtime⟩ } } : State).send
          part a.sender a.ctx switchUnit switchUnit (.armAck part a.sender true)) := by
  subst ha
  show execSwitchArmReceived ⟨port, a⟩ s = _
  unfold execSwitchArmReceived
  simp only [hp, ownsPort_eq hp, modPart_eq hp]
  by_cases h : port ∈ p.ports <;> simp [h]

variable {g : ArmedSwitch} {m port : Nat} (harmed : p.armed = some g)
include harmed

/-- R362: an acknowledgement that the member does not hold the context withdraws the arm. -/
theorem exec_switchArmAcknowledgement_refused (hport : port ∈ p.ports) (hw : g.waiting = [m]) :
    exec (.switchArmAcknowledgement part ⟨port, m, false⟩) s = .next (withdrawSwitch s part 2) := by
  show execSwitchArmAcknowledgement part ⟨port, m, false⟩ s = _
  unfold execSwitchArmAcknowledgement
  simp [ownsPort_eq hp, hport, hp, harmed, hw]

/-- R362: with the last acknowledgement the arm stays and the CTXSW goes on with 0. -/
theorem exec_switchArmAcknowledgement_last (hport : port ∈ p.ports) (hw : g.waiting = [m]) :
    exec (.switchArmAcknowledgement part ⟨port, m, true⟩) s =
      .next (answerFirmware { s with parts := Store.insert s.parts part { p with
        armed := some { g with waiting := [], split := none } } } g.split 0) := by
  show execSwitchArmAcknowledgement part ⟨port, m, true⟩ s = _
  unfold execSwitchArmAcknowledgement
  simp [ownsPort_eq hp, hport, hp, harmed, hw, modPart_eq hp]

/-- R362: 1 ms without every acknowledgement withdraws the arm. -/
theorem exec_switchArmTimeout (hw : g.waiting ≠ []) (ht : g.at_.toNat + 1000000 ≤ s.clk.gtime.toNat) :
    exec (.switchArmTimeout part) s = .next (withdrawSwitch s part 4) := by
  show execSwitchArmTimeout part s = _
  unfold execSwitchArmTimeout
  simp only [hp, Option.bind_some, harmed]
  refine if_neg ?_
  rw [Bool.or_eq_true, List.isEmpty_iff, decide_eq_true_eq]
  exact not_or.mpr ⟨hw, Nat.not_lt.mpr ht⟩

end

/-- Settles O56: the gang switch by its equation, the eviction, and the arms by what each of them leaves. -/
theorem switchesAndEviction : Obligations.SwitchesAndEviction := by
  unfold Obligations.SwitchesAndEviction
  intro s part ctx drove port p d c a g hp setParts
  refine ⟨?none, ?other, ?same, ?evict, ?dropped, ?withdrawn, ?absent, ?armed, ?acks⟩
  case none =>
    intro p' htarget hidle hmay
    rw [exec_gangSwitch hp htarget hmay, hidle]; rfl
  case other =>
    intro p' old htarget hold hne hmay
    rw [exec_gangSwitch hp htarget hmay, hold, Option.elim_some, if_neg (fun h => hne (Option.some.inj h))]
  case same =>
    intro p' htarget hrun hmay
    rw [exec_gangSwitch hp htarget hmay, if_pos hrun]
  case evict =>
    intro s' c' hd hc hact hwait hnone hev hfit hc'
    exact ⟨_, _, exec_droveEviction hd hc hact hwait hnone hev hfit,
      (ctx_modCtx_self _ _ _).trans (congrArg (Option.map _) hc'), rfl⟩
  case dropped =>
    intro ha hport
    rw [exec_switchArmReceived hp ha, if_pos hport]; rfl
  case withdrawn =>
    intro ha hport hw
    refine ⟨disarm s part 4, _, ?_, part_disarm hp 4, rfl, outbox_disarm hp 4, fun tid uid dst t harmed hg ht => ?_⟩
    · rw [exec_switchArmReceived hp ha, if_neg (not_not_intro hport), if_pos hw]
    · exact ⟨_, team_disarm hp harmed hg ht 4, s_answeredTeam t uid dst 4⟩
  case absent =>
    intro ha hport hw hin
    rw [exec_switchArmReceived hp ha, if_neg (not_not_intro hport), hw, hin]; rfl
  case armed =>
    intro ha hport hw hin harmed
    rw [exec_switchArmReceived hp ha, if_neg (not_not_intro hport), hw, hin, harmed]; rfl
  case acks =>
    intro tid uid dst t x m harmed hw hg ht hx
    refine ⟨fun hport => ?refused, fun hport => ?last, fun hlate => ?timeout⟩
    case refused =>
      obtain ⟨u, q, hu, hs, hq, hnone⟩ := withdrawSwitch_answers hp harmed hg ht 2
      exact ⟨_, u, q, exec_switchArmAcknowledgement_refused hp harmed hport hw, hu, hs, hq, hnone⟩
    case last =>
      refine ⟨_, answeredTeam t uid dst 0, _, exec_switchArmAcknowledgement_last hp harmed hport hw, ?_,
        (s_answeredTeam t uid dst 0).trans (ite_self _), split_answeredTeam hx dst 0, rfl, _, _,
        (part_answerFirmware _ _ _ _).trans (Store.find_insert_self _ _ _), rfl, rfl⟩
      rw [hg]
      refine team_answerFirmware ?_ uid dst 0
      exact ht
    case timeout =>
      obtain ⟨u, q, hu, hs, hq, hnone⟩ := withdrawSwitch_answers hp harmed hg ht 4
      exact ⟨_, u, q, exec_switchArmTimeout hp harmed (by rw [hw]; nofun) hlate, hu, hs, hq, hnone⟩

end Sys2Proof.Machine
end

