-- ==== Sys2Proof/Proofs/NodesAndDroves.lean ====
section
/-! The scheduler's events on nodes, droves and teams (R47, R48, R271 to R277, R280, R281): what an operation leaves at its
entry, and O55. -/
namespace Sys2Proof.Machine
open Sys2Proof

-- ## an entry and the posts of its context

/-- The context has the entry as `n`, and the posts `ps` wait. -/
def EntryIs (s : State) (ctx entry : Nat) (n : Node) (ps : List Post) : Prop :=
  nodeAt s ctx entry = n ∧ ∃ y, s.ctx ctx = some y ∧ y.posts = ps

theorem nodeAt_eq {s : State} {ctx : Nat} {c : Context} (hc : s.ctx ctx = some c) (entry : Nat) :
    nodeAt s ctx entry = (Store.find c.nodes entry).getD Node.idle := by
  unfold nodeAt; rw [hc]; rfl

theorem ctx_modCtx_some {s : State} {ctx : Nat} {c : Context} (hc : s.ctx ctx = some c) (f : Context → Context) :
    (s.modCtx ctx f).ctx ctx = some (f c) := by
  rw [ctx_modCtx_self, hc]; rfl

theorem haltedBy_nodes (s : State) (h : HaltCause) (c : Context) : (haltedBy s h c).nodes = c.nodes := by
  unfold haltedBy; split <;> rfl

theorem haltedBy_posts (s : State) (h : HaltCause) (c : Context) : (haltedBy s h c).posts = c.posts := by
  unfold haltedBy; split <;> rfl

theorem entryIs_of_ctx {s : State} {ctx : Nat} {c : Context} (hc : s.ctx ctx = some c) (entry : Nat) :
    EntryIs s ctx entry (nodeAt s ctx entry) c.posts := ⟨rfl, c, hc, rfl⟩

namespace EntryIs

variable {s : State} {ctx entry : Nat} {n : Node} {ps : List Post} (h : EntryIs s ctx entry n ps)
include h

/-- A change of the context that leaves its nodes alone leaves its entries alone. -/
theorem modCtx {f : Context → Context} {qs : List Post} (hnodes : ∀ y, (f y).nodes = y.nodes)
    (hposts : ∀ y, y.posts = ps → (f y).posts = qs) : EntryIs (s.modCtx ctx f) ctx entry n qs := by
  obtain ⟨hn, y, hy, hps⟩ := h
  have hf := ctx_modCtx_some hy f
  refine ⟨?_, f y, hf, hposts y hps⟩
  rw [nodeAt_eq hf, hnodes, ← nodeAt_eq hy, hn]

theorem setNode (n' : Node) : EntryIs (setNode s ctx entry n') ctx entry n' ps := by
  obtain ⟨-, y, hy, hps⟩ := h
  have hset := ctx_modCtx_some hy (fun c => { c with nodes := Store.insert c.nodes entry n' })
  refine ⟨(nodeAt_eq hset entry).trans ?_, _, hset, hps⟩
  rw [Store.find_insert_self]; rfl

/-- R280: the node is READY; a LAUNCH has entered its queue. -/
theorem makeReady (n' : Node) :
    EntryIs (makeReady s ctx entry n') ctx entry { n' with st := .ready, c := 0, readyAt := s.now } ps := by
  have hset := h.setNode { n' with st := .ready, c := 0, readyAt := s.now }
  unfold Machine.makeReady
  extract_lets s1
  split
  · split
    · exact hset
    · exact hset.modCtx (fun _ => rfl) (fun _ => id)
  · exact hset

theorem haltContext (g : HaltCause) : EntryIs (haltContext s g) ctx entry n ps := by
  obtain ⟨hn, y, hy, hps⟩ := h
  have hc := ctx_haltContext s g ctx
  split at hc
  · rw [hy, Option.map_some] at hc
    refine ⟨?_, _, hc, (haltedBy_posts s g y).trans hps⟩
    rw [nodeAt_eq hc, haltedBy_nodes, ← nodeAt_eq hy, hn]
  · rw [hy] at hc
    refine ⟨?_, y, hc, hps⟩
    rw [nodeAt_eq hc, ← nodeAt_eq hy, hn]

/-- A halt by the scheduler leaves the entries and the posts as they are. -/
theorem schedStop (e reason : Nat) : EntryIs (schedStop s ctx e reason) ctx entry n ps :=
  EntryIs.haltContext (h.modCtx (f := fun x => { x with schedStop := some (e, reason) }) (fun _ => rfl) (fun _ => id)) _

/-- The post that an operation has taken is gone. -/
theorem erasePost (i : Nat) :
    EntryIs (s.modCtx ctx (fun c => { c with posts := c.posts.eraseIdx i })) ctx entry n (ps.eraseIdx i) :=
  h.modCtx (fun _ => rfl) (fun _ hy => congrArg (List.eraseIdx · i) hy)

end EntryIs

-- ## decrements (R274)

/-- An entry after a decrement by `k` in cycle `now`. -/
def decremented (x : Node) (k now : Nat) : Node :=
  if x.st = .waiting then
    if x.c ≤ k then { x with st := .ready, c := 0, p := k - x.c, readyAt := now } else { x with c := x.c - k }
  else { x with p := x.p + k }

theorem decremented_waiting {x : Node} {k : Nat} (now : Nat) (hst : x.st = .waiting) (hk : k < x.c) :
    (decremented x k now).st = .waiting ∧ (decremented x k now).c = x.c - k := by
  unfold decremented
  rw [if_pos hst, if_neg (Nat.not_le.mpr hk)]
  exact ⟨hst, rfl⟩

theorem decremented_ready {x : Node} {k : Nat} (now : Nat) (hst : x.st = .waiting) (hk : x.c ≤ k) :
    (decremented x k now).st = .ready ∧ (decremented x k now).p = k - x.c := by
  unfold decremented
  rw [if_pos hst, if_pos hk]
  exact ⟨rfl, rfl⟩

/-- A decrement that comes before its arm is kept in P. -/
theorem decremented_kept {x : Node} (k now : Nat) (hst : x.st ≠ .waiting) :
    (decremented x k now).st = x.st ∧ (decremented x k now).p = x.p + k := by
  unfold decremented
  rw [if_neg hst]
  exact ⟨rfl, rfl⟩

/-- R274: a decrement changes the entry, whether or not P overflows; the posts stay. -/
theorem EntryIs.decEntry {s : State} {ctx entry : Nat} {n : Node} {ps : List Post} (h : EntryIs s ctx entry n ps) (k : Nat) :
    EntryIs (decEntry s ctx entry k) ctx entry (decremented n k s.now) ps := by
  have stopIf {e : State} {m : Node} (he : EntryIs e ctx entry m ps) (p : Nat) :
      EntryIs (if p > 65535 then Machine.schedStop e ctx entry 3 else e) ctx entry m ps := by
    split
    · exact he.schedStop entry 3
    · exact he
  obtain ⟨hn, -⟩ := id h
  unfold Machine.decEntry decremented
  rw [hn]
  by_cases hst : n.st = .waiting
  · by_cases hk : n.c ≤ k
    · simp only [hst, hk, BEq.rfl, decide_true, Bool.and_self, if_true]
      exact stopIf (h.makeReady _) _
    · simp only [hst, hk, BEq.rfl, decide_false, Bool.and_false, if_true, if_false, Bool.false_eq_true]
      exact stopIf (h.setNode _) _
  · have hst' : (n.st == .waiting) = false := beq_eq_false_iff_ne.mpr hst
    simp only [hst, hst', Bool.false_and, if_false, Bool.false_eq_true]
    exact stopIf (h.setNode _) _

-- ## posts that reach the scheduler (R273, R274, R276)

/-- The first post of all waits for nothing. -/
theorem findPost_head {p : Post} {ps : List Post} {f : Post → Bool} (hf : f p = true) : findPost (p :: ps) f = some 0 := by
  unfold findPost
  rw [List.length_cons, List.range_succ_eq_map, List.find?_cons_of_pos]
  simp [hf]

section
variable {s : State} {ctx entry tid : Nat} {c : Context} {rest : List Post} (hc : s.ctx ctx = some c)
include hc

/-- R273: an arm of a busy entry stops the context. -/
theorem armEntry_busy (hst : (nodeAt s ctx entry).st ≠ .idle) :
    armEntry s ctx entry = (schedStop s ctx entry 2, true) := by
  unfold armEntry
  simp [hc, hst]

/-- R273, R274: an arm of an IDLE entry with a valid record. -/
theorem armEntry_idle {s' : State} {ws : List Word} {r : NodeRec} (hst : (nodeAt s ctx entry).st = .idle)
    (hread : schedRead s ctx (c.spec.nodetab + BitVec.ofNat 64 (128 * entry)) 32 = .ok (s', ws))
    (hrec : parseRecord c.spec.ncount ws = some r) :
    ∃ n : Node, n.recd = some r ∧ armEntry s ctx entry =
      (if r.pred - 1 ≤ (nodeAt s ctx entry).p then
        makeReady s' ctx entry { n with p := (nodeAt s ctx entry).p - (r.pred - 1) }
      else setNode s' ctx entry { n with st := .waiting, c := r.pred - 1 - (nodeAt s ctx entry).p }, true) := by
  refine ⟨{ Node.idle with
    recd := some r
    comp := match rawTrans s' ctx (c.spec.nodetab + BitVec.ofNat 64 (128 * entry)).toNat with
      | some t => pteCmp t.pte | none => 0 }, rfl, ?_⟩
  unfold armEntry
  by_cases hp : r.pred - 1 ≤ (nodeAt s ctx entry).p
  · simp only [hc, hst, hread, hrec, ge_iff_le, hp, if_true]; rfl
  · simp only [hc, hst, hread, hrec, ge_iff_le, hp, if_false]; rfl

/-- R276: an arm that heads the posts of a running context reaches the scheduler. -/
theorem exec_entryArm (hact : ctxActive s ctx = true) (hps : c.posts = .arm tid entry :: rest)
    (htaken : (armEntry s ctx entry).2 = true) :
    exec (.entryArm ctx entry) s =
      .next ((armEntry s ctx entry).1.modCtx ctx (fun c => { c with posts := c.posts.eraseIdx 0 })) := by
  obtain ⟨c', hc', -, hh⟩ := ctxActive_iff.mp hact
  obtain rfl : c = c' := Option.some.inj (hc.symm.trans hc')
  have hopen : schedOpen s ctx = true := by unfold schedOpen; simp [hc, hh]
  show execEntryArm ctx entry s = _
  unfold execEntryArm
  simp only [hc, hps, Option.map_some, Option.getD_some]
  rw [findPost_head (by simp [hact])]
  simp [hopen, htaken]

/-- R276: the same for a decrement. -/
theorem exec_entryDecrement {k : Nat} (hact : ctxActive s ctx = true) (hps : c.posts = .dec tid entry k :: rest) :
    exec (.entryDecrement ctx entry k) s =
      .next (decEntry (s.modCtx ctx (fun c => { c with posts := c.posts.eraseIdx 0 })) ctx entry k) := by
  show execEntryDecrement ctx entry k s = _
  unfold execEntryDecrement
  simp only [hc, hps, Option.map_some, Option.getD_some]
  rw [findPost_head (by simp)]
  simp [hact]

end

-- ## the events on an entry (R271 to R276)

section
variable {s : State} {ctx entry tid : Nat} {c : Context} {rest : List Post} (hc : s.ctx ctx = some c)
  (hact : ctxActive s ctx = true)
include hc hact

/-- R273, R274: an arm of an IDLE entry. -/
theorem entryArm_idle {s' : State} {ws : List Word} {r : NodeRec} {c' : Context} (hps : c.posts = .arm tid entry :: rest)
    (hst : (nodeAt s ctx entry).st = .idle)
    (hread : schedRead s ctx (c.spec.nodetab + BitVec.ofNat 64 (128 * entry)) 32 = .ok (s', ws))
    (hrec : parseRecord c.spec.ncount ws = some r) (hc' : s'.ctx ctx = some c') (hps' : c'.posts = c.posts) :
    ∃ e n, exec (.entryArm ctx entry) s = .next e ∧ EntryIs e ctx entry n rest ∧ n.recd = some r ∧
      ((nodeAt s ctx entry).p < r.pred - 1 → n.st = .waiting ∧ n.c = r.pred - 1 - (nodeAt s ctx entry).p) ∧
      (r.pred - 1 ≤ (nodeAt s ctx entry).p → n.st = .ready ∧ n.p = (nodeAt s ctx entry).p - (r.pred - 1)) := by
  obtain ⟨n, hn, harm⟩ := armEntry_idle (entry := entry) hc hst hread hrec
  have hexec := exec_entryArm hc hact hps (by rw [harm])
  rw [harm] at hexec
  have h0 := entryIs_of_ctx hc' entry
  rw [hps', hps] at h0
  by_cases hp : r.pred - 1 ≤ (nodeAt s ctx entry).p
  · rw [if_pos hp] at hexec
    exact ⟨_, _, hexec, (h0.makeReady _).erasePost 0, hn, fun hlt => absurd hp (Nat.not_le.mpr hlt), fun _ => ⟨rfl, rfl⟩⟩
  · rw [if_neg hp] at hexec
    exact ⟨_, _, hexec, (h0.setNode _).erasePost 0, hn, fun _ => ⟨rfl, rfl⟩, fun hle => absurd hle hp⟩

/-- R274: an arm of a busy entry halts the context with the entry as origin unit. -/
theorem entryArm_busy (hps : c.posts = .arm tid entry :: rest) (hst : (nodeAt s ctx entry).st ≠ .idle) :
    ∃ e y, exec (.entryArm ctx entry) s = .next e ∧ e.ctx ctx = some y ∧ y.running = false ∧
      ∃ h, y.halt = some h ∧ h.h.cause = .engineFault ∧ h.h.origin = 4 ∧ h.h.unit = entry := by
  obtain ⟨x, hx, -, hh⟩ := ctxActive_iff.mp hact
  obtain rfl : c = x := Option.some.inj (hc.symm.trans hx)
  have harm := armEntry_busy hc hst
  have hexec := exec_entryArm hc hact hps (by rw [harm])
  rw [harm] at hexec
  have hc1 := ctx_modCtx_some hc (fun x => { x with schedStop := some (entry, 2) })
  obtain ⟨y, r, hy, hr, -, hrun, hcause⟩ := stopped_haltContext
    (h := ⟨ctx, .engineFault, 4, entry, Config.freeWord s.free 7 entry, 0⟩) hc1 hh
  exact ⟨_, _, hexec, ctx_modCtx_some hy _, hrun, r, hr, by rw [hcause], by rw [hcause], by rw [hcause]⟩

/-- R274: a decrement that a team has posted. -/
theorem entryDecrement_head {k : Nat} (hps : c.posts = .dec tid entry k :: rest) :
    ∃ e, exec (.entryDecrement ctx entry k) s = .next e ∧
      EntryIs e ctx entry (decremented (nodeAt s ctx entry) k s.now) rest := by
  have h0 := (entryIs_of_ctx hc entry).erasePost 0
  rw [hps] at h0
  have hd := h0.decEntry k
  rw [show (s.modCtx ctx _).now = s.now by unfold State.now; rw [modCtx_clk]] at hd
  exact ⟨_, exec_entryDecrement hc hact hps, hd⟩

end

-- ## the host's window (R275, R280)

section
variable {s : State} {ctx : Nat} {c : Context} {value : DWord}

theorem exec_nodeReleaseArm (hup : s.host.linkUp = true) (harm : value.getLsbD 63 = true) :
    exec (.nodeReleaseArm ctx value) s = .next (releaseNode s ctx value) :=
  if_pos (by rw [hup, harm]; rfl)

theorem exec_nodeReleaseDecrement (hup : s.host.linkUp = true) (hdec : value.getLsbD 63 = false) :
    exec (.nodeReleaseDecrement ctx value) s = .next (releaseNode s ctx value) :=
  if_pos (by rw [hup, hdec]; rfl)

theorem exec_policyReload (hup : s.host.linkUp = true) : exec (.policyReload ctx) s = .next (reloadPolicy s ctx) := if_pos hup

theorem reloadPolicy_closed (hw : windowOpen s ctx = none) : reloadPolicy s ctx = badRelease s := by
  unfold reloadPolicy; rw [hw]

theorem releaseNode_closed (hw : windowOpen s ctx = none) : releaseNode s ctx value = badRelease s := by
  unfold releaseNode; rw [hw]

variable (hw : windowOpen s ctx = some c) (hopen : schedOpen s ctx = true)
include hw hopen

/-- R280: the host asks for the policy table to be read again. -/
theorem reloadPolicy_open : reloadPolicy s ctx = readPolicy s ctx := by
  unfold reloadPolicy; rw [hw, hopen]; rfl

variable (hzero : field value.toNat 62 48 = 0 ∧ field value.toNat 31 18 = 0) (hentry : field value.toNat 17 0 < c.spec.ncount)
include hzero hentry

theorem releaseNode_arm (harm : value.getLsbD 63 = true) (htaken : (armEntry s ctx (field value.toNat 17 0)).2 = true) :
    releaseNode s ctx value = (armEntry s ctx (field value.toNat 17 0)).1 := by
  unfold releaseNode
  simp only [hw, hzero, decide_eq_false (Nat.not_le.mpr hentry), harm, hopen, htaken, bne_self_eq_false, Bool.not_true,
    Bool.false_and, Bool.or_self, Bool.false_eq_true, if_false, if_true]

/-- R275: a decrement by zero is counted, any other is made. -/
theorem releaseNode_decrement (hdec : value.getLsbD 63 = false) :
    releaseNode s ctx value = if field value.toNat 47 32 = 0 then badRelease s
      else decEntry s ctx (field value.toNat 17 0) (field value.toNat 47 32) := by
  unfold releaseNode
  simp only [hw, hzero, decide_eq_false (Nat.not_le.mpr hentry), hdec, hopen, bne_self_eq_false, Bool.not_true, Bool.not_false,
    Bool.true_and, Bool.false_or, beq_iff_eq, Bool.false_eq_true, if_false]

end

-- ## opening a node, placing a drove (R281 to R283)

/-- A context after the queue `q`, with `rest` left in it, has opened a node. -/
def openedFrom (q prio used entry : Nat) (rest : List Nat) (c : Context) : Context :=
  { c with ready := Store.insert c.ready q rest, turns := Store.insert c.turns prio (q, used), opens := c.opens ++ [entry] }

/-- R281: the head node of the next queue opens. -/
theorem exec_nodeOpen {s : State} {part ctx entry q prio used : Nat} {c : Context} {rest : List Nat}
    (hrun : runningCtx s part = some ctx) (hc : s.ctx ctx = some c) (hpol : c.policy ≠ []) (hlen : c.opens.length < 8)
    (hq : nextQueue c = some (q, prio, used)) (hready : readyQueue c q = entry :: rest) :
    ∃ e y, exec (.nodeOpen part) s = .next e ∧ nodeAt e ctx entry = { nodeAt s ctx entry with st := .active } ∧
      e.ctx ctx = some y ∧ y.opens = c.opens ++ [entry] ∧ readyQueue y q = rest := by
  let s1 := s.modCtx ctx (openedFrom q prio used entry rest)
  have h1 : s1.ctx ctx = some (openedFrom q prio used entry rest c) := ctx_modCtx_some hc _
  have hn1 : nodeAt s1 ctx entry = nodeAt s ctx entry := by rw [nodeAt_eq h1, nodeAt_eq hc]; rfl
  have hexec : exec (.nodeOpen part) s = .next (setNode s1 ctx entry { nodeAt s1 ctx entry with st := .active }) := by
    show execNodeOpen part s = _
    unfold execNodeOpen
    simp only [hrun, hc, Option.bind_some, Option.map_some, List.isEmpty_iff, hpol, if_false, ge_iff_le, Nat.not_le.mpr hlen,
      hq, hready]
    rfl
  refine ⟨_, _, hexec, ?_, ctx_modCtx_some h1 _, rfl, ?_⟩
  · rw [((entryIs_of_ctx h1 entry).setNode _).1, hn1]
  · exact congrArg (Option.getD · []) (Store.find_insert_self c.ready q rest)

/-- Changes of contexts leave the droves alone. -/
theorem drove_setNode_modCtx (s : State) (ctx entry : Nat) (f : Context → Context) (n : Node) (k : Nat) :
    (setNode (s.modCtx ctx f) ctx entry n).drove k = s.drove k := by
  unfold State.drove setNode
  rw [modCtx_droves, modCtx_droves]

/-- R45, R46, R283: the drove that a placement makes, with all its teams. -/
theorem placeNew_drove {s e : State} {ctx entry train p comp : Nat} {n : Node} {r : NodeRec}
    (h : placeNew s ctx entry train p comp n r = .ok e) :
    ∃ did d, e.drove did = some d ∧ d.ctx = ctx ∧ d.node = entry ∧ d.idx = n.placed ∧ d.train = some train ∧
      d.alive = r.teams ∧ d.teams.length = r.teams := by
  unfold placeNew at h
  extract_lets slotOf room at h
  clear_value slotOf room
  cases room with
  | error b => cases h
  | ok s0 =>
    injection h with h
    subst h
    refine ⟨_, _, (drove_setNode_modCtx _ _ _ _ _ _).trans (Store.find_insert_self _ _ _), rfl, rfl, rfl, rfl, rfl, ?_⟩
    rw [List.length_map, List.length_map, List.length_range]

/-- R281: with no drove requeued, the first open node whose next drove fits places it; `s0` is the state once the placed droves
have been tried again. -/
theorem exec_drovePlacement {s s0 s1 e : State} {part ctx entry train p comp : Nat} {c : Context} {rest : List Nat} {r : NodeRec}
    {n : Node} (hs0 : (placedDroves s ctx).foldl resumeDrove s = s0) (hrun : runningCtx s part = some ctx)
    (hc : s0.ctx ctx = some c) (hreq : c.requeue = []) (hopens : c.opens = entry :: rest)
    (hr : (nodeAt s0 ctx entry).recd = some r)
    (hfit : (indexedTrains s0 ctx).find? (fun z => newFits s0 z.1 r) = some (train, p))
    (hpage : entryPage s0 ctx (nodeAt s0 ctx entry) r = .ok comp)
    (hfirst : firstPlacement s0 ctx entry comp (nodeAt s0 ctx entry) r = (s1, n, true))
    (hplace : placeNew s1 ctx entry train p comp n r = .ok e) : exec (.drovePlacement part) s = .next e := by
  have hopen : tryOpen s0 ctx (entry :: rest) = e := by
    unfold tryOpen
    simp only [hr, hfit, hpage, hfirst, hplace]
  show execDrovePlacement part s = _
  unfold execDrovePlacement
  simp only [hrun, hs0, hc, hreq, hopens, tryRequeued, noteRequeued, List.foldl_nil, hopen]

-- ## completion of a node (R277)

/-- The state after the last steps of a completion: the interrupt, where the record asks for it, and the entry. -/
def completed (s : State) (ctx entry : Nat) (intr : Bool) (n : Node) : State :=
  setNode (if intr then s.interrupt ctx else s) ctx entry n

theorem completed_node {s : State} {ctx entry : Nat} (hact : ctxActive s ctx = true) (intr : Bool) (n : Node) :
    nodeAt (completed s ctx entry intr n) ctx entry = n := by
  obtain ⟨c, hc, -, -⟩ := ctxActive_iff.mp hact
  have hc' : (if intr then s.interrupt ctx else s).ctx ctx = some c := by split <;> exact hc
  exact ((entryIs_of_ctx hc' entry).setNode n).1

theorem completed_mem (s : State) (ctx entry : Nat) (intr : Bool) (n : Node) : (completed s ctx entry intr n).mem = s.mem := by
  unfold completed setNode
  rw [modCtx_mem]
  split <;> rfl

theorem completed_interrupts (s : State) (ctx entry : Nat) (intr : Bool) (n : Node) :
    (completed s ctx entry intr n).host.interrupts =
      if intr then s.host.interrupts ++ [ctx] else s.host.interrupts := by
  unfold completed setNode
  rw [modCtx_host]
  split <;> rfl

section
variable {s : State} {ctx entry : Nat} {r : NodeRec} (hr : (nodeAt s ctx entry).recd = some r)
  (hdone : nodeDone (nodeAt s ctx entry) = true) (hact : ctxActive s ctx = true)
include hr hdone hact

/-- R277: a completion word that waits holds the later steps. -/
theorem exec_nodeCompletion_held {s' : State} (hstore : storeCompletion s ctx entry (nodeAt s ctx entry) r = (s', false)) :
    exec (.nodeCompletion ctx entry) s = .next s' := by
  show execNodeCompletion ctx entry s = _
  unfold execNodeCompletion
  simp only [hr, hdone, hact, hstore]
  rfl

/-- R277: with no completion word and no successor, the interrupt and IDLE. -/
theorem exec_nodeCompletion_plain (hcw : r.cwva = 0) (hsucc : r.succ = []) :
    exec (.nodeCompletion ctx entry) s =
      .next (completed s ctx entry r.intr { Node.idle with p := (nodeAt s ctx entry).p }) := by
  have hstore : storeCompletion s ctx entry (nodeAt s ctx entry) r = (s, true) := by unfold storeCompletion; rw [hcw]; rfl
  have hnode : nodeAt (if r.intr then s.interrupt ctx else s) ctx entry = nodeAt s ctx entry := by split <;> rfl
  show execNodeCompletion ctx entry s = _
  unfold execNodeCompletion
  simp only [hr, hdone, hact, hstore, hsucc, List.foldl_nil, hnode]
  rfl

end

-- ## retirement of a team (R47, R48)

theorem pokeLine_droves (s : State) (ctx va : Nat) (ws : List Word) : (pokeLine s ctx va ws).droves = s.droves := by
  unfold pokeLine
  split
  · rfl
  · split
    · rfl
    · extract_lets k
      split <;> rfl

theorem releaseLines_droves (s : State) (t : Team) (js : List Nat) : (releaseLines s t js).droves = s.droves :=
  List.foldlRecOn (motive := fun e : State => e.droves = s.droves) _ _ rfl (fun _ he _ _ =>
    List.foldlRecOn (motive := fun e : State => e.droves = s.droves) _ _ he (fun _ he _ _ => (pokeLine_droves _ _ _ _).trans he))

theorem retireDrove_teams (s : State) (did : Nat) (d : Drove) : (retireDrove s did d).teams = s.teams := by
  unfold retireDrove setNode
  dsimp only
  rw [modCtx_teams, modCtx_teams]

/-- R48: the drove is gone. -/
theorem drove_retireDrove (s : State) (did : Nat) (d : Drove) : (retireDrove s did d).drove did = none :=
  Store.find_erase_self _ _

/-- The state without a team that retires: its lines are free, and its image index (R47, R108, R277). -/
def withoutTeam (s : State) (tid : Nat) (t : Team) : State :=
  let s := releaseLines (t.sysLines.foldl (fun s l => lineToTier s l.1 l.2) s) t (heldLines t)
  ({ s with teams := Store.erase s.teams tid } : State).modCtx t.ctx (fun c =>
    { c with images := c.images.filter (· != t.image) })

theorem team_withoutTeam (s : State) (tid : Nat) (t : Team) : (withoutTeam s tid t).team tid = none := by
  unfold withoutTeam State.team
  dsimp only
  rw [modCtx_teams]
  exact Store.find_erase_self _ _

theorem drove_withoutTeam {s : State} {t : Team} (hsys : t.sysLines = []) (tid k : Nat) :
    (withoutTeam s tid t).drove k = s.drove k := by
  unfold withoutTeam State.drove
  dsimp only
  rw [modCtx_droves, hsys, List.foldl_nil]
  exact congrArg (Store.find · k) (releaseLines_droves _ _ _)

/-- R47, R48: a team that waits for nothing more retires, and with the last of them the drove. -/
theorem exec_teamRetire {s : State} {tid : Nat} {t : Team} (ht : s.team tid = some t) (hmay : mayRetire s tid t = true) :
    ∃ e, exec (.teamRetire tid) s = .next e ∧ e.team tid = none ∧
      ∀ d, s.drove t.drove = some d → d.alive = 1 → t.sysLines = [] → e.drove t.drove = none := by
  have hexec : exec (.teamRetire tid) s = match (withoutTeam s tid t).drove t.drove with
      | none => .next (withoutTeam s tid t)
      | some d =>
        if (d.alive - 1 == 0) = true then .next (retireDrove (withoutTeam s tid t) t.drove { d with alive := d.alive - 1 })
        else .next { withoutTeam s tid t with
          droves := Store.insert (withoutTeam s tid t).droves t.drove { d with alive := d.alive - 1 } } := by
    show execTeamRetire tid s = _
    unfold execTeamRetire
    simp only [ht, hmay]
    rfl
  have hteam := team_withoutTeam s tid t
  rw [hexec]
  cases hd : (withoutTeam s tid t).drove t.drove with
  | none =>
    refine ⟨_, rfl, hteam, fun d hs _ hsys => ?_⟩
    rw [drove_withoutTeam hsys, hs] at hd; cases hd
  | some d =>
    by_cases hlast : d.alive - 1 = 0
    · refine ⟨_, if_pos (beq_iff_eq.mpr hlast), ?_, fun _ _ _ _ => drove_retireDrove _ _ _⟩
      exact (congrArg (Store.find · tid) (retireDrove_teams _ _ _)).trans hteam
    · refine ⟨_, if_neg (fun h => hlast (beq_iff_eq.mp h)), hteam, fun d' hs halive hsys => ?_⟩
      rw [drove_withoutTeam hsys, hs] at hd
      cases hd
      rw [halive] at hlast
      exact absurd rfl hlast

/-- Settles O55: what each event leaves at its entry, and the answers of the window, the placement and the retirement. -/
theorem nodesAndDroves : Obligations.NodesAndDroves := by
  unfold Obligations.NodesAndDroves
  intro s ctx entry k tid train part c value x node posts
  refine ⟨fun hc hrun hh => ?entry, ?arm, ?decrement, ?reload, fun q prio used rest => exec_nodeOpen, ?placement,
    fun r s' hr hdone hact => exec_nodeCompletion_held hr hdone hact, ?completion, fun t => exec_teamRetire⟩
  case entry =>
    have hact : ctxActive s ctx = true := ctxActive_iff.mpr ⟨c, hc, hrun, hh⟩
    refine ⟨fun rest s' ws r c' hps hst hread hrec hc' hps' => ?_, fun rest => entryArm_busy hc hact, fun rest hps => ?_⟩
    · obtain ⟨e, n, hexec, ⟨rfl, hposts⟩, hn, hwait, hready⟩ := entryArm_idle hc hact hps hst hread hrec hc' hps'
      refine ⟨e, hexec, hposts, fun hlt => ?_, fun hle => ?_⟩
      · obtain ⟨h1, h2⟩ := hwait hlt
        exact ⟨h1, h2, hn⟩
      · obtain ⟨h1, h2⟩ := hready hle
        exact ⟨h1, h2, hn⟩
    · obtain ⟨e, hexec, hn, hposts⟩ := entryDecrement_head (k := k) hc hact hps
      have becomes (q : Node → Prop) (hq : q (decremented x k s.now)) : node e q := by
        show q (nodeAt e ctx entry); rw [hn]; exact hq
      exact ⟨e, hexec, fun hst hlt => ⟨becomes (fun y => y.st = .waiting ∧ y.c = x.c - k) (decremented_waiting _ hst hlt), hposts⟩,
        fun hst hle => becomes (fun y => y.st = .ready ∧ y.p = k - x.c) (decremented_ready _ hst hle),
        fun hst => becomes (fun y => y.st = x.st ∧ y.p = x.p + k) (decremented_kept _ _ hst)⟩
  case arm =>
    intro hup harm
    refine ⟨fun hw => ?_, fun hw hopen h62 h31 hentry htaken => ?_⟩
    · rw [exec_nodeReleaseArm hup harm, releaseNode_closed hw]; rfl
    · rw [exec_nodeReleaseArm hup harm, releaseNode_arm hw hopen ⟨h62, h31⟩ hentry harm htaken]
  case decrement =>
    intro hup hdec hw hopen h62 h31 hentry
    refine ⟨fun hcnt => ?_, fun hcnt => ?_⟩
    · rw [exec_nodeReleaseDecrement hup hdec, releaseNode_decrement hw hopen ⟨h62, h31⟩ hentry hdec, if_pos hcnt]; rfl
    · rw [exec_nodeReleaseDecrement hup hdec, releaseNode_decrement hw hopen ⟨h62, h31⟩ hentry hdec, if_neg hcnt]
  case reload =>
    intro hup
    refine ⟨fun hw => ?_, fun hw hopen => ?_⟩
    · rw [exec_policyReload hup, reloadPolicy_closed hw]; rfl
    · rw [exec_policyReload hup, reloadPolicy_open hw hopen]
  case placement =>
    intro s0 y r p rest e comp s1 n hrun hc hreq hopens hr hfit hpage hfirst hplace
    exact ⟨exec_drovePlacement rfl hrun hc hreq hopens hr hfit hpage hfirst hplace, placeNew_drove hplace⟩
  case completion =>
    intro r hr hdone hact hcw hsucc
    exact ⟨_, exec_nodeCompletion_plain hr hdone hact hcw hsucc, completed_node hact r.intr _, completed_mem s ctx entry r.intr _,
      completed_interrupts s ctx entry r.intr _⟩

end Sys2Proof.Machine
end
